-- ==== Sys2Proof/Word.lean ====
section
/-! DEFINITION. The plain data the other files share: bytes, the small sets the manual carries as bits, and the
fixed groups of four lanes, eight drives or slots, three loops and two links. -/

namespace Sys2Proof

/-- One byte of a link or of a lane port (R87, R184). -/
abbrev Byte := BitVec 8

/-- A set of lanes 0..3, bit k for lane k (R3, R188). -/
abbrev LaneSet := BitVec 4

/-- A set of loops L0..L2, bit k for loop Lk (R3, R188). -/
abbrev LoopSet := BitVec 3

/-- A set of yaw flags in the order R3 lists them: bit 0 FORBID_CW, 1 FORBID_CCW, 2 PARK, 3 HOLD_AUTO, 4 HOLD. -/
abbrev YawFlags := BitVec 5

/-- Whether member k stands in a set carried as bits. -/
def hasBit {w : Nat} (set : BitVec w) (k : Nat) : Bool := set.getLsbD k

/-- The set that holds member k alone. -/
def oneBit (w : Nat) (k : Nat) : BitVec w := BitVec.ofNat w (2 ^ k)

/-- One value for each of the four lanes. -/
structure Four (α : Type) where
  x0 : α
  x1 : α
  x2 : α
  x3 : α
deriving DecidableEq, Repr

/-- One value for each of the three cooling loops. -/
structure Three (α : Type) where
  x0 : α
  x1 : α
  x2 : α
deriving DecidableEq, Repr

/-- One value for each of the eight reaction slots or yaw drives. -/
structure Eight (α : Type) where
  x0 : α
  x1 : α
  x2 : α
  x3 : α
  x4 : α
  x5 : α
  x6 : α
  x7 : α
deriving DecidableEq, Repr

/-- One value for each of the two links. -/
structure PerLink (α : Type) where
  main : α
  service : α
deriving DecidableEq, Repr

/-- The value of lane n. -/
def Four.get {α : Type} (v : Four α) : Fin 4 → α
  | 0 => v.x0
  | 1 => v.x1
  | 2 => v.x2
  | 3 => v.x3

/-- The group with lane n's value replaced. -/
def Four.set {α : Type} (v : Four α) : Fin 4 → α → Four α
  | 0, a => { v with x0 := a }
  | 1, a => { v with x1 := a }
  | 2, a => { v with x2 := a }
  | 3, a => { v with x3 := a }

/-- The four values in ascending order. -/
def Four.toList {α : Type} (v : Four α) : List α := [v.x0, v.x1, v.x2, v.x3]

/-- The group with the value g n for each n. -/
def Four.ofFn {α : Type} (g : Fin 4 → α) : Four α := ⟨g 0, g 1, g 2, g 3⟩

/-- The value of loop L. -/
def Three.get {α : Type} (v : Three α) : Fin 3 → α
  | 0 => v.x0
  | 1 => v.x1
  | 2 => v.x2

/-- The group with loop L's value replaced. -/
def Three.set {α : Type} (v : Three α) : Fin 3 → α → Three α
  | 0, a => { v with x0 := a }
  | 1, a => { v with x1 := a }
  | 2, a => { v with x2 := a }

/-- The value of slot or drive k. -/
def Eight.get {α : Type} (v : Eight α) : Fin 8 → α
  | 0 => v.x0
  | 1 => v.x1
  | 2 => v.x2
  | 3 => v.x3
  | 4 => v.x4
  | 5 => v.x5
  | 6 => v.x6
  | 7 => v.x7

/-- The group with slot or drive k's value replaced. -/
def Eight.set {α : Type} (v : Eight α) : Fin 8 → α → Eight α
  | 0, a => { v with x0 := a }
  | 1, a => { v with x1 := a }
  | 2, a => { v with x2 := a }
  | 3, a => { v with x3 := a }
  | 4, a => { v with x4 := a }
  | 5, a => { v with x5 := a }
  | 6, a => { v with x6 := a }
  | 7, a => { v with x7 := a }

/-- The eight values in ascending order. -/
def Eight.toList {α : Type} (v : Eight α) : List α := [v.x0, v.x1, v.x2, v.x3, v.x4, v.x5, v.x6, v.x7]

/-- The group with g applied to each value. -/
def Eight.map {α β : Type} (g : α → β) (v : Eight α) : Eight β :=
  ⟨g v.x0, g v.x1, g v.x2, g v.x3, g v.x4, g v.x5, g v.x6, g v.x7⟩

/-- The eight indices in ascending order. -/
def eightIndices : List (Fin 8) := [0, 1, 2, 3, 4, 5, 6, 7]

/-- The four lane numbers in ascending order. -/
def fourIndices : List (Fin 4) := [0, 1, 2, 3]

/-- The three loop numbers in ascending order. -/
def threeIndices : List (Fin 3) := [0, 1, 2]

end Sys2Proof
end

