-- ==== Sys2Proof/Config.lean ====
section
/-! DEFINITION. What the part fixes, and the values the manual leaves open (opaque: nothing in Lean can evaluate
them, so a claim about them holds whatever they are). -/

namespace Sys2Proof.Config

/-- Free value (log 8): the uptime after an increment at 4294967295. The manual gives the count its range
(section 4.1) and neither wraps nor saturates it. -/
opaque uptimePastRange : Fin 4294967296

/-- Free value (log 6): the choices that order expiries which fall in one millisecond. R57 leaves two
AUTO_RETIRE expiries of one uptime increment in either order, and no rule orders the timers of different blocks. -/
opaque arrivalChoice : Nat → Nat

/-- How many internal events one step takes before it leaves the rest to the next (log 3). -/
def cascadeBound : Nat := 65536

/-- The vendor code that IDENT answers (R196). -/
def vendorCode : Nat := 0x4B4C

/-- The part code that IDENT answers (R196). -/
def partCode : Nat := 0x0316

/-- The revision that IDENT answers (R196). -/
def revision : Nat := 1

/-- The lowest of the four link addresses the strap pins select among (R184). -/
def lowestAddress : Nat := 0x34

end Sys2Proof.Config
end

