-- ==== Sys2Proof/Syntax.lean ====
section
/-! DEFINITION. The commands: one constructor of Instr for each row of spec/opcode_table.json, with the operands the
rules give it. A request's operands are the fields of its request frame (section 10.7) with lists and sets already read
(R188). An input read carries what the input gave, `none` standing for a reading the input itself reports as invalid. -/

namespace Sys2Proof

/-- The two links (section 4.3). -/
inductive Link where
  | main
  | service
deriving DecidableEq, Repr

/-- The other link. -/
def Link.other : Link → Link
  | .main => .service
  | .service => .main

/-- The value of a link. -/
def PerLink.get {α : Type} (v : PerLink α) : Link → α
  | .main => v.main
  | .service => v.service

/-- The pair with a link's value replaced. -/
def PerLink.set {α : Type} (v : PerLink α) : Link → α → PerLink α
  | .main, a => { v with main := a }
  | .service, a => { v with service := a }

/-- A condition code, group:item (section 4.3). -/
structure Code where
  group : Fin 16
  item : Fin 4096
deriving DecidableEq, Repr

/-- The code as one 16-bit number, group × 4096 + item (section 4.3). -/
def Code.toNat (c : Code) : Nat := c.group.val * 4096 + c.item.val

/-- The classes in their order NOTICE < LIMIT < SHED < TRIP (section 4.3). -/
inductive Cls where
  | notice
  | limit
  | shed
  | trip
deriving DecidableEq, Repr

/-- A SCAN filter (R27). -/
inductive Filter where
  | all
  | unread
  | classAtLeast (k : Cls)
deriving DecidableEq, Repr

/-- The yaw effect a RAISE or an AMEND carries: NONE or one of the five restrictions (R16, R188). -/
inductive YawEffect where
  | none
  | forbidCw
  | forbidCcw
  | park
  | holdAuto
  | hold
deriving DecidableEq, Repr

/-- What a reaction slot does when it fires (R45). -/
inductive Action where
  | autoRetire
  | coolBoost
  | escalate
deriving DecidableEq, Repr

/-- A direction of turn, seen from above (chapter 6). -/
inductive Dir where
  | cw
  | ccw
deriving DecidableEq, Repr

/-- The other direction. -/
def Dir.opposite : Dir → Dir
  | .cw => .ccw
  | .ccw => .cw

/-- The commands of the part. -/
inductive Instr where
  /-- COLD_POWER_UP (R29) with the two strap pins. -/
  | coldPowerUp (straps : Fin 4)
  /-- RESET_LINE_ASSERT (R197). -/
  | resetLineAssert
  /-- RESET_LINE_RELEASE (R197) with the strap pins read at the reset. -/
  | resetLineRelease (straps : Fin 4)
  /-- WARM_RESET (R197) with the strap pins read at the reset. -/
  | warmReset (l : Link) (straps : Fin 4)
  /-- START_CONDITION (R185): the address byte, whether its parity is right, and the request bytes with right parity
  that follow it before the next event on the line. -/
  | startCondition (l : Link) (addr : Byte) (parityGood : Bool) (bytes : List Byte)
  /-- FRAME_POISON (R186): one further request byte and whether its parity is right. -/
  | framePoison (l : Link) (byte : Byte) (parityGood : Bool)
  /-- REQUEST_FRAME_FAULT (R187): the stop condition of the request frame in progress. -/
  | requestFrameFault (l : Link)
  /-- RESPONSE_FRAME (R190): how many bytes the requester clocks before it ends the frame. -/
  | responseFrame (l : Link) (clocked : Nat)
  /-- LINK_RESET (R195). -/
  | linkReset (l : Link)
  /-- ATTENTION_FRAME (R199). -/
  | attentionFrame (l : Link)
  /-- ATTENTION_SLOT (R200): whether the requester acknowledges. -/
  | attentionSlot (l : Link) (ack : Bool)
  /-- PAYLOAD_COMPLETE (R200). -/
  | payloadComplete (l : Link)
  /-- LOOKUP (R26). -/
  | lookup (l : Link) (code : Code)
  /-- SCAN (R27). -/
  | scan (l : Link) (start : Nat) (filter : Filter)
  /-- RAISE (R28). -/
  | raise (l : Link) (code : Code) (cls : Cls) (detail : Nat) (cap : Option Nat) (lanes : LaneSet) (yaw : YawEffect) (loops : LoopSet)
  /-- AMEND (R16). -/
  | amend (l : Link) (code : Code) (cap : Option Nat) (lanes : LaneSet) (yaw : YawEffect) (loops : LoopSet)
  /-- ACK (R11). -/
  | ack (l : Link) (code : Code)
  /-- RETIRE (R17). -/
  | retire (l : Link) (code : Code)
  /-- BIND (R46). -/
  | bind (l : Link) (slot : Nat) (code : Code) (action : Action) (loops : LoopSet) (delay : Nat) (count : Nat)
  /-- UNBIND (R47). -/
  | unbind (l : Link) (slot : Nat)
  /-- READ_SLOT (R48). -/
  | readSlot (l : Link) (slot : Nat)
  /-- SET_DEMAND (R61). -/
  | setDemand (l : Link) (demand : Nat)
  /-- READ_ENVELOPE (R83). -/
  | readEnvelope (l : Link)
  /-- LANE_START (R106). -/
  | laneStart (l : Link) (lane : Nat)
  /-- LANE_STOP (R107). -/
  | laneStop (l : Link) (lane : Nat)
  /-- READ_LANE (R108). -/
  | readLane (l : Link) (lane : Nat)
  /-- SET_TRACKING (R136). -/
  | setTracking (l : Link) (on : Bool)
  /-- START_UNWIND (R139). -/
  | startUnwind (l : Link)
  /-- YAW_GOTO (R140). -/
  | yawGoto (l : Link) (heading : Nat)
  /-- YAW_JOG (R140). -/
  | yawJog (l : Link) (dir : Dir) (seconds : Nat)
  /-- SERVICE_STOP (R141). -/
  | serviceStop (l : Link)
  /-- READ_YAW (R151). -/
  | readYaw (l : Link)
  /-- DRIVE_ISOLATE (R144). -/
  | driveIsolate (l : Link) (drive : Nat)
  /-- DRIVE_RETURN (R144). -/
  | driveReturn (l : Link) (drive : Nat)
  /-- SET_TWIST (R114). -/
  | setTwist (l : Link) (twist : Int)
  /-- READ_LOOP (R169). -/
  | readLoop (l : Link) (loop : Nat)
  /-- SET_SETTING (R202). -/
  | setSetting (l : Link) (id : Nat) (value : Int)
  /-- GET_SETTING (R202). -/
  | getSetting (l : Link) (id : Nat)
  /-- READ_SUPPLY (R181). -/
  | readSupply (l : Link)
  /-- IDENT (R196). -/
  | ident (l : Link)
  /-- HOLDOFF_EXPIRY (R13) of the record with a code. -/
  | holdoffExpiry (code : Code)
  /-- AUTO_RETIRE_EXPIRY (R51) of a slot. -/
  | autoRetireExpiry (slot : Fin 8)
  /-- COOL_BOOST_END (R52) of a slot. -/
  | coolBoostEnd (slot : Fin 8)
  /-- RAMP_STEP (R73). -/
  | rampStep
  /-- LANE_REPORT (R87): the bytes of the report, its check byte last. -/
  | laneReport (lane : Fin 4) (bytes : List Byte)
  /-- LANE_SILENCE_EXPIRY (R89). -/
  | laneSilenceExpiry (lane : Fin 4)
  /-- PRECHARGE_TIMEOUT (R95). -/
  | prechargeTimeout (lane : Fin 4)
  /-- SYNC_TIMEOUT (R96). -/
  | syncTimeout (lane : Fin 4)
  /-- SHED_TIMEOUT (R98). -/
  | shedTimeout (lane : Fin 4)
  /-- RESET_TIMEOUT (R100). -/
  | resetTimeout (lane : Fin 4)
  /-- HEADING_READ (R112): the value the encoder returned, `none` for its own error. -/
  | headingRead (reading : Option Nat)
  /-- VANE_SAMPLE (R116): the angle, `none` outside the signal range. -/
  | vaneSample (reading : Option Int)
  /-- ANEMOMETER_SAMPLE (R119): the pulses counted over the interval. -/
  | anemometerSample (pulses : Nat)
  /-- YAW_JOG_EXPIRY (R141). -/
  | yawJogExpiry
  /-- DRIVE_FAULT_READ (R143): the eight lines, bit n active for drive n. -/
  | driveFaultRead (lines : BitVec 8)
  /-- BRAKE_PRESSURE_READ (R146), in bar. -/
  | brakePressureRead (bar : Nat)
  /-- BRAKE_TIMER_EXPIRY (R147). -/
  | brakeTimerExpiry
  /-- SETTLE_EXPIRY (R148). -/
  | settleExpiry
  /-- TEMPERATURE_SAMPLE (R155): the reading, `none` for an open or shorted element. -/
  | temperatureSample (loop : Fin 3) (reading : Option Int)
  /-- FLOW_READ (R159): whether the switch shows flow. -/
  | flowRead (loop : Fin 3) (seen : Bool)
  /-- PRIME_TIMEOUT (R159). -/
  | primeTimeout (loop : Fin 3)
  /-- GRID_READ (R174): whether the input reads present. -/
  | gridRead (present : Bool)
  /-- GRID_SETTLE_COMPLETE (R176). -/
  | gridSettleComplete
  /-- UPS_SAMPLE (R175): the charge, `none` outside the signal range. -/
  | upsSample (reading : Option Nat)
  /-- KEY_SWITCH_READ (R192): whether the switch reads on. -/
  | keySwitchRead (on : Bool)
  /-- SILENCE_EXPIRY (R194). -/
  | silenceExpiry
  /-- POISONED_FRAME_STOP (R186). -/
  | poisonedFrameStop (l : Link)
  /-- ATTENTION_PAYLOAD_CUT_SHORT (R200): a stop condition before the last continuation bit. -/
  | attentionPayloadCutShort (l : Link)
deriving DecidableEq, Repr

end Sys2Proof
end

