-- ==== Sys2Proof/Decode.lean ====
section
/-! DEFINITION. The commands that a word spells. The table of operations gives bits to none of its rows: a request
reaches the part as the bytes of a frame (`Machine.judgeFrame`), and every other command is an event of a line, an input
or a timer. -/

namespace Sys2Proof

/-- The command that a word of the operation table spells: none, as no row has bits. -/
def decodeTableWord (_nbits _w : Nat) : Option Instr := none

end Sys2Proof
end

