-- ==== Sys2Proof/Machine/Settings.lean ====
section
/-! DEFINITION. The settings store's table (R202): ranges, bounds on other settings, defaults. -/

namespace Sys2Proof.Machine

/-- The 38 defaults in order of id (R202). -/
def settingDefaults : List Int :=
  [100, 1, 750, 950, 1, 80, 30, 0, 150, 7200, 1800, 120, 250, 200] ++
  [10, 60, 300, 900, 1, 3, 20] ++
  [400, 500, 300, 550, 700, 450, 650, 850, 550, 4, 3, 5, 20, 2, 1, 1, 0]

/-- The stored value of a setting; 0 for an id outside 1..38, which no rule reads. -/
def settingOf (st : List Int) (id : Nat) : Int := st.getD (id - 1) 0

/-- The store with a setting replaced. -/
def withSetting (st : List Int) (id : Nat) (v : Int) : List Int := st.set (id - 1) v

/-- The fixed range of a setting (R202). The lower bounds of loop_warn and loop_trip are bounds on another setting
(`settingFloor`), so only their upper ends stand here. -/
def settingRange (id : Nat) : Int × Int :=
  match id with
  | 1 => (10, 800)
  | 2 => (0, 1)
  | 3 => (600, 1000)
  | 4 => (650, 1100)
  | 5 => (0, 1)
  | 6 => (30, 300)
  | 7 => (5, 120)
  | 8 => (-1800, 1799)
  | 9 => (50, 450)
  | 10 => (3600, 9000)
  | 11 => (0, 3600)
  | 12 => (30, 200)
  | 13 => (150, 400)
  | 14 => (100, 380)
  | 15 => (1, 3600)
  | 16 => (1, 3600)
  | 17 => (1, 3600)
  | 18 => (1, 3600)
  | 19 => (0, 1)
  | 20 => (0, 15)
  | 21 => (0, 300)
  | 22 => (200, 700)
  | 23 => (200, 700)
  | 24 => (200, 700)
  | 25 => (-32768, 1200)
  | 26 => (-32768, 1200)
  | 27 => (-32768, 1200)
  | 28 => (-32768, 1300)
  | 29 => (-32768, 1300)
  | 30 => (-32768, 1300)
  | 31 => (1, 20)
  | 32 => (1, 20)
  | 33 => (1, 20)
  | 34 => (10, 50)
  | 35 => (0, 4)
  | 36 => (0, 4)
  | 37 => (0, 1)
  | 38 => (0, 1)
  | _ => (-32768, 32767)

/-- A value brought into a range. -/
def clampInt (lo hi v : Int) : Int := if v < lo then lo else if hi < v then hi else v

/-- A value brought within its bound on another setting, where R202 gives one. -/
def boundBySetting (st : List Int) (id : Nat) (v : Int) : Int :=
  match id with
  | 4 => max v (settingOf st 3 + 50)
  | 11 => min v (settingOf st 10 - 1800)
  | 14 => min v (settingOf st 13 - 20)
  | 25 => max v (settingOf st 22 + 50)
  | 26 => max v (settingOf st 23 + 50)
  | 27 => max v (settingOf st 24 + 50)
  | 28 => max v (settingOf st 25 + 50)
  | 29 => max v (settingOf st 26 + 50)
  | 30 => max v (settingOf st 27 + 50)
  | _ => v

/-- The value a write stores: clamped to the fixed range, then to the bound (R202 step 3). -/
def clampSetting (st : List Int) (id : Nat) (v : Int) : Int :=
  boundBySetting st id (clampInt (settingRange id).1 (settingRange id).2 v)

/-- The store after a write: the setting itself, then storm_release under a new storm_wind and unwind_stop under a new
unwind_start lowered to their bounds (R202 step 4). -/
def writeSetting (st : List Int) (id : Nat) (v : Int) : List Int :=
  let st' := withSetting st id v
  match id with
  | 13 => withSetting st' 14 (min (settingOf st' 14) (v - 20))
  | 10 => withSetting st' 11 (min (settingOf st' 11) (v - 1800))
  | _ => st'

end Sys2Proof.Machine
end

