-- ==== Sys2Proof/Machine/State.lean ====
section
/-! DEFINITION. The state of the part as plain data, the internal events its blocks hand each other, the ways a step can
end, and the state right after reset. -/

namespace Sys2Proof.Machine

/-! ## Condition records (chapter 1) -/

/-- EDGE records latch; LEVEL records follow a cause (R3). -/
inductive RecMode where
  | edge
  | level
deriving DecidableEq, Repr

/-- Who first raised a record (R3). -/
inductive Origin where
  | internal
  | lane (n : Fin 4)
  | main
  | service
deriving DecidableEq, Repr

/-- Progress toward retirement (R3). -/
inductive RecState where
  | active
  | acked
  | clearing
deriving DecidableEq, Repr

/-- The four effect fields of a record (R3). -/
structure Effects where
  cap : Option Nat
  lanes : LaneSet
  yaw : YawFlags
  boost : LoopSet
deriving DecidableEq, Repr

/-- A condition record in its slot (R2, R3). `holdoff` counts down in CLEARING and is held in ACTIVE and ACKED. -/
structure Record where
  slot : Nat
  code : Code
  cls : Cls
  mode : RecMode
  origin : Origin
  state : RecState
  cause : Bool
  occurrences : Nat
  firstRaised : Nat
  lastChange : Nat
  detail : Nat
  eff : Effects
  unread : PerLink Bool
  holdoff : Option Nat
deriving DecidableEq, Repr

/-- What a raise or a cause-present report carries (section 1.4). `via` is the link of a RAISE request, absent for an
internal source or a lane. -/
structure Raise where
  code : Code
  cls : Cls
  mode : RecMode
  origin : Origin
  detail : Nat
  eff : Effects
  via : Option Link
deriving DecidableEq, Repr

/-! ## Effective limits (chapter 2) -/

/-- The effective limits (R33). The five yaw limits stand as one set of flags. -/
structure Limits where
  capEff : Nat
  capSource : Option Code
  excluded : LaneSet
  yaw : YawFlags
  boost : LoopSet
  highest : Option Cls
deriving DecidableEq, Repr

/-- One delivery to the envelope unit: the limits it consumes that changed (R41). -/
structure EnvelopeDelivery where
  capEff : Option Nat
  capSource : Option (Option Code)
  excluded : Option LaneSet
deriving DecidableEq, Repr

/-! ## Reaction slots (chapter 3) -/

/-- How a slot's most recent action ended (R45). -/
inductive SlotOutcome where
  | none
  | done
  | cancelled
  | refusedClass
  | notApplicable
deriving DecidableEq, Repr

/-- A reaction slot (R45). -/
structure Slot where
  bound : Option Code
  action : Option Action
  loops : Option LoopSet
  delay : Option Nat
  count : Nat
  pending : Option Nat
  last : SlotOutcome
deriving DecidableEq, Repr

/-! ## Envelope (chapter 4) -/

/-- Which bound sets the target (R60). -/
inductive Binding where
  | demand
  | cap
  | headroom
deriving DecidableEq, Repr

/-- What the envelope unit holds (R60). `ramp` is the time to the next ramp step in ms. -/
structure Envelope where
  demand : Nat
  capEff : Nat
  capSource : Option Code
  running : LaneSet
  excluded : LaneSet
  available : LaneSet
  factor : Four (Option Nat)
  headroom : Four Nat
  total : Nat
  target : Nat
  binding : Binding
  commanded : Nat
  ramp : Option Nat
  share : Four Nat
deriving DecidableEq, Repr

/-! ## Lanes (chapter 5) -/

/-- A lane's sequencing state (R86). -/
inductive LaneState where
  | offline
  | precharge
  | sync
  | running
  | shedding
  | locked
  | faulted
  | resetting
deriving DecidableEq, Repr

/-- The lane controller's own state (R87). -/
inductive PortState where
  | down
  | charging
  | ready
  | synced
  | delivering
deriving DecidableEq, Repr

/-- The fault a lane reports (R87). -/
inductive Severity where
  | none
  | warn
  | trip
deriving DecidableEq, Repr

/-- The fields of one valid report (R87). -/
structure Report where
  laneState : PortState
  dcVoltage : Nat
  heatsink : Int
  power : Nat
  severity : Severity
  localCode : Nat
  detail : Nat
deriving DecidableEq, Repr

/-- Why a lane sheds (R86). -/
inductive ShedReason where
  | stop
  | excluded
deriving DecidableEq, Repr

/-- The kind of a lane's in-flight timer (R86). -/
inductive TimerKind where
  | precharge
  | sync
  | shed
  | reset
deriving DecidableEq, Repr

/-- A lane's in-flight timer with its remaining ms (R86). -/
structure LaneTimer where
  kind : TimerKind
  ms : Nat
deriving DecidableEq, Repr

/-- The kind of a lane command (R88). -/
inductive CommandKind where
  | opened
  | precharge
  | sync
  | run
  | resetFault
deriving DecidableEq, Repr

/-- A command sent on a lane port (R88). -/
structure LaneCommand where
  kind : CommandKind
  share : Nat
deriving DecidableEq, Repr

/-- A lane record (R86) and the command last sent on its port (R88). `silence` is the armed timer's remaining ms. -/
structure Lane where
  state : LaneState
  report : Option Report
  shed : Option ShedReason
  startFlag : Bool
  timer : Option LaneTimer
  share : Nat
  warned : Option Nat
  silence : Option Nat
  command : Option LaneCommand
deriving DecidableEq, Repr

/-- The supply state (R173). -/
inductive SupplyState where
  | full
  | aux
  | low
deriving DecidableEq, Repr

/-- A pump's state (R154). -/
inductive PumpState where
  | off
  | priming
  | running
  | failed
deriving DecidableEq, Repr

/-- What the lane manager holds (R86), and the lane cooling demand last handed over (R105). -/
structure LaneManager where
  lanes : Four Lane
  excluded : LaneSet
  supply : SupplyState
  pump : PumpState
  demand : Bool
  coolingSent : Bool
deriving DecidableEq, Repr

/-! ## Wind and heading (chapter 6) -/

/-- The wind and heading unit's views of the causes it owns: true is present (R111). -/
structure WindViews where
  twistLimit : Bool
  storm : Bool
  misalign : Bool
  vaneFault : Bool
  headingFault : Bool
deriving DecidableEq, Repr

/-- What the wind and heading unit holds (R111). The two `Owed` flags say that the start-up report of R125 and R126
still waits for the first read. -/
structure Wind where
  refHeading : Option Nat
  headingOk : Bool
  twist : Int
  filtered : Int
  vaneOk : Bool
  speed : Int
  dwell : Nat
  watching : Bool
  unwindInChain : Bool
  parkSeen : Bool
  views : WindViews
  headingOwed : Bool
  vaneOwed : Bool
deriving DecidableEq, Repr

/-- An event the yaw motion unit hands the wind and heading unit about TRACK (R121). -/
inductive WatchEvent where
  | enterDwell
  | enterNow
  | leave
deriving DecidableEq, Repr

/-! ## Yaw motion (chapter 7) -/

/-- The reason to move (R129). -/
inductive Kind where
  | service
  | park
  | unwind
  | track
deriving DecidableEq, Repr

/-- Who asked for a context (R129). -/
inductive ContextOrigin where
  | auto
  | main
  | service
deriving DecidableEq, Repr

/-- Where a context is going, or for how long (R129). -/
inductive Target where
  | absent
  | heading (h : Nat)
  | twist (goal : Int)
  | time (ms : Nat)
deriving DecidableEq, Repr

/-- A context's state (R129). -/
inductive ContextState where
  | suspended
  | held
  | watching
  | moving
deriving DecidableEq, Repr

/-- A context of the yaw chain (R129). -/
structure Context where
  kind : Kind
  origin : ContextOrigin
  target : Target
  dir : Option Dir
  state : ContextState
deriving DecidableEq, Repr

/-- A drive's state (R128). -/
inductive DriveState where
  | ready
  | running
  | faulted
  | isolated
deriving DecidableEq, Repr

/-- A drive of the roster, with its reported flag and its fault line at the last read (R143, R151). -/
structure Drive where
  state : DriveState
  reported : Bool
  line : Bool
deriving DecidableEq, Repr

/-- The brake state (R146). -/
inductive BrakeState where
  | applied
  | releasing
  | released
  | applying
deriving DecidableEq, Repr

/-- The rate at which the drives run (R142). -/
inductive RateClass where
  | full
  | half
  | none
deriving DecidableEq, Repr

/-- The reversal settle in progress (R148). -/
structure Settle where
  ms : Nat
  dir : Dir
deriving DecidableEq, Repr

/-- The stall watch: the reference heading and the ms of running (R150). -/
structure StallWatch where
  ref : Nat
  ms : Nat
deriving DecidableEq, Repr

/-- What the yaw motion unit holds (R128). `run` absent is STOPPED. healthy and the rate class are functions of the
roster and the supply (`Yaw.healthy`, `Yaw.rate`). -/
structure Yaw where
  chain : List Context
  drives : Eight Drive
  brake : BrakeState
  brakeTimer : Option Nat
  pressure : Nat
  run : Option Dir
  settle : Option Settle
  stall : Option StallWatch
  heading : Option Nat
  twist : Int
  filtered : Int
  held : YawFlags
  supply : SupplyState
  blockedView : Bool
  lowView : Bool
deriving DecidableEq, Repr

/-! ## Cooling (chapter 8) -/

/-- A loop record (R154), the factor and computed cap of its last valid sample (R169), and whether the start-up report
still waits for the first sample (R171). -/
structure Loop where
  pump : PumpState
  prime : Option Nat
  flow : Bool
  misses : Nat
  failFolded : Bool
  duty : Nat
  tOut : Option Int
  sensorOk : Bool
  hotView : Bool
  hotEscalated : Bool
  sensorView : Bool
  factor : Nat
  computedCap : Nat
  owed : Bool
deriving DecidableEq, Repr

/-- What the cooling unit holds (R154). -/
structure Cooling where
  loops : Three Loop
  commanded : Nat
  laneDemand : Bool
  supply : SupplyState
  boost : LoopSet
  reaction : LoopSet
deriving DecidableEq, Repr

/-! ## Supply (chapter 9) -/

/-- What the supply monitor holds (R173). Its two views follow the state. -/
structure Supply where
  state : SupplyState
  grid : Bool
  settle : Option Nat
  ups : Option Nat
  upsOk : Bool
deriving DecidableEq, Repr

/-! ## Links (chapters 10 and 11) -/

/-- Where a link unit stands in the present frame (R183). -/
inductive FrameState where
  | idle
  | receiving
  | poisoned
  | sending
  | ignoring
  | attention
deriving DecidableEq, Repr

/-- The statuses of a response in the order of their values (section 10.7). -/
inductive Status where
  | done
  | clamped
  | notFound
  | noResponse
  | badRequest
  | badValue
  | checkFail
  | refusedState
  | refusedAuthority
  | causePresent
  | notOwner
  | refusedInChain
  | tableFull
deriving DecidableEq, Repr

/-- A stored response (R189). -/
structure Response where
  status : Status
  data : List Byte
  check : Option Byte
deriving DecidableEq, Repr

/-- What the unit drove in the last acknowledge slot of a requester's byte (R185, R186). -/
inductive AckSlot where
  | undriven
  | ack
  | nack
deriving DecidableEq, Repr

/-- A byte the unit drove, with its parity bit and its continuation bit; the address byte of an attention frame has no
continuation bit (R184, R190, R199). -/
structure DrivenByte where
  byte : Byte
  parity : Bool
  more : Option Bool
deriving DecidableEq, Repr

/-- A link unit (R183, R198): `payload` is the payload in flight, `ackSlot` and `driven` what the unit last drove on its
data line. -/
structure LinkUnit where
  frame : FrameState
  received : List Byte
  response : Option Response
  attention : Bool
  late : Bool
  unreported : Bool
  payload : Option (List Byte)
  ackSlot : AckSlot
  driven : List DrivenByte
deriving DecidableEq, Repr

/-- A request that passed every check of R187, as it is handed to its owner (R189). -/
inductive Request where
  | lookup (code : Code)
  | scan (start : Nat) (filter : Filter)
  | raise (code : Code) (cls : Cls) (detail : Nat) (cap : Option Nat) (lanes : LaneSet) (yaw : YawEffect) (loops : LoopSet)
  | amend (code : Code) (cap : Option Nat) (lanes : LaneSet) (yaw : YawEffect) (loops : LoopSet)
  | ack (code : Code)
  | retire (code : Code)
  | bind (slot : Nat) (code : Code) (action : Action) (loops : LoopSet) (delay : Nat) (count : Nat)
  | unbind (slot : Nat)
  | readSlot (slot : Nat)
  | setDemand (demand : Nat)
  | readEnvelope
  | laneStart (lane : Nat)
  | laneStop (lane : Nat)
  | readLane (lane : Nat)
  | setTracking (on : Bool)
  | startUnwind
  | yawGoto (heading : Nat)
  | yawJog (dir : Dir) (seconds : Nat)
  | serviceStop
  | readYaw
  | driveIsolate (drive : Nat)
  | driveReturn (drive : Nat)
  | setTwist (twist : Int)
  | readLoop (loop : Nat)
  | setSetting (id : Nat) (value : Int)
  | getSetting (id : Nat)
  | readSupply
  | ident
  | warmReset (straps : Fin 4)
  /-- A request frame that failed the encoding check: the link unit executes it itself, answering BAD_VALUE (R187). -/
  | badEncoding
deriving DecidableEq, Repr

/-! ## Internal events -/

/-- An event inside the part: an arrival at the condition table, a delivery of the limit resolver, a handover from one
block to another, the first part of what a command sets off, or a later part of a block's event in progress. -/
inductive Ev where
  -- arrivals at the condition table (chapter 1)
  | ctRaise (r : Raise)
  | ctPresent (r : Raise)
  | ctAbsent (c : Code)
  | ctRefresh (c : Code) (cap : Nat)
  | ctEscalateStep (c : Code)
  | ctEscalateTo (c : Code) (cls : Cls) (cap : Nat)
  | ctHoldoffEnd (c : Code)
  -- the reaction unit (chapter 3)
  | ruOffer (c : Code)
  | ruAutoRetire (k : Fin 8)
  | ruBoostEnd (k : Fin 8)
  -- deliveries of the limit resolver (R41)
  | euLimits (d : EnvelopeDelivery)
  | lmExcluded (set : LaneSet) (full : Bool)
  | ymLimits (flags : YawFlags)
  | whPark (on : Bool) (full : Bool)
  | cuBoost (set : LoopSet)
  -- handovers between blocks
  | euLane (n : Fin 4) (running : Bool)
  | euTemp (n : Fin 4) (t : Int)
  | lmShare (n : Fin 4) (kw : Nat)
  | lmSupply (st : SupplyState)
  | lmPump (p : PumpState)
  | lmDemand (present : Bool)
  | cuCommanded (kw : Nat)
  | cuLaneDemand (yes : Bool)
  | cuSupply (st : SupplyState)
  | cuReaction (set : LoopSet)
  | cuPumpRetired (l : Fin 3)
  | ymSupply (st : SupplyState)
  | ymHeading (h : Option Nat) (twist : Int)
  | ymFiltered (f : Int)
  | ymMove (target : Nat) (dir : Dir)
  | ymUnwind (goal : Int) (dir : Dir)
  | ymDriveRetired (n : Fin 8)
  | whWatch (e : WatchEvent)
  | whUnwind (inChain : Bool)
  -- parts of a block's own event
  | euRampStep
  | lmReport (n : Fin 4) (bytes : List Byte)
  | lmAct (n : Fin 4)
  | lmReply (n : Fin 4)
  | lmEvaluate (n : Fin 4)
  | lmSilence (n : Fin 4)
  | lmTimeout (n : Fin 4) (k : TimerKind)
  | whHeading (reading : Option Nat)
  | whVane (reading : Option Int)
  | whMisalign
  | whDwell
  | whAnemometer (pulses : Nat)
  | whUnwindEval
  | ymJogEnd
  | ymFaultLines (lines : BitVec 8)
  | ymPressure (bar : Nat)
  | ymBrakeTimer
  | ymSettleEnd
  | cuSample (l : Fin 3) (reading : Option Int)
  | cuDerate (l : Fin 3) (valid : Bool)
  | cuEscalate (l : Fin 3)
  | cuDemand (l : Fin 3)
  | cuFan (l : Fin 3)
  | cuFlow (l : Fin 3) (seen : Bool)
  | cuPrimeTimeout (l : Fin 3)
  | smGrid (present : Bool)
  | smSettled
  | smUps (reading : Option Nat)
  -- the link units (chapters 10 and 11)
  | lkKey (on : Bool)
  | lkSilence
  | lkStart (l : Link) (addr : Byte) (parityGood : Bool) (bytes : List Byte)
  | lkOpen (l : Link) (addr : Byte) (parityGood : Bool) (bytes : List Byte)
  | lkByte (l : Link) (byte : Byte) (parityGood : Bool)
  | lkStop (l : Link)
  | lkPoisonStop (l : Link)
  | lkRead (l : Link) (clocked : Nat)
  | lkSend (l : Link) (clocked : Nat)
  | lkReset (l : Link)
  | lkAttention (l : Link)
  | lkAttentionSlot (l : Link) (ack : Bool)
  | lkPayloadDone (l : Link)
  | lkPayloadCut (l : Link)
  | lkRequest (l : Link) (r : Request)
  | lkBegin (l : Link) (r : Request)
  | lkServe (l : Link) (r : Request)
  -- resets
  | coldStart (straps : Fin 4)
  | lineAssert
  | lineRelease (straps : Fin 4)
  -- a timer the clock has brought to 0 (the expiry as the table lists it)
  | due (i : Instr)
deriving DecidableEq, Repr

/-! ## The state -/

/-- The whole part. -/
structure State where
  /-- Seconds since cold power-up, 0..4294967295. -/
  uptime : Nat
  /-- Milliseconds since the last uptime increment (the model's own, log 5). -/
  msec : Nat
  /-- The level of the two strap pins, which each reset reads (R183, R184; log 33). -/
  straps : Fin 4
  /-- The strap address read at the last reset (R183). -/
  address : Nat
  /-- Whether the reset line is asserted (R197). -/
  lineAsserted : Bool
  /-- The condition records present, by rising slot number (R2). -/
  table : List Record
  limits : Limits
  slots : Eight Slot
  eu : Envelope
  lm : LaneManager
  wh : Wind
  ym : Yaw
  cu : Cooling
  sm : Supply
  links : PerLink LinkUnit
  /-- The main link's silence timer in ms, absent when stopped (R183). -/
  silence : Option Nat
  /-- The view of HOST_SILENT (R183). -/
  silenceView : Bool
  /-- The view of SERVICE_LOCK (R183, R192). -/
  keyView : Bool
  /-- The start-up report of R192 still waits for the first read of the key. -/
  keyOwed : Bool
  /-- The 38 settings in order of id (R202). -/
  settings : List Int
  /-- Internal events a step could not finish taking (the model's own, log 3). -/
  unsettled : List Ev
  /-- How many times expiries had to be ordered (the model's own, log 6). -/
  arrivals : Nat
  /-- The commands that wait, first in first out (the model's own, log 1). -/
  pending : List Instr
deriving DecidableEq, Repr

/-- No command stops the part with a fault: what it detects becomes a condition record, and what it refuses is answered
with a status (log 26). The type therefore has no constructor, which is safe: nothing is stopped that the part does. -/
inductive Fault where
deriving DecidableEq, Repr

/-- Why a command has no meaning. -/
inductive Refusal where
  /-- Raised by an arm of exec whose command has no meaning yet. Safe: nothing can be proved of its next state. -/
  | notModelled (mnemonic : String)
deriving DecidableEq, Repr

/-! ## Reset -/

/-- The effects that restrict nothing. -/
def Effects.nothing : Effects := { cap := none, lanes := 0, yaw := 0, boost := 0 }

/-- The limits of an empty table (R33). -/
def Limits.initial : Limits :=
  { capEff := 16000, capSource := none, excluded := 0, yaw := 0, boost := 0, highest := none }

/-- An unbound slot as cold power-up leaves it (R45). -/
def Slot.initial : Slot :=
  { bound := none, action := none, loops := none, delay := none, count := 0, pending := none, last := .none }

/-- The envelope at cold power-up (R84). -/
def Envelope.initial : Envelope :=
  { demand := 0, capEff := 16000, capSource := none, running := 0, excluded := 0, available := 0
    factor := ⟨none, none, none, none⟩, headroom := ⟨0, 0, 0, 0⟩, total := 0, target := 0, binding := .demand
    commanded := 0, ramp := none, share := ⟨0, 0, 0, 0⟩ }

/-- A lane record at either reset (R86); no command has been sent (log 13). -/
def Lane.initial : Lane :=
  { state := .offline, report := none, shed := none, startFlag := false, timer := none, share := 0, warned := none
    silence := none, command := none }

/-- The lane manager at either reset, before the start-up handovers (R86). -/
def LaneManager.initial : LaneManager :=
  { lanes := ⟨Lane.initial, Lane.initial, Lane.initial, Lane.initial⟩, excluded := 0, supply := .aux, pump := .off
    demand := false, coolingSent := false }

/-- The wind and heading unit at cold power-up (R111, R125). -/
def Wind.initial : Wind :=
  { refHeading := none, headingOk := false, twist := 0, filtered := 0, vaneOk := true, speed := 0, dwell := 0
    watching := false, unwindInChain := false, parkSeen := false
    views := { twistLimit := false, storm := false, misalign := false, vaneFault := false, headingFault := false }
    headingOwed := true, vaneOwed := true }

/-- A drive at cold power-up (R153); its line has not been read (log 13). -/
def Drive.initial : Drive := { state := .ready, reported := false, line := false }

/-- The yaw motion unit at cold power-up, up to step 7 of R153: the chain is empty and the brake applies. -/
def Yaw.initial : Yaw :=
  { chain := []
    drives := ⟨Drive.initial, Drive.initial, Drive.initial, Drive.initial, Drive.initial, Drive.initial, Drive.initial,
      Drive.initial⟩
    brake := .applying, brakeTimer := some 3000, pressure := 0, run := none, settle := none, stall := none
    heading := none, twist := 0, filtered := 0, held := 0, supply := .aux, blockedView := false, lowView := false }

/-- A loop record at either reset (R171); no sample has been taken, so its factor and computed cap are those of a cool
loop (log 13). -/
def Loop.initial : Loop :=
  { pump := .off, prime := none, flow := false, misses := 0, failFolded := false, duty := 0, tOut := none
    sensorOk := true, hotView := false, hotEscalated := false, sensorView := false, factor := 64
    computedCap := 16000, owed := true }

/-- The cooling unit at either reset (R171, R172). -/
def Cooling.initial : Cooling :=
  { loops := ⟨Loop.initial, Loop.initial, Loop.initial⟩, commanded := 0, laneDemand := false, supply := .aux
    boost := 0, reaction := 0 }

/-- The supply monitor at cold power-up (R179). -/
def Supply.initial : Supply :=
  { state := .aux, grid := false, settle := none, ups := none, upsOk := true }

/-- A link unit at cold power-up (R183, R198); nothing has been driven (log 13). -/
def LinkUnit.initial : LinkUnit :=
  { frame := .idle, received := [], response := none, attention := false, late := false, unreported := true
    payload := none, ackSlot := .undriven, driven := [] }

/-- Every block at the values it takes at cold power-up, before any block has handed over or reported anything. -/
def State.powerOn : State :=
  { uptime := 0, msec := 0, straps := 0, address := Config.lowestAddress, lineAsserted := false, table := []
    limits := Limits.initial
    slots := ⟨Slot.initial, Slot.initial, Slot.initial, Slot.initial, Slot.initial, Slot.initial, Slot.initial,
      Slot.initial⟩
    eu := Envelope.initial, lm := LaneManager.initial, wh := Wind.initial, ym := Yaw.initial, cu := Cooling.initial
    sm := Supply.initial, links := ⟨LinkUnit.initial, LinkUnit.initial⟩
    silence := some 20000, silenceView := false, keyView := false, keyOwed := true
    settings := settingDefaults, unsettled := [], arrivals := 0, pending := [] }

/-- The GRID_LOSS record that start-up creates (R29, R179). -/
def Record.gridLossAtReset : Record :=
  { slot := 0, code := ⟨1, 1⟩, cls := .limit, mode := .level, origin := .internal, state := .active, cause := true
    occurrences := 1, firstRaised := 0, lastChange := 0, detail := 0
    eff := { cap := some 0, lanes := 0, yaw := 0, boost := 0 }, unread := ⟨true, true⟩, holdoff := none }

/-- The machine right after reset: cold power-up has taken place, every block has its initial values, and the blocks
have sent their start-up handovers and cause reports (R29, R43, R84, R110, R125, R153, R171, R179). GRID_LOSS stands in
slot 0 and holds the cap at 0, attention is pending on both links, TRACK watches at the top of the chain, and L2 primes.
That this is what COLD_POWER_UP leaves is `test_reset_is_cold_power_up`. The straps select 0x34 (log 12). -/
def State.reset : State :=
  { State.powerOn with
    table := [Record.gridLossAtReset]
    limits := { capEff := 0, capSource := some ⟨1, 1⟩, excluded := 0, yaw := 0, boost := 0, highest := some .limit }
    eu := { Envelope.initial with capEff := 0, capSource := some ⟨1, 1⟩ }
    wh := { Wind.initial with watching := true }
    ym := { Yaw.initial with
      chain := [{ kind := .track, origin := .auto, target := .absent, dir := none, state := .watching }] }
    cu := { Cooling.initial with
      loops := ⟨Loop.initial, Loop.initial, { Loop.initial with pump := .priming, prime := some 5000 }⟩ }
    links := ⟨{ LinkUnit.initial with attention := true }, { LinkUnit.initial with attention := true }⟩ }

end Sys2Proof.Machine
end

