-- ==== Sys2Proof/Machine/Encoding.lean ====
section
/-! DEFINITION. Arithmetic of section 4.2, the check byte and parity of the links and lane ports, and how values are
carried in bytes (R87, R88, R184, R187, R189). -/

namespace Sys2Proof.Machine

/-! ## Arithmetic (R1) -/

/-- Division rounding toward minus infinity. -/
def floorDiv (a b : Int) : Int := Int.fdiv a b

/-- Division truncated toward zero. -/
def truncDiv (a b : Int) : Int := Int.tdiv a b

/-- The shortest signed difference from heading a to heading b, in −1800..+1799. -/
def headingDiff (a b : Int) : Int := (b - a + 1800) % 3600 - 1800

/-- A heading plus an angle, modulo 3600. -/
def headingAdd (h : Nat) (a : Int) : Nat := (((h : Int) + a) % 3600).toNat

/-- |a| of a signed quantity. -/
def magnitude (a : Int) : Nat := a.natAbs

/-- A number brought to a maximum. -/
def saturate (limit n : Nat) : Nat := if limit < n then limit else n

/-- A signed quantity as the 16-bit number that carries it, two's complement (R189; as a detail: log 16). -/
def signedWord (v : Int) : Nat := (v % 65536).toNat

/-- The signed quantity that a 16-bit number carries. -/
def wordSigned (n : Nat) : Int := if n < 32768 then (n : Int) else (n : Int) - 65536

/-! ## Check byte and parity -/

/-- One bit of the CRC-8 with polynomial 0x2F, most significant bit first (R87, R187). -/
def crcShift (c : Byte) : Byte := if c.msb then (c <<< 1) ^^^ 0x2F#8 else c <<< 1

/-- One byte of the CRC-8. -/
def crcByte (c b : Byte) : Byte :=
  crcShift (crcShift (crcShift (crcShift (crcShift (crcShift (crcShift (crcShift (c ^^^ b))))))))

/-- The check value over a list of bytes: initial value 0xFF, no reflection, no final XOR (R87, R187). -/
def crc8 (bytes : List Byte) : Byte := bytes.foldl crcByte 0xFF#8

/-- The parity bit that makes the nine bits hold an odd number of ones (R184). -/
def parityBit (b : Byte) : Bool :=
  !(xor (xor (xor (hasBit b 0) (hasBit b 1)) (xor (hasBit b 2) (hasBit b 3)))
    (xor (xor (hasBit b 4) (hasBit b 5)) (xor (hasBit b 6) (hasBit b 7))))

/-! ## Numbers and named values in bytes (R189) -/

/-- A value of one byte. -/
def byteOf (n : Nat) : Byte := BitVec.ofNat 8 n

/-- A number up to 16 bits, most significant byte first. -/
def word (n : Nat) : List Byte := [byteOf (n / 256), byteOf n]

/-- A signed quantity in two bytes. -/
def signed (v : Int) : List Byte := word (signedWord v)

/-- A number of four bytes, most significant first. -/
def long (n : Nat) : List Byte := [byteOf (n / 16777216), byteOf (n / 65536), byteOf (n / 256), byteOf n]

/-- yes/no, on/off, present/absent. -/
def flag (b : Bool) : List Byte := [if b then 1#8 else 0#8]

/-- A named value numbered from 0. -/
def named (n : Nat) : List Byte := [byteOf n]

/-- A set carried in one byte. -/
def setByte {w : Nat} (s : BitVec w) : List Byte := [byteOf s.toNat]

/-- An item that may be absent: a presence byte, then the item, `width` bytes of 0 when absent. -/
def optional {α : Type} (width : Nat) (enc : α → List Byte) : Option α → List Byte
  | none => flag false ++ List.replicate width 0#8
  | some a => flag true ++ enc a

/-- A code. -/
def codeBytes (c : Code) : List Byte := word c.toNat

/-- The 16-bit number two bytes carry, the first the more significant. -/
def wordAt (hi lo : Byte) : Nat := hi.toNat * 256 + lo.toNat

/-- The code two bytes carry. -/
def codeAt (hi lo : Byte) : Code :=
  let n := wordAt hi lo
  { group := Fin.ofNat 16 (n / 4096), item := Fin.ofNat 4096 n }

/-- NOTICE 0, LIMIT 1, SHED 2, TRIP 3 (R188, R189). -/
def clsIndex : Cls → Nat
  | .notice => 0
  | .limit => 1
  | .shed => 2
  | .trip => 3

/-- EDGE 0, LEVEL 1 (R3). -/
def modeIndex : RecMode → Nat
  | .edge => 0
  | .level => 1

/-- 0 INTERNAL, 1 to 4 LANE 0 to 3, 5 MAIN, 6 SERVICE (R26). -/
def originIndex : Origin → Nat
  | .internal => 0
  | .lane n => 1 + n.val
  | .main => 5
  | .service => 6

/-- ACTIVE 0, ACKED 1, CLEARING 2 (R3). -/
def recStateIndex : RecState → Nat
  | .active => 0
  | .acked => 1
  | .clearing => 2

/-- AUTO_RETIRE 0, COOL_BOOST 1, ESCALATE 2 (R45, R188). -/
def actionIndex : Action → Nat
  | .autoRetire => 0
  | .coolBoost => 1
  | .escalate => 2

/-- The order of R45's last_outcome. -/
def outcomeIndex : SlotOutcome → Nat
  | .none => 0
  | .done => 1
  | .cancelled => 2
  | .refusedClass => 3
  | .notApplicable => 4

/-- DEMAND 0, CAP 1, HEADROOM 2 (R60). -/
def bindingIndex : Binding → Nat
  | .demand => 0
  | .cap => 1
  | .headroom => 2

/-- The order of R86's lane states. -/
def laneStateIndex : LaneState → Nat
  | .offline => 0
  | .precharge => 1
  | .sync => 2
  | .running => 3
  | .shedding => 4
  | .locked => 5
  | .faulted => 6
  | .resetting => 7

/-- The order of R87's lane_state. -/
def portStateIndex : PortState → Nat
  | .down => 0
  | .charging => 1
  | .ready => 2
  | .synced => 3
  | .delivering => 4

/-- 0 NONE, 1 WARN, 2 TRIP (R87). -/
def severityIndex : Severity → Nat
  | .none => 0
  | .warn => 1
  | .trip => 2

/-- STOP 0, EXCLUDED 1 (R86, log 17). -/
def shedIndex : ShedReason → Nat
  | .stop => 0
  | .excluded => 1

/-- PRECHARGE 0, SYNC 1, SHED 2, RESET 3 (R86). -/
def timerIndex : TimerKind → Nat
  | .precharge => 0
  | .sync => 1
  | .shed => 2
  | .reset => 3

/-- 0 OPEN, 1 PRECHARGE, 2 SYNC, 3 RUN, 4 RESET_FAULT (R88). -/
def commandIndex : CommandKind → Nat
  | .opened => 0
  | .precharge => 1
  | .sync => 2
  | .run => 3
  | .resetFault => 4

/-- FULL 0, AUX 1, LOW 2 (R173). -/
def supplyIndex : SupplyState → Nat
  | .full => 0
  | .aux => 1
  | .low => 2

/-- SERVICE 0, PARK 1, UNWIND 2, TRACK 3 (R129). -/
def kindIndex : Kind → Nat
  | .service => 0
  | .park => 1
  | .unwind => 2
  | .track => 3

/-- AUTO 0, MAIN 1, SERVICE 2 (R129). -/
def contextOriginIndex : ContextOrigin → Nat
  | .auto => 0
  | .main => 1
  | .service => 2

/-- SUSPENDED 0, HELD 1, WATCHING 2, MOVING 3 (R129). -/
def contextStateIndex : ContextState → Nat
  | .suspended => 0
  | .held => 1
  | .watching => 2
  | .moving => 3

/-- READY 0, RUNNING 1, FAULTED 2, ISOLATED 3 (R128). -/
def driveStateIndex : DriveState → Nat
  | .ready => 0
  | .running => 1
  | .faulted => 2
  | .isolated => 3

/-- FULL 0, HALF 1, NONE 2 (R128). -/
def rateIndex : RateClass → Nat
  | .full => 0
  | .half => 1
  | .none => 2

/-- APPLIED 0, RELEASING 1, RELEASED 2, APPLYING 3 (R128). -/
def brakeIndex : BrakeState → Nat
  | .applied => 0
  | .releasing => 1
  | .released => 2
  | .applying => 3

/-- CW 0, CCW 1 (R188). -/
def dirIndex : Dir → Nat
  | .cw => 0
  | .ccw => 1

/-- STOPPED 0, CW 1, CCW 2 (R128). -/
def runIndex : Option Dir → Nat
  | none => 0
  | some .cw => 1
  | some .ccw => 2

/-- OFF 0, PRIMING 1, RUNNING 2, FAILED 3 (R154). -/
def pumpIndex : PumpState → Nat
  | .off => 0
  | .priming => 1
  | .running => 2
  | .failed => 3

/-- The values of the statuses (section 10.7). -/
def statusIndex : Status → Nat
  | .done => 0
  | .clamped => 1
  | .notFound => 2
  | .noResponse => 3
  | .badRequest => 4
  | .badValue => 5
  | .checkFail => 6
  | .refusedState => 7
  | .refusedAuthority => 8
  | .causePresent => 9
  | .notOwner => 10
  | .refusedInChain => 11
  | .tableFull => 12

/-! ## Addresses, responses and lane commands -/

/-- The address byte of a request frame (R184). -/
def writeAddress (address : Nat) : Byte := byteOf (2 * address)

/-- The address byte of a response frame (R184). -/
def readAddress (address : Nat) : Byte := byteOf (2 * address + 1)

/-- The bytes of a response before its check byte (R189). -/
def responseBody (status : Status) (data : List Byte) : List Byte := byteOf (statusIndex status) :: data

/-- A response as formed: with its check byte when check mode is on (R189). -/
def formResponse (address : Nat) (checked : Bool) (status : Status) (data : List Byte) : Response :=
  { status := status
    data := data
    check := if checked then some (crc8 (readAddress address :: responseBody status data)) else none }

/-- The bytes of a response in the order they are sent (R189). -/
def responseBytes (r : Response) : List Byte := responseBody r.status r.data ++ r.check.toList

/-- Bytes as the unit drives them: parity, and a continuation bit of 1 while another byte follows (R190). -/
def driveBytes : List Byte → List DrivenByte
  | [] => []
  | b :: rest => { byte := b, parity := parityBit b, more := some (!rest.isEmpty) } :: driveBytes rest

/-- The bytes of a lane command: kind, share, check value (R88). -/
def commandBytes (c : LaneCommand) : List Byte :=
  let body := named (commandIndex c.kind) ++ word c.share
  body ++ [crc8 body]

/-- The bytes of a lane report: its fields in order, then the check value (R87). -/
def reportBytes (r : Report) : List Byte :=
  let body := named (portStateIndex r.laneState) ++ word r.dcVoltage ++ signed r.heatsink ++ word r.power ++
    named (severityIndex r.severity) ++ named r.localCode ++ word r.detail
  body ++ [crc8 body]

end Sys2Proof.Machine
end

