-- ==== Sys2Proof/Machine/Operands.lean ====
section
/-! DEFINITION. Reading what arrives in bytes: lane reports (R87) and request frames (R187, R188, section 10.7). -/

namespace Sys2Proof.Machine

/-! ## Lane reports -/

/-- The lane controller's state a byte carries (R87). -/
def portStateAt (b : Byte) : Option PortState :=
  match b.toNat with
  | 0 => some .down
  | 1 => some .charging
  | 2 => some .ready
  | 3 => some .synced
  | 4 => some .delivering
  | _ => none

/-- The severity a byte carries (R87). -/
def severityAt (b : Byte) : Option Severity :=
  match b.toNat with
  | 0 => some .none
  | 1 => some .warn
  | 2 => some .trip
  | _ => none

/-- Whether the fields of a report lie in range, and its severity agrees with its local code (R87). -/
def Report.inRange (r : Report) : Bool :=
  decide (r.dcVoltage ≤ 1500) && decide (-400 ≤ r.heatsink) && decide (r.heatsink ≤ 1500) && decide (r.power ≤ 5000) &&
  (r.severity == .none) == (r.localCode == 0)

/-- A report read from its eleven bytes and its check byte, absent when it is invalid (R87). -/
def readReport (bytes : List Byte) : Option Report :=
  match bytes with
  | [st, v1, v0, t1, t0, p1, p0, sev, code, d1, d0, chk] =>
    if crc8 [st, v1, v0, t1, t0, p1, p0, sev, code, d1, d0] = chk then
      match portStateAt st, severityAt sev with
      | some ls, some sv =>
        let r : Report :=
          { laneState := ls, dcVoltage := wordAt v1 v0, heatsink := wordSigned (wordAt t1 t0), power := wordAt p1 p0
            severity := sv, localCode := code.toNat, detail := wordAt d1 d0 }
        if r.inRange then some r else none
      | _, _ => none
    else none
  | _ => none

/-! ## Parameter fields whose values form a list or a set (R188) -/

/-- A class field. -/
def clsAt (b : Byte) : Option Cls :=
  match b.toNat with
  | 0 => some .notice
  | 1 => some .limit
  | 2 => some .shed
  | 3 => some .trip
  | _ => none

/-- A filter field. -/
def filterAt (b : Byte) : Option Filter :=
  match b.toNat with
  | 0 => some .all
  | 1 => some .unread
  | 2 => some (.classAtLeast .notice)
  | 3 => some (.classAtLeast .limit)
  | 4 => some (.classAtLeast .shed)
  | 5 => some (.classAtLeast .trip)
  | _ => none

/-- A yaw effect field. -/
def yawEffectAt (b : Byte) : Option YawEffect :=
  match b.toNat with
  | 0 => some .none
  | 1 => some .forbidCw
  | 2 => some .forbidCcw
  | 3 => some .park
  | 4 => some .holdAuto
  | 5 => some .hold
  | _ => none

/-- An action field. -/
def actionAt (b : Byte) : Option Action :=
  match b.toNat with
  | 0 => some .autoRetire
  | 1 => some .coolBoost
  | 2 => some .escalate
  | _ => none

/-- A direction field. -/
def dirAt (b : Byte) : Option Dir :=
  match b.toNat with
  | 0 => some .cw
  | 1 => some .ccw
  | _ => none

/-- An on/off field. -/
def onOffAt (b : Byte) : Option Bool :=
  match b.toNat with
  | 0 => some false
  | 1 => some true
  | _ => none

/-- A lane set field: none of bits 4..7 set. -/
def laneSetAt (b : Byte) : Option LaneSet := if b.toNat < 16 then some (BitVec.ofNat 4 b.toNat) else none

/-- A loop set field: none of bits 3..7 set. -/
def loopSetAt (b : Byte) : Option LoopSet := if b.toNat < 8 then some (BitVec.ofNat 3 b.toNat) else none

/-- A power_cap field: 0..16000, or 65535 for absent. -/
def capAt (hi lo : Byte) : Option (Option Nat) :=
  let n := wordAt hi lo
  if n ≤ 16000 then some (some n) else if n = 65535 then some none else none

/-! ## Request frames -/

/-- The number of parameter bytes of each request code, absent for a code not in the request index (section 10.7). -/
def requestLength (code : Byte) : Option Nat :=
  match code.toNat with
  | 0x01 => some 2
  | 0x02 => some 2
  | 0x03 => some 10
  | 0x04 => some 7
  | 0x05 => some 2
  | 0x06 => some 2
  | 0x07 => some 8
  | 0x08 => some 1
  | 0x09 => some 1
  | 0x10 => some 2
  | 0x11 => some 0
  | 0x20 => some 1
  | 0x21 => some 1
  | 0x22 => some 1
  | 0x30 => some 1
  | 0x31 => some 0
  | 0x32 => some 2
  | 0x33 => some 2
  | 0x34 => some 0
  | 0x35 => some 0
  | 0x36 => some 1
  | 0x37 => some 1
  | 0x38 => some 2
  | 0x40 => some 1
  | 0x50 => some 3
  | 0x51 => some 1
  | 0x60 => some 0
  | 0x70 => some 0
  | 0x71 => some 0
  | _ => none

/-- The RAISE that its ten parameter bytes carry. -/
def raiseAt (c1 c0 cls d1 d0 p1 p0 ls ye lp : Byte) : Request :=
  match clsAt cls, capAt p1 p0, laneSetAt ls, yawEffectAt ye, loopSetAt lp with
  | some k, some cap, some lanes, some yaw, some loops =>
    .raise (codeAt c1 c0) k (wordAt d1 d0) cap lanes yaw loops
  | _, _, _, _, _ => .badEncoding

/-- The AMEND that its seven parameter bytes carry. -/
def amendAt (c1 c0 p1 p0 ls ye lp : Byte) : Request :=
  match capAt p1 p0, laneSetAt ls, yawEffectAt ye, loopSetAt lp with
  | some cap, some lanes, some yaw, some loops => .amend (codeAt c1 c0) cap lanes yaw loops
  | _, _, _, _ => .badEncoding

/-- The BIND that its eight parameter bytes carry. -/
def bindAt (slot c1 c0 act lp d1 d0 cnt : Byte) : Request :=
  match actionAt act, loopSetAt lp with
  | some a, some loops => .bind slot.toNat (codeAt c1 c0) a loops (wordAt d1 d0) cnt.toNat
  | _, _ => .badEncoding

/-- The request that a code of the index and its parameter bytes carry; `badEncoding` when a parameter field holds a
value its encoding does not allow (R187 step 5, R188). `straps` are the pins a WARM_RESET reads. -/
def requestAt (straps : Fin 4) (code : Byte) (params : List Byte) : Request :=
  match code.toNat, params with
  | 0x01, [a, b] => .lookup (codeAt a b)
  | 0x02, [a, b] => match filterAt b with | some f => .scan a.toNat f | none => .badEncoding
  | 0x03, [a, b, c, d, e, f, g, h, i, j] => raiseAt a b c d e f g h i j
  | 0x04, [a, b, c, d, e, f, g] => amendAt a b c d e f g
  | 0x05, [a, b] => .ack (codeAt a b)
  | 0x06, [a, b] => .retire (codeAt a b)
  | 0x07, [a, b, c, d, e, f, g, h] => bindAt a b c d e f g h
  | 0x08, [a] => .unbind a.toNat
  | 0x09, [a] => .readSlot a.toNat
  | 0x10, [a, b] => .setDemand (wordAt a b)
  | 0x11, [] => .readEnvelope
  | 0x20, [a] => .laneStart a.toNat
  | 0x21, [a] => .laneStop a.toNat
  | 0x22, [a] => .readLane a.toNat
  | 0x30, [a] => match onOffAt a with | some b => .setTracking b | none => .badEncoding
  | 0x31, [] => .startUnwind
  | 0x32, [a, b] => .yawGoto (wordAt a b)
  | 0x33, [a, b] => match dirAt a with | some d => .yawJog d b.toNat | none => .badEncoding
  | 0x34, [] => .serviceStop
  | 0x35, [] => .readYaw
  | 0x36, [a] => .driveIsolate a.toNat
  | 0x37, [a] => .driveReturn a.toNat
  | 0x38, [a, b] => .setTwist (wordSigned (wordAt a b))
  | 0x40, [a] => .readLoop a.toNat
  | 0x50, [a, b, c] => .setSetting a.toNat (wordSigned (wordAt b c))
  | 0x51, [a] => .getSetting a.toNat
  | 0x60, [] => .readSupply
  | 0x70, [] => .ident
  | 0x71, [] => .warmReset straps
  | _, _ => .badEncoding

/-- What the link unit finds at the stop condition of a request frame (R187). -/
inductive Judged where
  /-- One of checks 1 to 4 fails: the frame is not executed. -/
  | fault (status : Status)
  /-- The frame is executed, by its owner or, at a failure of check 5, by the link unit. -/
  | execute (r : Request)
deriving DecidableEq, Repr

/-- Checks 3 to 5 on the request bytes without their check byte (R187). -/
def judgeBody (straps : Fin 4) (body : List Byte) : Judged :=
  match body with
  | [] => .fault .badRequest
  | code :: params =>
    match requestLength code with
    | none => .fault .badRequest
    | some n => if params.length = n then .execute (requestAt straps code params) else .fault .badRequest

/-- The five checks in their order (R187), for a frame to `address` with check mode `checked`. -/
def judgeFrame (address : Nat) (checked : Bool) (straps : Fin 4) (bytes : List Byte) : Judged :=
  if checked then
    if bytes.length < 2 then .fault .badRequest
    else if some (crc8 (writeAddress address :: bytes.dropLast)) = bytes.getLast? then
      judgeBody straps bytes.dropLast
    else .fault .checkFail
  else if bytes.length = 0 then .fault .badRequest
  else judgeBody straps bytes

/-! ## Request frames as a requester forms them -/

/-- The byte of a filter (R188). -/
def filterIndex : Filter → Nat
  | .all => 0
  | .unread => 1
  | .classAtLeast k => 2 + clsIndex k

/-- The byte of a yaw effect (R188). -/
def yawEffectIndex : YawEffect → Nat
  | .none => 0
  | .forbidCw => 1
  | .forbidCcw => 2
  | .park => 3
  | .holdAuto => 4
  | .hold => 5

/-- A power_cap field: 65535 for absent (section 10.7). -/
def capBytes (cap : Option Nat) : List Byte := word (cap.getD 65535)

/-- The code of a request and its parameter bytes (section 10.7); no bytes form a request out of its encoding. -/
def requestBytes : Request → List Byte
  | .lookup c => 0x01#8 :: codeBytes c
  | .scan start f => 0x02#8 :: (named start ++ named (filterIndex f))
  | .raise c cls detail cap lanes yaw loops =>
    0x03#8 :: (codeBytes c ++ named (clsIndex cls) ++ word detail ++ capBytes cap ++ setByte lanes ++
      named (yawEffectIndex yaw) ++ setByte loops)
  | .amend c cap lanes yaw loops =>
    0x04#8 :: (codeBytes c ++ capBytes cap ++ setByte lanes ++ named (yawEffectIndex yaw) ++ setByte loops)
  | .ack c => 0x05#8 :: codeBytes c
  | .retire c => 0x06#8 :: codeBytes c
  | .bind slot c a loops delay count =>
    0x07#8 :: (named slot ++ codeBytes c ++ named (actionIndex a) ++ setByte loops ++ word delay ++ named count)
  | .unbind slot => 0x08#8 :: named slot
  | .readSlot slot => 0x09#8 :: named slot
  | .setDemand d => 0x10#8 :: word d
  | .readEnvelope => [0x11#8]
  | .laneStart n => 0x20#8 :: named n
  | .laneStop n => 0x21#8 :: named n
  | .readLane n => 0x22#8 :: named n
  | .setTracking on => 0x30#8 :: flag on
  | .startUnwind => [0x31#8]
  | .yawGoto h => 0x32#8 :: word h
  | .yawJog d sec => 0x33#8 :: (named (dirIndex d) ++ named sec)
  | .serviceStop => [0x34#8]
  | .readYaw => [0x35#8]
  | .driveIsolate n => 0x36#8 :: named n
  | .driveReturn n => 0x37#8 :: named n
  | .setTwist t => 0x38#8 :: signed t
  | .readLoop n => 0x40#8 :: named n
  | .setSetting id v => 0x50#8 :: (named id ++ signed v)
  | .getSetting id => 0x51#8 :: named id
  | .readSupply => [0x60#8]
  | .ident => [0x70#8]
  | .warmReset _ => [0x71#8]
  | .badEncoding => []

/-- The bytes of a request frame after its address byte: with a check byte over the address byte and the request bytes
when check mode is on (R187). -/
def frameBytes (address : Nat) (checked : Bool) (r : Request) : List Byte :=
  if checked then requestBytes r ++ [crc8 (writeAddress address :: requestBytes r)] else requestBytes r

end Sys2Proof.Machine
end

