-- ==== Sys2Proof/Machine/Ops.lean ====
section
/-! DEFINITION. The operations every block shares: a block's part of an event as a function to the next state and the
events it emits, reading settings, and the checks both links share. -/

namespace Sys2Proof.Machine

/-- A block's part of an event: the state it leaves and the events it hands on, in their order. -/
abbrev Act := State → State × List Ev

/-- Nothing happens. -/
def Act.skip : Act := fun s => (s, [])

/-- A change of state that hands nothing on. -/
def Act.update (f : State → State) : Act := fun s => (f s, [])

/-- Events handed on, with no change of state. -/
def Act.emit (evs : List Ev) : Act := fun s => (s, evs)

/-- One part after another; what the first hands on stands before what the second hands on. -/
def Act.andThen (f g : Act) : Act := fun s =>
  let r := f s
  let q := g r.1
  (q.1, r.2 ++ q.2)

/-- Parts in their order. -/
def Act.all : List Act → Act
  | [] => Act.skip
  | f :: rest => Act.andThen f (Act.all rest)

/-- A part taken only where a condition on the state holds. -/
def Act.guarded (p : State → Bool) (f : Act) : Act := fun s => if p s then f s else (s, [])

/-- A setting (R202). -/
def State.setting (s : State) (id : Nat) : Int := settingOf s.settings id

/-- A setting whose range has no negative value. -/
def State.settingNat (s : State) (id : Nat) : Nat := (s.setting id).toNat

/-- Whether an off/on setting is on. -/
def State.settingOn (s : State) (id : Nat) : Bool := s.setting id == 1

/-- A link's check mode: setting 37 or 38 (R191). -/
def State.checkMode (s : State) : Link → Bool
  | .main => s.settingOn 37
  | .service => s.settingOn 38

/-- A link's state changed. -/
def State.setLink (s : State) (l : Link) (u : LinkUnit) : State := { s with links := s.links.set l u }

/-- Whether the main link is refused while a technician holds the key (R192, R193). -/
def State.keyRefuses (s : State) (l : Link) : Bool := l == .main && s.keyView

/-- Whether a link unit can take a frame: not under an asserted reset line (R197), and not during the address byte of an
attention frame, when the unit disregards the line (R199; log 10). -/
def State.takesFrame (s : State) (l : Link) : Bool :=
  !s.lineAsserted && !((s.links.get l).frame == .attention && (s.links.get l).payload.isNone)

/-- What a request answers: its status and data items (R189). -/
structure Answer where
  status : Status
  data : List Byte
deriving DecidableEq, Repr

/-- A request served by its owner: the state, what it hands on, and its answer. -/
structure Served where
  state : State
  events : List Ev
  answer : Answer
deriving DecidableEq, Repr

/-- A request that changes nothing and answers a status alone. -/
def Served.refused (s : State) (status : Status) : Served := { state := s, events := [], answer := ⟨status, []⟩ }

/-- A request that changes nothing and answers DONE with data. -/
def Served.read (s : State) (data : List Byte) : Served := { state := s, events := [], answer := ⟨.done, data⟩ }

/-- A request carried out, with what it does. -/
def Served.did (r : State × List Ev) (status : Status) (data : List Byte) : Served :=
  { state := r.1, events := r.2, answer := ⟨status, data⟩ }

/-- The index below 4, 8 or 3 that a number names, absent when out of range. -/
def indexOf (n k : Nat) : Option (Fin n) := if h : k < n then some ⟨k, h⟩ else none

end Sys2Proof.Machine
end

