-- ==== Sys2Proof/Machine/Flags.lean ====
section
/-! DEFINITION. Unread marks (R23, R24) and attention requests (R25, R198). -/

namespace Sys2Proof.Machine

/-- The order NOTICE < LIMIT < SHED < TRIP (section 4.3). -/
def clsAtLeast (k : Cls) (c : Cls) : Bool := decide (clsIndex k ≤ clsIndex c)

/-- The higher of two classes. -/
def higherCls (a b : Cls) : Cls := if clsIndex a ≤ clsIndex b then b else a

/-- One class step up, TRIP staying TRIP (R53). -/
def clsUp : Cls → Cls
  | .notice => .limit
  | .limit => .shed
  | .shed => .trip
  | .trip => .trip

/-- The unread marks after a change: both for a change that comes from inside the part, the other link's for a change
that a link's request makes (R23). -/
def marksAfter (via : Option Link) (u : PerLink Bool) : PerLink Bool :=
  match via with
  | none => ⟨true, true⟩
  | some l => u.set l.other true

/-- The class a threshold value names, absent for NONE (R202). -/
def thresholdAt (v : Int) : Option Cls :=
  match v with
  | 1 => some .notice
  | 2 => some .limit
  | 3 => some .shed
  | 4 => some .trip
  | _ => none

/-- A link's attention threshold: setting 35 or 36 (R25). -/
def State.threshold (s : State) : Link → Option Cls
  | .main => thresholdAt (s.setting 35)
  | .service => thresholdAt (s.setting 36)

/-- Whether a class reaches a threshold; NONE is reached by no class. -/
def reaches (threshold : Option Cls) (c : Cls) : Bool :=
  match threshold with
  | none => false
  | some k => clsAtLeast k c

/-- Whether a change that takes a record from `before` (absent at a creation) to `after` makes an attention request for
a link (R25). -/
def requestsAttention (s : State) (l : Link) (before : Option Record) (after : Record) : Bool :=
  after.unread.get l && reaches (s.threshold l) after.cls &&
  (match before with
   | none => true
   | some b => !(b.unread.get l) || !(reaches (s.threshold l) b.cls))

/-- A link unit that has been handed an attention request (R198). -/
def LinkUnit.asked (u : LinkUnit) : LinkUnit :=
  { u with attention := true, late := u.late || u.payload.isSome }

/-- The attention request of one link, where the change makes one. -/
def State.askLink (s : State) (l : Link) (before : Option Record) (after : Record) : State :=
  if requestsAttention s l before after then s.setLink l (s.links.get l).asked else s

/-- The attention requests of one change (R25). -/
def State.ask (s : State) (before : Option Record) (after : Record) : State :=
  (s.askLink .main before after).askLink .service before after

end Sys2Proof.Machine
end

