-- ==== Sys2Proof/Machine/Limits.lean ====
section
/-! DEFINITION. The limit resolver (chapter 2): the effective limits of a table, and what a change of them delivers. -/

namespace Sys2Proof.Machine

/-- The lower of two caps, either of which may be absent (R5, R34). -/
def lowerCap : Option Nat → Option Nat → Option Nat
  | none, b => b
  | a, none => a
  | some a, some b => some (min a b)

/-- The lowest power_cap among the records that carry one (R34). -/
def lowestCap (table : List Record) : Option Nat := table.foldr (fun r acc => lowerCap r.eff.cap acc) none

/-- Whether a TRIP record is present. -/
def tripPresent (table : List Record) : Bool := table.any (fun r => r.cls == .trip)

/-- cap_eff (R34). -/
def capOf (table : List Record) : Nat := if tripPresent table then 0 else (lowestCap table).getD 16000

/-- cap_source: the code of the record in the lowest slot whose cap equals cap_eff (R35); the table stands in slot
order. -/
def capSourceOf (table : List Record) : Option Code :=
  (table.find? (fun r => r.eff.cap == some (capOf table))).map (fun r => r.code)

/-- The union of the lane sets (R36). -/
def excludedOf (table : List Record) : LaneSet := table.foldr (fun r acc => r.eff.lanes ||| acc) 0

/-- The yaw limits that are on (R37). -/
def yawOf (table : List Record) : YawFlags := table.foldr (fun r acc => r.eff.yaw ||| acc) 0

/-- The union of the boosts (R38). -/
def boostOf (table : List Record) : LoopSet := table.foldr (fun r acc => r.eff.boost ||| acc) 0

/-- The higher of a class and one that may be NONE. -/
def higherOf (c : Cls) : Option Cls → Option Cls
  | none => some c
  | some k => some (higherCls c k)

/-- highest_class (R39). -/
def highestOf (table : List Record) : Option Cls := table.foldr (fun r acc => higherOf r.cls acc) none

/-- The effective limits of a table (R33). -/
def resolve (table : List Record) : Limits :=
  { capEff := capOf table, capSource := capSourceOf table, excluded := excludedOf table, yaw := yawOf table
    boost := boostOf table, highest := highestOf table }

/-- A value that changed, absent when it did not. -/
def changed {α : Type} [DecidableEq α] (old new : α) : Option α := if old = new then none else some new

/-- The envelope unit's delivery (R41). -/
def envelopeDelivery (old new : Limits) : EnvelopeDelivery :=
  { capEff := changed old.capEff new.capEff, capSource := changed old.capSource new.capSource
    excluded := changed old.excluded new.excluded }

/-- A yaw flag of a set (R3's order). -/
def yawPark (f : YawFlags) : Bool := hasBit f 2

/-- The deliveries of one recomputation: one for each block a limit of which changed, in the order EU, LM, YM, WH, CU
(R41; log 4). -/
def deliveries (old new : Limits) : List Ev :=
  (if old.capEff = new.capEff ∧ old.capSource = new.capSource ∧ old.excluded = new.excluded then []
    else [.euLimits (envelopeDelivery old new)]) ++
  (if old.excluded = new.excluded then [] else [.lmExcluded new.excluded false]) ++
  (if old.yaw = new.yaw then [] else [.ymLimits new.yaw]) ++
  (if yawPark old.yaw = yawPark new.yaw then [] else [.whPark (yawPark new.yaw) false]) ++
  (if old.boost = new.boost then [] else [.cuBoost new.boost])

/-- The full delivery of a warm reset (R43). -/
def fullDelivery (new : Limits) : List Ev :=
  [.euLimits { capEff := some new.capEff, capSource := some new.capSource, excluded := some new.excluded },
   .lmExcluded new.excluded true, .ymLimits new.yaw, .whPark (yawPark new.yaw) true, .cuBoost new.boost]

/-- The table replaced, the limits recomputed at the change, and what is delivered (R40, R41). -/
def State.withTable (table : List Record) : Act := fun s =>
  ({ s with table := table, limits := resolve table }, deliveries s.limits (resolve table))

end Sys2Proof.Machine
end

