-- ==== Sys2Proof/Machine/Catalogue.lean ====
section
/-! DEFINITION. The catalogue of internal condition codes (R32): what each raise or cause-present report carries. -/

namespace Sys2Proof.Machine

/-- A yaw flag by name, as the set R3 draws (NONE is the empty set). -/
def flagOf : YawEffect → YawFlags
  | .none => 0
  | .forbidCw => 1
  | .forbidCcw => 2
  | .park => 4
  | .holdAuto => 8
  | .hold => 16

/-- A raise of an internal code with origin INTERNAL. -/
def internalRaise (code : Code) (cls : Cls) (mode : RecMode) (detail : Nat) (eff : Effects) : Raise :=
  { code := code, cls := cls, mode := mode, origin := .internal, detail := detail, eff := eff, via := none }

/-- Effects that hold or forbid yaw motion. -/
def yawEffects (e : YawEffect) : Effects := { Effects.nothing with yaw := flagOf e }

/-- Effects that exclude one lane. -/
def excludeEffects (n : Fin 4) : Effects := { Effects.nothing with lanes := oneBit 4 n.val }

/-- 0:001. -/
def overflowCode : Code := ⟨0, 1⟩

/-- 0:002. -/
def spentCode : Code := ⟨0, 2⟩

/-- 0:003. -/
def hostSilentCode : Code := ⟨0, 3⟩

/-- 0:004. -/
def serviceLockCode : Code := ⟨0, 4⟩

/-- 0:005. -/
def warmRestartCode : Code := ⟨0, 5⟩

/-- 1:001. -/
def gridLossCode : Code := ⟨1, 1⟩

/-- 1:002. -/
def upsLowCode : Code := ⟨1, 2⟩

/-- 2:nXX, the code a lane's local fault code becomes. -/
def laneCode (n : Fin 4) (xx : Nat) : Code := { group := 2, item := Fin.ofNat 4096 (n.val * 256 + xx) }

/-- 2:40n. -/
def laneSilentCode (n : Fin 4) : Code := { group := 2, item := Fin.ofNat 4096 (0x400 + n.val) }

/-- 2:41n. -/
def prechargeFailCode (n : Fin 4) : Code := { group := 2, item := Fin.ofNat 4096 (0x410 + n.val) }

/-- 2:42n. -/
def syncFailCode (n : Fin 4) : Code := { group := 2, item := Fin.ofNat 4096 (0x420 + n.val) }

/-- 2:43n. -/
def resetFailCode (n : Fin 4) : Code := { group := 2, item := Fin.ofNat 4096 (0x430 + n.val) }

/-- 3:001. -/
def twistLimitCode : Code := ⟨3, 1⟩

/-- 3:002. -/
def yawStallCode : Code := ⟨3, 2⟩

/-- 3:003. -/
def drivesLowCode : Code := ⟨3, 3⟩

/-- 3:004. -/
def brakeFailCode : Code := ⟨3, 4⟩

/-- 3:005. -/
def stormCode : Code := ⟨3, 5⟩

/-- 3:006. -/
def misalignCode : Code := ⟨3, 6⟩

/-- 3:007. -/
def trackBlockedCode : Code := ⟨3, 7⟩

/-- 3:008. -/
def vaneFaultCode : Code := ⟨3, 8⟩

/-- 3:009. -/
def headingFaultCode : Code := ⟨3, 9⟩

/-- 3:01n. -/
def driveFaultCode (n : Fin 8) : Code := { group := 3, item := Fin.ofNat 4096 (0x10 + n.val) }

/-- 4:01L. -/
def pumpFailCode (l : Fin 3) : Code := { group := 4, item := Fin.ofNat 4096 (0x10 + l.val) }

/-- 4:02L. -/
def loopHotCode (l : Fin 3) : Code := { group := 4, item := Fin.ofNat 4096 (0x20 + l.val) }

/-- 4:03L. -/
def sensorFaultCode (l : Fin 3) : Code := { group := 4, item := Fin.ofNat 4096 (0x30 + l.val) }

/-- REACTION_SPENT of slot k. -/
def spentRaise (k : Fin 8) : Raise := internalRaise spentCode .notice .edge k.val Effects.nothing

/-- HOST_SILENT present (R194). -/
def hostSilentRaise (seconds : Nat) : Raise :=
  internalRaise hostSilentCode .trip .level seconds { yawEffects .park with cap := some 0 }

/-- SERVICE_LOCK present (R192). -/
def serviceLockRaise : Raise :=
  internalRaise serviceLockCode .shed .level 0 { cap := some 0, lanes := 15, yaw := flagOf .holdAuto, boost := 0 }

/-- WARM_RESTART with its detail (R31). -/
def warmRestartRaise (detail : Nat) : Raise := internalRaise warmRestartCode .notice .edge detail Effects.nothing

/-- GRID_LOSS present (R178). -/
def gridLossRaise (detail : Nat) : Raise :=
  internalRaise gridLossCode .limit .level detail { Effects.nothing with cap := some 0 }

/-- UPS_LOW present (R178). -/
def upsLowRaise (detail : Nat) : Raise := internalRaise upsLowCode .shed .level detail (yawEffects .hold)

/-- LANE_TRIP(n, XX) (R91). -/
def laneTripRaise (n : Fin 4) (xx detail : Nat) : Raise :=
  { code := laneCode n xx, cls := .shed, mode := .edge, origin := .lane n, detail := detail, eff := excludeEffects n
    via := none }

/-- LANE_WARN(n, XX) present (R92). -/
def laneWarnRaise (n : Fin 4) (xx detail : Nat) : Raise :=
  { code := laneCode n xx, cls := .notice, mode := .level, origin := .lane n, detail := detail, eff := Effects.nothing
    via := none }

/-- LANE_SILENT(n) (R89). -/
def laneSilentRaise (n : Fin 4) : Raise := internalRaise (laneSilentCode n) .shed .edge 0 (excludeEffects n)

/-- LANE_PRECHARGE_FAIL(n) (R95). -/
def prechargeFailRaise (n : Fin 4) (volts : Nat) : Raise :=
  internalRaise (prechargeFailCode n) .shed .edge volts (excludeEffects n)

/-- LANE_SYNC_FAIL(n) (R96). -/
def syncFailRaise (n : Fin 4) : Raise := internalRaise (syncFailCode n) .shed .edge 0 (excludeEffects n)

/-- LANE_RESET_FAIL(n) (R100). -/
def resetFailRaise (n : Fin 4) : Raise := internalRaise (resetFailCode n) .shed .edge 0 (excludeEffects n)

/-- TWIST_LIMIT present (R115). -/
def twistLimitRaise (twist : Int) : Raise :=
  internalRaise twistLimitCode .limit .level (signedWord twist) (yawEffects (if 0 < twist then .forbidCw else .forbidCcw))

/-- YAW_STALL (R150). -/
def yawStallRaise (heading : Nat) : Raise := internalRaise yawStallCode .shed .edge heading (yawEffects .hold)

/-- YAW_DRIVES_LOW present (R142). -/
def drivesLowRaise (healthy : Nat) : Raise := internalRaise drivesLowCode .limit .level healthy (yawEffects .hold)

/-- BRAKE_FAIL (R147). -/
def brakeFailRaise (bar : Nat) : Raise := internalRaise brakeFailCode .shed .edge (bar % 65536) (yawEffects .hold)

/-- STORM present (R120). -/
def stormRaise (w : Int) : Raise :=
  internalRaise stormCode .limit .level (signedWord w) { yawEffects .park with cap := some 0 }

/-- YAW_MISALIGN present (R117). -/
def misalignRaise (f : Int) (cap : Nat) : Raise :=
  internalRaise misalignCode .limit .level (signedWord f) { Effects.nothing with cap := some cap }

/-- TRACK_BLOCKED present: detail 1 for a blocked CW, 2 for a blocked CCW (R135). -/
def trackBlockedRaise (dir : Dir) : Raise :=
  internalRaise trackBlockedCode .notice .level (match dir with | .cw => 1 | .ccw => 2) Effects.nothing

/-- VANE_FAULT present (R116). -/
def vaneFaultRaise (f : Int) : Raise :=
  internalRaise vaneFaultCode .limit .level (signedWord f) (yawEffects .holdAuto)

/-- HEADING_FAULT present (R113). -/
def headingFaultRaise (heading : Nat) : Raise := internalRaise headingFaultCode .shed .level heading (yawEffects .hold)

/-- DRIVE_FAULT(n) (R143). -/
def driveFaultRaise (n : Fin 8) : Raise := internalRaise (driveFaultCode n) .limit .edge 0 Effects.nothing

/-- PUMP_FAIL(L) (R159, R160). -/
def pumpFailRaise (l : Fin 3) (detail : Nat) : Raise :=
  match l with
  | 0 => internalRaise (pumpFailCode 0) .shed .edge detail { Effects.nothing with cap := some 0, lanes := 15 }
  | 1 => internalRaise (pumpFailCode 1) .limit .edge detail { Effects.nothing with cap := some 4000 }
  | 2 => internalRaise (pumpFailCode 2) .limit .edge detail { Effects.nothing with cap := some 8000 }

/-- LOOP_HOT(L) present (R166). -/
def loopHotRaise (l : Fin 3) (tOut : Int) (cap : Nat) : Raise :=
  internalRaise (loopHotCode l) .limit .level (signedWord tOut) { Effects.nothing with cap := some cap }

/-- SENSOR_FAULT(L) present (R155). -/
def sensorFaultRaise (l : Fin 3) : Raise :=
  internalRaise (sensorFaultCode l) .limit .level 0 { Effects.nothing with cap := some 8000, boost := oneBit 3 l.val }

end Sys2Proof.Machine
end

