-- ==== Sys2Proof/Machine/Slots.lean ====
section
/-! DEFINITION. The fields of a reaction slot as its actions start and end (R45, R50, R52, R54, R55). -/

namespace Sys2Proof.Machine

/-- A slot unbound; its last outcome stays (R45, R47). -/
def Slot.unbound (k : Slot) : Slot :=
  { bound := none, action := none, loops := none, delay := none, count := 0, pending := none, last := k.last }

/-- A slot whose action has ended with an outcome: its count falls by 1, and at 0 it unbinds itself (R55). -/
def Slot.ended (k : Slot) (o : SlotOutcome) : Slot :=
  if k.count ≤ 1 then { k with last := o }.unbound else { k with last := o, count := k.count - 1, pending := none }

/-- Whether the end of a slot's action exhausts it (R55). -/
def Slot.exhausts (k : Slot) : Bool := decide (k.count ≤ 1)

/-- Whether a slot holds a pending action for a code. -/
def Slot.pendingFor (k : Slot) (c : Code) : Bool := k.bound == some c && k.pending.isSome

/-- The loops a slot holds in the reaction boost set (R45, R52). -/
def Slot.boosts (k : Slot) : LoopSet :=
  if k.action = some .coolBoost ∧ k.pending.isSome then k.loops.getD 0 else 0

/-- The reaction boost set (R45, R52). -/
def reactionBoost (v : Eight Slot) : LoopSet := v.toList.foldr (fun k acc => k.boosts ||| acc) 0

/-- A slot after a record with a code left the table (R54). -/
def Slot.cancelledFor (c : Code) (k : Slot) : Slot := if k.pendingFor c then k.ended .cancelled else k

/-- The slots after a record with a code left the table (R54). -/
def cancelSlots (c : Code) (v : Eight Slot) : Eight Slot := v.map (Slot.cancelledFor c)

/-- The slots that the removal of a record with a code exhausts, in ascending order (R54, R55). -/
def exhaustedBy (c : Code) (v : Eight Slot) : List (Fin 8) :=
  eightIndices.filter (fun k => (v.get k).pendingFor c && (v.get k).exhausts)

/-- The handover of the reaction boost set, where it changed (R52). -/
def boostHandover (old new : Eight Slot) : List Ev :=
  if reactionBoost old = reactionBoost new then [] else [.cuReaction (reactionBoost new)]

/-- The raises of REACTION_SPENT for slots exhausted (R55). -/
def spentRaises (ks : List (Fin 8)) : List Ev := ks.map (fun k => .ctRaise (spentRaise k))

end Sys2Proof.Machine
end

