-- ==== Sys2Proof/Machine/Table.lean ====
section
/-! DEFINITION. The condition table (chapter 1): finding, placing and changing records, and what every arrival does. -/

namespace Sys2Proof.Machine

/-! ## Finding and placing (R2, R20) -/

/-- The record with a code (R2). -/
def findCode (table : List Record) (c : Code) : Option Record := table.find? (fun r => r.code == c)

/-- Whether a slot is occupied. -/
def slotTaken (table : List Record) (n : Nat) : Bool := table.any (fun r => r.slot == n)

/-- The lowest-numbered free general slot, absent when the table is full (R2, section 1.8). -/
def freeSlot (table : List Record) : Option Nat := (List.range 47).find? (fun n => !slotTaken table n)

/-- A record put in its slot, the table kept in slot order. -/
def insertRecord (r : Record) : List Record → List Record
  | [] => [r]
  | q :: rest => if r.slot < q.slot then r :: q :: rest else q :: insertRecord r rest

/-- The table with the record of r's code replaced by r. -/
def replaceRecord (r : Record) (table : List Record) : List Record :=
  table.map (fun q => if q.code = r.code then r else q)

/-- The table without the record of a code. -/
def removeCode (c : Code) (table : List Record) : List Record := table.filter (fun q => !(q.code == c))

/-- The better candidate for eviction: the older last_change, the earlier in slot order among equals (R20). -/
def olderOf (r : Record) : Option Record → Option Record
  | none => some r
  | some q => if r.lastChange ≤ q.lastChange then some r else some q

/-- The NOTICE record in a general slot that an eviction removes (R20). -/
def evictionCandidate (table : List Record) : Option Record :=
  (table.filter (fun r => r.cls == .notice && decide (r.slot < 47))).foldr olderOf none

/-! ## Effects (R4, R5) -/

/-- The effects as a class forces them: a TRIP record's cap is present and 0 (R4). -/
def forced (c : Cls) (e : Effects) : Effects := if c = .trip then { e with cap := some 0 } else e

/-- The merge of two sets of effects, the most restrictive value of each field (R5). -/
def mergeEffects (a b : Effects) : Effects :=
  { cap := lowerCap a.cap b.cap, lanes := a.lanes ||| b.lanes, yaw := a.yaw ||| b.yaw, boost := a.boost ||| b.boost }

/-- Whether a class and effects a link carries satisfy R4: no effect on a NOTICE, no lane set on a LIMIT (R16, R28). -/
def effectsAllowed (c : Cls) (e : Effects) : Bool :=
  match c with
  | .notice => decide (e = Effects.nothing)
  | .limit => decide (e.lanes = 0)
  | .shed => true
  | .trip => true

/-! ## Records after a change -/

/-- The record a raise creates (R7). -/
def createdRecord (uptime slot : Nat) (r : Raise) : Record :=
  { slot := slot, code := r.code, cls := r.cls, mode := r.mode, origin := r.origin, state := .active
    cause := r.mode == .level, occurrences := 1, firstRaised := uptime, lastChange := uptime, detail := r.detail
    eff := forced r.cls r.eff, unread := marksAfter r.via ⟨false, false⟩, holdoff := none }

/-- The record after a re-raise (R8, R10). -/
def reRaised (uptime : Nat) (r : Raise) (q : Record) : Record :=
  let cls := higherCls q.cls r.cls
  let mode := if r.mode = .edge then .edge else q.mode
  { q with
    cls := cls, mode := mode, state := .active, cause := mode == .level
    occurrences := saturate 255 (q.occurrences + 1), lastChange := uptime, detail := r.detail
    eff := forced cls (mergeEffects q.eff r.eff), unread := marksAfter r.via q.unread, holdoff := none }

/-- The hold-off setting of a class (R13). -/
def holdoffId : Cls → Nat
  | .notice => 15
  | .limit => 16
  | .shed => 17
  | .trip => 18

/-- The record as it enters CLEARING: the held hold-off, or the setting of its class (R13). -/
def enterClearing (s : State) (q : Record) : Record :=
  { q with state := .clearing, holdoff := some (q.holdoff.getD (s.settingNat (holdoffId q.cls))) }

/-- The record after a cause-absent report that changes it (R12). -/
def causeLost (s : State) (q : Record) : Record :=
  let q' := { q with cause := false, lastChange := s.uptime, unread := marksAfter none q.unread }
  if q.state = .acked then enterClearing s q' else q'

/-- The record after an ACK that changes it (R11). -/
def acked (s : State) (l : Link) (q : Record) : Record :=
  let q' := { q with state := .acked, lastChange := s.uptime, unread := marksAfter (some l) q.unread }
  if q.mode = .level ∧ q.cause = false then enterClearing s q' else q'

/-- The record after a refresh (R14). -/
def refreshed (uptime cap : Nat) (q : Record) : Record :=
  { q with eff := { q.eff with cap := some cap }, lastChange := uptime, unread := marksAfter none q.unread }

/-- The record after an escalation to a class, with a cap where it carries one (R15). -/
def escalated (uptime : Nat) (cls : Cls) (cap : Option Nat) (q : Record) : Record :=
  let k := higherCls q.cls cls
  { q with
    cls := k, eff := forced k { q.eff with cap := lowerCap q.eff.cap cap }, lastChange := uptime
    unread := marksAfter none q.unread }

/-- The record after an AMEND (R16). -/
def amended (uptime : Nat) (l : Link) (e : Effects) (q : Record) : Record :=
  { q with eff := forced q.cls e, lastChange := uptime, unread := marksAfter (some l) q.unread }

/-! ## Changes (R6) -/

/-- A change that leaves a record in the table: the record takes its new fields, attention is asked for, the limits are
recomputed and what changed of them is delivered (R6, R25, R40, R41). -/
def changeRecord (before after : Record) : Act := fun s =>
  State.withTable (replaceRecord after s.table) (s.ask (some before) after)

/-- A creation in a slot, in a table that stands without whatever held the slot (R7). -/
def placeRecord (table : List Record) (r : Record) : Act := fun s =>
  State.withTable (insertRecord r table) (s.ask none r)

/-- The offer of a raise to the reaction unit (R7, R8). -/
def offer (c : Code) : Act := Act.emit [.ruOffer c]

/-- Cancellation of the pending actions bound to a code that left the table; the raises it causes are not yet taken
(R54). -/
def cancelFor (c : Code) : Act := fun s =>
  ({ s with slots := cancelSlots c s.slots }, boostHandover s.slots (cancelSlots c s.slots))

/-! ## Raises (R7, R8, R20, R21, R22) -/

/-- The raise of OVERFLOW that a dropped raise becomes (R21). -/
def overflowRaise (r : Raise) : Raise :=
  { code := overflowCode, cls := r.cls, mode := .edge, origin := .internal, detail := r.code.toNat, eff := r.eff
    via := none }

/-- The cooling unit's note that the raise of a PUMP_FAIL was folded into OVERFLOW (R161). -/
def noteFolded (c : Code) (s : State) : State :=
  match threeIndices.find? (fun l => pumpFailCode l == c) with
  | none => s
  | some l => { s with cu := { s.cu with loops := s.cu.loops.set l { s.cu.loops.get l with failFolded := true } } }

/-- A raise of a code that is present (R8). -/
def reRaise (r : Raise) (q : Record) : Act := fun s =>
  Act.andThen (changeRecord q (reRaised s.uptime r q)) (offer r.code) s

/-- A raise into a free general slot (R7). -/
def createIn (slot : Nat) (r : Raise) : Act := fun s =>
  Act.andThen (placeRecord s.table (createdRecord s.uptime slot r)) (offer r.code) s

/-- A raise into a full table that evicts a NOTICE record: the creation is part of the eviction, and a raise that the
eviction causes is taken after it (R20). The model's choice (log 24): the offer of the new record to the reaction unit (R7)
comes before the REACTION_SPENT of a slot that the eviction exhausts; R20 puts that raise after the creation only. -/
def createByEviction (victim : Record) (r : Raise) : Act := fun s =>
  Act.all
    [placeRecord (removeCode victim.code s.table) (createdRecord s.uptime victim.slot r), cancelFor victim.code,
     offer r.code, Act.emit (spentRaises (exhaustedBy victim.code s.slots))] s

/-- An internal raise that no slot can hold, folded into OVERFLOW (R21). -/
def foldRaise (r : Raise) : Act := fun s =>
  let o := overflowRaise r
  let s' := noteFolded r.code s
  match findCode s.table overflowCode with
  | some q => Act.andThen (changeRecord q (reRaised s.uptime o q)) (offer overflowCode) s'
  | none => Act.andThen (placeRecord s.table (createdRecord s.uptime 47 o)) (offer overflowCode) s'

/-- Whether a raise from a link finds neither its record, nor a slot, nor a record to evict (R22). -/
def tableRefuses (s : State) (c : Code) : Bool :=
  (findCode s.table c).isNone && (freeSlot s.table).isNone && (evictionCandidate s.table).isNone

/-- A raise as the table takes it (R7, R8, R20, R21, R22). -/
def takeRaise (r : Raise) : Act := fun s =>
  match findCode s.table r.code with
  | some q => reRaise r q s
  | none =>
    match freeSlot s.table with
    | some n => createIn n r s
    | none =>
      match evictionCandidate s.table with
      | some victim => createByEviction victim r s
      | none => if r.via.isSome then (s, []) else foldRaise r s

/-! ## Cause reports (R9, R12) -/

/-- A cause-present report (R9). -/
def takePresent (r : Raise) : Act := fun s =>
  match findCode s.table r.code with
  | none => takeRaise r s
  | some q => if q.mode = .level ∧ q.cause = true then (s, []) else takeRaise r s

/-- A cause-absent report (R9, R10, R12). -/
def takeAbsent (c : Code) : Act := fun s =>
  match findCode s.table c with
  | none => (s, [])
  | some q =>
    if q.mode = .level ∧ q.cause = true ∧ q.state ≠ .clearing then changeRecord q (causeLost s q) s else (s, [])

/-! ## Changes that are not raises (R14, R15) -/

/-- A refresh of a computed cap (R14). -/
def takeRefresh (c : Code) (cap : Nat) : Act := fun s =>
  match findCode s.table c with
  | none => (s, [])
  | some q => if q.cls = .trip then (s, []) else changeRecord q (refreshed s.uptime cap q) s

/-- An escalation (R15). -/
def takeEscalation (c : Code) (rise : Cls → Cls) (cap : Option Nat) : Act := fun s =>
  match findCode s.table c with
  | none => (s, [])
  | some q =>
    let q' := escalated s.uptime (rise q.cls) cap q
    if q'.cls = q.cls ∧ q'.eff.cap = q.eff.cap then (s, []) else changeRecord q q' s

/-! ## Retirement (R17, R18) -/

/-- The owner that a retirement is handed to: the yaw motion unit for DRIVE_FAULT(n), the cooling unit for
PUMP_FAIL(L) (R18). -/
def retirementOwner (c : Code) : List Ev :=
  (eightIndices.filter (fun n => driveFaultCode n == c)).map (fun n => .ymDriveRetired n) ++
  (threeIndices.filter (fun l => pumpFailCode l == c)).map (fun l => .cuPumpRetired l)

/-- Retirement of the record with a code: the limits, the pending actions, the owning block, and then the raises of
slots that the cancellation exhausts (R18, R54, R55; log 24). -/
def retireRecord (c : Code) : Act := fun s =>
  Act.all
    [State.withTable (removeCode c s.table), cancelFor c, Act.emit (retirementOwner c),
     Act.emit (spentRaises (exhaustedBy c s.slots))] s

/-- The end of a record's hold-off (R13). -/
def takeHoldoffEnd (c : Code) : Act := fun s =>
  match findCode s.table c with
  | none => (s, [])
  | some q => if q.state = .clearing then retireRecord c s else (s, [])

/-! ## Requests to the table -/

/-- ACK (R11): what it does and answers. -/
def serveAck (l : Link) (c : Code) (s : State) : Served :=
  match findCode s.table c with
  | none => Served.refused s .notFound
  | some q =>
    if q.state = .active then
      Served.did (changeRecord q (acked s l q) s) .done (named (recStateIndex (acked s l q).state))
    else Served.read s (named (recStateIndex q.state))

/-- Whether a link may amend a record of an origin (R16). -/
def mayAmend (l : Link) (o : Origin) : Bool :=
  match o with
  | .internal => false
  | .lane _ => false
  | .main => true
  | .service => l == .service

/-- AMEND (R16). -/
def serveAmend (l : Link) (c : Code) (e : Effects) (s : State) : Served :=
  match findCode s.table c with
  | none => Served.refused s .notFound
  | some q =>
    if !mayAmend l q.origin then Served.refused s .notOwner
    else if !effectsAllowed q.cls e then Served.refused s .badValue
    else Served.did (changeRecord q (amended s.uptime l e q) s) .done []

/-- Whether the main link lacks the authority to retire a record (R17). -/
def retireRefused (s : State) (l : Link) (q : Record) : Bool :=
  l == .main && q.cls == .trip && !(s.settingOn 19 && decide ((q.occurrences : Int) ≤ s.setting 20))

/-- RETIRE (R17). -/
def serveRetire (l : Link) (c : Code) (s : State) : Served :=
  match findCode s.table c with
  | none => Served.refused s .notFound
  | some q =>
    if q.state = .active then Served.refused s .refusedState
    else if q.mode = .level ∧ q.cause = true then Served.refused s .causePresent
    else if retireRefused s l q then Served.refused s .refusedAuthority
    else Served.did (retireRecord c s) .done []

/-- The effects that a RAISE or an AMEND carries. -/
def requestEffects (cap : Option Nat) (lanes : LaneSet) (yaw : YawEffect) (loops : LoopSet) : Effects :=
  { cap := cap, lanes := lanes, yaw := flagOf yaw, boost := loops }

/-- The raise a RAISE request makes: mode EDGE, origin the requesting link (R28). -/
def linkRaise (l : Link) (c : Code) (cls : Cls) (detail : Nat) (e : Effects) : Raise :=
  { code := c, cls := cls, mode := .edge, origin := match l with | .main => .main | .service => .service
    detail := detail, eff := e, via := some l }

/-- The slot and occurrences a taken RAISE answers (R28). -/
def raiseAnswer (c : Code) (s : State) : List Byte :=
  match findCode s.table c with
  | none => []
  | some q => word q.slot ++ word q.occurrences

/-- RAISE (R28, R22). -/
def serveRaise (l : Link) (c : Code) (cls : Cls) (detail : Nat) (e : Effects) (s : State) : Served :=
  if c.group.val < 8 then Served.refused s .badValue
  else if !effectsAllowed cls e then Served.refused s .badValue
  else if tableRefuses s c then Served.refused s .tableFull
  else
    let r := takeRaise (linkRaise l c cls detail e) s
    Served.did r .done (raiseAnswer c r.1)

/-- holdoff_left as LOOKUP gives it: 0 absent, 1 counting, 2 held, then its value (R26). -/
def holdoffBytes (q : Record) : List Byte :=
  match q.holdoff with
  | none => named 0 ++ word 0
  | some h => named (if q.state = .clearing then 1 else 2) ++ word h

/-- The unread set of a record, bit 0 main, bit 1 service. -/
def unreadByte (u : PerLink Bool) : List Byte := named ((if u.main then 1 else 0) + (if u.service then 2 else 0))

/-- Every field of a record in the order of R26. -/
def recordBytes (q : Record) : List Byte :=
  word q.slot ++ codeBytes q.code ++ named (clsIndex q.cls) ++ named (modeIndex q.mode) ++
  named (originIndex q.origin) ++ named (recStateIndex q.state) ++ flag q.cause ++ word q.occurrences ++
  long q.firstRaised ++ long q.lastChange ++ word q.detail ++ optional 2 word q.eff.cap ++ setByte q.eff.lanes ++
  setByte q.eff.yaw ++ setByte q.eff.boost ++ unreadByte q.unread ++ holdoffBytes q

/-- A record with a link's unread mark cleared (R24). -/
def Record.readBy (l : Link) (q : Record) : Record := { q with unread := q.unread.set l false }

/-- LOOKUP (R26). -/
def serveLookup (l : Link) (c : Code) (s : State) : Served :=
  match findCode s.table c with
  | none => Served.refused s .notFound
  | some q => Served.read { s with table := replaceRecord (q.readBy l) s.table } (recordBytes q)

/-- Whether a record passes a filter (R27). -/
def passes (l : Link) (f : Filter) (q : Record) : Bool :=
  match f with
  | .all => true
  | .unread => q.unread.get l
  | .classAtLeast k => clsAtLeast k q.cls

/-- The records a SCAN returns: the first four that pass, from the start slot upward (R27). -/
def scanned (l : Link) (start : Nat) (f : Filter) (table : List Record) : List Record :=
  (table.filter (fun q => decide (start ≤ q.slot) && passes l f q)).take 4

/-- next_slot: the slot after the fourth, or 48 (R27). -/
def nextSlot (found : List Record) : Nat :=
  match found with
  | [_, _, _, q] => q.slot + 1
  | _ => 48

/-- The summary of a record (R27). -/
def summaryBytes (l : Link) (q : Record) : List Byte :=
  word q.slot ++ codeBytes q.code ++ named (clsIndex q.cls) ++ named (recStateIndex q.state) ++ word q.occurrences ++
  flag (q.unread.get l)

/-- The table with a link's mark cleared on each record of a list (R24, R27). -/
def markRead (l : Link) (found : List Record) (table : List Record) : List Record :=
  table.map (fun q => if found.any (fun r => r.code == q.code) then q.readBy l else q)

/-- SCAN (R27). The model's choice (log 17): the items stand as the count of summaries, the summaries, and next_slot last;
R27 names the items and R189 sends them in the order the rule lists them, but R27 lists them in no single place. -/
def serveScan (l : Link) (start : Nat) (f : Filter) (s : State) : Served :=
  if 48 < start then Served.refused s .badValue
  else
    let found := scanned l start f s.table
    Served.read { s with table := markRead l found s.table }
      (named found.length ++ (found.map (summaryBytes l)).flatten ++ word (nextSlot found))

/-! ## Warm reset (R30, R31) -/

/-- Whether a warm reset keeps a record: SHED or TRIP, of INTERNAL or LANE origin (R30). -/
def keptAtReset (q : Record) : Bool :=
  clsAtLeast .shed q.cls && (match q.origin with | .internal => true | .lane _ => true | .main => false | .service => false)

/-- A kept record as the reset leaves it (R30). -/
def retained (uptime : Nat) (q : Record) : Record :=
  { q with state := .active, unread := ⟨true, true⟩, lastChange := uptime }

/-- The table a warm reset leaves (R30). -/
def retention (uptime : Nat) (table : List Record) : List Record := (table.filter keptAtReset).map (retained uptime)

/-- The attention requests for the kept records, each as on a clear mark (R25, R31). -/
def askRetained (kept : List Record) (s : State) : State := kept.foldl (fun acc q => acc.ask none q) s

end Sys2Proof.Machine
end

