-- ==== Sys2Proof/Machine/Reaction.lean ====
section
/-! DEFINITION. The reaction unit (chapter 3): offers, firings, the ends of actions, and the requests on slots. -/

namespace Sys2Proof.Machine

/-- The slots with slot k replaced, and the handover of the reaction boost set where that changed it (R52). -/
def setSlot (k : Fin 8) (v : Slot) : Act := fun s =>
  ({ s with slots := s.slots.set k v }, boostHandover s.slots (s.slots.set k v))

/-- The raise of REACTION_SPENT where the end of slot v's action exhausts it (R55). -/
def spentIf (k : Fin 8) (v : Slot) : Act := Act.emit (if v.exhausts then [.ctRaise (spentRaise k)] else [])

/-- The eligible slot for a code: the lowest-numbered one bound to it with a count above 0 (R49). -/
def eligible (c : Code) (v : Eight Slot) : Option (Fin 8) :=
  eightIndices.find? (fun k => (v.get k).bound == some c && decide (0 < (v.get k).count))

/-- A slot fires on the record whose raise was offered (R50, R53). -/
def fire (k : Fin 8) (c : Code) : Act := fun s =>
  let v := s.slots.get k
  match v.action with
  | none => (s, [])
  | some .autoRetire => setSlot k { v with pending := v.delay } s
  | some .coolBoost => setSlot k { v with pending := v.delay } s
  | some .escalate =>
    Act.all [Act.emit [.ctEscalateStep c], setSlot k (v.ended .done), spentIf k v] s

/-- A raise offered under a code (R49): the eligible slot fires unless its action is pending. -/
def takeOffer (c : Code) : Act := fun s =>
  match eligible c s.slots with
  | none => (s, [])
  | some k => if (s.slots.get k).pending.isSome then (s, []) else fire k c s

/-- What an expired AUTO_RETIRE does with the record as it stands (R51). -/
def judgeExpiry (table : List Record) (c : Code) : SlotOutcome :=
  match findCode table c with
  | none => .notApplicable
  | some q => if q.cls = .trip then .refusedClass else if q.mode = .level ∧ q.cause = true then .notApplicable else .done

/-- The delay of slot k's AUTO_RETIRE has expired (R51, R55). -/
def takeAutoRetire (k : Fin 8) : Act := fun s =>
  let v := s.slots.get k
  match v.action, v.pending, v.bound with
  | some .autoRetire, some _, some c =>
    match judgeExpiry s.table c with
    | .done => Act.all [setSlot k (v.ended .done), retireRecord c, spentIf k v] s
    | o => Act.all [setSlot k (v.ended o), spentIf k v] s
  | _, _, _ => (s, [])

/-- Slot k's COOL_BOOST has run out (R52, R55). -/
def takeBoostEnd (k : Fin 8) : Act := fun s =>
  let v := s.slots.get k
  match v.action, v.pending with
  | some .coolBoost, some _ => Act.all [setSlot k (v.ended .done), spentIf k v] s
  | _, _ => (s, [])

/-- The slot a BIND leaves: fields its action does not use are absent (R46). -/
def boundSlot (c : Code) (a : Action) (loops : LoopSet) (delay count : Nat) : Slot :=
  { bound := some c, action := some a, loops := if a = .coolBoost then some loops else none
    delay := if a = .escalate then none else some delay, count := count, pending := none, last := .none }

/-- BIND (R46). -/
def serveBind (slot : Nat) (c : Code) (a : Action) (loops : LoopSet) (delay count : Nat) (s : State) : Served :=
  match indexOf 8 slot with
  | none => Served.refused s .badValue
  | some k =>
    if (s.slots.get k).bound.isSome then Served.refused s .refusedState
    else if count = 0 ∨ 15 < count then Served.refused s .badValue
    else if a ≠ .escalate ∧ (delay < 1 ∨ 600 < delay) then Served.refused s .badValue
    else if a = .coolBoost ∧ loops = 0 then Served.refused s .badValue
    else Served.did (setSlot k (boundSlot c a loops delay count) s) .done []

/-- UNBIND (R47). -/
def serveUnbind (slot : Nat) (s : State) : Served :=
  match indexOf 8 slot with
  | none => Served.refused s .badValue
  | some k =>
    let v := s.slots.get k
    if v.bound = none then Served.refused s .done
    else if v.pending.isSome then Served.did (setSlot k { v with last := .cancelled }.unbound s) .done []
    else Served.did (setSlot k v.unbound s) .done []

/-- Every field of a slot in the order of R48. -/
def slotBytes (v : Slot) : List Byte :=
  optional 2 codeBytes v.bound ++ optional 1 (fun a => named (actionIndex a)) v.action ++
  optional 1 (fun x : LoopSet => setByte x) v.loops ++ optional 2 word v.delay ++ word v.count ++
  optional 2 word v.pending ++ named (outcomeIndex v.last)

/-- READ_SLOT (R48). -/
def serveReadSlot (slot : Nat) (s : State) : Served :=
  match indexOf 8 slot with
  | none => Served.refused s .badValue
  | some k => Served.read s (slotBytes (s.slots.get k))

/-- The slots across a warm reset: every pending action is discarded, and nothing else (R58). -/
def discardPending (v : Eight Slot) : Eight Slot := v.map (fun k => { k with pending := none })

end Sys2Proof.Machine
end

