-- ==== Sys2Proof/Machine/Power.lean ====
section
/-! DEFINITION. The envelope unit (chapter 4): factors, headroom, target, ramp and shares. -/

namespace Sys2Proof.Machine

/-! ## The arithmetic (R65 to R67, R69, R75, R76) -/

/-- The two temperatures the thermal factor runs between, the upper at least 50 above the lower (R66). -/
def laneTempWarn (st : List Int) : Int := settingOf st 3

/-- Tl with its guard (R66). -/
def laneTempLimit (st : List Int) : Int := max (settingOf st 4) (settingOf st 3 + 50)

/-- The thermal factor of a heatsink temperature (R65). -/
def thermalFactor (tw tl t : Int) : Nat :=
  if t ≤ tw then 64 else if tl ≤ t then 0 else (floorDiv (64 * (tl - t)) (tl - tw)).toNat

/-- A lane's headroom (R67); an absent factor, which no lane in A has, gives none (log 32). -/
def headroomOf (available : LaneSet) (factor : Four (Option Nat)) (n : Fin 4) : Nat :=
  if hasBit available n.val then 4000 * (factor.get n).getD 0 / 64 else 0

/-- The sum over the lanes. -/
def sumFour (v : Four Nat) : Nat := v.x0 + v.x1 + v.x2 + v.x3

/-- Which bound sets the target: the first of DEMAND, CAP, HEADROOM that equals it (R69). -/
def bindingOf (demand cap total : Nat) : Binding :=
  if demand ≤ cap ∧ demand ≤ total then .demand else if cap ≤ total then .cap else .headroom

/-- A lane's floored share (R75). -/
def flooredShare (c total h : Nat) : Nat := if total = 0 then 0 else c * h / total

/-- One kW of the remainder to a lane of A whose share is below its headroom, while any is left (R76). -/
def spread (inA : Bool) (h share r : Nat) : Nat × Nat :=
  if inA ∧ share < h ∧ 0 < r then (share + 1, r - 1) else (share, r)

/-- The shares of a commanded total (R75, R76). -/
def sharesOf (available : LaneSet) (headroom : Four Nat) (total c : Nat) : Four Nat :=
  let f := Four.ofFn (fun n => flooredShare c total (headroom.get n))
  let r0 := c - sumFour f
  let a0 := spread (hasBit available 0) headroom.x0 f.x0 r0
  let a1 := spread (hasBit available 1) headroom.x1 f.x1 a0.2
  let a2 := spread (hasBit available 2) headroom.x2 f.x2 a1.2
  let a3 := spread (hasBit available 3) headroom.x3 f.x3 a2.2
  ⟨a0.1, a1.1, a2.1, a3.1⟩

/-- A recomputation (R70 to R72). -/
def Envelope.recompute (e : Envelope) : Envelope :=
  let available := e.running &&& ~~~e.excluded
  let headroom := Four.ofFn (headroomOf available e.factor)
  let total := sumFour headroom
  let target := min e.demand (min e.capEff total)
  let commanded := if target ≤ e.commanded then target else e.commanded
  let ramp := if target ≤ e.commanded then none else some (e.ramp.getD 100)
  { e with
    available := available, headroom := headroom, total := total, target := target
    binding := bindingOf e.demand e.capEff total, commanded := commanded, ramp := ramp
    share := sharesOf available headroom total commanded }

/-- A ramp step (R73). -/
def Envelope.step (rampUp : Nat) (e : Envelope) : Envelope :=
  let c := min e.target (e.commanded + rampUp)
  { e with
    commanded := c, ramp := if c = e.target then none else some 100
    share := sharesOf e.available e.headroom e.total c }

/-! ## Handovers and arrivals -/

/-- The share of one lane, where it changed (R79). -/
def shareHandover (old new : Four Nat) (n : Fin 4) : List Ev :=
  if old.get n = new.get n then [] else [.lmShare n (new.get n)]

/-- What a recomputation or a step hands on: changed shares, then a changed C (R79, R80). -/
def envelopeHandover (old new : Envelope) : List Ev :=
  (fourIndices.map (shareHandover old.share new.share)).flatten ++
  (if old.commanded = new.commanded then [] else [.cuCommanded new.commanded])

/-- The envelope replaced, with what its change hands on. -/
def setEnvelope (e : Envelope) : Act := fun s => ({ s with eu := e }, envelopeHandover s.eu e)

/-- The envelope recomputed after one of its inputs changed. -/
def recomputeFrom (e : Envelope) : Act := setEnvelope e.recompute

/-- What the envelope unit stores of a delivery (R64, R68). -/
def Envelope.deliver (d : EnvelopeDelivery) (e : Envelope) : Envelope :=
  { e with
    capEff := d.capEff.getD e.capEff, capSource := d.capSource.getD e.capSource
    excluded := d.excluded.getD e.excluded }

/-- A delivery of the limit resolver (R64, R68): cap_source alone starts no recomputation. -/
def takeEnvelopeLimits (d : EnvelopeDelivery) : Act := fun s =>
  if d.capEff.isSome ∨ d.excluded.isSome then recomputeFrom (s.eu.deliver d) s
  else ({ s with eu := s.eu.deliver d }, [])

/-- The running set with a lane in it or out of it. -/
def withMember (set : LaneSet) (n : Fin 4) (yes : Bool) : LaneSet :=
  if yes then set ||| oneBit 4 n.val else set &&& ~~~(oneBit 4 n.val)

/-- A lane enters or leaves RUNNING (R63). -/
def takeLaneEvent (n : Fin 4) (running : Bool) : Act := fun s =>
  let set := withMember s.eu.running n running
  if set = s.eu.running then (s, []) else recomputeFrom { s.eu with running := set } s

/-- A valid report's temperature (R65). -/
def takeLaneTemperature (n : Fin 4) (t : Int) : Act := fun s =>
  let f := some (thermalFactor (laneTempWarn s.settings) (laneTempLimit s.settings) t)
  if s.eu.factor.get n = f then (s, []) else recomputeFrom { s.eu with factor := s.eu.factor.set n f } s

/-- A ramp step, when the ramp timer runs (R73). -/
def takeRampStep : Act := fun s =>
  match s.eu.ramp with
  | none => (s, [])
  | some _ => setEnvelope (s.eu.step (s.settingNat 1)) s

/-- The indication to the lane manager when demand comes or goes (R62). -/
def demandHandover (old new : Nat) : List Ev :=
  if (0 < old) = (0 < new) then [] else [.lmDemand (decide (0 < new))]

/-- SET_DEMAND (R61, R62). -/
def serveSetDemand (l : Link) (demand : Nat) (s : State) : Served :=
  if s.keyRefuses l then Served.refused s .refusedAuthority
  else
    let d := if demand ≤ 16000 then demand else 16000
    let status := if demand ≤ 16000 then Status.done else .clamped
    if d = s.eu.demand then Served.did (s, []) status (word d)
    else
      Served.did (Act.andThen (recomputeFrom { s.eu with demand := d }) (Act.emit (demandHandover s.eu.demand d)) s)
        status (word d)

/-- The items of READ_ENVELOPE (R83). -/
def envelopeBytes (e : Envelope) : List Byte :=
  word e.demand ++ word e.capEff ++ optional 2 codeBytes e.capSource ++ word e.total ++ word e.target ++
  word e.commanded ++ named (bindingIndex e.binding) ++ word e.share.x0 ++ word e.share.x1 ++ word e.share.x2 ++
  word e.share.x3

/-- READ_ENVELOPE (R83). -/
def serveReadEnvelope (s : State) : Served := Served.read s (envelopeBytes s.eu)

/-- The envelope at a warm reset, before the full delivery (R85). -/
def Envelope.afterReset (e : Envelope) : Envelope :=
  { Envelope.initial with capEff := e.capEff, capSource := e.capSource, excluded := e.excluded }

end Sys2Proof.Machine
end

