-- ==== Sys2Proof/Machine/Lanes.lean ====
section
/-! DEFINITION. The lane manager (chapter 5): lane records, reports and commands, exclusion, supply, pump, demand. -/

namespace Sys2Proof.Machine

/-! ## Cooling demand and the start condition (R93, R105) -/

/-- Whether a lane's start is wanted (R93). -/
def wanted (auto demand : Bool) (x : Lane) : Bool := x.startFlag || (auto && demand)

/-- Whether a lane asks for lane cooling (R105). -/
def laneAsks (auto : Bool) (m : LaneManager) (n : Fin 4) : Bool :=
  match (m.lanes.get n).state with
  | .offline => !hasBit m.excluded n.val && wanted auto m.demand (m.lanes.get n)
  | .locked => false
  | _ => true

/-- The lane cooling demand (R105). -/
def coolingDemand (auto : Bool) (m : LaneManager) : Bool := fourIndices.any (laneAsks auto m)

/-- The lane manager replaced, with what is handed on: exits and entries, then a changed lane cooling demand, then the
rest (R105). The model's choice (log 44): each lane manager event forms the demand of every lane with lanes_auto as it
stands, so a written lanes_auto moves the demand at the next such event of any lane. -/
def setLanes (m : LaneManager) (before after : List Ev) : Act := fun s =>
  let d := coolingDemand (s.settingOn 2) m
  ({ s with lm := { m with coolingSent := d } },
   before ++ (if d = s.lm.coolingSent then [] else [.cuLaneDemand d]) ++ after)

/-- The start condition of a lane (R93). -/
def startCondition (auto : Bool) (m : LaneManager) (n : Fin 4) : Bool :=
  !hasBit m.excluded n.val && m.supply == .full && m.pump == .running && wanted auto m.demand (m.lanes.get n)

/-- Whether a lane's last report carries a trip (R94). -/
def latchedTrip (x : Lane) : Bool :=
  match x.report with
  | none => false
  | some r => r.severity == .trip

/-- A lane as it leaves OFFLINE (R94). -/
def leaveOffline (x : Lane) : Lane :=
  if latchedTrip x then { x with state := .resetting, timer := some ⟨.reset, 2000⟩ }
  else { x with state := .precharge, timer := some ⟨.precharge, 8000⟩ }

/-- The lane manager with lane n's record replaced. -/
def LaneManager.put (m : LaneManager) (n : Fin 4) (x : Lane) : LaneManager := { m with lanes := m.lanes.set n x }

/-- The start condition of an OFFLINE lane evaluated (R93, R94). -/
def evaluateStart (auto : Bool) (n : Fin 4) (m : LaneManager) : LaneManager :=
  if (m.lanes.get n).state = .offline ∧ startCondition auto m n then m.put n (leaveOffline (m.lanes.get n)) else m

/-- The start condition of every OFFLINE lane evaluated. -/
def evaluateAll (auto : Bool) (m : LaneManager) : LaneManager :=
  fourIndices.foldl (fun acc n => evaluateStart auto n acc) m

/-! ## States left and entered -/

/-- The exits from RUNNING between two states of the lane manager, in ascending lane order (R63, R105). -/
def exits (old new : LaneManager) : List Ev :=
  (fourIndices.filter (fun n => (old.lanes.get n).state == .running && !((new.lanes.get n).state == .running))).map
    (fun n => .euLane n false)

/-- A lane taken to a state with its timer and shed_reason dropped. -/
def Lane.goes (x : Lane) (st : LaneState) : Lane := { x with state := st, timer := none, shed := none }

/-- A lane taken out of RUNNING to SHEDDING (R97, R101, R107). -/
def Lane.sheds (x : Lane) (why : ShedReason) : Lane :=
  { x with state := .shedding, shed := some why, timer := some ⟨.shed, 2000⟩, share := 0 }

/-- A lane that goes to LOCKED while excluded and otherwise to OFFLINE, where its start is evaluated (R98, R100). -/
def settleLane (auto : Bool) (n : Fin 4) (m : LaneManager) : LaneManager :=
  if hasBit m.excluded n.val then m.put n ((m.lanes.get n).goes .locked)
  else evaluateStart auto n (m.put n ((m.lanes.get n).goes .offline))

/-! ## Reports (R87 to R92, R94 to R100) -/

/-- Whether a valid report is a trip onset for a lane, by its state and its previous report (R90). -/
def tripOnset (x : Lane) (r : Report) : Bool :=
  r.severity == .trip &&
  (match x.state with
   | .precharge => true
   | .sync => true
   | .running => true
   | .shedding => true
   | _ =>
     match x.report with
     | none => true
     | some p => !(p.severity == .trip && p.localCode == r.localCode))

/-- What a trip onset does to the lane's state (R91). -/
def afterOnset (x : Lane) : Lane :=
  match x.state with
  | .precharge => { x.goes .faulted with share := 0 }
  | .sync => { x.goes .faulted with share := 0 }
  | .running => { x.goes .faulted with share := 0 }
  | .shedding => { x.goes .faulted with share := 0 }
  | .resetting => x.goes .faulted
  | _ => x

/-- The warning a report carries. -/
def warningOf (r : Report) : Option Nat := if r.severity = .warn then some r.localCode else none

/-- The LANE_WARN reports of a valid report, given the code tracked before (R92). -/
def warnReports (n : Fin 4) (tracked : Option Nat) (r : Report) : List Ev :=
  let now := warningOf r
  if now = tracked then []
  else
    (match tracked with | none => [] | some yy => [.ctAbsent (laneCode n yy)]) ++
    (match now with | none => [] | some xx => [.ctPresent (laneWarnRaise n xx r.detail)])

/-- The trip raise of a report, where it is an onset (R90). -/
def tripRaises (n : Fin 4) (onset : Bool) (r : Report) : List Ev :=
  if onset then [.ctRaise (laneTripRaise n r.localCode r.detail)] else []

/-- The lane record after a valid report, before it is acted on in its state (R87, R89 to R92). -/
def afterReport (x : Lane) (r : Report) : Lane :=
  let y := { x with report := some r, silence := some 50, warned := warningOf r }
  if tripOnset x r then afterOnset y else y

/-- A report arrives on a lane's port (R87): a valid one is taken for its fault fields, its temperature and its state,
and every report is answered. -/
def takeReport (n : Fin 4) (bytes : List Byte) : Act := fun s =>
  match readReport bytes with
  | none => (s, [.lmReply n])
  | some r =>
    let x := s.lm.lanes.get n
    let m := s.lm.put n (afterReport x r)
    setLanes m (exits s.lm m)
      (tripRaises n (tripOnset x r) r ++ warnReports n x.warned r ++ [.euTemp n r.heatsink, .lmAct n, .lmReply n]) s

/-- The lane manager after a valid report is acted on in its lane's present state (R95, R96, R98, R100, R101). -/
def actOn (auto : Bool) (n : Fin 4) (r : Report) (m : LaneManager) : LaneManager :=
  let x := m.lanes.get n
  match x.state with
  | .offline => if hasBit m.excluded n.val then m.put n (x.goes .locked) else evaluateStart auto n m
  | .precharge => if r.laneState = .ready then m.put n { x with state := .sync, timer := some ⟨.sync, 3000⟩ } else m
  | .sync => if r.laneState = .synced then m.put n (x.goes .running) else m
  | .shedding => if r.power ≤ 50 then settleLane auto n m else m
  | .resetting => if r.laneState = .down ∧ r.severity = .none then settleLane auto n m else m
  | .running => m
  | .locked => m
  | .faulted => m

/-- The entry into RUNNING between two states of the lane manager (R63, R96). -/
def entries (old new : LaneManager) : List Ev :=
  (fourIndices.filter (fun n => !((old.lanes.get n).state == .running) && (new.lanes.get n).state == .running)).map
    (fun n => .euLane n true)

/-- A valid report acted on in the lane's present state. -/
def takeAct (n : Fin 4) : Act := fun s =>
  match (s.lm.lanes.get n).report with
  | none => (s, [])
  | some r =>
    let m := actOn (s.settingOn 2) n r s.lm
    setLanes m (entries s.lm m) [] s

/-- The command of a lane's state (R88). -/
def commandOf (x : Lane) : LaneCommand :=
  match x.state with
  | .offline => ⟨.opened, 0⟩
  | .precharge => ⟨.precharge, 0⟩
  | .sync => ⟨.sync, 0⟩
  | .running => ⟨.run, x.share⟩
  | .shedding => ⟨.run, 0⟩
  | .locked => ⟨.opened, 0⟩
  | .faulted => ⟨.opened, 0⟩
  | .resetting => ⟨.resetFault, 0⟩

/-- The command sent in answer to a report (R88). -/
def takeReply (n : Fin 4) : Act :=
  Act.update (fun s =>
    let x := s.lm.lanes.get n
    { s with lm := s.lm.put n { x with command := some (commandOf x) } })

/-- A lane's start condition evaluated after a failure record and its delivery have been taken (R93). -/
def takeEvaluate (n : Fin 4) : Act := fun s => setLanes (evaluateStart (s.settingOn 2) n s.lm) [] [] s

/-! ## Timers (R89, R95, R96, R98, R100) -/

/-- A lane's silence timer runs out (R89). -/
def takeSilence (n : Fin 4) : Act := fun s =>
  let x := s.lm.lanes.get n
  match x.silence with
  | none => (s, [])
  | some _ =>
    ({ s with lm := s.lm.put n { x with silence := none, warned := none } },
     .ctRaise (laneSilentRaise n) ::
       (match x.warned with | none => [] | some yy => [.ctAbsent (laneCode n yy)]))

/-- dc_voltage of the last report, or 0 (R95). -/
def lastVoltage (x : Lane) : Nat :=
  match x.report with
  | none => 0
  | some r => r.dcVoltage

/-- A lane's in-flight timer runs out. -/
def takeTimeout (n : Fin 4) (k : TimerKind) : Act := fun s =>
  let x := s.lm.lanes.get n
  if x.timer.map (fun t => t.kind) = some k then
    match k with
    | .precharge =>
      setLanes (s.lm.put n (x.goes .offline)) [] [.ctRaise (prechargeFailRaise n (lastVoltage x)), .lmEvaluate n] s
    | .sync => setLanes (s.lm.put n (x.goes .offline)) [] [.ctRaise (syncFailRaise n), .lmEvaluate n] s
    | .shed => setLanes (settleLane (s.settingOn 2) n s.lm) [] [] s
    | .reset => setLanes (s.lm.put n (x.goes .faulted)) [] [.ctRaise (resetFailRaise n)] s
  else (s, [])

/-! ## Exclusion (R101, R102) -/

/-- A lane that a delivery includes (R101). -/
def whenExcluded (x : Lane) : Lane :=
  match x.state with
  | .offline => if x.report.isSome then x.goes .locked else x
  | .precharge => x.goes .locked
  | .sync => x.goes .locked
  | .running => x.sheds .excluded
  | .shedding => { x with shed := some .excluded }
  | .locked => x
  | .faulted => x
  | .resetting => x

/-- A lane that a delivery does not include (R102). -/
def whenFree (auto : Bool) (n : Fin 4) (m : LaneManager) : LaneManager :=
  let x := m.lanes.get n
  match x.state with
  | .offline => evaluateStart auto n m
  | .locked => evaluateStart auto n (m.put n (x.goes .offline))
  | .faulted => m.put n { x with state := .resetting, timer := some ⟨.reset, 2000⟩ }
  | _ => m

/-- Whether a delivery acts on a lane: its membership changed, the delivery is a full one, or the lane is OFFLINE or
FAULTED, where every delivery is looked at (R93, R99, R103; log 29). -/
def deliveryActs (old new : LaneSet) (full : Bool) (n : Fin 4) (x : Lane) : Bool :=
  full || !(hasBit old n.val == hasBit new n.val) || x.state == .offline || x.state == .faulted

/-- One lane at a delivery. -/
def deliverLane (auto : Bool) (old : LaneSet) (full : Bool) (m : LaneManager) (n : Fin 4) : LaneManager :=
  if deliveryActs old m.excluded full n (m.lanes.get n) then
    if hasBit m.excluded n.val then m.put n (whenExcluded (m.lanes.get n)) else whenFree auto n m
  else m

/-- A delivery of excluded_lanes (R101, R102). -/
def takeExcluded (set : LaneSet) (full : Bool) : Act := fun s =>
  let m := fourIndices.foldl (deliverLane (s.settingOn 2) s.lm.excluded full) { s.lm with excluded := set }
  setLanes m (exits s.lm m) [] s

/-! ## Supply, pump, demand and shares (R103 to R105) -/

/-- A lane when the supply leaves FULL (R103). -/
def whenSupplyLost (x : Lane) : Lane :=
  match x.state with
  | .precharge => { x.goes .offline with share := 0 }
  | .sync => { x.goes .offline with share := 0 }
  | .running => { x.goes .offline with share := 0 }
  | .shedding => { x.goes .offline with share := 0 }
  | _ => x

/-- A lane when the L0 pump leaves RUNNING (R104). -/
def whenPumpLost (x : Lane) : Lane :=
  match x.state with
  | .precharge => x.goes .offline
  | .sync => x.goes .offline
  | _ => x

/-- Every lane changed. -/
def LaneManager.mapLanes (m : LaneManager) (f : Lane → Lane) : LaneManager :=
  { m with lanes := ⟨f m.lanes.x0, f m.lanes.x1, f m.lanes.x2, f m.lanes.x3⟩ }

/-- The supply state handed over (R103). -/
def takeLaneSupply (st : SupplyState) : Act := fun s =>
  if st = s.lm.supply then (s, [])
  else
    let m := if s.lm.supply = .full then s.lm.mapLanes whenSupplyLost else s.lm
    let m' := evaluateAll (s.settingOn 2) { m with supply := st }
    setLanes m' (exits s.lm m') [] s

/-- The L0 pump state handed over (R104). -/
def takeLanePump (p : PumpState) : Act := fun s =>
  if p = s.lm.pump then (s, [])
  else
    let m := if s.lm.pump = .running then s.lm.mapLanes whenPumpLost else s.lm
    setLanes (evaluateAll (s.settingOn 2) { m with pump := p }) [] [] s

/-- The demand indication handed over (R62, R93). -/
def takeLaneDemand (present : Bool) : Act := fun s =>
  if present = s.lm.demand then (s, [])
  else setLanes (evaluateAll (s.settingOn 2) { s.lm with demand := present }) [] [] s

/-- A share handed over (R79, R105). -/
def takeShare (n : Fin 4) (kw : Nat) : Act :=
  Act.update (fun s => { s with lm := s.lm.put n { s.lm.lanes.get n with share := kw } })

/-! ## Requests (R106 to R108) -/

/-- LANE_START (R106). -/
def serveLaneStart (l : Link) (lane : Nat) (s : State) : Served :=
  match indexOf 4 lane with
  | none => Served.refused s .badValue
  | some n =>
    if s.keyRefuses l then Served.refused s .refusedAuthority
    else if (s.lm.lanes.get n).state ≠ .offline then Served.refused s .refusedState
    else
      let m := evaluateStart (s.settingOn 2) n (s.lm.put n { s.lm.lanes.get n with startFlag := true })
      Served.did (setLanes m [] [] s) .done (named (laneStateIndex (m.lanes.get n).state))

/-- The lane manager after a LANE_STOP (R107). -/
def stopLane (auto : Bool) (n : Fin 4) (m : LaneManager) : LaneManager :=
  let x := { m.lanes.get n with startFlag := false }
  match x.state with
  | .running => m.put n (x.sheds .stop)
  | .precharge => evaluateStart auto n (m.put n (x.goes .offline))
  | .sync => evaluateStart auto n (m.put n (x.goes .offline))
  | .shedding => m.put n { x with shed := some .stop }
  | _ => m.put n x

/-- LANE_STOP (R107). -/
def serveLaneStop (lane : Nat) (s : State) : Served :=
  match indexOf 4 lane with
  | none => Served.refused s .badValue
  | some n =>
    let m := stopLane (s.settingOn 2) n s.lm
    Served.did (setLanes m (exits s.lm m) [] s) .done (named (laneStateIndex (m.lanes.get n).state))

/-- All the fields of a report (R87, R108). -/
def lastReportBytes (r : Report) : List Byte :=
  named (portStateIndex r.laneState) ++ word r.dcVoltage ++ signed r.heatsink ++ word r.power ++
  named (severityIndex r.severity) ++ word r.localCode ++ word r.detail

/-- The group 2 code that a report's local code and severity map to, none at severity NONE (R90, R92, R108). -/
def reportedCode (n : Fin 4) (r : Report) : Option Code :=
  if r.severity = .none then none else some (laneCode n r.localCode)

/-- The items of READ_LANE, the group 2 code last (R108, log 17). -/
def laneBytes (n : Fin 4) (excluded : Bool) (x : Lane) : List Byte :=
  named (laneStateIndex x.state) ++ optional 1 (fun r => named (shedIndex r)) x.shed ++ flag x.startFlag ++
  optional 3 (fun t : LaneTimer => named (timerIndex t.kind) ++ word t.ms) x.timer ++ word x.share ++
  optional 2 word x.warned ++ flag x.silence.isSome ++ flag excluded ++ optional 12 lastReportBytes x.report ++
  optional 2 codeBytes (x.report.bind (reportedCode n))

/-- READ_LANE (R108). -/
def serveReadLane (lane : Nat) (s : State) : Served :=
  match indexOf 4 lane with
  | none => Served.refused s .badValue
  | some n => Served.read s (laneBytes n (hasBit s.lm.excluded n.val) (s.lm.lanes.get n))

end Sys2Proof.Machine
end

