-- ==== Sys2Proof/Machine/Wind.lean ====
section
/-! DEFINITION. The wind and heading unit (chapter 6): heading and twist, vane and yaw error, wind, tracking dwell,
unwind request. -/

namespace Sys2Proof.Machine

/-- Twist brought to the ends of its range (section 4.1). -/
def saturateTwist (t : Int) : Int := clampInt (-32767) 32767 t

/-- A cause report: present where the view turned present, absent where it turned absent, and none otherwise (R9). -/
def viewReport (old new : Bool) (r : Raise) : List Ev :=
  if old = new then [] else if new then [.ctPresent r] else [.ctAbsent r.code]

/-! ## Twist limit (R115) -/

/-- The TWIST_LIMIT view after an evaluation (R115). -/
def twistView (old : Bool) (twist : Int) : Bool :=
  if old then decide (10500 ≤ magnitude twist) else decide (10800 ≤ magnitude twist)

/-- The unit after TWIST_LIMIT is evaluated (R115). -/
def Wind.evalTwist (w : Wind) : Wind := { w with views := { w.views with twistLimit := twistView w.views.twistLimit w.twist } }

/-- The TWIST_LIMIT report of an evaluation (R115). -/
def twistReport (w : Wind) : List Ev :=
  viewReport w.views.twistLimit (twistView w.views.twistLimit w.twist) (twistLimitRaise w.twist)

/-! ## Heading (R112, R113) -/

/-- A valid encoder read (R112). -/
def validHeading (reading : Option Nat) : Option Nat :=
  match reading with
  | none => none
  | some h => if h < 3600 then some h else none

/-- The twist after a valid read (R112 steps 1 and 2). -/
def twistAfter (w : Wind) (h : Nat) : Int :=
  match w.refHeading with
  | none => w.twist
  | some r => saturateTwist (w.twist + headingDiff r h)

/-- The unit after a valid read, before TWIST_LIMIT is evaluated (R112 steps 1 to 3). -/
def Wind.atHeading (w : Wind) (h : Nat) : Wind :=
  { w with
    twist := twistAfter w h, refHeading := some h, headingOk := true, headingOwed := false
    views := { w.views with headingFault := false } }

/-- The unit after an invalid read (R113). -/
def Wind.lostHeading (w : Wind) : Wind :=
  { w with headingOk := false, headingOwed := false, views := { w.views with headingFault := true } }

/-- A read of the heading encoder (R112, R113). -/
def takeHeading (reading : Option Nat) : Act := fun s =>
  match validHeading reading with
  | some h =>
    let w := s.wh.atHeading h
    ({ s with wh := w.evalTwist },
     (if s.wh.views.headingFault ∨ s.wh.headingOwed then [.ctAbsent headingFaultCode] else []) ++ twistReport w ++
     [.ymHeading (some h) w.twist, .whUnwindEval])
  | none =>
    ({ s with wh := s.wh.lostHeading },
     if s.wh.views.headingFault then [] else [.ctPresent (headingFaultRaise (s.wh.refHeading.getD 0))])

/-! ## Vane (R116 to R118) -/

/-- A valid vane sample (R116). -/
def validVane (reading : Option Int) : Option Int :=
  match reading with
  | none => none
  | some e => if -1800 ≤ e ∧ e ≤ 1799 then some e else none

/-- F after a valid sample (R116 step 1). -/
def filterVane (f e : Int) : Int := f + truncDiv (e - f) 8

/-- The unit after a valid sample, before YAW_MISALIGN is evaluated (R116 steps 1 and 2). -/
def Wind.atVane (w : Wind) (e : Int) : Wind :=
  { w with
    filtered := filterVane w.filtered e, vaneOk := true, vaneOwed := false, views := { w.views with vaneFault := false } }

/-- The unit after an invalid sample (R116). -/
def Wind.lostVane (w : Wind) : Wind :=
  { w with vaneOk := false, vaneOwed := false, dwell := 0, views := { w.views with vaneFault := true } }

/-- A sample of the wind vane (R116). -/
def takeVane (reading : Option Int) : Act := fun s =>
  match validVane reading with
  | some e =>
    ({ s with wh := s.wh.atVane e },
     (if s.wh.views.vaneFault ∨ s.wh.vaneOwed then [.ctAbsent vaneFaultCode] else []) ++
     [.whMisalign, .ymFiltered (s.wh.atVane e).filtered, .whDwell])
  | none =>
    ({ s with wh := s.wh.lostVane },
     if s.wh.views.vaneFault then [] else [.ctPresent (vaneFaultRaise s.wh.filtered)])

/-- The cap that a filtered yaw error costs (R117). -/
def misalignCap (f : Int) : Nat :=
  if magnitude f ≤ 100 then 16000 else if magnitude f < 320 then 16000 - 50 * (magnitude f - 100) else 5000

/-- The YAW_MISALIGN view after an evaluation (R117). -/
def misalignView (old : Bool) (f : Int) : Bool :=
  if old then decide (80 < magnitude f) else decide (100 < magnitude f)

/-- Whether a refresh is due: the computed cap is lower than the record's, or higher by at least 500 (R118). -/
def misalignRefreshDue (table : List Record) (cap : Nat) : Bool :=
  match (findCode table misalignCode).bind (fun q => q.eff.cap) with
  | none => false
  | some held => decide (cap < held) || decide (held + 500 ≤ cap)

/-- YAW_MISALIGN evaluated at a valid vane sample (R117, R118). -/
def takeMisalign : Act := fun s =>
  let cap := misalignCap s.wh.filtered
  let view := misalignView s.wh.views.misalign s.wh.filtered
  ({ s with wh := { s.wh with views := { s.wh.views with misalign := view } } },
   viewReport s.wh.views.misalign view (misalignRaise s.wh.filtered cap) ++
   (if s.wh.views.misalign ∧ view ∧ misalignRefreshDue s.table cap then [.ctRefresh misalignCode cap] else []))

/-! ## Tracking (R121, R122) -/

/-- The direction a signed angle turns. -/
def dirOf (a : Int) : Dir := if 0 < a then .cw else .ccw

/-- The move that the unit hands over when it decides to follow the wind: none while heading_ok is no (R121, R122). -/
def trackMove (w : Wind) : List Ev :=
  match w.headingOk, w.refHeading with
  | true, some h => [.ymMove (headingAdd h w.filtered) (dirOf w.filtered)]
  | _, _ => []

/-- Whether |F| stands at or above track_threshold (R121). The model's choice (log 43): an immediate entry uses the setting
as it stands, also where R202 would have a written value wait for the next vane sample. -/
def overThreshold (s : State) : Bool := decide (s.settingNat 6 ≤ magnitude s.wh.filtered)

/-- The dwell at a valid vane sample (R121). The model's choice (log 48): a move that completes the dwell is handed over and
taken within the step of its VANE_SAMPLE, where TRACK still watches, also where TRACK leaves WATCHING at the next event, of
which row 2 of R127 says that the move is not taken. -/
def takeDwell : Act := fun s =>
  if s.wh.watching ∧ overThreshold s then
    if s.settingNat 7 ≤ s.wh.dwell + 1 then ({ s with wh := { s.wh with dwell := 0 } }, trackMove s.wh)
    else ({ s with wh := { s.wh with dwell := s.wh.dwell + 1 } }, [])
  else ({ s with wh := { s.wh with dwell := 0 } }, [])

/-- TRACK enters or leaves WATCHING (R121). -/
def takeWatch (e : WatchEvent) : Act := fun s =>
  match e with
  | .enterDwell => ({ s with wh := { s.wh with watching := true, dwell := 0 } }, [])
  | .enterNow =>
    ({ s with wh := { s.wh with watching := true, dwell := 0 } }, if overThreshold s then trackMove s.wh else [])
  | .leave => ({ s with wh := { s.wh with watching := false, dwell := 0 } }, [])

/-! ## Wind speed (R119, R120) -/

/-- W after a sample (R119 step 1). -/
def filterWind (w : Int) (pulses : Nat) : Int := w + truncDiv ((saturate 700 pulses : Int) - w) 16

/-- The STORM view after an evaluation (R120). -/
def stormView (old : Bool) (s : State) (w : Int) : Bool :=
  if old then decide (s.setting 14 ≤ w) else decide (s.setting 13 ≤ w)

/-- A sample of the anemometer (R119). -/
def takeAnemometer (pulses : Nat) : Act := fun s =>
  let w := filterWind s.wh.speed pulses
  let view := stormView s.wh.views.storm s w
  ({ s with wh := { s.wh with speed := w, views := { s.wh.views with storm := view } } },
   viewReport s.wh.views.storm view (stormRaise w) ++ [.whUnwindEval])

/-! ## Unwind request (R123) -/

/-- Whether the unit asks for an UNWIND (R123). -/
def unwindDue (s : State) : Bool :=
  decide (s.settingNat 10 ≤ magnitude s.wh.twist) && decide (s.wh.speed < s.setting 12) && !s.wh.parkSeen &&
  !s.wh.unwindInChain

/-- The direction that reduces a twist (R123). -/
def unwindDir (twist : Int) : Dir := if 0 < twist then .ccw else .cw

/-- The unwind request evaluated (R123). -/
def takeUnwindEval : Act := fun s =>
  if unwindDue s then
    ({ s with wh := { s.wh with unwindInChain := true } }, [.ymUnwind (s.setting 11) (unwindDir s.wh.twist)])
  else (s, [])

/-- A delivery of yaw_park (R123; at a full delivery no request is evaluated, R126 and log 18). -/
def takePark (on full : Bool) : Act := fun s =>
  let s' := { s with wh := { s.wh with parkSeen := on } }
  if full then (s', []) else takeUnwindEval s'

/-- An UNWIND was inserted by a request, or has left the chain (R123). -/
def takeUnwindEvent (inChain : Bool) : Act := fun s =>
  let s' := { s with wh := { s.wh with unwindInChain := inChain } }
  if inChain then (s', []) else takeUnwindEval s'

/-! ## SET_TWIST (R114) -/

/-- Whether a twist would take the cable from one limit band to the other (R114 step 2). -/
def crossesBands (w : Wind) (t : Int) : Bool :=
  w.views.twistLimit && decide (10500 ≤ magnitude t) && (decide (0 < t ∧ w.twist < 0) || decide (t < 0 ∧ 0 < w.twist))

/-- SET_TWIST (R114, R124): the twist set, TWIST_LIMIT evaluated, then the unwind request, and last the heading and the
twist handed over (logs 19 and 41). -/
def serveSetTwist (l : Link) (twist : Int) (s : State) : Served :=
  if l = .main then Served.refused s .refusedAuthority
  else
    let t := clampInt (-12600) 12600 twist
    if crossesBands s.wh t then Served.refused s .refusedState
    else
      let w := { s.wh with twist := t }
      let q := takeUnwindEval { s with wh := w.evalTwist }
      Served.did (q.1, twistReport w ++ q.2 ++ [.ymHeading s.wh.refHeading t])
        (if t = twist then .done else .clamped) (signed t)

/-! ## Resets (R125, R126) -/

/-- The unit at a warm reset (R126). -/
def Wind.afterReset (w : Wind) : Wind :=
  { Wind.initial with
    refHeading := w.refHeading, twist := w.twist
    views := { Wind.initial.views with twistLimit := decide (10800 ≤ magnitude w.twist) } }

/-- The start-up reports of TWIST_LIMIT, STORM and YAW_MISALIGN (R125, R126). -/
def windStartReports (w : Wind) : List Ev :=
  [if w.views.twistLimit then .ctPresent (twistLimitRaise w.twist) else .ctAbsent twistLimitCode,
   .ctAbsent stormCode, .ctAbsent misalignCode]

end Sys2Proof.Machine
end

