-- ==== Sys2Proof/Machine/Chain.lean ====
section
/-! DEFINITION. The yaw context chain (sections 7.2 to 7.4): holds, evaluation of the top, insertion and removal. -/

namespace Sys2Proof.Machine

/-- The priority of a kind (R129). -/
def priority : Kind → Nat
  | .service => 4
  | .park => 3
  | .unwind => 2
  | .track => 1

/-- Whether a direction winds the cable further (chapter 7). -/
def winds (twist : Int) (d : Dir) : Bool :=
  match d with
  | .cw => decide (0 < twist)
  | .ccw => decide (twist < 0)

/-- The winding guard (R132). -/
def Yaw.guards (y : Yaw) (d : Dir) : Bool := winds y.twist d && decide (10800 ≤ magnitude y.twist)

/-- Whether a direction is forbidden by a delivered limit. -/
def Yaw.forbids (y : Yaw) (d : Dir) : Bool :=
  match d with
  | .cw => hasBit y.held 0
  | .ccw => hasBit y.held 1

/-- Whether a direction is blocked (R132). -/
def Yaw.blocked (y : Yaw) (d : Dir) : Bool := y.forbids d || y.guards d

/-- yaw_hold. -/
def Yaw.hold (y : Yaw) : Bool := hasBit y.held 4

/-- yaw_hold_auto. -/
def Yaw.holdAuto (y : Yaw) : Bool := hasBit y.held 3

/-- The holds on a kind that need no direction: the general, the automatic and the supply hold (R133). -/
def Yaw.freeHold (y : Yaw) (k : Kind) : Bool := y.hold || (y.holdAuto && !(k == .service)) || y.supply == .low

/-- The direction hold on the top (R133): that of a TRACK in HELD stands only while F still asks for a blocked
direction. The model's choice (log 43): every evaluation uses track_threshold as it stands, also before the next vane
sample, from which R202 lets a written value take effect. -/
def Yaw.directionHold (st : List Int) (y : Yaw) (c : Context) : Bool :=
  match c.dir with
  | none => false
  | some d =>
    y.blocked d &&
    (if c.kind = .track ∧ c.state = .held then
      decide ((settingOf st 6).toNat ≤ magnitude y.filtered) && y.blocked (dirOf y.filtered)
     else true)

/-! ## Targets -/

/-- Whether a heading lies within the arrival band of a target (R149). -/
def inBand (h t : Nat) : Bool := decide (magnitude (headingDiff h t) ≤ 5)

/-- The shorter way from a heading to a target (R137). -/
def shorterWay (h t : Nat) : Dir := if 0 < headingDiff h t then .cw else .ccw

/-- PARK's target (R137). -/
def parkTarget (st : List Int) (y : Yaw) (h : Nat) : Nat := headingAdd h (y.filtered - settingOf st 8)

/-- A context in WATCHING: no move in hand (R129). -/
def Context.watches (c : Context) : Context := { c with target := .absent, dir := none, state := .watching }

/-- A context with a move in hand: MOVING, or HELD where its direction is blocked (R131). -/
def Context.heads (y : Yaw) (c : Context) (t : Target) (d : Dir) : Context :=
  { c with target := t, dir := some d, state := if y.blocked d then .held else .moving }

/-- A context below the top; a TRACK or PARK drops its move (R130, log 22). -/
def Context.suspends (c : Context) : Context :=
  match c.kind with
  | .track => { c with target := .absent, dir := none, state := .suspended }
  | .park => { c with target := .absent, dir := none, state := .suspended }
  | .unwind => { c with state := .suspended }
  | .service => { c with state := .suspended }

/-- PARK evaluated: its target computed from the present heading and F (R131, R137). -/
def parkHeads (st : List Int) (y : Yaw) (h : Nat) (c : Context) : Context :=
  c.heads y (.heading (parkTarget st y h)) (shorterWay h (parkTarget st y h))

/-- PARK as it becomes the top or its holds lift (R131). -/
def evalPark (st : List Int) (y : Yaw) (c : Context) : Context :=
  match y.heading with
  | none => c.watches
  | some h => if inBand h (parkTarget st y h) then c.watches else parkHeads st y h c

/-- Whether |twist| is at or below an UNWIND's goal (R138). -/
def goalReached (y : Yaw) (c : Context) : Bool :=
  match c.target with
  | .twist g => decide ((magnitude y.twist : Int) ≤ g)
  | _ => false

/-- The chain as its first context becomes the top or its holds lift (R131). `fresh` says that the first context has
just been created. An UNWIND at its goal is removed, and the next context becomes the top. -/
def evalChain (st : List Int) (y : Yaw) (fresh : Bool) : List Context → List Context × List Ev
  | [] => ([], [])
  | c :: rest =>
    if y.freeHold c.kind ∧ c.kind ≠ .service then ({ c with state := .held } :: rest, [])
    else
      match c.kind with
      | .track => (c.watches :: rest, [.whWatch (if fresh then .enterDwell else .enterNow)])
      | .park => (evalPark st y c :: rest, [])
      | .unwind =>
        if goalReached y c then
          let r := evalChain st y false rest
          (r.1, .whUnwind false :: r.2)
        else (c.heads y c.target (unwindDir y.twist) :: rest, [])
      | .service => ({ c with state := .moving } :: rest, [])

/-! ## Insertion, removal, re-evaluation -/

/-- What the unit becomes and what it hands the wind and heading unit. -/
abbrev YawWork := Yaw × List Ev

/-- The top evaluated (R131). -/
def Yaw.evaluate (st : List Int) (fresh : Bool) (y : Yaw) : YawWork :=
  let r := evalChain st y fresh y.chain
  ({ y with chain := r.1 }, r.2)

/-- The exit from WATCHING of a TRACK (R121). -/
def leaveEvents (c : Context) : List Ev :=
  if c.kind = .track ∧ c.state = .watching then [.whWatch .leave] else []

/-- The event that an UNWIND has left the chain (R138). -/
def goneEvents (k : Kind) : List Ev := if k = .unwind then [.whUnwind false] else []

/-- A context placed at the place its priority gives it. -/
def insertBelow (c : Context) : List Context → List Context
  | [] => [c]
  | q :: rest => if priority q.kind < priority c.kind then c :: q :: rest else q :: insertBelow c rest

/-- Whether a kind stands in the chain. -/
def Yaw.inChain (y : Yaw) (k : Kind) : Bool := y.chain.any (fun c => c.kind == k)

/-- A context inserted (R130). -/
def Yaw.insert (st : List Int) (c : Context) (y : Yaw) : YawWork :=
  match y.chain with
  | [] => Yaw.evaluate st true { y with chain := [c] }
  | top :: rest =>
    if priority top.kind < priority c.kind then
      let r := Yaw.evaluate st true { y with chain := c :: top.suspends :: rest }
      (r.1, leaveEvents top ++ r.2)
    else ({ y with chain := insertBelow { c with state := .suspended } y.chain }, [])

/-- A kind removed from wherever it stands (R130). -/
def Yaw.remove (st : List Int) (k : Kind) (y : Yaw) : YawWork :=
  match y.chain with
  | [] => (y, [])
  | top :: rest =>
    if top.kind = k then
      let r := Yaw.evaluate st false { y with chain := rest }
      (r.1, leaveEvents top ++ goneEvents k ++ r.2)
    else if y.inChain k then ({ y with chain := y.chain.filter (fun c => !(c.kind == k)) }, goneEvents k)
    else (y, [])

/-- The holds on the top re-evaluated (R134). -/
def Yaw.rehold (st : List Int) (y : Yaw) : YawWork :=
  match y.chain with
  | [] => (y, [])
  | top :: rest =>
    let holds := y.freeHold top.kind || y.directionHold st top
    match top.state with
    | .suspended => (y, [])
    | .held => if holds then (y, []) else Yaw.evaluate st false y
    | _ =>
      if holds then
        if top.kind = .service then y.remove st .service
        else ({ y with chain := { top with state := .held } :: rest }, leaveEvents top)
      else (y, [])

/-- One operation after another, the events in their order. -/
def YawWork.thenDo (w : YawWork) (f : Yaw → YawWork) : YawWork :=
  let r := f w.1
  (r.1, w.2 ++ r.2)

/-! ## Contexts as they are created (R129) -/

/-- TRACK. -/
def trackContext : Context := { kind := .track, origin := .auto, target := .absent, dir := none, state := .watching }

/-- PARK. -/
def parkContext : Context := { kind := .park, origin := .auto, target := .absent, dir := none, state := .watching }

/-- UNWIND toward a twist goal. -/
def unwindContext (origin : ContextOrigin) (goal : Int) (d : Dir) : Context :=
  { kind := .unwind, origin := origin, target := .twist goal, dir := some d, state := .moving }

/-- SERVICE with its target and direction. -/
def serviceContext (t : Target) (d : Dir) : Context :=
  { kind := .service, origin := .service, target := t, dir := some d, state := .moving }

end Sys2Proof.Machine
end

