-- ==== Sys2Proof/Machine/Yaw.lean ====
section
/-! DEFINITION. The yaw motion unit's drives, brake and run (sections 7.5 to 7.7), its events and its requests. -/

namespace Sys2Proof.Machine

/-! ## Drives and rate (R142) -/

/-- Whether a drive is healthy: READY or RUNNING. -/
def Drive.healthy (d : Drive) : Bool :=
  match d.state with
  | .ready => true
  | .running => true
  | .faulted => false
  | .isolated => false

/-- The number of healthy drives (R128). -/
def Yaw.healthy (y : Yaw) : Nat := (y.drives.toList.filter Drive.healthy).length

/-- The rate class of a healthy count and a supply state (R142). -/
def rateOf (healthy : Nat) (st : SupplyState) : RateClass :=
  if healthy < 4 then .none else if 6 ≤ healthy ∧ st = .full then .full else .half

/-- The rate class (R128, R142). -/
def Yaw.rate (y : Yaw) : RateClass := rateOf y.healthy y.supply

/-- A drive while the drives run, or stand: every healthy drive is RUNNING, or READY (R142). -/
def Drive.sync (running : Bool) (d : Drive) : Drive :=
  if d.healthy then { d with state := if running then .running else .ready } else d

/-- The brake valve's command: RELEASE while RELEASING or RELEASED (R128). -/
def Yaw.valveReleases (y : Yaw) : Bool :=
  match y.brake with
  | .releasing => true
  | .released => true
  | .applied => false
  | .applying => false

/-- A drive's output: none for STOP, or RUN with a direction and the rate class (R128). -/
def Yaw.driveOut (y : Yaw) (n : Fin 8) : Option (Dir × RateClass) :=
  match y.run with
  | none => none
  | some d => if (y.drives.get n).state = .running then some (d, y.rate) else none

/-! ## What is wanted, and the run (R145, R146, R148, R150) -/

/-- The direction in which the top wants motion (R145). -/
def Yaw.wants (y : Yaw) : Option Dir :=
  if y.rate = .none then none
  else
    match y.chain with
    | [] => none
    | top :: _ => if top.state = .moving then top.dir else none

/-- The drives started or stopped; the stall watch starts and ends with them (R150). -/
def Yaw.setRun (y : Yaw) (run : Option Dir) : Yaw :=
  { y with run := run, stall := match run with | none => none | some _ => y.heading.map (fun h => ⟨h, 0⟩) }

/-- The brake applying, with its timer afresh (R146). -/
def Yaw.applies (y : Yaw) : Yaw := { y with brake := .applying, brakeTimer := some 3000, settle := none }

/-- The brake and the drives with motion wanted in direction d while RELEASED (R148). -/
def Yaw.drive (y : Yaw) (d : Dir) : Yaw :=
  match y.run, y.settle with
  | some r, _ =>
    if r = d then (if y.blocked d then y.setRun none else y)
    else { y.setRun none with settle := some ⟨2000, r⟩ }
  | none, none => if y.blocked d then y else y.setRun (some d)
  | none, some q => if q.dir = d ∧ y.blocked d = false then { y.setRun (some d) with settle := none } else y

/-- The brake and the drives follow what is wanted (R145, R146, R148). -/
def Yaw.follow (y : Yaw) : Yaw :=
  let z :=
    match y.brake, y.wants with
    | .applied, some _ => { y with brake := .releasing, brakeTimer := some 3000 }
    | .releasing, none => y.applies
    | .released, none => (y.setRun none).applies
    | .released, some d => y.drive d
    | _, _ => y
  { z with drives := z.drives.map (Drive.sync z.run.isSome) }

/-- The direction that TRACK_BLOCKED reports as blocked, absent while the view is (R135). -/
def Yaw.blockedDir (y : Yaw) : Option Dir :=
  match y.chain with
  | [] => none
  | top :: _ =>
    if (top.kind = .track ∨ top.kind = .park) ∧ top.state = .held then
      match top.dir with
      | none => none
      | some d => if y.blocked d then some d else none
    else none

/-- The TRACK_BLOCKED report of a change of view (R135). -/
def blockedReport (old : Bool) (now : Option Dir) : List Ev :=
  match old, now with
  | false, some d => [.ctPresent (trackBlockedRaise d)]
  | true, none => [.ctAbsent trackBlockedCode]
  | _, _ => []

/-- The YAW_DRIVES_LOW view brought up to date, and its report (R142). -/
def Yaw.viewLow (y : Yaw) : YawWork :=
  let low := decide (y.healthy < 4)
  ({ y with lowView := low }, viewReport y.lowView low (drivesLowRaise y.healthy))

/-- The unit after an event: the brake and the drives follow, the views are brought up to date, and what is raised or
reported goes to the table before what goes to the wind and heading unit. The model's choice (log 47): the TRACK_BLOCKED
view is compared at the event's end alone, so a HELD blocked TRACK that a PARK, HELD and blocked too, displaces within one
event leaves the view present, with no report and the old detail (R135). -/
def setYaw (raises : List Ev) (w : YawWork) : Act := fun s =>
  let y := w.1.follow
  let v := y.viewLow
  ({ s with ym := { v.1 with blockedView := y.blockedDir.isSome } },
   raises ++ v.2 ++ blockedReport y.blockedView y.blockedDir ++ w.2)

/-! ## Events from other blocks -/

/-- PARK follows yaw_park (R137). -/
def Yaw.followPark (st : List Int) (y : Yaw) : YawWork :=
  if yawPark y.held ∧ y.inChain .park = false then y.insert st parkContext
  else if yawPark y.held = false ∧ y.inChain .park then y.remove st .park
  else (y, [])

/-- A delivery of yaw limits (R134, R137). -/
def takeYawLimits (flags : YawFlags) : Act := fun s =>
  setYaw [] ((Yaw.followPark s.settings { s.ym with held := flags }).thenDo (Yaw.rehold s.settings)) s

/-- The supply state handed over (R134, R142). -/
def takeYawSupply (st : SupplyState) : Act := fun s =>
  setYaw [] (Yaw.rehold s.settings { s.ym with supply := st }) s

/-- A TRACK move (R136). -/
def takeMove (target : Nat) (d : Dir) : Act := fun s =>
  match s.ym.chain with
  | [] => (s, [])
  | top :: rest =>
    if top.kind = .track ∧ top.state = .watching then
      setYaw [] ({ s.ym with chain := top.heads s.ym (.heading target) d :: rest }, leaveEvents top) s
    else (s, [])

/-- An automatic UNWIND request (R138). -/
def takeUnwind (goal : Int) (d : Dir) : Act := fun s =>
  if s.ym.inChain .unwind then (s, []) else setYaw [] (s.ym.insert s.settings (unwindContext .auto goal d)) s

/-- The top at an F handover (R134, R137). -/
def Yaw.atFiltered (st : List Int) (y : Yaw) : YawWork :=
  match y.chain, y.heading with
  | top :: rest, some h =>
    if top.kind = .park ∧ top.state = .held ∧ y.freeHold .park = false ∧ y.directionHold st top then
      ({ y with chain := evalPark st y top :: rest }, [])
    else if top.kind = .park ∧ top.state = .watching ∧ settingOf st 9 ≤ (magnitude (y.filtered - settingOf st 8) : Int) then
      ({ y with chain := parkHeads st y h top :: rest }, [])
    else if top.state = .held then y.rehold st
    else (y, [])
  | top :: _, none => if top.state = .held then y.rehold st else (y, [])
  | [], _ => (y, [])

/-- F handed over (R134, R137). The model's choice (log 50): park_offset is used as it stands also where F is compared with
it, which decides whether a PARK that watches computes a target. -/
def takeFiltered (f : Int) : Act := fun s =>
  setYaw [] (Yaw.atFiltered s.settings { s.ym with filtered := f }) s

/-! ## Heading and twist handover (R149, R150) -/

/-- UNWIND at its goal (R149 step 2). -/
def Yaw.atGoal (st : List Int) (y : Yaw) : YawWork :=
  match y.chain with
  | [] => (y, [])
  | top :: _ => if top.kind = .unwind ∧ goalReached y top then y.remove st .unwind else (y, [])

/-- Arrival (R149 step 3). -/
def Yaw.atArrival (st : List Int) (y : Yaw) : YawWork :=
  match y.chain, y.heading with
  | top :: rest, some h =>
    match top.target, top.state with
    | .heading t, .moving =>
      if inBand h t then
        match top.kind with
        | .track => ({ y with chain := top.watches :: rest }, [.whWatch .enterDwell])
        | .park => ({ y with chain := top.watches :: rest }, [])
        | .service => y.remove st .service
        | .unwind => (y, [])
      else (y, [])
    | _, _ => (y, [])
  | _, _ => (y, [])

/-- The stall watch at a handover, with the raise of YAW_STALL where it is due (R150). -/
def Yaw.watchStall (y : Yaw) : YawWork :=
  match y.run, y.heading with
  | some _, some h =>
    match y.stall with
    | none => ({ y with stall := some ⟨h, 0⟩ }, [])
    | some w =>
      if 5 ≤ magnitude (headingDiff w.ref h) then ({ y with stall := some ⟨h, 0⟩ }, [])
      else if 20000 ≤ w.ms then ({ y with stall := none }, [.ctRaise (yawStallRaise h)])
      else (y, [])
  | _, _ => (y, [])

/-- A heading and twist handover; a SET_TWIST before any valid heading read hands over no heading, and the heading held
stays (R149, R150, R124; log 41). The winding guard of step 1 is a
direction hold, so the re-evaluation leaves no top that wants to wind further, and `Yaw.follow` stops the drives. The
model's choice (log 45): where that removes a SERVICE and the top below wants the other way, the 2000 ms settle of R148
starts with the direction last run, although step 1 stops the drives before that want arises. -/
def takeYawHeading (h : Option Nat) (twist : Int) : Act := fun s =>
  let y := { s.ym with heading := h.or s.ym.heading, twist := twist }
  let w := ((Yaw.rehold s.settings y).thenDo (Yaw.atGoal s.settings)).thenDo (Yaw.atArrival s.settings)
  let q := w.1.follow.watchStall
  setYaw q.2 (q.1, w.2) s

/-! ## Brake, settle, jog (R141, R146 to R148) -/

/-- The brake at a pressure read (R146). -/
def Yaw.atPressure (y : Yaw) (bar : Nat) : Yaw :=
  let z := { y with pressure := bar }
  match y.brake with
  | .releasing => if bar ≤ 20 then { z with brake := .released, brakeTimer := none } else z
  | .applying => if 150 ≤ bar then { z with brake := .applied, brakeTimer := none } else z
  | .applied => z
  | .released => z

/-- A brake pressure read (R146). The model's choice (log 42): a read that reaches RELEASED while the top is still MOVING
starts the drives at once (R148), also where the end of the want is the next event, of which R152 says that the drives do
not start; they then stop at that event. -/
def takePressure (bar : Nat) : Act := fun s => setYaw [] (s.ym.atPressure bar, []) s

/-- The brake timer runs out (R147). -/
def takeBrakeTimer : Act := fun s =>
  match s.ym.brakeTimer with
  | none => (s, [])
  | some _ =>
    let y := if s.ym.brake = .releasing then s.ym.applies else { s.ym with brakeTimer := none }
    setYaw [.ctRaise (brakeFailRaise s.ym.pressure)] (y, []) s

/-- The reversal settle ends (R148). -/
def takeSettleEnd : Act := fun s =>
  match s.ym.settle with
  | none => (s, [])
  | some _ => setYaw [] ({ s.ym with settle := none }, []) s

/-- Whether a YAW_JOG runs. -/
def Yaw.jogs (y : Yaw) : Bool :=
  y.chain.any (fun c => c.kind == .service && (match c.target with | .time _ => true | _ => false))

/-- A YAW_JOG's time runs out (R141). -/
def takeJogEnd : Act := fun s => if s.ym.jogs then setYaw [] (s.ym.remove s.settings .service) s else (s, [])

/-! ## Fault lines (R143) -/

/-- One drive at a read of its fault line (R143). -/
def Drive.atRead (active : Bool) (d : Drive) : Drive :=
  let e := { d with line := active }
  if active then
    match d.state with
    | .ready => { e with state := .faulted, reported := true }
    | .running => { e with state := .faulted, reported := true }
    | .faulted => { e with reported := true }
    | .isolated => e
  else e

/-- Whether a read raises DRIVE_FAULT for a drive (R143). -/
def Drive.raisesAt (active : Bool) (d : Drive) : Bool :=
  active &&
  (match d.state with
   | .ready => true
   | .running => true
   | .faulted => !d.reported
   | .isolated => false)

/-- One drive's line taken: its raise, then YAW_DRIVES_LOW with healthy at that change (R142, R143, log 23). -/
def Yaw.readLine (lines : BitVec 8) (w : YawWork) (n : Fin 8) : YawWork :=
  let d := w.1.drives.get n
  let active := hasBit lines n.val
  let r := Yaw.viewLow { w.1 with drives := w.1.drives.set n (d.atRead active) }
  (r.1, w.2 ++ (if d.raisesAt active then [.ctRaise (driveFaultRaise n)] else []) ++ r.2)

/-- A read of the drive fault lines (R143). -/
def takeFaultLines (lines : BitVec 8) : Act := fun s =>
  let w := eightIndices.foldl (Yaw.readLine lines) (s.ym, [])
  setYaw w.2 (w.1, []) s

/-- The retirement of DRIVE_FAULT(n) (R143). -/
def takeDriveRetired (n : Fin 8) : Act := fun s =>
  let d := { s.ym.drives.get n with reported := false }
  let e := if d.state = .faulted ∧ d.line = false then { d with state := .ready } else d
  setYaw [] ({ s.ym with drives := s.ym.drives.set n e }, []) s

/-! ## Requests (R136, R139 to R141, R144) -/

/-- TRACK follows the setting tracking (R136). -/
def followTracking (on : Bool) : Act := fun s =>
  if on ∧ s.ym.inChain .track = false then setYaw [] (s.ym.insert s.settings trackContext) s
  else if on = false ∧ s.ym.inChain .track then setYaw [] (s.ym.remove s.settings .track) s
  else (s, [])

/-- SET_TRACKING (R136). -/
def serveSetTracking (l : Link) (on : Bool) (s : State) : Served :=
  if s.keyRefuses l then Served.refused s .refusedAuthority
  else
    Served.did (followTracking on { s with settings := withSetting s.settings 5 (if on then 1 else 0) }) .done []

/-- The origin of a START_UNWIND's context. -/
def unwindOrigin : Link → ContextOrigin
  | .main => .main
  | .service => .service

/-- The state of a kind's context in the chain. -/
def Yaw.stateOf (y : Yaw) (k : Kind) : List Byte :=
  match y.chain.find? (fun c => c.kind == k) with
  | none => []
  | some c => named (contextStateIndex c.state)

/-- START_UNWIND (R139). -/
def serveStartUnwind (l : Link) (s : State) : Served :=
  if s.ym.inChain .unwind then Served.refused s .refusedInChain
  else if (magnitude s.ym.twist : Int) ≤ s.setting 11 then Served.refused s .refusedState
  else
    let w := s.ym.insert s.settings (unwindContext (unwindOrigin l) (s.setting 11) (unwindDir s.ym.twist))
    let r := setYaw [] (w.1, w.2 ++ [.whUnwind true]) s
    Served.did r .done (r.1.ym.stateOf .unwind)

/-- A SERVICE context inserted at the top (R140). -/
def insertService (t : Target) (d : Dir) : Act := fun s => setYaw [] (s.ym.insert s.settings (serviceContext t d)) s

/-- YAW_GOTO (R140). -/
def serveYawGoto (l : Link) (heading : Nat) (s : State) : Served :=
  if l = .main then Served.refused s .refusedAuthority
  else if 3599 < heading then Served.refused s .badValue
  else if s.ym.inChain .service then Served.refused s .refusedInChain
  else if s.ym.hold ∨ s.ym.supply = .low then Served.refused s .refusedState
  else
    match s.ym.heading with
    | none => Served.refused s .refusedState
    | some h =>
      if inBand h heading then Served.read s []
      else if s.ym.blocked (shorterWay h heading) then Served.refused s .refusedState
      else Served.did (insertService (.heading heading) (shorterWay h heading) s) .done []

/-- YAW_JOG (R140). -/
def serveYawJog (l : Link) (d : Dir) (seconds : Nat) (s : State) : Served :=
  if l = .main then Served.refused s .refusedAuthority
  else if seconds < 1 ∨ 60 < seconds then Served.refused s .badValue
  else if s.ym.inChain .service then Served.refused s .refusedInChain
  else if s.ym.hold ∨ s.ym.supply = .low then Served.refused s .refusedState
  else if s.ym.blocked d then Served.refused s .refusedState
  else Served.did (insertService (.time (seconds * 1000)) d s) .done []

/-- SERVICE_STOP (R141): the response says whether a context was removed. -/
def serveServiceStop (l : Link) (s : State) : Served :=
  if l = .main then Served.refused s .refusedAuthority
  else if s.ym.inChain .service then Served.did (setYaw [] (s.ym.remove s.settings .service) s) .done (flag true)
  else Served.read s (flag false)

/-- A drive's entry replaced. -/
def Yaw.putDrive (y : Yaw) (n : Fin 8) (d : Drive) : Yaw := { y with drives := y.drives.set n d }

/-- A drive request's answer: the drive's state after it (R144). -/
def driveAnswer (n : Fin 8) (r : State × List Ev) : Served :=
  Served.did r .done (named (driveStateIndex (r.1.ym.drives.get n).state))

/-- DRIVE_ISOLATE (R144). -/
def serveDriveIsolate (l : Link) (drive : Nat) (s : State) : Served :=
  if l = .main then Served.refused s .refusedAuthority
  else
    match indexOf 8 drive with
    | none => Served.refused s .badValue
    | some n => driveAnswer n (setYaw [] (s.ym.putDrive n { s.ym.drives.get n with state := .isolated }, []) s)

/-- A drive returned to service: reported is kept only for a record that still stands (R144). -/
def returnedDrive (s : State) (n : Fin 8) : Drive :=
  let d := s.ym.drives.get n
  { d with state := .ready, reported := d.reported && (findCode s.table (driveFaultCode n)).isSome }

/-- DRIVE_RETURN (R144). -/
def serveDriveReturn (l : Link) (drive : Nat) (s : State) : Served :=
  if l = .main then Served.refused s .refusedAuthority
  else
    match indexOf 8 drive with
    | none => Served.refused s .badValue
    | some n =>
      let d := s.ym.drives.get n
      match d.state, d.line with
      | .isolated, false => driveAnswer n (setYaw [] (s.ym.putDrive n (returnedDrive s n), []) s)
      | .isolated, true =>
        driveAnswer n
          (setYaw [.ctRaise (driveFaultRaise n)]
            (s.ym.putDrive n { d with state := .faulted, reported := true }, []) s)
      | .faulted, false => driveAnswer n (setYaw [] (s.ym.putDrive n (returnedDrive s n), []) s)
      | _, _ => Served.refused s .refusedState

/-! ## READ_YAW (R151, R124) -/

/-- A context's target as one item that may be absent (R129, R151). -/
def targetBytes (t : Target) : List Byte :=
  match t with
  | .absent => optional 2 word none
  | .heading h => optional 2 word (some h)
  | .twist g => optional 2 signed (some g)
  | .time ms => optional 2 word (some ms)

/-- A direction. -/
def dirByte (d : Dir) : List Byte := named (dirIndex d)

/-- A context of the chain (R151). -/
def contextBytes (c : Context) : List Byte :=
  named (kindIndex c.kind) ++ named (contextOriginIndex c.origin) ++ targetBytes c.target ++ optional 1 dirByte c.dir ++
  named (contextStateIndex c.state)

/-- A drive of the roster (R151). -/
def driveItem (d : Drive) : List Byte := named (driveStateIndex d.state) ++ flag d.line ++ flag d.reported

/-- The direction the winding guard blocks (R151). -/
def Yaw.guardedDir (y : Yaw) : Option Dir :=
  if y.guards .cw then some .cw else if y.guards .ccw then some .ccw else none

/-- The wind and heading unit's items (R124). -/
def windBytes (w : Wind) : List Byte :=
  optional 2 word w.refHeading ++ flag w.headingOk ++ signed w.twist ++ signed w.filtered ++ flag w.vaneOk ++
  signed w.speed ++ word w.dwell ++ flag w.watching ++ flag w.views.twistLimit ++ flag w.views.storm ++
  flag w.views.misalign ++ flag w.views.vaneFault ++ flag w.views.headingFault

/-- The yaw motion unit's items (R151). -/
def yawBytes (y : Yaw) : List Byte :=
  named y.chain.length ++ (y.chain.map contextBytes).flatten ++ (y.drives.toList.map driveItem).flatten ++
  word y.healthy ++ named (rateIndex y.rate) ++ named (brakeIndex y.brake) ++ word y.pressure ++
  optional 2 word y.brakeTimer ++ named (runIndex y.run) ++
  optional 3 (fun q : Settle => word q.ms ++ dirByte q.dir) y.settle ++
  optional 2 (fun q : StallWatch => word q.ms) y.stall ++ flag y.hold ++ flag y.holdAuto ++ flag (yawPark y.held) ++
  flag (y.forbids .cw) ++ flag (y.forbids .ccw) ++ named (supplyIndex y.supply) ++ optional 1 dirByte y.guardedDir ++
  flag y.blockedView ++ flag y.lowView

/-- READ_YAW (R151). -/
def serveReadYaw (s : State) : Served := Served.read s (yawBytes s.ym ++ windBytes s.wh)

/-! ## Resets (R153) -/

/-- A drive at a warm reset (R153 step 6). -/
def Drive.afterReset (d : Drive) : Drive :=
  { d with state := if d.state = .isolated then .isolated else .ready, reported := false }

/-- The unit at a warm reset, up to step 8 of R153. -/
def Yaw.afterReset (y : Yaw) : Yaw :=
  let z := { Yaw.initial with drives := y.drives.map Drive.afterReset, pressure := y.pressure, twist := y.twist }
  { z with lowView := decide (z.healthy < 4) }

/-- The start-up reports of the two views (R153 step 8). -/
def yawStartReports (y : Yaw) : List Ev :=
  [if y.lowView then .ctPresent (drivesLowRaise y.healthy) else .ctAbsent drivesLowCode, .ctAbsent trackBlockedCode]

/-- TRACK at start-up (R153 step 9). -/
def startTracking (s : State) : YawWork :=
  if s.settingOn 5 then s.ym.insert s.settings trackContext else (s.ym, [])

end Sys2Proof.Machine
end

