-- ==== Sys2Proof/Machine/Cooling.lean ====
section
/-! DEFINITION. The cooling unit (chapter 8): pumps, fans, derating. -/

namespace Sys2Proof.Machine

/-! ## Temperatures and factors (R156, R166) -/

/-- loop_set (R156). -/
def loopSet (st : List Int) (l : Fin 3) : Int := settingOf st (22 + l.val)

/-- warn in use (R156). -/
def warnInUse (st : List Int) (l : Fin 3) : Int := max (settingOf st (25 + l.val)) (loopSet st l + 50)

/-- trip in use (R156). -/
def tripInUse (st : List Int) (l : Fin 3) : Int := max (settingOf st (28 + l.val)) (warnInUse st l + 50)

/-- The loop factor (R166). -/
def loopFactor (warn trip t : Int) : Nat :=
  if t ≤ warn then 64 else if trip ≤ t then 0 else (floorDiv (64 * (trip - t)) (trip - warn)).toNat

/-- The hot_view after a sample (R166). -/
def hotView (old : Bool) (warn t : Int) : Bool := if old then decide (warn - 20 < t) else decide (warn < t)

/-! ## Fans (R163 to R165) -/

/-- The feedforward (R163 step 1). -/
def feedforward (l : Fin 3) (c : Nat) : Int := if l.val = 2 then 0 else ((c * 25 / 16000 : Nat) : Int)

/-- The error term (R163 step 2). -/
def errorTerm (st : List Int) (l : Fin 3) (t : Option Int) : Int :=
  match t with
  | none => 0
  | some v => floorDiv (settingOf st (31 + l.val) * (v - loopSet st l)) 10

/-- The fan law (R163). The model's choice (log 49): loop_set and loop_kp are used as they stand at each evaluation, also at a
boost end, a pump start or a write of fan_min that comes between a write of them and the loop's next sample (R156, R202). -/
def fanLaw (st : List Int) (l : Fin 3) (c : Nat) (t : Option Int) : Nat :=
  (clampInt (settingOf st 34) 100 (feedforward l c + errorTerm st l t)).toNat

/-- Whether a loop is boosted (R164). -/
def Cooling.boosted (u : Cooling) (l : Fin 3) : Bool := hasBit u.boost l.val || hasBit u.reaction l.val

/-- The duty of a loop from C and t_out as held: 100 while boosted, the fan law's value otherwise, 0 while its pump is
not RUNNING (R163 to R165). -/
def Cooling.dutyNow (st : List Int) (u : Cooling) (l : Fin 3) : Nat :=
  if (u.loops.get l).pump = .running then
    if u.boosted l then 100 else fanLaw st l u.commanded (u.loops.get l).tOut
  else 0

/-- A loop's record replaced. -/
def Cooling.put (u : Cooling) (l : Fin 3) (x : Loop) : Cooling := { u with loops := u.loops.set l x }

/-- A loop's duty set from C and t_out as held. -/
def Cooling.setDuty (st : List Int) (l : Fin 3) (u : Cooling) : Cooling :=
  u.put l { u.loops.get l with duty := u.dutyNow st l }

/-- The duty of a loop whose boosted status changed between two states (R164). -/
def Cooling.boostDuty (st : List Int) (old : Cooling) (u : Cooling) (l : Fin 3) : Cooling :=
  if old.boosted l = u.boosted l then u else u.setDuty st l

/-- Every loop's duty after a change of the boosts (R164). -/
def Cooling.reboost (st : List Int) (old : Cooling) (u : Cooling) : Cooling := threeIndices.foldl (Cooling.boostDuty st old) u

/-! ## Pumps (R157, R158, R161) -/

/-- Whether a loop's pump is demanded (R157), with loop_set of L1 as it stands, also before L1's next sample (log 49). -/
def Cooling.demanded (st : List Int) (u : Cooling) (l : Fin 3) : Bool :=
  match u.supply, l with
  | .full, 0 => u.laneDemand
  | .full, 1 =>
    decide (0 < u.commanded) ||
    (match (u.loops.get 1).tOut with | none => false | some t => decide (loopSet st 1 < t))
  | .full, 2 => true
  | .aux, 2 => true
  | _, _ => false

/-- A pump at a demand evaluation (R158). -/
def Loop.evaluate (demanded : Bool) (x : Loop) : Loop :=
  match x.pump, demanded with
  | .off, true => { x with pump := .priming, prime := some 5000, misses := 0 }
  | .priming, false => { x with pump := .off, prime := none }
  | .running, false => { x with pump := .off, misses := 0, duty := 0 }
  | _, _ => x

/-- A loop's demand evaluated (R157, R158). -/
def Cooling.evaluate (st : List Int) (l : Fin 3) (u : Cooling) : Cooling :=
  u.put l ((u.loops.get l).evaluate (u.demanded st l))

/-- A pump taken out of FAILED, and its demand evaluated (R161). -/
def Cooling.release (st : List Int) (l : Fin 3) (u : Cooling) : Cooling :=
  if (u.loops.get l).pump = .failed then (u.put l { u.loops.get l with pump := .off }).evaluate st l else u

/-- The cooling unit replaced: a changed L0 pump state is handed to the lane manager before anything is raised (R162). -/
def setCooling (u : Cooling) (after : List Ev) : Act := fun s =>
  ({ s with cu := u },
   (if s.cu.loops.x0.pump = u.loops.x0.pump then [] else [.lmPump u.loops.x0.pump]) ++ after)

/-! ## Handovers and deliveries -/

/-- C handed over (R157). -/
def takeCommanded (kw : Nat) : Act := fun s =>
  setCooling (Cooling.evaluate s.settings 1 { s.cu with commanded := kw }) [] s

/-- The lane cooling demand handed over (R157). -/
def takeCoolingDemand (yes : Bool) : Act := fun s =>
  setCooling (Cooling.evaluate s.settings 0 { s.cu with laneDemand := yes }) [] s

/-- The supply state handed over (R157). -/
def takeCoolingSupply (st : SupplyState) : Act := fun s =>
  setCooling (threeIndices.foldl (fun u l => u.evaluate s.settings l) { s.cu with supply := st }) [] s

/-- boost_loops delivered (R164). -/
def takeBoost (set : LoopSet) : Act := fun s =>
  setCooling (Cooling.reboost s.settings s.cu { s.cu with boost := set }) [] s

/-- The reaction boost set handed over (R164). -/
def takeReaction (set : LoopSet) : Act := fun s =>
  setCooling (Cooling.reboost s.settings s.cu { s.cu with reaction := set }) [] s

/-- The retirement of PUMP_FAIL(L) (R161). -/
def takePumpRetired (l : Fin 3) : Act := fun s => setCooling (s.cu.release s.settings l) [] s

/-! ## Flow (R159, R160) -/

/-- A loop whose pump enters RUNNING (R159, R165). -/
def Cooling.runs (st : List Int) (l : Fin 3) (u : Cooling) : Cooling :=
  (u.put l { u.loops.get l with pump := .running, prime := none, misses := 0 }).setDuty st l

/-- A pump that fails; whether its raise is folded is learnt when the table takes it (R159, R160, R161). -/
def Loop.fails (x : Loop) : Loop :=
  { x with pump := .failed, prime := none, misses := 0, duty := 0, failFolded := false }

/-- A loop's flow as its switch shows it. -/
def Cooling.sees (u : Cooling) (l : Fin 3) (seen : Bool) : Cooling := u.put l { u.loops.get l with flow := seen }

/-- A loop's count of reads without flow in RUNNING. -/
def Cooling.withMisses (u : Cooling) (l : Fin 3) (n : Nat) : Cooling := u.put l { u.loops.get l with misses := n }

/-- A read of a loop's flow switch (R159, R160). -/
def takeFlow (l : Fin 3) (seen : Bool) : Act := fun s =>
  match (s.cu.loops.get l).pump with
  | .priming =>
    if seen then setCooling ((s.cu.sees l seen).runs s.settings l) [] s else setCooling (s.cu.sees l seen) [] s
  | .running =>
    if seen then setCooling ((s.cu.sees l seen).withMisses l 0) [] s
    else if 3 ≤ (s.cu.loops.get l).misses + 1 then
      setCooling ((s.cu.sees l seen).put l ((s.cu.sees l seen).loops.get l).fails) [.ctRaise (pumpFailRaise l 2)] s
    else setCooling ((s.cu.sees l seen).withMisses l ((s.cu.loops.get l).misses + 1)) [] s
  | .off => setCooling (s.cu.sees l seen) [] s
  | .failed => setCooling (s.cu.sees l seen) [] s

/-- A prime timer runs out (R159). -/
def takePrimeTimeout (l : Fin 3) : Act := fun s =>
  let x := s.cu.loops.get l
  match x.prime with
  | none => (s, [])
  | some _ => setCooling (s.cu.put l x.fails) [.ctRaise (pumpFailRaise l 1)] s

/-! ## Temperature samples (R155, R166 to R168) -/

/-- A valid sample (R155). -/
def validTemperature (reading : Option Int) : Option Int :=
  match reading with
  | none => none
  | some t => if -400 ≤ t ∧ t ≤ 1500 then some t else none

/-- A sample of a loop's outlet temperature (R155; the start-up reports of R171). -/
def takeSample (l : Fin 3) (reading : Option Int) : Act := fun s =>
  let x := s.cu.loops.get l
  match validTemperature reading with
  | some t =>
    ({ s with cu := s.cu.put l { x with tOut := some t, sensorOk := true, sensorView := false } },
     (if x.sensorView ∨ x.owed then [.ctAbsent (sensorFaultCode l)] else []) ++
     [.cuDerate l true, .cuDemand l, .cuFan l])
  | none =>
    ({ s with cu := s.cu.put l { x with sensorOk := false, sensorView := true } },
     (if x.sensorView then [] else [.ctPresent (sensorFaultRaise l)]) ++ [.cuDerate l false, .cuDemand l, .cuFan l])

/-- The LOOP_HOT cause as a view changes, or as the start-up report gives it (R166, R171). -/
def hotReport (l : Fin 3) (old new owed : Bool) (t : Int) (cap : Nat) : List Ev :=
  if new then (if old then [] else [.ctPresent (loopHotRaise l t cap)])
  else if old ∨ owed then [.ctAbsent (loopHotCode l)] else []

/-- The refresh of a valid sample below trip (R167). -/
def hotRefresh (l : Fin 3) (table : List Record) (old new escalated : Bool) (cap : Nat) : List Ev :=
  match findCode table (loopHotCode l) with
  | none => []
  | some q => if old ∧ new ∧ escalated = false ∧ q.eff.cap ≠ some cap then [.ctRefresh (loopHotCode l) cap] else []

/-- Whether the loop's LOOP_HOT is escalated, as a valid sample finds it: no where the table holds no record (R168,
log 20). -/
def stillEscalated (l : Fin 3) (table : List Record) (x : Loop) : Bool :=
  x.hotEscalated && (findCode table (loopHotCode l)).isSome

/-- Derate: the factor, the view, the refresh and the escalation (R155 step 2, R166 to R168). -/
def takeDerate (l : Fin 3) (valid : Bool) : Act := fun s =>
  let x := s.cu.loops.get l
  let y := { x with owed := false }
  match valid, x.tOut with
  | true, some t =>
    let warn := warnInUse s.settings l
    let trip := tripInUse s.settings l
    let f := loopFactor warn trip t
    let view := hotView x.hotView warn t
    let esc := stillEscalated l s.table x
    let z := { y with factor := f, computedCap := 250 * f, hotView := view, hotEscalated := esc }
    if trip ≤ t then
      ({ s with cu := s.cu.put l z },
       hotReport l x.hotView view x.owed t (250 * f) ++ (if esc then [] else [.cuEscalate l]))
    else
      ({ s with cu := s.cu.put l z },
       hotReport l x.hotView view x.owed t (250 * f) ++ hotRefresh l s.table x.hotView view esc (250 * f))
  | _, _ =>
    ({ s with cu := s.cu.put l y }, if x.owed then [.ctAbsent (loopHotCode l)] else [])

/-- The escalation of LOOP_HOT(L) once the trip temperature is reached (R168 steps 2 and 3). -/
def takeHotEscalation (l : Fin 3) : Act := fun s =>
  let x := s.cu.loops.get l
  ({ s with cu := s.cu.put l { x with hotEscalated := true } },
   match findCode s.table (loopHotCode l) with
   | some _ => [.ctEscalateTo (loopHotCode l) .shed 0]
   | none => [.ctPresent { loopHotRaise l (x.tOut.getD 0) 0 with cls := .shed }])

/-- Whether a FAILED pump whose raise was folded is free: the table holds no OVERFLOW record (R161). -/
def foldFreed (table : List Record) (x : Loop) : Bool :=
  x.pump == .failed && x.failFolded && (findCode table overflowCode).isNone

/-- Demand at a temperature sample: the release of a folded failure, and L1's demand (R155 step 3, R161; log 21). -/
def takeSampleDemand (l : Fin 3) : Act := fun s =>
  let u := if foldFreed s.table (s.cu.loops.get l) then s.cu.release s.settings l else s.cu
  setCooling (if l = 1 then u.evaluate s.settings 1 else u) [] s

/-- The fan law at a temperature sample (R155 step 4, R163). -/
def takeFan (l : Fin 3) : Act := Act.update (fun s => { s with cu := s.cu.setDuty s.settings l })

/-- A write of fan_min (R165). -/
def takeFanMin : Act :=
  Act.update (fun s => { s with cu := threeIndices.foldl (fun u l => u.setDuty s.settings l) s.cu })

/-! ## READ_LOOP (R169) -/

/-- The items of READ_LOOP; flow is numbered as R154 lists it, seen before not seen (log 17). -/
def loopBytes (st : List Int) (u : Cooling) (l : Fin 3) : List Byte :=
  let x := u.loops.get l
  named (pumpIndex x.pump) ++ optional 2 word x.prime ++ word x.misses ++ named (if x.flow then 0 else 1) ++
  flag (u.demanded st l) ++ word x.duty ++ optional 2 signed x.tOut ++ flag x.sensorOk ++
  flag (hasBit u.boost l.val) ++ flag (hasBit u.reaction l.val) ++ word x.factor ++ word x.computedCap ++
  signed (warnInUse st l) ++ signed (tripInUse st l) ++ flag x.hotView ++ flag x.hotEscalated ++ flag x.sensorView ++
  flag x.failFolded

/-- READ_LOOP (R169). -/
def serveReadLoop (loop : Nat) (s : State) : Served :=
  match indexOf 3 loop with
  | none => Served.refused s .badValue
  | some l => Served.read s (loopBytes s.settings s.cu l)

/-- A pump's output (R154). -/
def Loop.pumpOn (x : Loop) : Bool :=
  match x.pump with
  | .priming => true
  | .running => true
  | .off => false
  | .failed => false

/-! ## Warm reset (R172) -/

/-- A loop record at a warm reset, after the table's retention (R172). -/
def Loop.afterReset (table : List Record) (l : Fin 3) : Loop :=
  { Loop.initial with
    pump := if (findCode table (pumpFailCode l)).isSome then .failed else .off
    hotEscalated := (findCode table (loopHotCode l)).any (fun q => q.eff.cap == some 0) }

/-- The cooling unit at a warm reset, after the table's retention (R172). -/
def Cooling.afterReset (table : List Record) : Cooling :=
  { Cooling.initial with loops := ⟨Loop.afterReset table 0, Loop.afterReset table 1, Loop.afterReset table 2⟩ }

end Sys2Proof.Machine
end

