-- ==== Sys2Proof/Machine/Supply.lean ====
section
/-! DEFINITION. The supply monitor (chapter 9). -/

namespace Sys2Proof.Machine

/-- grid_view of a state: present in AUX and LOW (R173). -/
def gridViewOf (st : SupplyState) : Bool := !(st == .full)

/-- ups_view of a state: present in LOW (R173). -/
def upsViewOf (st : SupplyState) : Bool := st == .low

/-- grid_view (R173). -/
def Supply.gridView (m : Supply) : Bool := gridViewOf m.state

/-- ups_view (R173). -/
def Supply.upsView (m : Supply) : Bool := upsViewOf m.state

/-- The detail of the supply reports: ups, or 0 (R178). -/
def upsDetail (m : Supply) : Nat := m.ups.getD 0

/-- The handovers of a supply state (R178). -/
def supplyHandover (st : SupplyState) : List Ev := [.lmSupply st, .ymSupply st, .cuSupply st]

/-- The supply monitor replaced: a changed state is handed over before the changed views are reported (R178). -/
def setSupply (m : Supply) : Act := fun s =>
  ({ s with sm := m },
   if m.state = s.sm.state then []
   else
     supplyHandover m.state ++ viewReport s.sm.gridView m.gridView (gridLossRaise (upsDetail m)) ++
     viewReport s.sm.upsView m.upsView (upsLowRaise (upsDetail m)))

/-- The state that a grid-absent event in FULL leads to (R176). -/
def stateOnLoss (ups : Option Nat) : SupplyState :=
  match ups with
  | none => .aux
  | some p => if p < 20 then .low else .aux

/-- A read of the grid-presence input (R174, R176). -/
def takeGrid (present : Bool) : Act := fun s =>
  let m := { s.sm with grid := present }
  match s.sm.grid, present with
  | false, true => setSupply (if s.sm.state = .full then m else { m with settle := some 10000 }) s
  | true, false =>
    setSupply (if s.sm.state = .full then { m with state := stateOnLoss m.ups } else { m with settle := none }) s
  | _, _ => (s, [])

/-- The settle completes (R176). -/
def takeSettled : Act := fun s =>
  match s.sm.settle with
  | none => (s, [])
  | some _ => setSupply { s.sm with settle := none, state := .full } s

/-- A valid UPS sample (R175). -/
def validUps (reading : Option Nat) : Option Nat :=
  match reading with
  | none => none
  | some p => if p ≤ 100 then some p else none

/-- The state after a valid UPS sample (R177). -/
def stateOnSample (st : SupplyState) (p : Nat) : SupplyState :=
  match st with
  | .full => .full
  | .aux => if p < 20 then .low else .aux
  | .low => if 30 ≤ p then .aux else .low

/-- A sample of the UPS charge (R175, R177). -/
def takeUps (reading : Option Nat) : Act := fun s =>
  match validUps reading with
  | none => ({ s with sm := { s.sm with upsOk := false } }, [])
  | some p => setSupply { s.sm with ups := some p, upsOk := true, state := stateOnSample s.sm.state p } s

/-- The start-up reports (R179, R180). -/
def supplyStartReports (m : Supply) : List Ev :=
  [if m.gridView then .ctPresent (gridLossRaise (upsDetail m)) else .ctAbsent gridLossCode,
   if m.upsView then .ctPresent (upsLowRaise (upsDetail m)) else .ctAbsent upsLowCode]

/-- The items of READ_SUPPLY (R181). -/
def supplyBytes (m : Supply) : List Byte :=
  named (supplyIndex m.state) ++ optional 2 word m.ups ++ flag m.upsOk ++ flag m.grid ++ optional 2 word m.settle ++
  flag m.gridView ++ flag m.upsView

/-- READ_SUPPLY (R181). -/
def serveReadSupply (s : State) : Served := Served.read s (supplyBytes s.sm)

end Sys2Proof.Machine
end

