-- ==== Sys2Proof/Machine/Requests.lean ====
section
/-! DEFINITION. The settings store's requests (R202), IDENT (R196), and each request as its owner serves it (R189). -/

namespace Sys2Proof.Machine

/-- Whether a setting id names a setting (R202). -/
def knownSetting (id : Nat) : Bool := decide (1 ≤ id) && decide (id ≤ 38)

/-- What a write of a setting does besides storing it: tracking moves the chain (R136), fan_min the fans (R165). -/
def settingActs (id : Nat) (v : Int) : Act :=
  match id with
  | 5 => followTracking (v == 1)
  | 34 => takeFanMin
  | _ => Act.skip

/-- SET_SETTING (R202, R193). -/
def serveSetSetting (l : Link) (id : Nat) (value : Int) (s : State) : Served :=
  if !knownSetting id then Served.refused s .badValue
  else if id = 5 ∧ s.keyRefuses l then Served.refused s .refusedAuthority
  else
    let v := clampSetting s.settings id value
    let status := if v = value then Status.done else .clamped
    if v = s.setting id then Served.did (s, []) status (signed v)
    else Served.did (settingActs id v { s with settings := writeSetting s.settings id v }) status (signed v)

/-- GET_SETTING (R202). -/
def serveGetSetting (id : Nat) (s : State) : Served :=
  if !knownSetting id then Served.refused s .badValue else Served.read s (signed (s.setting id))

/-- IDENT (R196). -/
def serveIdent (s : State) : Served :=
  Served.read s (word Config.vendorCode ++ word Config.partCode ++ word Config.revision ++ word s.address)

/-- A request served by its owner (R189). The link unit itself answers a request out of its encoding (R187); a
WARM_RESET is served where the reset is (`takeServe`). -/
def serve (l : Link) (r : Request) (s : State) : Served :=
  match r with
  | .lookup c => serveLookup l c s
  | .scan start f => serveScan l start f s
  | .raise c cls detail cap lanes yaw loops => serveRaise l c cls detail (requestEffects cap lanes yaw loops) s
  | .amend c cap lanes yaw loops => serveAmend l c (requestEffects cap lanes yaw loops) s
  | .ack c => serveAck l c s
  | .retire c => serveRetire l c s
  | .bind slot c a loops delay count => serveBind slot c a loops delay count s
  | .unbind slot => serveUnbind slot s
  | .readSlot slot => serveReadSlot slot s
  | .setDemand d => serveSetDemand l d s
  | .readEnvelope => serveReadEnvelope s
  | .laneStart n => serveLaneStart l n s
  | .laneStop n => serveLaneStop n s
  | .readLane n => serveReadLane n s
  | .setTracking on => serveSetTracking l on s
  | .startUnwind => serveStartUnwind l s
  | .yawGoto h => serveYawGoto l h s
  | .yawJog d sec => serveYawJog l d sec s
  | .serviceStop => serveServiceStop l s
  | .readYaw => serveReadYaw s
  | .driveIsolate n => serveDriveIsolate l n s
  | .driveReturn n => serveDriveReturn l n s
  | .setTwist t => serveSetTwist l t s
  | .readLoop n => serveReadLoop n s
  | .setSetting id v => serveSetSetting l id v s
  | .getSetting id => serveGetSetting id s
  | .readSupply => serveReadSupply s
  | .ident => serveIdent s
  | .warmReset _ => Served.read s []
  | .badEncoding => Served.refused s .badValue

end Sys2Proof.Machine
end

