-- ==== Sys2Proof/Machine/Resets.lean ====
section
/-! DEFINITION. Cold power-up and warm reset of the whole part (R29 to R31, R43, R58, R84, R85, R110, R125, R126, R153,
R171, R172, R179, R180, R183, R197, R198). -/

namespace Sys2Proof.Machine

/-- The strap address that the two pins select (R184). -/
def strapAddress (straps : Fin 4) : Nat := Config.lowestAddress + straps.val

/-- The silence timer as it restarts (R194): stopped where silence_timeout is 0. -/
def silenceStart (st : List Int) : Option Nat :=
  if settingOf st 21 ≤ 0 then none else some ((settingOf st 21).toNat * 1000)

/-- The handovers that blocks make at their start-up (R84, R85, R110, R171, R172, R179, R180; log 15). -/
def startHandovers (st : SupplyState) (pump : PumpState) : List Ev :=
  supplyHandover st ++ [.lmDemand false, .cuCommanded 0, .cuLaneDemand false, .lmPump pump]

/-- The start-up cause reports (R9, R125, R126, R153, R179, R180, R194; log 15). -/
def startReports (s : State) : List Ev :=
  windStartReports s.wh ++ yawStartReports s.ym ++ [.ctAbsent hostSilentCode] ++ supplyStartReports s.sm

/-- Cold power-up (R29): every block at its initial values, TRACK at the top of the chain, and the start-up handovers
and reports. The level of the reset line is the pin's, and the commands that wait go on waiting. -/
def takeColdStart (straps : Fin 4) : Act := fun s =>
  let z :=
    { State.powerOn with
      straps := straps, address := strapAddress straps, lineAsserted := s.lineAsserted, arrivals := s.arrivals, pending := s.pending }
  let w := startTracking z
  ({ z with ym := w.1 }, w.2 ++ startHandovers z.sm.state .off ++ startReports z)

/-- A link unit at a warm reset: IGNORING holds until the next start condition, and attention pending keeps its value
(R183, R198; log 31). -/
def LinkUnit.afterReset (u : LinkUnit) : LinkUnit :=
  { LinkUnit.initial with frame := if u.frame = .ignoring then .ignoring else .idle, attention := u.attention }

/-- Every block at the values it takes at a warm reset (R30, R58, R85, R86, R126, R153, R172, R180, R183). -/
def State.warmValues (straps : Fin 4) (s : State) : State :=
  let kept := retention s.uptime s.table
  askRetained kept
    { s with
      straps := straps
      address := strapAddress straps
      table := kept
      limits := resolve kept
      slots := discardPending s.slots
      eu := s.eu.afterReset
      lm := LaneManager.initial
      wh := s.wh.afterReset
      ym := s.ym.afterReset
      cu := Cooling.afterReset kept
      links := ⟨s.links.main.afterReset, s.links.service.afterReset⟩
      silence := silenceStart s.settings
      silenceView := false
      keyView := false
      keyOwed := true }

/-- A warm reset, with the detail its WARM_RESTART carries (R30, R31, R43): retention, the full delivery, the start-up
handovers, WARM_RESTART, the start-up reports. -/
def takeWarmStart (detail : Nat) (straps : Fin 4) : Act := fun s =>
  let z := s.warmValues straps
  let w := startTracking z
  ({ z with ym := w.1 },
   w.2 ++ fullDelivery z.limits ++ startHandovers z.sm.state z.cu.loops.x0.pump ++
   [.cuReaction 0, .ctRaise (warmRestartRaise detail)] ++ startReports z)

/-- The reset line is asserted: both link units leave their lines undriven and take no frame (R197). -/
def takeLineAssert : Act :=
  Act.update (fun s =>
    { s with
      lineAsserted := true
      links := ⟨{ s.links.main with ackSlot := .undriven, driven := [] },
        { s.links.service with ackSlot := .undriven, driven := [] }⟩ })

/-- The reset line is released, and the warm reset takes place (R197; log 11). -/
def takeLineRelease (straps : Fin 4) : Act := fun s => takeWarmStart 1 straps { s with lineAsserted := false }

/-- The detail of the WARM_RESTART a request causes: 2 on the main link, 3 on the service link (R31). -/
def restartDetail : Link → Nat
  | .main => 2
  | .service => 3

end Sys2Proof.Machine
end

