-- ==== Sys2Proof/Machine/Links.lean ====
section
/-! DEFINITION. The link units (chapters 10 and 11): frames, execution of requests, attention frames, silence, key. -/

namespace Sys2Proof.Machine

/-! ## Frames (R185 to R187, R190, R195) -/

/-- A link unit poisoned (R186): NACK, the response buffer and the received bytes emptied. -/
def LinkUnit.poison (u : LinkUnit) : LinkUnit :=
  { u with frame := .poisoned, received := [], response := none, ackSlot := .nack }

/-- A link unit after one byte of a request frame (R185, R186). -/
def LinkUnit.byte (b : Byte) (parityGood : Bool) (u : LinkUnit) : LinkUnit :=
  match u.frame with
  | .receiving =>
    if parityGood ∧ u.received.length < 16 then { u with received := u.received ++ [b], ackSlot := .ack } else u.poison
  | .poisoned => { u with ackSlot := .nack }
  | _ => u

/-- A link unit as a start condition opens a frame with an address byte (R185). -/
def LinkUnit.opens (address : Nat) (addr : Byte) (parityGood : Bool) (u : LinkUnit) : LinkUnit :=
  let v := { u with received := [], payload := none, driven := [] }
  if addr = writeAddress address ∨ addr = readAddress address then
    if parityGood = false then { v with frame := .ignoring, ackSlot := .nack }
    else if addr = writeAddress address then { v with frame := .receiving, ackSlot := .ack }
    else { v with frame := .sending, ackSlot := .ack }
  else { v with frame := .ignoring, ackSlot := .undriven }

/-- A link unit at the end of a frame: IDLE, with no byte received and no payload in flight. -/
def LinkUnit.ends (u : LinkUnit) : LinkUnit := { u with frame := .idle, received := [], payload := none }

/-- A link's unit changed. -/
def updateLink (l : Link) (f : LinkUnit → LinkUnit) : Act := Act.update (fun s => s.setLink l (f (s.links.get l)))

/-- A start condition with the address byte and the good bytes that follow it; in RECEIVING or POISONED it first ends
the frame in progress as a stop condition does (R185). -/
def takeStart (l : Link) (addr : Byte) (parityGood : Bool) (bytes : List Byte) : Act := fun s =>
  if s.takesFrame l then
    if (s.links.get l).frame = .receiving then (s, [.lkStop l, .lkOpen l addr parityGood bytes])
    else (s, [.lkOpen l addr parityGood bytes])
  else (s, [])

/-- The new frame opened (R185). -/
def takeOpen (l : Link) (addr : Byte) (parityGood : Bool) (bytes : List Byte) : Act := fun s =>
  updateLink l (fun u => bytes.foldl (fun v b => v.byte b true) (u.opens s.address addr parityGood)) s

/-- A further byte of a request frame (R185, R186). -/
def takeByte (l : Link) (b : Byte) (parityGood : Bool) : Act :=
  Act.guarded (fun s => s.takesFrame l) (updateLink l (LinkUnit.byte b parityGood))

/-- What the link unit stores where a frame is not executed: the status alone (R187). -/
def storeResponse (l : Link) (checked : Bool) (a : Answer) (s : State) : State :=
  s.setLink l { s.links.get l with response := some (formResponse s.address checked a.status a.data) }

/-- A stop condition (R185, R187, R200): in RECEIVING the received bytes are judged, and any other frame ends. A WARM_RESET
among them reads the strap pins at their level (R183, log 33). -/
def takeStop (l : Link) : Act := fun s =>
  let u := s.links.get l
  match u.frame with
  | .receiving =>
    let s' := s.setLink l u.ends
    match judgeFrame s.address (s.checkMode l) s.straps u.received with
    | .fault status => (storeResponse l (s.checkMode l) ⟨status, []⟩ s', [])
    | .execute r => (s', [.lkBegin l r])
  | .idle => (s, [])
  | .ignoring => (s, [])
  | _ => (s.setLink l u.ends, [])

/-- The stop condition of a request frame, where the link takes frames (R187). -/
def takeFrameStop (l : Link) : Act := Act.guarded (fun s => s.takesFrame l) (takeStop l)

/-- The stop condition of a poisoned frame (R186). -/
def takePoisonStop (l : Link) : Act :=
  Act.guarded (fun s => s.takesFrame l && (s.links.get l).frame == .poisoned) (updateLink l LinkUnit.ends)

/-- A response frame opened by its address byte; in RECEIVING it first ends the frame in progress (R185, R190). -/
def takeRead (l : Link) (clocked : Nat) : Act := fun s =>
  if s.takesFrame l then
    if (s.links.get l).frame = .receiving then (s, [.lkStop l, .lkSend l clocked]) else (s, [.lkSend l clocked])
  else (s, [])

/-- The response a response frame sends: the stored one, or NO_RESPONSE formed at the read (R190). -/
def responseToSend (s : State) (l : Link) : Response :=
  ((s.links.get l).response).getD (formResponse s.address (s.checkMode l) .noResponse [])

/-- The bytes of a response frame, as many as the requester clocks (R190). -/
def takeSend (l : Link) (clocked : Nat) : Act := fun s =>
  updateLink l (fun u =>
    { u.ends with ackSlot := .ack, driven := (driveBytes (responseBytes (responseToSend s l))).take clocked }) s

/-- A link reset (R195, R199, R200). -/
def takeLinkReset (l : Link) : Act := updateLink l (fun u => { u.ends with ackSlot := .undriven, driven := [] })

/-! ## Execution (R189, R194, R197) -/

/-- A whole request frame arrives: every byte was acknowledged and every check of R187 passed (log 9). Its start condition
first ends a frame in RECEIVING as a stop condition does (R185). -/
def takeRequest (l : Link) (r : Request) : Act := fun s =>
  if s.takesFrame l then
    if (s.links.get l).frame = .receiving then (s, [.lkStop l, .lkRequest l r])
    else (s.setLink l { (s.links.get l).ends with ackSlot := .ack, driven := [] }, [.lkBegin l r])
  else (s, [])

/-- A request on a link is executed: on the main link the silence timer restarts, and a present silence ends, before the
request is handed over (R189, R194). -/
def takeBegin (l : Link) (r : Request) : Act := fun s =>
  match l with
  | .service => (s, [.lkServe .service r])
  | .main =>
    let s' := { s with silence := silenceStart s.settings, silenceView := false }
    (s', if s.silenceView then [.ctAbsent hostSilentCode, .lkServe .main r] else [.lkServe .main r])

/-- The request handed to its owner, and the response stored in the check mode of its execution (R189, R191, R197). -/
def takeServe (l : Link) (r : Request) : Act := fun s =>
  match r with
  | .warmReset straps =>
    let w := takeWarmStart (restartDetail l) straps s
    (storeResponse l (s.checkMode l) ⟨.done, []⟩ w.1, w.2)
  | _ =>
    let w := serve l r s
    (storeResponse l (s.checkMode l) w.answer w.state, w.events)

/-! ## Silence and key (R192, R194) -/

/-- The silence timer runs out (R194). The model's choice (log 46): the detail of HOST_SILENT is silence_timeout as it stands
at the expiry, also where it was written while the timer ran, which counts on from the old value (R194, R202). -/
def takeSilenceExpiry : Act := fun s =>
  match s.silence with
  | none => (s, [])
  | some _ =>
    ({ s with silence := none, silenceView := true },
     if s.silenceView then [] else [.ctPresent (hostSilentRaise (s.settingNat 21))])

/-- A read of the service key switch (R192). -/
def takeKey (on : Bool) : Act := fun s =>
  ({ s with keyView := on, keyOwed := false },
   if s.keyOwed ∨ s.keyView ≠ on then [if on then .ctPresent serviceLockRaise else .ctAbsent serviceLockCode] else [])

/-! ## Attention (R199 to R201) -/

/-- An attention frame begins, where attention is pending and the link is IDLE or IGNORING (R199). -/
def takeAttention (l : Link) : Act := fun s =>
  let u := s.links.get l
  if s.lineAsserted = false ∧ u.attention ∧ (u.frame = .idle ∨ u.frame = .ignoring) then
    (s.setLink l
      { u with
        frame := .attention, payload := none, ackSlot := .undriven
        driven := [{ byte := readAddress s.address, parity := parityBit (readAddress s.address), more := none }] }, [])
  else (s, [])

/-- highest_class in the payload: 0 for NONE (R201). -/
def highestIndex (h : Option Cls) : Nat :=
  match h with
  | none => 0
  | some c => clsIndex c + 1

/-- The kind of the top context in the payload (R201). -/
def topIndex (chain : List Context) : Nat :=
  match chain with
  | [] => 0
  | top :: _ => priority top.kind

/-- The number of records a link has not read (R201). -/
def unreadCount (l : Link) (table : List Record) : Nat := (table.filter (fun q => q.unread.get l)).length

/-- The yaw flags of the payload: HOLD, HOLD_AUTO, PARK, FORBID_CW, FORBID_CCW in bits 3 to 7 (R201). -/
def payloadFlags (f : YawFlags) : Nat :=
  (if hasBit f 4 then 8 else 0) + (if hasBit f 3 then 16 else 0) + (if hasBit f 2 then 32 else 0) +
  (if hasBit f 0 then 64 else 0) + (if hasBit f 1 then 128 else 0)

/-- The eight bytes of the payload (R201). -/
def payloadBytes (l : Link) (s : State) : List Byte :=
  [byteOf (if (s.links.get l).unreported then 2 else 1),
   byteOf (16 * highestIndex s.limits.highest + supplyIndex s.sm.state), byteOf (unreadCount l s.table)] ++
  word s.limits.capEff ++
  [byteOf (16 * s.limits.excluded.toNat + s.eu.available.toNat),
   byteOf (topIndex s.ym.chain + payloadFlags s.limits.yaw), byteOf s.table.length]

/-- The payload as it is sent: with its check byte when check mode is on at the snapshot (R200). -/
def snapshot (l : Link) (s : State) : List Byte :=
  if s.checkMode l then payloadBytes l s ++ [crc8 (readAddress s.address :: payloadBytes l s)] else payloadBytes l s

/-- The acknowledge slot after the address byte of an attention frame (R200). -/
def takeAttentionSlot (l : Link) (ack : Bool) : Act := fun s =>
  let u := s.links.get l
  if s.lineAsserted = false ∧ u.frame = .attention ∧ u.payload = none then
    if ack then
      (s.setLink l { u with late := false, payload := some (snapshot l s), driven := driveBytes (snapshot l s) }, [])
    else (s.setLink l { u.ends with driven := [] }, [])
  else (s, [])

/-- The payload is complete (R200). -/
def takePayloadDone (l : Link) : Act := fun s =>
  let u := s.links.get l
  if s.lineAsserted = false ∧ u.payload.isSome then
    (s.setLink l { u.ends with attention := u.late, late := false, unreported := false }, [])
  else (s, [])

/-- The payload is cut short by a stop condition (R200). -/
def takePayloadCut (l : Link) : Act := fun s =>
  let u := s.links.get l
  if s.lineAsserted = false ∧ u.payload.isSome then (s.setLink l u.ends, []) else (s, [])

end Sys2Proof.Machine
end

