-- ==== Sys2Proof/Machine/Cascade.lean ====
section
/-! DEFINITION. How the internal events of one command are taken: what each event does, where what it hands on waits, and
the run to the end (log 2, log 3). -/

namespace Sys2Proof.Machine

/-- The blocks that hand events to one another. -/
inductive Block where
  | eu
  | lm
  | wh
  | ym
  | cu
deriving DecidableEq, Repr

/-- The block that a delivery of the limit resolver reaches (R41). -/
def deliveredTo (e : Ev) : Option Block :=
  match e with
  | .euLimits _ => some .eu
  | .lmExcluded _ _ => some .lm
  | .ymLimits _ => some .ym
  | .whPark _ _ => some .wh
  | .cuBoost _ => some .cu
  | _ => none

/-- The block that a handover of another block reaches. -/
def handedTo (e : Ev) : Option Block :=
  match e with
  | .euLane _ _ => some .eu
  | .euTemp _ _ => some .eu
  | .lmShare _ _ => some .lm
  | .lmSupply _ => some .lm
  | .lmPump _ => some .lm
  | .lmDemand _ => some .lm
  | .cuCommanded _ => some .cu
  | .cuLaneDemand _ => some .cu
  | .cuSupply _ => some .cu
  | .cuReaction _ => some .cu
  | .cuPumpRetired _ => some .cu
  | .ymSupply _ => some .ym
  | .ymHeading _ _ => some .ym
  | .ymFiltered _ => some .ym
  | .ymMove _ _ => some .ym
  | .ymUnwind _ _ => some .ym
  | .ymDriveRetired _ => some .ym
  | .whWatch _ => some .wh
  | .whUnwind _ => some .wh
  | _ => none

/-- The block whose own event a part of an event belongs to. -/
def continues (e : Ev) : Option Block :=
  match e with
  | .lmAct _ => some .lm
  | .lmReply _ => some .lm
  | .lmEvaluate _ => some .lm
  | .whMisalign => some .wh
  | .whDwell => some .wh
  | .whUnwindEval => some .wh
  | .cuDerate _ _ => some .cu
  | .cuEscalate _ => some .cu
  | .cuDemand _ => some .cu
  | .cuFan _ => some .cu
  | _ => none

/-- The block that an event concerns in any of the three ways. -/
def concerns (e : Ev) : Option Block := ((deliveredTo e).or (handedTo e)).or (continues e)

/-- The events of a queue that an event has to wait behind: a delivery behind earlier deliveries to its block (R41,
R101: it is taken at the change), a handover behind everything queued for its block, whose own event comes first
(log 2). -/
def waitsFor (e q : Ev) : Bool :=
  match deliveredTo e, handedTo e with
  | some b, _ => deliveredTo q == some b
  | none, some b => concerns q == some b
  | none, none => false

/-- An event placed behind the last event of a queue that it has to wait for, absent when there is none. -/
def waitBehind (e : Ev) : List Ev → Option (List Ev)
  | [] => none
  | q :: rest =>
    match waitBehind e rest with
    | some r => some (q :: r)
    | none => if waitsFor e q then some (q :: e :: rest) else none

/-- One event handed on: at the front, or behind what it has to wait for. -/
def postOne (w : List Ev × List Ev) (e : Ev) : List Ev × List Ev :=
  match waitBehind e w.2 with
  | some r => (w.1, r)
  | none => (w.1 ++ [e], w.2)

/-- The queue after an event has handed on others. -/
def post (emitted rest : List Ev) : List Ev :=
  let w := emitted.foldl postOne ([], rest)
  w.1 ++ w.2

/-! ## Expiries that the clock brings (log 5) -/

/-- Whether the timer of an expiry command reads 0. -/
def dueNow (s : State) (i : Instr) : Bool :=
  match i with
  | .holdoffExpiry c => (findCode s.table c).any (fun q => q.state == .clearing && q.holdoff == some 0)
  | .autoRetireExpiry k => (s.slots.get k).pending == some 0
  | .coolBoostEnd k => (s.slots.get k).pending == some 0
  | .rampStep => s.eu.ramp == some 0
  | .laneSilenceExpiry n => (s.lm.lanes.get n).silence == some 0
  | .prechargeTimeout n => (s.lm.lanes.get n).timer == some ⟨.precharge, 0⟩
  | .syncTimeout n => (s.lm.lanes.get n).timer == some ⟨.sync, 0⟩
  | .shedTimeout n => (s.lm.lanes.get n).timer == some ⟨.shed, 0⟩
  | .resetTimeout n => (s.lm.lanes.get n).timer == some ⟨.reset, 0⟩
  | .yawJogExpiry => s.ym.chain.any (fun c => c.kind == .service && c.target == .time 0)
  | .brakeTimerExpiry => s.ym.brakeTimer == some 0
  | .settleExpiry => s.ym.settle.any (fun q => q.ms == 0)
  | .primeTimeout l => (s.cu.loops.get l).prime == some 0
  | .gridSettleComplete => s.sm.settle == some 0
  | .silenceExpiry => s.silence == some 0
  | _ => false

/-- The event that an expiry command is. -/
def expiryEvent (i : Instr) : List Ev :=
  match i with
  | .holdoffExpiry c => [.ctHoldoffEnd c]
  | .autoRetireExpiry k => [.ruAutoRetire k]
  | .coolBoostEnd k => [.ruBoostEnd k]
  | .rampStep => [.euRampStep]
  | .laneSilenceExpiry n => [.lmSilence n]
  | .prechargeTimeout n => [.lmTimeout n .precharge]
  | .syncTimeout n => [.lmTimeout n .sync]
  | .shedTimeout n => [.lmTimeout n .shed]
  | .resetTimeout n => [.lmTimeout n .reset]
  | .yawJogExpiry => [.ymJogEnd]
  | .brakeTimerExpiry => [.ymBrakeTimer]
  | .settleExpiry => [.ymSettleEnd]
  | .primeTimeout l => [.cuPrimeTimeout l]
  | .gridSettleComplete => [.smSettled]
  | .silenceExpiry => [.lkSilence]
  | _ => []

/-- An expiry that the clock brought, taken if no earlier expiry of the same millisecond has ended its timer. -/
def takeDue (i : Instr) : Act := fun s => (s, if dueNow s i then expiryEvent i else [])

/-! ## What each event does -/

/-- The effect of one internal event. -/
def handle (e : Ev) : Act :=
  match e with
  | .ctRaise r => takeRaise r
  | .ctPresent r => takePresent r
  | .ctAbsent c => takeAbsent c
  | .ctRefresh c cap => takeRefresh c cap
  | .ctEscalateStep c => takeEscalation c clsUp none
  | .ctEscalateTo c cls cap => takeEscalation c (fun _ => cls) (some cap)
  | .ctHoldoffEnd c => takeHoldoffEnd c
  | .ruOffer c => takeOffer c
  | .ruAutoRetire k => takeAutoRetire k
  | .ruBoostEnd k => takeBoostEnd k
  | .euLimits d => takeEnvelopeLimits d
  | .lmExcluded set full => takeExcluded set full
  | .ymLimits flags => takeYawLimits flags
  | .whPark on full => takePark on full
  | .cuBoost set => takeBoost set
  | .euLane n running => takeLaneEvent n running
  | .euTemp n t => takeLaneTemperature n t
  | .lmShare n kw => takeShare n kw
  | .lmSupply st => takeLaneSupply st
  | .lmPump p => takeLanePump p
  | .lmDemand present => takeLaneDemand present
  | .cuCommanded kw => takeCommanded kw
  | .cuLaneDemand yes => takeCoolingDemand yes
  | .cuSupply st => takeCoolingSupply st
  | .cuReaction set => takeReaction set
  | .cuPumpRetired l => takePumpRetired l
  | .ymSupply st => takeYawSupply st
  | .ymHeading h twist => takeYawHeading h twist
  | .ymFiltered f => takeFiltered f
  | .ymMove target d => takeMove target d
  | .ymUnwind goal d => takeUnwind goal d
  | .ymDriveRetired n => takeDriveRetired n
  | .whWatch w => takeWatch w
  | .whUnwind inChain => takeUnwindEvent inChain
  | .euRampStep => takeRampStep
  | .lmReport n bytes => takeReport n bytes
  | .lmAct n => takeAct n
  | .lmReply n => takeReply n
  | .lmEvaluate n => takeEvaluate n
  | .lmSilence n => takeSilence n
  | .lmTimeout n k => takeTimeout n k
  | .whHeading reading => takeHeading reading
  | .whVane reading => takeVane reading
  | .whMisalign => takeMisalign
  | .whDwell => takeDwell
  | .whAnemometer pulses => takeAnemometer pulses
  | .whUnwindEval => takeUnwindEval
  | .ymJogEnd => takeJogEnd
  | .ymFaultLines lines => takeFaultLines lines
  | .ymPressure bar => takePressure bar
  | .ymBrakeTimer => takeBrakeTimer
  | .ymSettleEnd => takeSettleEnd
  | .cuSample l reading => takeSample l reading
  | .cuDerate l valid => takeDerate l valid
  | .cuEscalate l => takeHotEscalation l
  | .cuDemand l => takeSampleDemand l
  | .cuFan l => takeFan l
  | .cuFlow l seen => takeFlow l seen
  | .cuPrimeTimeout l => takePrimeTimeout l
  | .smGrid present => takeGrid present
  | .smSettled => takeSettled
  | .smUps reading => takeUps reading
  | .lkKey on => takeKey on
  | .lkSilence => takeSilenceExpiry
  | .lkStart l addr ok bytes => takeStart l addr ok bytes
  | .lkOpen l addr ok bytes => takeOpen l addr ok bytes
  | .lkByte l b ok => takeByte l b ok
  | .lkStop l => takeFrameStop l
  | .lkPoisonStop l => takePoisonStop l
  | .lkRead l clocked => takeRead l clocked
  | .lkSend l clocked => takeSend l clocked
  | .lkReset l => takeLinkReset l
  | .lkAttention l => takeAttention l
  | .lkAttentionSlot l ack => takeAttentionSlot l ack
  | .lkPayloadDone l => takePayloadDone l
  | .lkPayloadCut l => takePayloadCut l
  | .lkRequest l r => takeRequest l r
  | .lkBegin l r => takeBegin l r
  | .lkServe l r => takeServe l r
  | .coldStart straps => takeColdStart straps
  | .lineAssert => takeLineAssert
  | .lineRelease straps => takeLineRelease straps
  | .due i => takeDue i

/-- Events taken from the front until none is left, at most `fuel` of them; what is left waits in State (log 3). -/
def settle : Nat → List Ev → State → State
  | _, [], s => s
  | 0, e :: rest, s => { s with unsettled := e :: rest }
  | fuel + 1, e :: rest, s =>
    let r := handle e s
    settle fuel (post r.2 rest) r.1

/-- The state after a command's events, with whatever an earlier command left. -/
def settled (evs : List Ev) (s : State) : State :=
  settle Config.cascadeBound (s.unsettled ++ evs) { s with unsettled := [] }

/-- The outcome of a command: the next state, once its events are taken. No command stops the part (log 26). -/
def run (evs : List Ev) (s : State) : Host.Outcome State Fault Refusal := .next (settled evs s)

end Sys2Proof.Machine
end

