-- ==== Sys2Proof/Machine/Clock.lean ====
section
/-! DEFINITION. The clock: what one millisecond does to the timers, and the expiries it brings (log 5, log 6, log 8). -/

namespace Sys2Proof.Machine

/-- A timer one unit on. -/
def down (t : Option Nat) : Option Nat := t.map (fun n => n - 1)

/-- A lane's timers one millisecond on (R86, R89). -/
def Lane.tick (x : Lane) : Lane :=
  { x with timer := x.timer.map (fun t => { t with ms := t.ms - 1 }), silence := down x.silence }

/-- A YAW_JOG's time one millisecond on (R141). -/
def Context.tick (c : Context) : Context :=
  match c.target with
  | .time ms => { c with target := .time (ms - 1) }
  | _ => c

/-- The yaw motion unit's timers one millisecond on; the stall watch counts while the drives run (R146, R148, R150). -/
def Yaw.tick (y : Yaw) : Yaw :=
  { y with
    chain := y.chain.map Context.tick
    brakeTimer := down y.brakeTimer
    settle := y.settle.map (fun q => { q with ms := q.ms - 1 })
    stall := y.stall.map (fun q => { q with ms := saturate 20000 (q.ms + 1) }) }

/-- A loop's timer one millisecond on (R159). -/
def Loop.tick (x : Loop) : Loop := { x with prime := down x.prime }

/-- A record at an uptime increment (R13). -/
def Record.second (q : Record) : Record := if q.state = .clearing then { q with holdoff := down q.holdoff } else q

/-- A slot at an uptime increment (R51, R52). -/
def Slot.second (k : Slot) : Slot := { k with pending := down k.pending }

/-- The uptime after an increment; past its range the value is free (log 8). -/
def nextUptime (t : Nat) : Nat := if t < 4294967295 then t + 1 else Config.uptimePastRange.val

/-- Every timer counted in milliseconds, one on. -/
def State.millisecond (s : State) : State :=
  { s with
    eu := { s.eu with ramp := down s.eu.ramp }
    lm := s.lm.mapLanes Lane.tick
    ym := s.ym.tick
    cu := { s.cu with loops := ⟨s.cu.loops.x0.tick, s.cu.loops.x1.tick, s.cu.loops.x2.tick⟩ }
    sm := { s.sm with settle := down s.sm.settle }
    silence := down s.silence }

/-- The clock one millisecond on, with the uptime increment every 1000 of them (R13, R51, R52). -/
def State.advance (s : State) : State :=
  let z := s.millisecond
  if 1000 ≤ z.msec + 1 then
    { z with
      msec := 0, uptime := nextUptime z.uptime, table := z.table.map Record.second, slots := z.slots.map Slot.second }
  else { z with msec := z.msec + 1 }

/-- The expiries that may fall due, apart from the hold-offs. -/
def timedInstrs : List Instr :=
  eightIndices.map Instr.autoRetireExpiry ++ eightIndices.map Instr.coolBoostEnd ++ [Instr.rampStep] ++
  fourIndices.map Instr.laneSilenceExpiry ++ fourIndices.map Instr.prechargeTimeout ++ fourIndices.map Instr.syncTimeout ++
  fourIndices.map Instr.shedTimeout ++ fourIndices.map Instr.resetTimeout ++
  [Instr.yawJogExpiry, Instr.brakeTimerExpiry, Instr.settleExpiry] ++
  threeIndices.map Instr.primeTimeout ++ [Instr.gridSettleComplete, Instr.silenceExpiry]

/-- Whether a slot's action is the one whose end a command is; every other expiry has a timer of its own. -/
def ownAction (s : State) (i : Instr) : Bool :=
  match i with
  | .autoRetireExpiry k => (s.slots.get k).action == some .autoRetire
  | .coolBoostEnd k => (s.slots.get k).action == some .coolBoost
  | _ => true

/-- The expiries due in a state. -/
def dueList (s : State) : List Instr :=
  (s.table.map (fun q => Instr.holdoffExpiry q.code) ++ timedInstrs).filter (fun i => dueNow s i && ownAction s i)

/-- A list in the order that free choices give it, the choices numbered from `n` (log 6). -/
def freeOrder : Nat → Nat → List Instr → List Instr
  | 0, _, rest => rest
  | _ + 1, _, [] => []
  | _ + 1, _, [i] => [i]
  | fuel + 1, n, i :: j :: rest =>
    let all := i :: j :: rest
    let k := Config.arrivalChoice n % all.length
    (all.take (k + 1)).drop k ++ freeOrder fuel (n + 1) (all.eraseIdx k)

/-- How many free choices the order of a list takes. -/
def choicesFor (dues : List Instr) : Nat := dues.length - 1

/-- One millisecond passes: the timers count, and the expiries that fall due are taken in a free order (log 5, log 6). -/
def tick (s : State) : Host.Outcome State Fault Refusal :=
  let z := s.advance
  let dues := dueList z
  run ((freeOrder dues.length z.arrivals dues).map .due) { z with arrivals := z.arrivals + choicesFor dues }

end Sys2Proof.Machine
end

