-- ==== Sys2Proof/Machine/ExpiryCommands.lean ====
section
/-! DEFINITION. The meanings of the commands: the expiries of timers. Each sets off one event of the block it reaches. -/

namespace Sys2Proof.Machine

/-- HOLDOFF_EXPIRY: a CLEARING record's hold-off ends and the record is retired (R13). -/
def execHoldoffExpiry (code : Code) (s : State) : Host.Outcome State Fault Refusal :=
  run [.ctHoldoffEnd code] s

/-- AUTO_RETIRE_EXPIRY: an AUTO_RETIRE's delay ends and its record is judged (R51). -/
def execAutoRetireExpiry (slot : Fin 8) (s : State) : Host.Outcome State Fault Refusal :=
  run [.ruAutoRetire slot] s

/-- COOL_BOOST_END: a COOL_BOOST runs out (R52). -/
def execCoolBoostEnd (slot : Fin 8) (s : State) : Host.Outcome State Fault Refusal :=
  run [.ruBoostEnd slot] s

/-- RAMP_STEP: C rises by up to ramp_up toward T (R73). -/
def execRampStep (s : State) : Host.Outcome State Fault Refusal :=
  run [.euRampStep] s

/-- LANE_SILENCE_EXPIRY: 50 ms have passed without a valid report (R89). -/
def execLaneSilenceExpiry (lane : Fin 4) (s : State) : Host.Outcome State Fault Refusal :=
  run [.lmSilence lane] s

/-- PRECHARGE_TIMEOUT: a precharge takes longer than 8 s (R95). -/
def execPrechargeTimeout (lane : Fin 4) (s : State) : Host.Outcome State Fault Refusal :=
  run [.lmTimeout lane .precharge] s

/-- SYNC_TIMEOUT: a sync takes longer than 3 s (R96). -/
def execSyncTimeout (lane : Fin 4) (s : State) : Host.Outcome State Fault Refusal :=
  run [.lmTimeout lane .sync] s

/-- SHED_TIMEOUT: the shed ends by its timer (R98). -/
def execShedTimeout (lane : Fin 4) (s : State) : Host.Outcome State Fault Refusal :=
  run [.lmTimeout lane .shed] s

/-- RESET_TIMEOUT: a lane reset takes longer than 2 s (R100). -/
def execResetTimeout (lane : Fin 4) (s : State) : Host.Outcome State Fault Refusal :=
  run [.lmTimeout lane .reset] s

/-- YAW_JOG_EXPIRY: a YAW_JOG's time ends (R141). -/
def execYawJogExpiry (s : State) : Host.Outcome State Fault Refusal :=
  run [.ymJogEnd] s

/-- BRAKE_TIMER_EXPIRY: the brake has not reached its pressure in 3 s (R147). -/
def execBrakeTimerExpiry (s : State) : Host.Outcome State Fault Refusal :=
  run [.ymBrakeTimer] s

/-- SETTLE_EXPIRY: the reversal settle ends (R148). -/
def execSettleExpiry (s : State) : Host.Outcome State Fault Refusal :=
  run [.ymSettleEnd] s

/-- PRIME_TIMEOUT: a pump has not proved flow in 5 s (R159). -/
def execPrimeTimeout (loop : Fin 3) (s : State) : Host.Outcome State Fault Refusal :=
  run [.cuPrimeTimeout loop] s

/-- GRID_SETTLE_COMPLETE: the grid has been present for its whole settle (R176). -/
def execGridSettleComplete (s : State) : Host.Outcome State Fault Refusal :=
  run [.smSettled] s

/-- SILENCE_EXPIRY: no request has been executed on the main link for silence_timeout (R194). -/
def execSilenceExpiry (s : State) : Host.Outcome State Fault Refusal :=
  run [.lkSilence] s

end Sys2Proof.Machine
end

