-- ==== Sys2Proof/Machine/InputCommands.lean ====
section
/-! DEFINITION. The meanings of the commands: the reads of inputs and the lane reports. Each sets off one event of the block it reaches. -/

namespace Sys2Proof.Machine

/-- LANE_REPORT: a report arrives on a lane port and is answered (R87, R88). -/
def execLaneReport (lane : Fin 4) (bytes : List Byte) (s : State) : Host.Outcome State Fault Refusal :=
  run [.lmReport lane bytes] s

/-- HEADING_READ: the heading encoder is read (R112, R113). -/
def execHeadingRead (reading : Option Nat) (s : State) : Host.Outcome State Fault Refusal :=
  run [.whHeading reading] s

/-- VANE_SAMPLE: the wind vane is sampled (R116). -/
def execVaneSample (reading : Option Int) (s : State) : Host.Outcome State Fault Refusal :=
  run [.whVane reading] s

/-- ANEMOMETER_SAMPLE: the anemometer is sampled (R119). -/
def execAnemometerSample (pulses : Nat) (s : State) : Host.Outcome State Fault Refusal :=
  run [.whAnemometer pulses] s

/-- DRIVE_FAULT_READ: the eight drive fault lines are read (R143). -/
def execDriveFaultRead (lines : BitVec 8) (s : State) : Host.Outcome State Fault Refusal :=
  run [.ymFaultLines lines] s

/-- BRAKE_PRESSURE_READ: the brake pressure is read (R146). -/
def execBrakePressureRead (bar : Nat) (s : State) : Host.Outcome State Fault Refusal :=
  run [.ymPressure bar] s

/-- TEMPERATURE_SAMPLE: a loop outlet is sampled (R155). -/
def execTemperatureSample (loop : Fin 3) (reading : Option Int) (s : State) : Host.Outcome State Fault Refusal :=
  run [.cuSample loop reading] s

/-- FLOW_READ: a flow switch is read (R159, R160). -/
def execFlowRead (loop : Fin 3) (seen : Bool) (s : State) : Host.Outcome State Fault Refusal :=
  run [.cuFlow loop seen] s

/-- GRID_READ: the grid-presence input is read (R174). -/
def execGridRead (present : Bool) (s : State) : Host.Outcome State Fault Refusal :=
  run [.smGrid present] s

/-- UPS_SAMPLE: the UPS charge is sampled (R175). -/
def execUpsSample (reading : Option Nat) (s : State) : Host.Outcome State Fault Refusal :=
  run [.smUps reading] s

/-- KEY_SWITCH_READ: the service key switch is read (R192). -/
def execKeySwitchRead (on : Bool) (s : State) : Host.Outcome State Fault Refusal :=
  run [.lkKey on] s

end Sys2Proof.Machine
end

