-- ==== Sys2Proof/Machine/LinkCommands.lean ====
section
/-! DEFINITION. The meanings of the commands: the frames and attention frames of the links. Each sets off one event of the block it reaches. -/

namespace Sys2Proof.Machine

/-- START_CONDITION: a start condition, its address byte and the good bytes after it (R185). -/
def execStartCondition (l : Link) (addr : Byte) (parityGood : Bool) (bytes : List Byte) (s : State) : Host.Outcome State Fault Refusal :=
  run [.lkStart l addr parityGood bytes] s

/-- FRAME_POISON: one further byte of a request frame, which poisons it when its parity is wrong or it is the seventeenth (R186). -/
def execFramePoison (l : Link) (byte : Byte) (parityGood : Bool) (s : State) : Host.Outcome State Fault Refusal :=
  run [.lkByte l byte parityGood] s

/-- REQUEST_FRAME_FAULT: the stop condition at which the received bytes are judged (R187). -/
def execRequestFrameFault (l : Link) (s : State) : Host.Outcome State Fault Refusal :=
  run [.lkStop l] s

/-- RESPONSE_FRAME: the stored response, or NO_RESPONSE, is sent (R190). -/
def execResponseFrame (l : Link) (clocked : Nat) (s : State) : Host.Outcome State Fault Refusal :=
  run [.lkRead l clocked] s

/-- LINK_RESET: the clock held low for 30 ms (R195). -/
def execLinkReset (l : Link) (s : State) : Host.Outcome State Fault Refusal :=
  run [.lkReset l] s

/-- ATTENTION_FRAME: the unit asks for attention on an idle link (R199). -/
def execAttentionFrame (l : Link) (s : State) : Host.Outcome State Fault Refusal :=
  run [.lkAttention l] s

/-- ATTENTION_SLOT: the acknowledge slot that decides an attention frame (R200). -/
def execAttentionSlot (l : Link) (ack : Bool) (s : State) : Host.Outcome State Fault Refusal :=
  run [.lkAttentionSlot l ack] s

/-- PAYLOAD_COMPLETE: the last continuation bit of a payload has been clocked (R200). -/
def execPayloadComplete (l : Link) (s : State) : Host.Outcome State Fault Refusal :=
  run [.lkPayloadDone l] s

/-- POISONED_FRAME_STOP: the stop condition of a poisoned frame (R186). -/
def execPoisonedFrameStop (l : Link) (s : State) : Host.Outcome State Fault Refusal :=
  run [.lkPoisonStop l] s

/-- ATTENTION_PAYLOAD_CUT_SHORT: a stop condition before the last continuation bit (R200). -/
def execAttentionPayloadCutShort (l : Link) (s : State) : Host.Outcome State Fault Refusal :=
  run [.lkPayloadCut l] s

end Sys2Proof.Machine
end

