-- ==== Sys2Proof/Machine/ResetCommands.lean ====
section
/-! DEFINITION. The meanings of the commands: resets. Each sets off one event of the block it reaches. -/

namespace Sys2Proof.Machine

/-- COLD_POWER_UP: every block takes its cold power-up values, then the start-up handovers and reports follow (R29). -/
def execColdPowerUp (straps : Fin 4) (s : State) : Host.Outcome State Fault Refusal :=
  run [.coldStart straps] { s with unsettled := [] }

/-- RESET_LINE_ASSERT: no link takes a frame until the release (R197). -/
def execResetLineAssert (s : State) : Host.Outcome State Fault Refusal :=
  run [.lineAssert] s

/-- RESET_LINE_RELEASE: the warm reset of the reset line (R197). -/
def execResetLineRelease (straps : Fin 4) (s : State) : Host.Outcome State Fault Refusal :=
  run [.lineRelease straps] s

/-- WARM_RESET: the request that warm-resets the part (R197). -/
def execWarmReset (l : Link) (straps : Fin 4) (s : State) : Host.Outcome State Fault Refusal :=
  run [.lkRequest l (.warmReset straps)] s

end Sys2Proof.Machine
end

