-- ==== Sys2Proof/Machine/TableCommands.lean ====
section
/-! DEFINITION. The meanings of the commands: the requests on the condition table and the reaction slots. Each sets off one event of the block it reaches. -/

namespace Sys2Proof.Machine

/-- LOOKUP: every field of the record is returned (R26). -/
def execLookup (l : Link) (code : Code) (s : State) : Host.Outcome State Fault Refusal :=
  run [.lkRequest l (.lookup code)] s

/-- SCAN: up to four summaries in slot order (R27). -/
def execScan (l : Link) (start : Nat) (filter : Filter) (s : State) : Host.Outcome State Fault Refusal :=
  run [.lkRequest l (.scan start filter)] s

/-- RAISE: a link raises an EDGE record of group 8 to 15 (R28). -/
def execRaise (l : Link) (code : Code) (cls : Cls) (detail : Nat) (cap : Option Nat) (lanes : LaneSet) (yaw : YawEffect) (loops : LoopSet) (s : State) : Host.Outcome State Fault Refusal :=
  run [.lkRequest l (.raise code cls detail cap lanes yaw loops)] s

/-- AMEND: the effects of a link's record are replaced (R16). -/
def execAmend (l : Link) (code : Code) (cap : Option Nat) (lanes : LaneSet) (yaw : YawEffect) (loops : LoopSet) (s : State) : Host.Outcome State Fault Refusal :=
  run [.lkRequest l (.amend code cap lanes yaw loops)] s

/-- ACK: a record is acknowledged (R11). -/
def execAck (l : Link) (code : Code) (s : State) : Host.Outcome State Fault Refusal :=
  run [.lkRequest l (.ack code)] s

/-- RETIRE: a record is retired, where nothing forbids it (R17). -/
def execRetire (l : Link) (code : Code) (s : State) : Host.Outcome State Fault Refusal :=
  run [.lkRequest l (.retire code)] s

/-- BIND: a reaction slot is bound (R46). -/
def execBind (l : Link) (slot : Nat) (code : Code) (action : Action) (loops : LoopSet) (delay : Nat) (count : Nat) (s : State) : Host.Outcome State Fault Refusal :=
  run [.lkRequest l (.bind slot code action loops delay count)] s

/-- UNBIND: a reaction slot is unbound (R47). -/
def execUnbind (l : Link) (slot : Nat) (s : State) : Host.Outcome State Fault Refusal :=
  run [.lkRequest l (.unbind slot)] s

/-- READ_SLOT: a reaction slot is read (R48). -/
def execReadSlot (l : Link) (slot : Nat) (s : State) : Host.Outcome State Fault Refusal :=
  run [.lkRequest l (.readSlot slot)] s

end Sys2Proof.Machine
end

