-- ==== Sys2Proof/Machine/UnitCommands.lean ====
section
/-! DEFINITION. The meanings of the commands: the requests on the other blocks. Each sets off one event of the block it reaches. -/

namespace Sys2Proof.Machine

/-- SET_DEMAND: the demand D is set (R61). -/
def execSetDemand (l : Link) (demand : Nat) (s : State) : Host.Outcome State Fault Refusal :=
  run [.lkRequest l (.setDemand demand)] s

/-- READ_ENVELOPE: the envelope is read (R83). -/
def execReadEnvelope (l : Link) (s : State) : Host.Outcome State Fault Refusal :=
  run [.lkRequest l .readEnvelope] s

/-- LANE_START: a lane is asked for (R106). -/
def execLaneStart (l : Link) (lane : Nat) (s : State) : Host.Outcome State Fault Refusal :=
  run [.lkRequest l (.laneStart lane)] s

/-- LANE_STOP: a lane is stopped (R107). -/
def execLaneStop (l : Link) (lane : Nat) (s : State) : Host.Outcome State Fault Refusal :=
  run [.lkRequest l (.laneStop lane)] s

/-- READ_LANE: a lane is read (R108). -/
def execReadLane (l : Link) (lane : Nat) (s : State) : Host.Outcome State Fault Refusal :=
  run [.lkRequest l (.readLane lane)] s

/-- SET_TRACKING: the setting tracking is written and the chain follows (R136). -/
def execSetTracking (l : Link) (on : Bool) (s : State) : Host.Outcome State Fault Refusal :=
  run [.lkRequest l (.setTracking on)] s

/-- START_UNWIND: an UNWIND is inserted at a link's request (R139). -/
def execStartUnwind (l : Link) (s : State) : Host.Outcome State Fault Refusal :=
  run [.lkRequest l .startUnwind] s

/-- YAW_GOTO: a SERVICE move to a heading (R140). -/
def execYawGoto (l : Link) (heading : Nat) (s : State) : Host.Outcome State Fault Refusal :=
  run [.lkRequest l (.yawGoto heading)] s

/-- YAW_JOG: a SERVICE move for a time (R140). -/
def execYawJog (l : Link) (dir : Dir) (seconds : Nat) (s : State) : Host.Outcome State Fault Refusal :=
  run [.lkRequest l (.yawJog dir seconds)] s

/-- SERVICE_STOP: the SERVICE move is ended (R141). -/
def execServiceStop (l : Link) (s : State) : Host.Outcome State Fault Refusal :=
  run [.lkRequest l .serviceStop] s

/-- READ_YAW: the yaw is read (R151). -/
def execReadYaw (l : Link) (s : State) : Host.Outcome State Fault Refusal :=
  run [.lkRequest l .readYaw] s

/-- DRIVE_ISOLATE: a drive is isolated (R144). -/
def execDriveIsolate (l : Link) (drive : Nat) (s : State) : Host.Outcome State Fault Refusal :=
  run [.lkRequest l (.driveIsolate drive)] s

/-- DRIVE_RETURN: a drive is returned to service (R144). -/
def execDriveReturn (l : Link) (drive : Nat) (s : State) : Host.Outcome State Fault Refusal :=
  run [.lkRequest l (.driveReturn drive)] s

/-- SET_TWIST: the twist account is set (R114). -/
def execSetTwist (l : Link) (twist : Int) (s : State) : Host.Outcome State Fault Refusal :=
  run [.lkRequest l (.setTwist twist)] s

/-- READ_LOOP: a cooling loop is read (R169). -/
def execReadLoop (l : Link) (loop : Nat) (s : State) : Host.Outcome State Fault Refusal :=
  run [.lkRequest l (.readLoop loop)] s

/-- SET_SETTING: a setting is written (R202). -/
def execSetSetting (l : Link) (id : Nat) (value : Int) (s : State) : Host.Outcome State Fault Refusal :=
  run [.lkRequest l (.setSetting id value)] s

/-- GET_SETTING: a setting is read (R202). -/
def execGetSetting (l : Link) (id : Nat) (s : State) : Host.Outcome State Fault Refusal :=
  run [.lkRequest l (.getSetting id)] s

/-- READ_SUPPLY: the supply is read (R181). -/
def execReadSupply (l : Link) (s : State) : Host.Outcome State Fault Refusal :=
  run [.lkRequest l .readSupply] s

/-- IDENT: the part names itself (R196). -/
def execIdent (l : Link) (s : State) : Host.Outcome State Fault Refusal :=
  run [.lkRequest l .ident] s

end Sys2Proof.Machine
end

