-- ==== Sys2Proof/Machine/Dispatch.lean ====
section
/-! DEFINITION. One arm per command: a direct call of its meaning. -/

namespace Sys2Proof.Machine

def exec (i : Instr) (s : State) : Host.Outcome State Fault Refusal :=
  match i with
  | .coldPowerUp straps => Sys2Proof.Machine.execColdPowerUp straps s
  | .resetLineAssert => Sys2Proof.Machine.execResetLineAssert s
  | .resetLineRelease straps => Sys2Proof.Machine.execResetLineRelease straps s
  | .warmReset l straps => Sys2Proof.Machine.execWarmReset l straps s
  | .startCondition l addr parityGood bytes => Sys2Proof.Machine.execStartCondition l addr parityGood bytes s
  | .framePoison l byte parityGood => Sys2Proof.Machine.execFramePoison l byte parityGood s
  | .requestFrameFault l => Sys2Proof.Machine.execRequestFrameFault l s
  | .responseFrame l clocked => Sys2Proof.Machine.execResponseFrame l clocked s
  | .linkReset l => Sys2Proof.Machine.execLinkReset l s
  | .attentionFrame l => Sys2Proof.Machine.execAttentionFrame l s
  | .attentionSlot l ack => Sys2Proof.Machine.execAttentionSlot l ack s
  | .payloadComplete l => Sys2Proof.Machine.execPayloadComplete l s
  | .lookup l code => Sys2Proof.Machine.execLookup l code s
  | .scan l start filter => Sys2Proof.Machine.execScan l start filter s
  | .raise l code cls detail cap lanes yaw loops => Sys2Proof.Machine.execRaise l code cls detail cap lanes yaw loops s
  | .amend l code cap lanes yaw loops => Sys2Proof.Machine.execAmend l code cap lanes yaw loops s
  | .ack l code => Sys2Proof.Machine.execAck l code s
  | .retire l code => Sys2Proof.Machine.execRetire l code s
  | .bind l slot code action loops delay count => Sys2Proof.Machine.execBind l slot code action loops delay count s
  | .unbind l slot => Sys2Proof.Machine.execUnbind l slot s
  | .readSlot l slot => Sys2Proof.Machine.execReadSlot l slot s
  | .setDemand l demand => Sys2Proof.Machine.execSetDemand l demand s
  | .readEnvelope l => Sys2Proof.Machine.execReadEnvelope l s
  | .laneStart l lane => Sys2Proof.Machine.execLaneStart l lane s
  | .laneStop l lane => Sys2Proof.Machine.execLaneStop l lane s
  | .readLane l lane => Sys2Proof.Machine.execReadLane l lane s
  | .setTracking l on => Sys2Proof.Machine.execSetTracking l on s
  | .startUnwind l => Sys2Proof.Machine.execStartUnwind l s
  | .yawGoto l heading => Sys2Proof.Machine.execYawGoto l heading s
  | .yawJog l dir seconds => Sys2Proof.Machine.execYawJog l dir seconds s
  | .serviceStop l => Sys2Proof.Machine.execServiceStop l s
  | .readYaw l => Sys2Proof.Machine.execReadYaw l s
  | .driveIsolate l drive => Sys2Proof.Machine.execDriveIsolate l drive s
  | .driveReturn l drive => Sys2Proof.Machine.execDriveReturn l drive s
  | .setTwist l twist => Sys2Proof.Machine.execSetTwist l twist s
  | .readLoop l loop => Sys2Proof.Machine.execReadLoop l loop s
  | .setSetting l id value => Sys2Proof.Machine.execSetSetting l id value s
  | .getSetting l id => Sys2Proof.Machine.execGetSetting l id s
  | .readSupply l => Sys2Proof.Machine.execReadSupply l s
  | .ident l => Sys2Proof.Machine.execIdent l s
  | .holdoffExpiry code => Sys2Proof.Machine.execHoldoffExpiry code s
  | .autoRetireExpiry slot => Sys2Proof.Machine.execAutoRetireExpiry slot s
  | .coolBoostEnd slot => Sys2Proof.Machine.execCoolBoostEnd slot s
  | .rampStep => Sys2Proof.Machine.execRampStep s
  | .laneReport lane bytes => Sys2Proof.Machine.execLaneReport lane bytes s
  | .laneSilenceExpiry lane => Sys2Proof.Machine.execLaneSilenceExpiry lane s
  | .prechargeTimeout lane => Sys2Proof.Machine.execPrechargeTimeout lane s
  | .syncTimeout lane => Sys2Proof.Machine.execSyncTimeout lane s
  | .shedTimeout lane => Sys2Proof.Machine.execShedTimeout lane s
  | .resetTimeout lane => Sys2Proof.Machine.execResetTimeout lane s
  | .headingRead reading => Sys2Proof.Machine.execHeadingRead reading s
  | .vaneSample reading => Sys2Proof.Machine.execVaneSample reading s
  | .anemometerSample pulses => Sys2Proof.Machine.execAnemometerSample pulses s
  | .yawJogExpiry => Sys2Proof.Machine.execYawJogExpiry s
  | .driveFaultRead lines => Sys2Proof.Machine.execDriveFaultRead lines s
  | .brakePressureRead bar => Sys2Proof.Machine.execBrakePressureRead bar s
  | .brakeTimerExpiry => Sys2Proof.Machine.execBrakeTimerExpiry s
  | .settleExpiry => Sys2Proof.Machine.execSettleExpiry s
  | .temperatureSample loop reading => Sys2Proof.Machine.execTemperatureSample loop reading s
  | .flowRead loop seen => Sys2Proof.Machine.execFlowRead loop seen s
  | .primeTimeout loop => Sys2Proof.Machine.execPrimeTimeout loop s
  | .gridRead present => Sys2Proof.Machine.execGridRead present s
  | .gridSettleComplete => Sys2Proof.Machine.execGridSettleComplete s
  | .upsSample reading => Sys2Proof.Machine.execUpsSample reading s
  | .keySwitchRead on => Sys2Proof.Machine.execKeySwitchRead on s
  | .silenceExpiry => Sys2Proof.Machine.execSilenceExpiry s
  | .poisonedFrameStop l => Sys2Proof.Machine.execPoisonedFrameStop l s
  | .attentionPayloadCutShort l => Sys2Proof.Machine.execAttentionPayloadCutShort l s

end Sys2Proof.Machine
end

