-- ==== Sys2Proof/WellFormed.lean ====
section
/-! DEFINITION. Which commands can reach the part: every operand fits the field, the pins or the word that carries it.
A value that fits its field but that an owner refuses or clamps (lane 9, demand 20000) is well formed; what it does is
the owner's rule. -/

namespace Sys2Proof

/-- A power cap of a RAISE or an AMEND: absent or 0..16000 (R188). -/
def capFits (cap : Option Nat) : Bool :=
  match cap with
  | none => true
  | some c => decide (c ≤ 16000)

/-- A value of one byte. -/
def fitsByte (n : Nat) : Bool := decide (n < 256)

/-- A value of two bytes. -/
def fitsWord (n : Nat) : Bool := decide (n < 65536)

/-- A signed value of two bytes. -/
def fitsSigned (n : Int) : Bool := decide (-32768 ≤ n) && decide (n ≤ 32767)

/-- Whether every operand of a command fits what carries it (section 10.7, R87, R116, R155, R175). -/
def Instr.wellFormed : Instr → Bool
  | .coldPowerUp _ => true
  | .resetLineAssert => true
  | .resetLineRelease _ => true
  | .warmReset _ _ => true
  | .startCondition _ _ _ bytes => decide (bytes.length ≤ 16)
  | .framePoison _ _ _ => true
  | .requestFrameFault _ => true
  | .responseFrame _ _ => true
  | .linkReset _ => true
  | .attentionFrame _ => true
  | .attentionSlot _ _ => true
  | .payloadComplete _ => true
  | .lookup _ _ => true
  | .scan _ start _ => fitsByte start
  | .raise _ _ _ detail cap _ _ _ => fitsWord detail && capFits cap
  | .amend _ _ cap _ _ _ => capFits cap
  | .ack _ _ => true
  | .retire _ _ => true
  | .bind _ slot _ _ _ delay count => fitsByte slot && fitsWord delay && fitsByte count
  | .unbind _ slot => fitsByte slot
  | .readSlot _ slot => fitsByte slot
  | .setDemand _ demand => fitsWord demand
  | .readEnvelope _ => true
  | .laneStart _ lane => fitsByte lane
  | .laneStop _ lane => fitsByte lane
  | .readLane _ lane => fitsByte lane
  | .setTracking _ _ => true
  | .startUnwind _ => true
  | .yawGoto _ heading => fitsWord heading
  | .yawJog _ _ seconds => fitsByte seconds
  | .serviceStop _ => true
  | .readYaw _ => true
  | .driveIsolate _ drive => fitsByte drive
  | .driveReturn _ drive => fitsByte drive
  | .setTwist _ twist => fitsSigned twist
  | .readLoop _ loop => fitsByte loop
  | .setSetting _ id value => fitsByte id && fitsSigned value
  | .getSetting _ id => fitsByte id
  | .readSupply _ => true
  | .ident _ => true
  | .holdoffExpiry _ => true
  | .autoRetireExpiry _ => true
  | .coolBoostEnd _ => true
  | .rampStep => true
  | .laneReport _ bytes => decide (bytes.length ≤ 12)
  | .laneSilenceExpiry _ => true
  | .prechargeTimeout _ => true
  | .syncTimeout _ => true
  | .shedTimeout _ => true
  | .resetTimeout _ => true
  | .headingRead reading => match reading with | none => true | some n => fitsWord n
  | .vaneSample reading => match reading with | none => true | some e => decide (-1800 ≤ e) && decide (e ≤ 1799)
  | .anemometerSample pulses => fitsWord pulses
  | .yawJogExpiry => true
  | .driveFaultRead _ => true
  | .brakePressureRead bar => fitsWord bar
  | .brakeTimerExpiry => true
  | .settleExpiry => true
  | .temperatureSample _ reading => match reading with | none => true | some t => fitsSigned t
  | .flowRead _ _ => true
  | .primeTimeout _ => true
  | .gridRead _ => true
  | .gridSettleComplete => true
  | .upsSample reading => match reading with | none => true | some p => decide (p ≤ 100)
  | .keySwitchRead _ => true
  | .silenceExpiry => true
  | .poisonedFrameStop _ => true
  | .attentionPayloadCutShort _ => true

end Sys2Proof
end

