-- ==== Sys2Proof/Safety.lean ====
section
/-! DEFINITION. What a sound part is, block by block, in the terms the claims use; and the state a request is served
from and the state that holds its answer. No command stops the part (log 26), so a safe run is one whose states are
sound: `State.sound` gathers the parts. -/

namespace Sys2Proof.Machine

/-! ## The condition table and the limits (chapters 1 and 2) -/

/-- What R4 allows a class to carry: nothing for NOTICE, no lane set for LIMIT, a cap of 0 for TRIP. -/
def effectsFit (c : Cls) (e : Effects) : Prop :=
  (c = .notice → e = Effects.nothing) ∧ (c = .limit → e.lanes = 0) ∧ (c = .trip → e.cap = some 0)

/-- Whether a code is one whose cap its owner refreshes: YAW_MISALIGN or LOOP_HOT(L) (R14). -/
def computedCode (c : Code) : Prop := c = misalignCode ∨ ∃ l : Fin 3, c = loopHotCode l

/-- A condition record as chapter 1 lets one be: slot 47 is OVERFLOW's alone (R2); occurrences lie in 1..255 (R8); the
effects fit the class (R4); an EDGE record has no cause and only a LEVEL record without its cause is CLEARING, with its
hold-off (R3, R10, R12, R13); an ACKED LEVEL record has its cause (R12); a computed code is above NOTICE (R32). -/
structure Record.sound (q : Record) : Prop where
  slot : q.slot < 48
  overflow : q.slot = 47 ↔ q.code = overflowCode
  occurrences : 1 ≤ q.occurrences ∧ q.occurrences ≤ 255
  effects : effectsFit q.cls q.eff
  edge : q.mode = .edge → q.cause = false
  acked : q.mode = .level → q.state = .acked → q.cause = true
  clearing : q.state = .clearing → q.mode = .level ∧ q.cause = false ∧ q.holdoff.isSome = true
  computed : computedCode q.code → q.cls ≠ .notice

/-- The table holds sound records at strictly rising slots, and no two of one code (R2). -/
structure TableSound (table : List Record) : Prop where
  slots : table.Pairwise (fun a b => a.slot < b.slot)
  codes : table.Pairwise (fun a b => a.code ≠ b.code)
  records : ∀ q ∈ table, q.sound

/-- A raise that the blocks and links make: its effects fit its class, it is not a raise of OVERFLOW, and a computed code
comes above NOTICE (R4, R21, R32). -/
structure Raise.sound (r : Raise) : Prop where
  effects : effectsFit r.cls (forced r.cls r.eff)
  code : r.code ≠ overflowCode
  computed : computedCode r.code → r.cls ≠ .notice

/-- An internal event that the table can take: raises are sound, refreshes go to computed codes (R14), and an escalation
that carries a class is to SHED or TRIP (R15, R168). -/
def Ev.sound : Ev → Prop
  | .ctRaise r => r.sound
  | .ctPresent r => r.sound
  | .ctRefresh c _ => computedCode c
  | .ctEscalateTo _ cls _ => cls = .shed ∨ cls = .trip
  | _ => True

/-- The table is sound, and so is every event that a step has left over. -/
def State.tableSound (s : State) : Prop := TableSound s.table ∧ ∀ e ∈ s.unsettled, e.sound

/-- The effective limits are those of the table, which holds no code twice (R2, R33, R40). -/
def State.limitsAgree (s : State) : Prop :=
  s.table.Pairwise (fun a b => a.code ≠ b.code) ∧ s.limits = resolve s.table

/-! ## Reaction slots (chapter 3) -/

/-- A slot as R45 lets one be: unbound with nothing in it, or bound with a count of 1..15, an action, a loop set for
COOL_BOOST alone, a delay of 1..600 except for ESCALATE, and a pending value only beside a delay, at most 600. -/
structure Slot.sound (k : Slot) : Prop where
  unbound : k.bound = none → k = k.unbound
  count : k.bound.isSome = true → 1 ≤ k.count ∧ k.count ≤ 15
  action : k.bound.isSome = k.action.isSome
  loops : k.loops.isSome = true ↔ k.action = some .coolBoost
  delay : k.delay.isSome = true ↔ k.action = some .autoRetire ∨ k.action = some .coolBoost
  delayRange : ∀ d, k.delay = some d → 1 ≤ d ∧ d ≤ 600
  pending : ∀ p, k.pending = some p → k.delay.isSome = true ∧ p ≤ 600

/-- Every slot is sound. -/
def State.slotsSound (s : State) : Prop := ∀ k : Fin 8, (s.slots.get k).sound

/-! ## Envelope (chapter 4) -/

/-- The envelope as its last recomputation or step left it: A, h_i, H, T and the binding term follow from what it holds
(R64, R67, R69), C does not exceed T and the ramp runs exactly while it is below (R71 to R73), and the shares are those
of R75 and R76. -/
structure Envelope.sound (e : Envelope) : Prop where
  available : e.available = e.running &&& ~~~e.excluded
  headroom : ∀ n : Fin 4, e.headroom.get n = headroomOf e.available e.factor n
  total : e.total = e.headroom.x0 + e.headroom.x1 + e.headroom.x2 + e.headroom.x3
  target : e.target = min e.demand (min e.capEff e.total)
  binding : e.binding = bindingOf e.demand e.capEff e.total
  commanded : e.commanded ≤ e.target
  ramp : e.ramp.isSome = true ↔ e.commanded < e.target
  share : e.share = sharesOf e.available e.headroom e.total e.commanded

/-! ## Lanes (chapter 5) -/

/-- The timer that a lane state keeps in flight (R86). -/
def timerOf : LaneState → Option TimerKind
  | .offline => none
  | .precharge => some .precharge
  | .sync => some .sync
  | .running => none
  | .shedding => some .shed
  | .locked => none
  | .faulted => none
  | .resetting => some .reset

/-- A lane whose timer is the one of its state, that has a shed_reason in SHEDDING alone, and that tracks a warning only
while its silence timer is armed (R86, R89, R92). -/
structure Lane.sound (x : Lane) : Prop where
  timer : x.timer.map (fun t => t.kind) = timerOf x.state
  shed : x.shed.isSome = true ↔ x.state = .shedding
  warned : x.warned.isSome = true → x.silence.isSome = true

/-- Every lane is sound. -/
def State.lanesSound (s : State) : Prop := ∀ n : Fin 4, (s.lm.lanes.get n).sound

/-! ## Yaw (chapter 7) -/

/-- A context as R129 lets one be: SERVICE only in MOVING, UNWIND never in WATCHING, no move in hand in WATCHING and one in
MOVING. -/
structure Context.sound (c : Context) : Prop where
  service : c.kind = .service → c.state = .moving
  unwind : c.kind = .unwind → c.state ≠ .watching
  watching : c.state = .watching → c.dir = none ∧ c.target = .absent
  moving : c.state = .moving → c.dir.isSome = true

/-- The chain holds each kind at most once, the highest priority at the top, SUSPENDED contexts below the top alone, and
each context in a state its kind takes (R129, R130). -/
structure ChainSound (chain : List Context) : Prop where
  ordered : chain.Pairwise (fun a b => priority b.kind < priority a.kind)
  below : ∀ c ∈ chain.drop 1, c.state = .suspended
  top : ∀ c ∈ chain.head?, c.state ≠ .suspended
  contexts : ∀ c ∈ chain, c.sound

/-- The yaw motion unit: a sound chain; a top that is WATCHING or MOVING is under no general, automatic or supply hold,
and one that is MOVING has a direction that is not blocked (R131, R133, R134); the drives run only with the brake
RELEASED, in the direction wanted, which is not blocked (R145, R148); the drives RUNNING are the healthy ones while they
run (R142); the two views are as the unit stands (R135, R142). -/
structure Yaw.sound (y : Yaw) : Prop where
  chain : ChainSound y.chain
  free : ∀ c ∈ y.chain.head?, c.state = .watching ∨ c.state = .moving → y.freeHold c.kind = false
  moving : ∀ c ∈ y.chain.head?, c.state = .moving → ∃ d, c.dir = some d ∧ y.blocked d = false
  run : ∀ d, y.run = some d → y.brake = .released ∧ y.wants = some d ∧ y.blocked d = false
  drives : ∀ n : Fin 8, (y.drives.get n).state = .running ↔ y.run.isSome = true ∧ (y.drives.get n).healthy = true
  blockedView : y.blockedView = y.blockedDir.isSome
  lowView : y.lowView = decide (y.healthy < 4)

/-! ## Settings (R202) -/

/-- Every setting lies in its fixed range, storm_release stays 20 below storm_wind and unwind_stop 1800 below
unwind_start (R202). -/
structure SettingsSound (st : List Int) : Prop where
  count : st.length = 38
  range : ∀ id, 1 ≤ id → id ≤ 38 → (settingRange id).1 ≤ settingOf st id ∧ settingOf st id ≤ (settingRange id).2
  storm : settingOf st 14 ≤ settingOf st 13 - 20
  unwind : settingOf st 11 ≤ settingOf st 10 - 1800

/-! ## Cooling (chapter 8) -/

/-- A loop: the prime timer runs exactly in PRIMING, misses are counted in RUNNING alone and are below 3 (R154, R159,
R160); the fan stands at 0 unless the pump is RUNNING, at 100 while boosted, and never below fan_min or above 100
(R163 to R165). -/
structure Loop.sound (fanMin : Int) (boosted : Bool) (x : Loop) : Prop where
  prime : x.prime.isSome = true ↔ x.pump = .priming
  misses : x.misses < 3
  idleMisses : x.pump ≠ .running → x.misses = 0
  still : x.pump ≠ .running → x.duty = 0
  full : x.pump = .running → boosted = true → x.duty = 100
  fan : x.pump = .running → fanMin ≤ (x.duty : Int) ∧ x.duty ≤ 100

/-- Every loop is sound under sound settings. -/
def State.coolingSound (s : State) : Prop :=
  SettingsSound s.settings ∧ ∀ l : Fin 3, (s.cu.loops.get l).sound (s.setting 34) (s.cu.boosted l)

/-! ## Supply (chapter 9) -/

/-- The supply monitor: FULL only with the grid present and settled, a settle exactly while the grid is present short of
FULL (R176), and the two UPS thresholds as R176 and R177 leave them: AUX at no charge below 20, LOW at a charge below 30. -/
structure Supply.sound (m : Supply) : Prop where
  full : m.state = .full → m.grid = true
  settle : m.settle.isSome = true ↔ m.grid = true ∧ m.state ≠ .full
  aux : m.state = .aux → ∀ p, m.ups = some p → 20 ≤ p
  low : m.state = .low → ∃ p, m.ups = some p ∧ p < 30
  charge : ∀ p, m.ups = some p → p ≤ 100

/-! ## Links (chapters 10 and 11) -/

/-- A link unit: bytes are held in RECEIVING alone, at most 16 (R185, R186), and a payload of 8 or 9 bytes is in flight
in an attention frame alone (R199 to R201). -/
structure LinkUnit.sound (u : LinkUnit) : Prop where
  received : u.frame ≠ .receiving → u.received = []
  room : u.received.length ≤ 16
  payload : u.payload.isSome = true → u.frame = .attention
  length : ∀ p, u.payload = some p → p.length = 8 ∨ p.length = 9

/-- Both link units are sound. -/
def State.linksSound (s : State) : Prop := ∀ l : Link, (s.links.get l).sound

/-- Every block is sound. -/
structure State.sound (s : State) : Prop where
  table : s.tableSound
  limits : s.limitsAgree
  slots : s.slotsSound
  envelope : s.eu.sound
  lanes : s.lanesSound
  yaw : s.ym.sound
  cooling : s.coolingSound
  supply : s.sm.sound
  links : s.linksSound

/-! ## Requests as the claims speak of them -/

/-- A link that takes a request frame and receives none, in a part that has nothing left over and no silence to end: the
frame is executed and nothing else happens first (R185, R187, R194, R197, R199). -/
def State.ready (s : State) (l : Link) : Prop :=
  s.takesFrame l = true ∧ (s.links.get l).frame ≠ .receiving ∧ s.unsettled = [] ∧ (l = .main → s.silenceView = false)

/-- The state from which the owner of a request serves it: the frame has ended with every byte acknowledged, and on the
main link the silence timer has restarted (R185, R189, R194). -/
def State.begun (s : State) (l : Link) : State :=
  let u := s.links.get l
  let z := { s with
    links := s.links.set l
      { u with frame := .idle, received := [], payload := none, ackSlot := .ack, driven := [] } }
  match l with
  | .service => z
  | .main => { z with silence := silenceStart s.settings, silenceView := false }

/-- The state with a response stored in a link's buffer (R189). -/
def State.answered (s : State) (l : Link) (checked : Bool) (status : Status) (data : List Byte) : State :=
  { s with
    links := s.links.set l
      { s.links.get l with response := some (formResponse s.address checked status data) } }

/-- The state after a request that changes nothing answers on its link: the response is stored in the link's check mode
(R189, R191). -/
def State.replies (s : State) (l : Link) (status : Status) (data : List Byte) : State :=
  (s.begun l).answered l (s.checkMode l) status data

/-- What is left of a step's bound once n events have been taken (log 3). -/
def leftAfter (n : Nat) : Nat := Config.cascadeBound - n

/-- The outcome of a command whose one event leaves a state and hands events on: they are taken in turn until none is
left (log 2, log 3). -/
def State.comesTo (z : State) (evs : List Ev) : Host.Outcome State Fault Refusal := .next (settle (leftAfter 1) evs z)

/-- The outcome of a request on a link of state s that its owner carries out: the state it leaves, with the answer stored
in the check mode that s gives the link, and the events it hands on taken in turn (R189, R191; log 2, log 3). -/
def State.carriesOut (s : State) (l : Link) (z : State) (evs : List Ev) (status : Status) (data : List Byte) :
    Host.Outcome State Fault Refusal :=
  .next (settle (leftAfter 3) evs (z.answered l (s.checkMode l) status data))

/-- The table replaced and the limits recomputed with it (R40). -/
def State.tabled (s : State) (table : List Record) : State := { s with table := table, limits := resolve table }

/-- What the limit resolver delivers when the table is replaced (R41). -/
def State.news (s : State) (table : List Record) : List Ev := deliveries s.limits (resolve table)

/-- The lane manager replaced, its lane cooling demand brought up to date (R105). -/
def State.laned (s : State) (m : LaneManager) : State :=
  { s with lm := { m with coolingSent := coolingDemand (s.settingOn 2) m } }

/-- The handover of the lane cooling demand where a new lane manager changes it (R105). -/
def State.coolingNews (s : State) (m : LaneManager) : List Ev :=
  if coolingDemand (s.settingOn 2) m = s.lm.coolingSent then [] else [.cuLaneDemand (coolingDemand (s.settingOn 2) m)]

/-- What an OFFLINE lane becomes when its start condition is evaluated under what the lane manager holds: it starts where it
is not excluded, the supply is FULL, the L0 pump is RUNNING and start is wanted (R93), by RESETTING where its last report
carries a trip and by PRECHARGE otherwise (R94). -/
def LaneManager.evaluated (m : LaneManager) (auto : Bool) (n : Fin 4) (x : Lane) : Lane :=
  if hasBit m.excluded n.val = false ∧ m.supply = .full ∧ m.pump = .running ∧
      (x.startFlag = true ∨ auto = true ∧ m.demand = true) then
    if x.report.any (fun r => r.severity == .trip) then { x with state := .resetting, timer := some ⟨.reset, 2000⟩ }
    else { x with state := .precharge, timer := some ⟨.precharge, 8000⟩ }
  else x

/-- Where the end of a shed or of a reset leaves a lane: LOCKED while it is excluded, and otherwise OFFLINE, where its start
is evaluated at once (R98, R100). -/
def LaneManager.rested (m : LaneManager) (auto : Bool) (n : Fin 4) (x : Lane) : Lane :=
  if hasBit m.excluded n.val then { x with state := .locked, timer := none, shed := none }
  else m.evaluated auto n { x with state := .offline, timer := none, shed := none }

/-- The exits from RUNNING, in ascending lane order, where the lane manager becomes m (R63, R105). -/
def State.exitNews (s : State) (m : LaneManager) : List Ev :=
  (fourIndices.filter (fun n => (s.lm.lanes.get n).state == .running && (m.lanes.get n).state != .running)).map
    (fun n => .euLane n false)

/-- What the yaw motion unit has been handed and delivered is the same in both (R128). -/
structure Yaw.sameInputs (y z : Yaw) : Prop where
  heading : z.heading = y.heading
  twist : z.twist = y.twist
  filtered : z.filtered = y.filtered
  held : z.held = y.held
  supply : z.supply = y.supply
  pressure : z.pressure = y.pressure

/-- No lane that the lane manager holds as excluded is in PRECHARGE, SYNC or RUNNING (R101). -/
def State.exclusionHolds (s : State) : Prop :=
  ∀ n : Fin 4, hasBit s.lm.excluded n.val = true →
    (s.lm.lanes.get n).state ≠ .precharge ∧ (s.lm.lanes.get n).state ≠ .sync ∧ (s.lm.lanes.get n).state ≠ .running

/-- The command that a request on a link is; a request out of its encoding is no row of its own. -/
def Request.command (l : Link) : Request → Option Instr
  | .lookup c => some (.lookup l c)
  | .scan start f => some (.scan l start f)
  | .raise c cls detail cap lanes yaw loops => some (.raise l c cls detail cap lanes yaw loops)
  | .amend c cap lanes yaw loops => some (.amend l c cap lanes yaw loops)
  | .ack c => some (.ack l c)
  | .retire c => some (.retire l c)
  | .bind slot c a loops delay count => some (.bind l slot c a loops delay count)
  | .unbind slot => some (.unbind l slot)
  | .readSlot slot => some (.readSlot l slot)
  | .setDemand d => some (.setDemand l d)
  | .readEnvelope => some (.readEnvelope l)
  | .laneStart n => some (.laneStart l n)
  | .laneStop n => some (.laneStop l n)
  | .readLane n => some (.readLane l n)
  | .setTracking on => some (.setTracking l on)
  | .startUnwind => some (.startUnwind l)
  | .yawGoto h => some (.yawGoto l h)
  | .yawJog d sec => some (.yawJog l d sec)
  | .serviceStop => some (.serviceStop l)
  | .readYaw => some (.readYaw l)
  | .driveIsolate n => some (.driveIsolate l n)
  | .driveReturn n => some (.driveReturn l n)
  | .setTwist t => some (.setTwist l t)
  | .readLoop n => some (.readLoop l n)
  | .setSetting id v => some (.setSetting l id v)
  | .getSetting id => some (.getSetting l id)
  | .readSupply => some (.readSupply l)
  | .ident => some (.ident l)
  | .warmReset straps => some (.warmReset l straps)
  | .badEncoding => none

/-- Whether every operand of a request fits its field (section 10.7, R188). -/
def Request.fits (r : Request) : Bool :=
  match r.command .main with
  | none => false
  | some c => c.wellFormed

/-- The link whose lines a command moves, for the commands that a frame on a link is made of. -/
def frameLink : Instr → Option Link
  | .startCondition l _ _ _ => some l
  | .framePoison l _ _ => some l
  | .requestFrameFault l => some l
  | .responseFrame l _ => some l
  | .attentionFrame l => some l
  | .attentionSlot l _ => some l
  | .payloadComplete l => some l
  | .poisonedFrameStop l => some l
  | .attentionPayloadCutShort l => some l
  | .lookup l _ => some l
  | .scan l _ _ => some l
  | .raise l _ _ _ _ _ _ _ => some l
  | .amend l _ _ _ _ _ => some l
  | .ack l _ => some l
  | .retire l _ => some l
  | .bind l _ _ _ _ _ _ => some l
  | .unbind l _ => some l
  | .readSlot l _ => some l
  | .setDemand l _ => some l
  | .readEnvelope l => some l
  | .laneStart l _ => some l
  | .laneStop l _ => some l
  | .readLane l _ => some l
  | .setTracking l _ => some l
  | .startUnwind l => some l
  | .yawGoto l _ => some l
  | .yawJog l _ _ => some l
  | .serviceStop l => some l
  | .readYaw l => some l
  | .driveIsolate l _ => some l
  | .driveReturn l _ => some l
  | .setTwist l _ => some l
  | .readLoop l _ => some l
  | .setSetting l _ _ => some l
  | .getSetting l _ => some l
  | .readSupply l => some l
  | .ident l => some l
  | .warmReset l _ => some l
  | .coldPowerUp _ => none
  | .resetLineAssert => none
  | .resetLineRelease _ => none
  | .linkReset _ => none
  | .holdoffExpiry _ => none
  | .autoRetireExpiry _ => none
  | .coolBoostEnd _ => none
  | .rampStep => none
  | .laneReport _ _ => none
  | .laneSilenceExpiry _ => none
  | .prechargeTimeout _ => none
  | .syncTimeout _ => none
  | .shedTimeout _ => none
  | .resetTimeout _ => none
  | .headingRead _ => none
  | .vaneSample _ => none
  | .anemometerSample _ => none
  | .yawJogExpiry => none
  | .driveFaultRead _ => none
  | .brakePressureRead _ => none
  | .brakeTimerExpiry => none
  | .settleExpiry => none
  | .temperatureSample _ _ => none
  | .flowRead _ _ => none
  | .primeTimeout _ => none
  | .gridRead _ => none
  | .gridSettleComplete => none
  | .upsSample _ => none
  | .keySwitchRead _ => none
  | .silenceExpiry => none

/-! ## The part between commands -/

/-- No command has left anything over, and no request frame is in progress on either link: the next command alone says
what happens. -/
def State.between (s : State) : Prop := s.unsettled = [] ∧ ∀ l : Link, (s.links.get l).frame ≠ .receiving

/-- Every block holds what the limit resolver last delivered to it, and the cooling unit the reaction boost set that
the slots make (R41, R52). -/
structure State.delivered (s : State) : Prop where
  cap : s.eu.capEff = s.limits.capEff
  source : s.eu.capSource = s.limits.capSource
  envelopeLanes : s.eu.excluded = s.limits.excluded
  lanes : s.lm.excluded = s.limits.excluded
  yaw : s.ym.held = s.limits.yaw
  park : s.wh.parkSeen = yawPark s.limits.yaw
  boost : s.cu.boost = s.limits.boost
  reaction : s.cu.reaction = reactionBoost s.slots

/-- A link unit apart from its attention marks. -/
def LinkUnit.apartFromAttention (u : LinkUnit) : LinkUnit := { u with attention := false, late := false }

end Sys2Proof.Machine
end

