-- ==== Sys2Proof/Certificates/Slice0/Obligations.lean ====
section
/-! DEFINITION. The statements for the provers, each formalising what the rules its docstring names say of the part. -/

section
open Sys2Proof Sys2Proof.Machine

/-! ## The queue, the clock and every command -/

/-- A step takes the command at the front of the queue and is exec of it with the queue's rest (log 1). -/
def Obligations.StepRunsFrontCommand : Prop :=
  ∀ (c : Instr) (rest : List Instr) (s : State),
    s.pending = c :: rest → step s = exec c { s with pending := rest }

/-- The model's choice (log 5): on an empty queue one millisecond passes. When it brings no expiry, every timer counted
in milliseconds loses 1 (R73, R86, R89, R128, R141, R146, R159, R174, R194), the stall watch counts up to its 20000 while
the drives run (R150), nothing else moves in any block, and the uptime with the counters in seconds goes on at each
thousandth (R13, R51, R52; past its range the uptime is free, log 8). -/
def Obligations.IdleStepIsOneMillisecond : Prop :=
  ∀ s : State, s.pending = [] → s.unsettled = [] → dueList s.advance = [] →
    ∃ t, step s = .next t ∧
      t = { s with
        eu := { s.eu with ramp := s.eu.ramp.map (fun ms => ms - 1) }
        lm := { s.lm with lanes := t.lm.lanes }
        ym := { s.ym with
          chain := s.ym.chain.map (fun c =>
            match c.target with
            | .time ms => { c with target := .time (ms - 1) }
            | _ => c)
          brakeTimer := s.ym.brakeTimer.map (fun ms => ms - 1)
          settle := s.ym.settle.map (fun q => { q with ms := q.ms - 1 })
          stall := s.ym.stall.map (fun q => { q with ms := min 20000 (q.ms + 1) }) }
        cu := { s.cu with loops := t.cu.loops }
        sm := { s.sm with settle := s.sm.settle.map (fun ms => ms - 1) }
        silence := s.silence.map (fun ms => ms - 1)
        msec := t.msec, uptime := t.uptime, table := t.table, slots := t.slots } ∧
      (∀ n : Fin 4, t.lm.lanes.get n =
        { s.lm.lanes.get n with
          timer := (s.lm.lanes.get n).timer.map (fun w => { w with ms := w.ms - 1 })
          silence := (s.lm.lanes.get n).silence.map (fun ms => ms - 1) }) ∧
      (∀ l : Fin 3, t.cu.loops.get l =
        { s.cu.loops.get l with prime := (s.cu.loops.get l).prime.map (fun ms => ms - 1) }) ∧
      (s.msec < 999 → t.msec = s.msec + 1 ∧ t.uptime = s.uptime ∧ t.table = s.table ∧ t.slots = s.slots) ∧
      (999 ≤ s.msec → t.msec = 0 ∧ (s.uptime < 4294967295 → t.uptime = s.uptime + 1) ∧
        t.table = s.table.map
          (fun q => if q.state = .clearing then { q with holdoff := q.holdoff.map (fun h => h - 1) } else q) ∧
        ∀ k : Fin 8, t.slots.get k =
          { s.slots.get k with pending := (s.slots.get k).pending.map (fun d => d - 1) })

/-- Every command ends in a next state from every state: what the part detects becomes a record and what it refuses is
answered with a status (log 26). No command moves the queue. -/
def Obligations.EveryCommandCompletes : Prop :=
  ∀ (c : Instr) (s : State), ∃ t, exec c s = .next t ∧ t.pending = s.pending ∧ t.arrivals = s.arrivals

/-- The model's choice (log 7): the expiry of a timer that is not in flight does nothing. -/
def Obligations.ExpiryWithoutItsTimerDoesNothing : Prop :=
  ∀ s : State, s.unsettled = [] →
    (∀ c : Code, (∀ q ∈ s.table, q.code = c → q.state ≠ .clearing) → exec (.holdoffExpiry c) s = .next s) ∧
    (∀ k : Fin 8, (s.slots.get k).pending = none →
      exec (.autoRetireExpiry k) s = .next s ∧ exec (.coolBoostEnd k) s = .next s) ∧
    (s.eu.ramp = none → exec .rampStep s = .next s) ∧
    (∀ n : Fin 4, (s.lm.lanes.get n).silence = none → exec (.laneSilenceExpiry n) s = .next s) ∧
    (∀ n : Fin 4, (∀ ms, (s.lm.lanes.get n).timer ≠ some ⟨.precharge, ms⟩) → exec (.prechargeTimeout n) s = .next s) ∧
    (∀ n : Fin 4, (∀ ms, (s.lm.lanes.get n).timer ≠ some ⟨.sync, ms⟩) → exec (.syncTimeout n) s = .next s) ∧
    (∀ n : Fin 4, (∀ ms, (s.lm.lanes.get n).timer ≠ some ⟨.shed, ms⟩) → exec (.shedTimeout n) s = .next s) ∧
    (∀ n : Fin 4, (∀ ms, (s.lm.lanes.get n).timer ≠ some ⟨.reset, ms⟩) → exec (.resetTimeout n) s = .next s) ∧
    ((∀ c ∈ s.ym.chain, c.kind = .service → ∀ ms, c.target ≠ .time ms) → exec .yawJogExpiry s = .next s) ∧
    (s.ym.brakeTimer = none → exec .brakeTimerExpiry s = .next s) ∧
    (s.ym.settle = none → exec .settleExpiry s = .next s) ∧
    (∀ l : Fin 3, (s.cu.loops.get l).prime = none → exec (.primeTimeout l) s = .next s) ∧
    (s.sm.settle = none → exec .gridSettleComplete s = .next s) ∧
    (s.silence = none → exec .silenceExpiry s = .next s)

/-! ## What every step keeps -/

/-- Every step keeps the table sound: rising slots within 0..47, no code twice, OVERFLOW alone in slot 47 (R2), the
effects within R4, occurrences within 1..255 (R8), and mode, cause and state as R10, R12 and R13 let them stand together. -/
def Obligations.TableStaysSound : Prop :=
  ∀ s t : State, s.tableSound → step s = .next t → t.tableSound

/-- After every step the effective limits are those of the records present: cap_eff is 0 beside a TRIP record and
otherwise the lowest cap, 16000 where none carries one (R34); cap_source the code in the lowest slot whose cap equals it
(R35); the lane, yaw and boost limits the unions of the records' sets (R36 to R38); highest_class the highest (R39). -/
def Obligations.LimitsAreThoseOfTheTable : Prop :=
  ∀ s t : State, s.limitsAgree → step s = .next t →
    t.limitsAgree ∧
    ((∃ q ∈ t.table, q.cls = .trip) → t.limits.capEff = 0) ∧
    (∀ q ∈ t.table, ∀ cap, q.eff.cap = some cap → t.limits.capEff ≤ cap) ∧
    ((∀ q ∈ t.table, q.cls ≠ .trip) → (∃ q ∈ t.table, q.eff.cap.isSome = true) →
      ∃ q ∈ t.table, q.eff.cap = some t.limits.capEff) ∧
    ((∀ q ∈ t.table, q.cls ≠ .trip ∧ q.eff.cap = none) → t.limits.capEff = 16000) ∧
    (∀ c, t.limits.capSource = some c ↔
      ∃ below q above, t.table = below ++ q :: above ∧ q.code = c ∧ q.eff.cap = some t.limits.capEff ∧
        ∀ p ∈ below, p.eff.cap ≠ some t.limits.capEff) ∧
    (∀ n : Fin 4, hasBit t.limits.excluded n.val = true ↔ ∃ q ∈ t.table, hasBit q.eff.lanes n.val = true) ∧
    (∀ f : Fin 5, hasBit t.limits.yaw f.val = true ↔ ∃ q ∈ t.table, hasBit q.eff.yaw f.val = true) ∧
    (∀ l : Fin 3, hasBit t.limits.boost l.val = true ↔ ∃ q ∈ t.table, hasBit q.eff.boost l.val = true) ∧
    (t.limits.highest = none ↔ t.table = []) ∧
    (∀ k, t.limits.highest = some k →
      (∃ q ∈ t.table, q.cls = k) ∧ ∀ q ∈ t.table, clsIndex q.cls ≤ clsIndex k)

/-- Every step keeps each reaction slot as R45 lets one be: a slot with count 0 holds no binding and no pending action. -/
def Obligations.SlotsStaySound : Prop :=
  ∀ s t : State, s.slotsSound → step s = .next t →
    t.slotsSound ∧
    ∀ k : Fin 8, (t.slots.get k).count = 0 →
      (t.slots.get k).bound = none ∧ (t.slots.get k).action = none ∧ (t.slots.get k).loops = none ∧
      (t.slots.get k).delay = none ∧ (t.slots.get k).pending = none

/-- Every step keeps the envelope as its arithmetic leaves it (R64, R67, R69, R71 to R73, R75, R76), and C rises at RAMP_STEP
alone: after any other command it stands where it stood or lower (R71, R72). -/
def Obligations.EnvelopeStaysSound : Prop :=
  (∀ s t : State, s.eu.sound → step s = .next t → t.eu.sound) ∧
  ∀ (c : Instr) (s t : State), s.unsettled = [] → c ≠ .rampStep → exec c s = .next t → t.eu.commanded ≤ s.eu.commanded

/-- Every step keeps each lane's timer the one of its state, its shed_reason in SHEDDING alone, and its tracked warning
beside an armed silence timer (R86, R89, R92). -/
def Obligations.LanesStaySound : Prop :=
  ∀ s t : State, s.lanesSound → step s = .next t → t.lanesSound

/-- Every step keeps the yaw motion unit sound; so the chain holds each kind at most once in strictly descending priority
with no MOVING context below the top (R130), and while the drives run the brake is RELEASED, the supply is not LOW, no
hold that needs no direction applies to the top (R133, R148), and the run winds no cable at or above 10800. -/
def Obligations.YawStaysSound : Prop :=
  ∀ s t : State, s.ym.sound → step s = .next t →
    t.ym.sound ∧
    t.ym.chain.Pairwise (fun a b => priority b.kind < priority a.kind) ∧
    (∀ c ∈ t.ym.chain.drop 1, c.state ≠ .moving) ∧
    ∀ d, t.ym.run = some d →
      t.ym.brake = .released ∧ t.ym.supply ≠ .low ∧
      (∃ top rest, t.ym.chain = top :: rest ∧ top.state = .moving ∧ top.dir = some d ∧ t.ym.freeHold top.kind = false) ∧
      ¬(10800 ≤ t.ym.twist.natAbs ∧ (d = .cw ∧ 0 < t.ym.twist ∨ d = .ccw ∧ t.ym.twist < 0))

/-- Every step keeps each loop sound, and with it the fan bounds of R163: duty within fan_min..100 while the pump is
RUNNING, 100 while the loop is boosted too, 0 while the pump is not RUNNING. -/
def Obligations.CoolingStaysSound : Prop :=
  ∀ s t : State, s.coolingSound → step s = .next t →
    t.coolingSound ∧
    ∀ l : Fin 3,
      ((t.cu.loops.get l).pump = .running →
        t.setting 34 ≤ ((t.cu.loops.get l).duty : Int) ∧ (t.cu.loops.get l).duty ≤ 100 ∧
        (t.cu.boosted l = true → (t.cu.loops.get l).duty = 100)) ∧
      ((t.cu.loops.get l).pump ≠ .running → (t.cu.loops.get l).duty = 0)

/-- Every step keeps the supply monitor sound: FULL only with the grid present, a settle exactly while the grid is present
short of FULL (R174, R176), AUX at no charge below 20 and LOW at a charge below 30 (R176, R177). -/
def Obligations.SupplyStaysSound : Prop :=
  ∀ s t : State, s.sm.sound → step s = .next t → t.sm.sound

/-- Every step keeps both link units sound: bytes are held in RECEIVING alone, at most 16 (R185, R186), and a payload of 8
or 9 bytes is in flight in an attention frame alone (R199 to R201). -/
def Obligations.LinksStaySound : Prop :=
  ∀ s t : State, s.linksSound → step s = .next t → t.linksSound

/-- The state right after reset meets every invariant of the other statements, and every block holds the limits that
GRID_LOSS makes there (R29, R41, R43). -/
def Obligations.ResetIsSound : Prop :=
  State.reset.sound ∧ State.reset.delivered ∧ State.reset.exclusionHolds ∧ State.reset.between

/-- At every moment the shares sum to C, C does not exceed min(D, cap_eff, H), no lane receives more than its headroom, a
lane outside A receives 0, and a ramp step, commanded or brought by the clock in an idle step, raises C by at most ramp_up
(R77). -/
def Obligations.EnvelopeArithmeticHolds : Prop :=
  (∀ s t : State, s.eu.sound → step s = .next t →
    t.eu.share.x0 + t.eu.share.x1 + t.eu.share.x2 + t.eu.share.x3 = t.eu.commanded ∧
    t.eu.commanded ≤ min t.eu.demand (min t.eu.capEff t.eu.total) ∧
    ∀ n : Fin 4, t.eu.share.get n ≤ t.eu.headroom.get n ∧
      (hasBit t.eu.available n.val = false → t.eu.share.get n = 0)) ∧
  (∀ s t : State, s.unsettled = [] → exec .rampStep s = .next t →
    t.eu.commanded ≤ s.eu.commanded + (s.setting 1).toNat) ∧
  (∀ s t : State, s.unsettled = [] → s.pending = [] → step s = .next t →
    t.eu.commanded ≤ s.eu.commanded + (s.setting 1).toNat)

/-- The limit resolver's deliveries reach every consumer within the step that changes the table: after every step that
leaves nothing over, each block holds the limits as they stand, and the cooling unit the loops of the pending COOL_BOOSTs
(R41, R43, R52). -/
def Obligations.EveryBlockHoldsTheLimits : Prop :=
  ∀ s t : State, s.unsettled = [] → s.delivered → step s = .next t → t.unsettled = [] → t.delivered

/-- No lane whose number is in the lane exclusion set of any present record is in state PRECHARGE, SYNC or RUNNING
(R101). -/
def Obligations.NoExcludedLaneRuns : Prop :=
  ∀ s t : State, s.unsettled = [] → s.limitsAgree → s.delivered → s.exclusionHolds → step s = .next t →
    t.unsettled = [] →
    t.exclusionHolds ∧
    ∀ q ∈ t.table, ∀ n : Fin 4, hasBit q.eff.lanes n.val = true →
      (t.lm.lanes.get n).state ≠ .precharge ∧ (t.lm.lanes.get n).state ≠ .sync ∧ (t.lm.lanes.get n).state ≠ .running

/-! ## What stays until its own command -/

/-- What the inputs last gave stays until the next read of the input or a reset that clears it: the supply inputs, W, F,
the heading and the twist account, the brake pressure, the fault lines, the outlet temperatures, the flow switches, the
lane reports and the key (R87, R112, R116, R119, R143, R146, R155, R159, R173, R192). That the brake pressure and the
fault lines stay over a warm reset is the model's choice (log 38), and so are the field msec beside the uptime (log 5) and
the level of the strap pins that State holds (log 33). -/
def Obligations.InputsHoldTheirLastRead : Prop :=
  ∀ (c : Instr) (s t : State), s.between → exec c s = .next t → (∀ straps, c ≠ .coldPowerUp straps) →
    ((∀ p, c ≠ .gridRead p) → c ≠ .gridSettleComplete → (∀ p, c ≠ .upsSample p) → t.sm = s.sm) ∧
    ((∀ h, c ≠ .headingRead h) → t.wh.refHeading = s.wh.refHeading ∧
      ((∀ l v, c ≠ .setTwist l v) → t.wh.twist = s.wh.twist)) ∧
    ((∀ bar, c ≠ .brakePressureRead bar) → t.ym.pressure = s.ym.pressure) ∧
    ((∀ lines, c ≠ .driveFaultRead lines) → ∀ n : Fin 8, (t.ym.drives.get n).line = (s.ym.drives.get n).line) ∧
    t.uptime = s.uptime ∧ t.msec = s.msec ∧
    ((∀ straps, c ≠ .resetLineRelease straps) →
      (c ≠ .resetLineAssert → t.lineAsserted = s.lineAsserted) ∧
      ((∀ l straps, c ≠ .warmReset l straps) →
        t.straps = s.straps ∧ t.address = s.address ∧
        ((∀ p, c ≠ .anemometerSample p) → t.wh.speed = s.wh.speed) ∧
        ((∀ e, c ≠ .vaneSample e) → t.wh.filtered = s.wh.filtered) ∧
        (∀ l : Fin 3, (∀ e, c ≠ .temperatureSample l e) → (t.cu.loops.get l).tOut = (s.cu.loops.get l).tOut) ∧
        (∀ l : Fin 3, (∀ b, c ≠ .flowRead l b) → (t.cu.loops.get l).flow = (s.cu.loops.get l).flow) ∧
        (∀ n : Fin 4, (∀ bytes, c ≠ .laneReport n bytes) → (t.lm.lanes.get n).report = (s.lm.lanes.get n).report) ∧
        ((∀ on, c ≠ .keySwitchRead on) → t.keyView = s.keyView)))

/-- What software wrote and an operator chose stays until the request that changes it or a reset that clears it. A setting
changes at SET_SETTING, SET_TRACKING and COLD_POWER_UP alone: no other command, no reset of the running part and no
millisecond changes one (R202, R136). D stays (R61, R85), each start_flag (R106, R107), each drive's isolation (R144, R153),
and no slot's count rises but by BIND (R45). -/
def Obligations.SettingsAndChoicesStand : Prop :=
  (∀ (c : Instr) (s t : State), s.between → exec c s = .next t →
    (∀ l id v, c ≠ .setSetting l id v) → (∀ l on, c ≠ .setTracking l on) → (∀ straps, c ≠ .coldPowerUp straps) →
    t.settings = s.settings) ∧
  (∀ s t : State, s.between → s.pending = [] → step s = .next t → t.settings = s.settings) ∧
  ∀ (c : Instr) (s t : State), s.between → exec c s = .next t → (∀ straps, c ≠ .coldPowerUp straps) →
    ((∀ l slot code a loops d n, c ≠ .bind l slot code a loops d n) →
      ∀ k : Fin 8, (t.slots.get k).count ≤ (s.slots.get k).count) ∧
    ((∀ l n, c ≠ .driveIsolate l n) → (∀ l n, c ≠ .driveReturn l n) →
      ∀ n : Fin 8, (t.ym.drives.get n).state = .isolated ↔ (s.ym.drives.get n).state = .isolated) ∧
    ((∀ straps, c ≠ .resetLineRelease straps) → (∀ l straps, c ≠ .warmReset l straps) →
      ((∀ l d, c ≠ .setDemand l d) → t.eu.demand = s.eu.demand) ∧
      ((∀ l n, c ≠ .laneStart l n) → (∀ l n, c ≠ .laneStop l n) →
        ∀ n : Fin 4, (t.lm.lanes.get n).startFlag = (s.lm.lanes.get n).startFlag))

/-- What happens on one link leaves the other as it was, apart from its attention marks: frames, bytes, response and
payload of a link move at the commands of that link and at the resets alone (R183, R195, R198). -/
def Obligations.LinksStandApart : Prop :=
  ∀ (c : Instr) (l : Link) (s t : State), s.between → exec c s = .next t →
    frameLink c ≠ some l → c ≠ .linkReset l → (∀ straps, c ≠ .coldPowerUp straps) → c ≠ .resetLineAssert →
    (∀ straps, c ≠ .resetLineRelease straps) → (∀ k straps, c ≠ .warmReset k straps) →
    (t.links.get l).apartFromAttention = (s.links.get l).apartFromAttention

/-! ## Bytes on the wire -/

/-- Every report in range reads back from its own twelve bytes, and with any one of the twelve bytes wrong it is invalid:
the fields are carried most significant byte first under a CRC-8 that misses no single wrong byte (R87). -/
def Obligations.LaneReportsReadBack : Prop :=
  ∀ r : Report, r.inRange = true → r.localCode < 256 → r.detail < 65536 →
    (reportBytes r).length = 12 ∧ readReport (reportBytes r) = some r ∧
    ∀ (i : Nat) (b : Byte), i < 12 → (reportBytes r)[i]? ≠ some b → readReport ((reportBytes r).set i b) = none

/-- Every request whose operands fit its fields is what the five checks find in the bytes of its frame, with check mode
on or off, in at most 16 bytes after the address byte (R186, R187, R188, section 10.7). -/
def Obligations.RequestFramesReadBack : Prop :=
  ∀ (r : Request) (address : Nat) (checked : Bool) (straps : Fin 4),
    r.fits = true → (∀ p, r = .warmReset p → p = straps) →
    judgeFrame address checked straps (frameBytes address checked r) = .execute r ∧
    (frameBytes address checked r).length ≤ 16

/-- Sent byte by byte, a request is the command of its row: a start condition with the address byte and the bytes of the
frame, then the stop condition, leave what the request's own command leaves; a WARM_RESET among them is the one that
carries the level at which the strap pins stand (R183, R185, R187, R189; the model's choices, logs 9 and 33). -/
def Obligations.FrameBytesRunTheCommand : Prop :=
  ∀ (s : State) (l : Link) (r : Request) (c : Instr),
    s.unsettled = [] → s.takesFrame l = true → (s.links.get l).frame ≠ .receiving →
    r.fits = true → r.command l = some c → (∀ p, r = .warmReset p → p = s.straps) →
    ∃ m, exec (.startCondition l (writeAddress s.address) true (frameBytes s.address (s.checkMode l) r)) s = .next m ∧
      m.pending = s.pending ∧ exec (.requestFrameFault l) m = exec c s

/-! ## Resets -/

/-- COLD_POWER_UP leaves the state right after reset, whatever stood before, with the strap address read; the level of the
reset line and the queue are not the part's to set (R29, R84, R110, R125, R153, R171, R179, R183; logs 12 and 13). While
the reset line is asserted both link units leave their lines undriven and take no frame: every command of a frame does
nothing (R197, log 10). -/
def Obligations.PowerUpAndTheResetLine : Prop :=
  (∀ (straps : Fin 4) (s : State),
     exec (.coldPowerUp straps) s =
       .next { State.reset with
         straps := straps, address := 0x34 + straps.val, lineAsserted := s.lineAsserted, arrivals := s.arrivals
         pending := s.pending }) ∧
  ∀ s : State, s.unsettled = [] →
    exec .resetLineAssert s =
      .next { s with
        lineAsserted := true
        links := ⟨{ s.links.main with ackSlot := .undriven, driven := [] },
          { s.links.service with ackSlot := .undriven, driven := [] }⟩ } ∧
    ∀ (c : Instr) (l : Link), frameLink c = some l → s.lineAsserted = true → exec c s = .next s

/-- A warm reset, by the release of the reset line or by a WARM_RESET request, stops the plant and keeps what it must: the
uptime, the settings, the supply monitor, the twist account and the isolated drives stay (R111, R153, R180, R202); D, C,
the ramp and the running set are 0 (R85); every lane is OFFLINE (R110); the brake applies and nothing runs (R153); no pump
runs (R172); both link units are fresh, the requesting one holding DONE (R183, R197, R198); every SHED or TRIP record of
INTERNAL or LANE origin stands in its slot, ACTIVE and unread, no less restrictive than it was, and no other record of
before does (R30); a slot bound to a code of group 4 or above keeps everything but its pending action (R58). The model's
choices: a release resets also where no assertion came before it (log 11), the address read is that of the straps which
the command carries (log 33), and DONE is formed with that address (log 39). -/
def Obligations.WarmResetStopsThePlant : Prop :=
  ∀ (c : Instr) (s : State) (straps : Fin 4), TableSound s.table →
    (c = .resetLineRelease straps ∧ s.unsettled = [] ∨ ∃ l, c = .warmReset l straps ∧ s.ready l) →
    ∃ t, exec c s = .next t ∧
      t.straps = straps ∧ t.address = 0x34 + straps.val ∧ t.uptime = s.uptime ∧ t.settings = s.settings ∧ t.sm = s.sm ∧
      (t.eu.demand = 0 ∧ t.eu.commanded = 0 ∧ t.eu.ramp = none ∧ t.eu.running = 0) ∧
      (∀ n : Fin 4, (t.lm.lanes.get n).state = .offline ∧ (t.lm.lanes.get n).report = none ∧
        (t.lm.lanes.get n).startFlag = false ∧ (t.lm.lanes.get n).timer = none ∧ (t.lm.lanes.get n).share = 0 ∧
        (t.lm.lanes.get n).silence = none) ∧
      (t.wh.twist = s.wh.twist ∧ t.wh.refHeading = s.wh.refHeading ∧ t.wh.filtered = 0 ∧ t.wh.speed = 0) ∧
      (t.ym.brake = .applying ∧ t.ym.brakeTimer = some 3000 ∧ t.ym.run = none ∧ t.ym.settle = none ∧
        t.ym.stall = none ∧ t.ym.heading = none ∧ t.ym.twist = s.ym.twist) ∧
      (∀ n : Fin 8, (t.ym.drives.get n).reported = false ∧
        (t.ym.drives.get n).state = if (s.ym.drives.get n).state = .isolated then .isolated else .ready) ∧
      (∀ l : Fin 3, (t.cu.loops.get l).pump ≠ .running ∧ (t.cu.loops.get l).duty = 0) ∧
      (∀ l : Link, (t.links.get l).received = [] ∧ (t.links.get l).payload = none ∧ (t.links.get l).unreported = true ∧
        ((s.links.get l).attention = true → (t.links.get l).attention = true) ∧
        (t.links.get l).response =
          if c = .warmReset l straps then some (formResponse (0x34 + straps.val) (s.checkMode l) .done []) else none) ∧
      (∀ q ∈ s.table, (q.cls = .shed ∨ q.cls = .trip) → (q.origin = .internal ∨ ∃ n, q.origin = .lane n) →
        ∃ r ∈ t.table, r.slot = q.slot ∧ r.code = q.code ∧ r.origin = q.origin ∧ r.firstRaised = q.firstRaised ∧
          r.state = .active ∧ r.unread = ⟨true, true⟩ ∧ clsIndex q.cls ≤ clsIndex r.cls ∧
          q.occurrences ≤ r.occurrences ∧ (∀ cap, q.eff.cap = some cap → ∃ d, r.eff.cap = some d ∧ d ≤ cap) ∧
          q.eff.lanes &&& r.eff.lanes = q.eff.lanes ∧ q.eff.yaw &&& r.eff.yaw = q.eff.yaw ∧
          q.eff.boost &&& r.eff.boost = q.eff.boost) ∧
      (∀ r ∈ t.table, r.origin ≠ .main ∧ r.origin ≠ .service ∧
        ((r.cls = .notice ∨ r.cls = .limit) → r.firstRaised = s.uptime)) ∧
      ∀ (k : Fin 8) (d : Code), (s.slots.get k).bound = some d → 4 ≤ d.group.val →
        t.slots.get k = { s.slots.get k with pending := none }

/-! ## Frames on the links -/

/-- A start condition opens a frame by its address byte (R185): another address leaves the unit IGNORING with no slot driven;
its own with wrong parity is answered NACK, the response buffer kept; a read is acknowledged; a write is acknowledged and
each byte of right parity added, up to 16, a seventeenth poisoning the frame (R186). A frame in RECEIVING ends first,
as at its stop condition, also where the start condition is that of a whole request frame (the model's choices, logs 9
and 10). -/
def Obligations.StartConditionOpensAFrame : Prop :=
  ∀ (s : State) (l : Link) (addr : Byte) (bytes : List Byte), s.unsettled = [] → s.takesFrame l = true →
    ((s.links.get l).frame ≠ .receiving →
      (addr ≠ writeAddress s.address → addr ≠ readAddress s.address → ∀ good,
        exec (.startCondition l addr good bytes) s =
          .next (s.setLink l { s.links.get l with
            frame := .ignoring, received := [], payload := none, ackSlot := .undriven, driven := [] })) ∧
      (addr = writeAddress s.address ∨ addr = readAddress s.address →
        exec (.startCondition l addr false bytes) s =
          .next (s.setLink l { s.links.get l with
            frame := .ignoring, received := [], payload := none, ackSlot := .nack, driven := [] })) ∧
      exec (.startCondition l (readAddress s.address) true bytes) s =
        .next (s.setLink l { s.links.get l with
          frame := .sending, received := [], payload := none, ackSlot := .ack, driven := [] }) ∧
      (bytes.length ≤ 16 →
        exec (.startCondition l (writeAddress s.address) true bytes) s =
          .next (s.setLink l { s.links.get l with
            frame := .receiving, received := bytes, payload := none, ackSlot := .ack, driven := [] })) ∧
      (16 < bytes.length →
        exec (.startCondition l (writeAddress s.address) true bytes) s =
          .next (s.setLink l { s.links.get l with
            frame := .poisoned, received := [], response := none, payload := none, ackSlot := .nack, driven := [] }))) ∧
    ((s.links.get l).frame = .receiving → ∀ good,
      exec (.startCondition l addr good bytes) s = s.comesTo [.lkStop l, .lkOpen l addr good bytes] ∧
      ∀ (r : Request) (c : Instr), r.command l = some c → exec c s = s.comesTo [.lkStop l, .lkRequest l r])

/-- A byte with wrong parity, or a seventeenth, poisons a frame in RECEIVING: NACK, the response buffer and the received
bytes emptied; another byte is acknowledged and added; in POISONED every byte is answered NACK and discarded; and the stop
condition of a poisoned frame executes nothing (R185, R186). The stop condition of a frame in RECEIVING judges its bytes in
the order of R187: too few bytes, BAD_REQUEST; a wrong check byte, CHECK_FAIL; a code outside the request index or a wrong
number of parameter bytes, BAD_REQUEST. In each case the status alone is stored and no block sees a request. Otherwise the
request is executed, by the link unit itself where its encoding is wrong. In every other state the frame ends, with
nothing executed. The model's choices: FRAME_POISON may carry a good byte, which is added, and a frame judged by
REQUEST_FRAME_FAULT may pass and is then executed (log 9), where a command finds no frame of its own it does nothing
(log 26), and a WARM_RESET among the bytes reads the strap pins at the level that State holds (log 33). -/
def Obligations.FramesAreAddedToAndJudged : Prop :=
  (∀ (s : State) (l : Link) (b : Byte), s.unsettled = [] → s.takesFrame l = true →
     ((s.links.get l).frame = .receiving →
       ((s.links.get l).received.length < 16 →
         exec (.framePoison l b true) s =
           .next (s.setLink l { s.links.get l with received := (s.links.get l).received ++ [b], ackSlot := .ack })) ∧
       (∀ good, good = false ∨ 16 ≤ (s.links.get l).received.length →
         exec (.framePoison l b good) s =
           .next (s.setLink l
             { s.links.get l with frame := .poisoned, received := [], response := none, ackSlot := .nack }))) ∧
     ((s.links.get l).frame = .poisoned →
       (∀ good, exec (.framePoison l b good) s = .next (s.setLink l { s.links.get l with ackSlot := .nack })) ∧
       exec (.poisonedFrameStop l) s =
         .next (s.setLink l { s.links.get l with frame := .idle, received := [], payload := none })) ∧
     ((s.links.get l).frame ≠ .receiving → (s.links.get l).frame ≠ .poisoned → ∀ good,
       exec (.framePoison l b good) s = .next s) ∧
     ((s.links.get l).frame ≠ .poisoned → exec (.poisonedFrameStop l) s = .next s)) ∧
  ∀ (s : State) (l : Link), s.unsettled = [] → s.takesFrame l = true →
    ((s.links.get l).frame ≠ .receiving →
      exec (.requestFrameFault l) s =
        if (s.links.get l).frame = .idle ∨ (s.links.get l).frame = .ignoring then .next s
        else .next (s.setLink l { s.links.get l with frame := .idle, received := [], payload := none })) ∧
    ((s.links.get l).frame = .receiving →
      let bytes := (s.links.get l).received
      let body := if s.checkMode l then bytes.dropLast else bytes
      let ended := s.setLink l { s.links.get l with frame := .idle, received := [], payload := none }
      let refused := fun status => Host.Outcome.next (ended.answered l (s.checkMode l) status [])
      exec (.requestFrameFault l) s =
        if bytes.length < (if s.checkMode l then 2 else 1) then refused .badRequest
        else if s.checkMode l = true ∧ bytes.getLast? ≠ some (crc8 (writeAddress s.address :: body)) then
          refused .checkFail
        else
          match body with
          | [] => refused .badRequest
          | code :: params =>
            if requestLength code = some params.length then
              ended.comesTo [.lkBegin l (requestAt s.straps code params)]
            else refused .badRequest)

/-- A response frame sends the stored response from its first byte, or NO_RESPONSE formed at the read, as many bytes as the
requester clocks, each with its parity bit and a continuation bit; reading consumes nothing (R190). A link reset drops the
frame in progress and keeps the response buffer, attention and the silence timer (R195). The model's choices: RESPONSE_FRAME
is one whole frame and leaves the link IDLE (log 9), and a link reset keeps a late request for attention (log 37). -/
def Obligations.ResponseFrameSendsTheBuffer : Prop :=
  ∀ (s : State) (l : Link), s.unsettled = [] →
    exec (.linkReset l) s =
      .next (s.setLink l { s.links.get l with
        frame := .idle, received := [], payload := none, ackSlot := .undriven, driven := [] }) ∧
    (s.takesFrame l = true → (s.links.get l).frame ≠ .receiving → ∀ n : Nat,
      exec (.responseFrame l n) s =
        .next (s.setLink l { s.links.get l with
          frame := .idle, received := [], payload := none, ackSlot := .ack
          driven :=
            (driveBytes (responseBytes
              (match (s.links.get l).response with
               | some r => r
               | none => formResponse s.address (s.checkMode l) .noResponse []))).take n })) ∧
    (s.takesFrame l = true → (s.links.get l).frame = .receiving → ∀ n : Nat,
      exec (.responseFrame l n) s = s.comesTo [.lkStop l, .lkSend l n])

/-- An attention frame (R199, R200, R201): it begins on an IDLE or IGNORING link while attention is pending; NACK ends it
with attention still pending; ACK takes the snapshot of the eight bytes, with a check byte in check mode; a complete
payload clears attention unless a request came late; a payload cut short changes no mark. The model's choices: whether the
line has been idle and what its levels are is the sender's to judge (log 27), a payload cut short keeps the late request
too (log 37), and where a command finds no attention frame of its own it does nothing (log 26). -/
def Obligations.AttentionFrameRunsItsCourse : Prop :=
  ∀ (s : State) (l : Link), s.unsettled = [] → s.lineAsserted = false →
    ((s.links.get l).attention = true ∧ ((s.links.get l).frame = .idle ∨ (s.links.get l).frame = .ignoring) →
      exec (.attentionFrame l) s =
        .next (s.setLink l { s.links.get l with
          frame := .attention, payload := none, ackSlot := .undriven
          driven := [⟨readAddress s.address, parityBit (readAddress s.address), none⟩] })) ∧
    (¬((s.links.get l).attention = true ∧ ((s.links.get l).frame = .idle ∨ (s.links.get l).frame = .ignoring)) →
      exec (.attentionFrame l) s = .next s) ∧
    ((s.links.get l).frame = .attention → (s.links.get l).payload = none →
      exec (.attentionSlot l false) s =
        .next (s.setLink l { s.links.get l with frame := .idle, received := [], payload := none, driven := [] }) ∧
      (let items : List Byte :=
        [byteOf (if (s.links.get l).unreported then 0x02 else 0x01),
         byteOf (16 * (match s.limits.highest with
           | none => 0 | some .notice => 1 | some .limit => 2 | some .shed => 3 | some .trip => 4) +
           (match s.sm.state with | .full => 0 | .aux => 1 | .low => 2)),
         byteOf (s.table.filter (fun q => q.unread.get l)).length, byteOf (s.limits.capEff / 256),
         byteOf s.limits.capEff, byteOf (16 * s.limits.excluded.toNat + s.eu.available.toNat),
         byteOf ((match s.ym.chain.head?.map (fun c => c.kind) with
           | none => 0 | some .track => 1 | some .unwind => 2 | some .park => 3 | some .service => 4) +
           ((if hasBit s.limits.yaw 4 then 8 else 0) + (if hasBit s.limits.yaw 3 then 16 else 0) +
            (if hasBit s.limits.yaw 2 then 32 else 0) + (if hasBit s.limits.yaw 0 then 64 else 0) +
            (if hasBit s.limits.yaw 1 then 128 else 0))),
         byteOf s.table.length]
       let sent := if s.checkMode l then items ++ [crc8 (readAddress s.address :: items)] else items
       exec (.attentionSlot l true) s =
        .next (s.setLink l { s.links.get l with late := false, payload := some sent, driven := driveBytes sent }))) ∧
    (¬((s.links.get l).frame = .attention ∧ (s.links.get l).payload = none) → ∀ ack,
      exec (.attentionSlot l ack) s = .next s) ∧
    ((s.links.get l).payload.isSome = true →
      exec (.payloadComplete l) s =
        .next (s.setLink l { s.links.get l with
          frame := .idle, received := [], payload := none, attention := (s.links.get l).late, late := false
          unreported := false }) ∧
      exec (.attentionPayloadCutShort l) s =
        .next (s.setLink l { s.links.get l with frame := .idle, received := [], payload := none })) ∧
    ((s.links.get l).payload = none →
      exec (.payloadComplete l) s = .next s ∧ exec (.attentionPayloadCutShort l) s = .next s)

/-! ## Requests that read (each stores its answer and changes nothing else) -/

/-- IDENT answers the vendor code, the part code, the revision and the strap address, on either link, and changes nothing
(R196). -/
def Obligations.IdentNamesThePart : Prop :=
  ∀ (s : State) (l : Link), s.ready l →
    exec (.ident l) s = .next (s.replies l .done (word 0x4B4C ++ word 0x0316 ++ word 1 ++ word s.address))

/-- READ_SLOT, READ_ENVELOPE, READ_LANE, READ_SUPPLY and GET_SETTING answer the items of their rules in order, refuse a
number out of range BAD_VALUE, and change nothing else (R48, R83, R108, R181, R202; item encodings R87, R189). The group 2
code of READ_LANE stands last, absent at severity NONE, and other item encodings are the model's choice too (log 17). -/
def Obligations.ReadsAnswerTheirItems : Prop :=
  ∀ (s : State) (l : Link), s.ready l →
    (∀ k : Fin 8, exec (.readSlot l k.val) s =
      (let v := s.slots.get k
       .next (s.replies l .done
        (optional 2 codeBytes v.bound ++ optional 1 (fun a => named (actionIndex a)) v.action ++
         optional 1 (fun x : LoopSet => setByte x) v.loops ++ optional 2 word v.delay ++ word v.count ++
         optional 2 word v.pending ++ named (outcomeIndex v.last))))) ∧
    exec (.readEnvelope l) s =
      .next (s.replies l .done
        (word s.eu.demand ++ word s.eu.capEff ++ optional 2 codeBytes s.eu.capSource ++ word s.eu.total ++
         word s.eu.target ++ word s.eu.commanded ++ named (bindingIndex s.eu.binding) ++ word s.eu.share.x0 ++
         word s.eu.share.x1 ++ word s.eu.share.x2 ++ word s.eu.share.x3)) ∧
    (∀ n : Fin 4, exec (.readLane l n.val) s =
      (let x := s.lm.lanes.get n
       .next (s.replies l .done
        (named (laneStateIndex x.state) ++ optional 1 (fun w => named (shedIndex w)) x.shed ++ flag x.startFlag ++
         optional 3 (fun w : LaneTimer => named (timerIndex w.kind) ++ word w.ms) x.timer ++ word x.share ++
         optional 2 word x.warned ++ flag x.silence.isSome ++ flag (hasBit s.lm.excluded n.val) ++
         optional 12 (fun r : Report =>
          named (portStateIndex r.laneState) ++ word r.dcVoltage ++ signed r.heatsink ++ word r.power ++
          named (severityIndex r.severity) ++ word r.localCode ++ word r.detail) x.report ++
         optional 2 codeBytes
          (x.report.bind (fun r => if r.severity = .none then none else some (laneCode n r.localCode))))))) ∧
    exec (.readSupply l) s =
      .next (s.replies l .done
        (named (supplyIndex s.sm.state) ++ optional 2 word s.sm.ups ++ flag s.sm.upsOk ++ flag s.sm.grid ++
         optional 2 word s.sm.settle ++ flag (s.sm.state != .full) ++ flag (s.sm.state == .low))) ∧
    (∀ id : Nat, 1 ≤ id → id ≤ 38 → exec (.getSetting l id) s = .next (s.replies l .done (signed (s.setting id)))) ∧
    (∀ n : Nat, 8 ≤ n → exec (.readSlot l n) s = .next (s.replies l .badValue [])) ∧
    (∀ n : Nat, 4 ≤ n → exec (.readLane l n) s = .next (s.replies l .badValue [])) ∧
    (∀ id : Nat, id = 0 ∨ 38 < id → exec (.getSetting l id) s = .next (s.replies l .badValue []))

/-- READ_YAW answers the chain, the drives, the brake, the run, the holds and the wind unit's quantities in the order of R151
and R124, and READ_LOOP the loop in the order of R169, a loop number above 2 being refused; neither changes anything
else (item encodings R189, log 17). -/
def Obligations.YawAndLoopReadsAnswerTheirItems : Prop :=
  ∀ (s : State) (l : Link), s.ready l →
    exec (.readYaw l) s =
      (let y := s.ym
       let w := s.wh
       let direction := fun d : Dir => named (dirIndex d)
       .next (s.replies l .done
        ((named y.chain.length ++
          (y.chain.map (fun c =>
            named (kindIndex c.kind) ++ named (contextOriginIndex c.origin) ++ targetBytes c.target ++
            optional 1 direction c.dir ++ named (contextStateIndex c.state))).flatten ++
          (y.drives.toList.map (fun d => named (driveStateIndex d.state) ++ flag d.line ++ flag d.reported)).flatten ++
          word y.healthy ++ named (rateIndex (rateOf y.healthy y.supply)) ++ named (brakeIndex y.brake) ++
          word y.pressure ++ optional 2 word y.brakeTimer ++ named (runIndex y.run) ++
          optional 3 (fun q : Settle => word q.ms ++ direction q.dir) y.settle ++
          optional 2 (fun q : StallWatch => word q.ms) y.stall ++ flag (hasBit y.held 4) ++ flag (hasBit y.held 3) ++
          flag (hasBit y.held 2) ++ flag (hasBit y.held 0) ++ flag (hasBit y.held 1) ++
          named (supplyIndex y.supply) ++
          optional 1 direction
            (if 10800 ≤ y.twist.natAbs then (if 0 < y.twist then some Dir.cw else some Dir.ccw) else none) ++
          flag y.blockedView ++ flag y.lowView) ++
         (optional 2 word w.refHeading ++ flag w.headingOk ++ signed w.twist ++ signed w.filtered ++ flag w.vaneOk ++
          signed w.speed ++ word w.dwell ++ flag w.watching ++ flag w.views.twistLimit ++ flag w.views.storm ++
          flag w.views.misalign ++ flag w.views.vaneFault ++ flag w.views.headingFault)))) ∧
    (∀ n : Fin 3, exec (.readLoop l n.val) s =
      (let x := s.cu.loops.get n
       .next (s.replies l .done
        (named (pumpIndex x.pump) ++ optional 2 word x.prime ++ word x.misses ++ named (if x.flow then 0 else 1) ++
         flag (s.cu.demanded s.settings n) ++ word x.duty ++ optional 2 signed x.tOut ++ flag x.sensorOk ++
         flag (hasBit s.cu.boost n.val) ++ flag (hasBit s.cu.reaction n.val) ++ word x.factor ++ word x.computedCap ++
         signed (warnInUse s.settings n) ++ signed (tripInUse s.settings n) ++ flag x.hotView ++
         flag x.hotEscalated ++ flag x.sensorView ++ flag x.failFolded)))) ∧
    (∀ n : Nat, 3 ≤ n → exec (.readLoop l n) s = .next (s.replies l .badValue []))

/-- LOOKUP answers every field of the record in the order of R26 and clears the requesting link's mark on it; an absent code
is refused NOT_FOUND. SCAN answers the first four records at or above its start slot that pass its filter, with next_slot
after the fourth or 48, and clears the requesting link's mark on those and no other; a start above 48 is refused
BAD_VALUE (R24, R26, R27). The item encodings, and next_slot as SCAN's last item, are the model's choice (log 17). -/
def Obligations.LookupAndScanReadTheTable : Prop :=
  (∀ (s : State) (l : Link) (c : Code), s.ready l →
     ((∀ q ∈ s.table, q.code ≠ c) → exec (.lookup l c) s = .next (s.replies l .notFound [])) ∧
     ∀ (below : List Record) (q : Record) (above : List Record), s.table = below ++ q :: above → q.code = c →
        (∀ p ∈ below ++ above, p.code ≠ c) →
       exec (.lookup l c) s =
         .next (({ s.begun l with
           table := below ++ { q with unread := q.unread.set l false } :: above }).answered l (s.checkMode l) .done
             (word q.slot ++ codeBytes q.code ++ named (clsIndex q.cls) ++ named (modeIndex q.mode) ++
              named (originIndex q.origin) ++ named (recStateIndex q.state) ++ flag q.cause ++ word q.occurrences ++
              long q.firstRaised ++ long q.lastChange ++ word q.detail ++ optional 2 word q.eff.cap ++
              setByte q.eff.lanes ++ setByte q.eff.yaw ++ setByte q.eff.boost ++
              named ((if q.unread.main then 1 else 0) + (if q.unread.service then 2 else 0)) ++
              (match q.holdoff with
               | none => named 0 ++ word 0
               | some h => named (if q.state = RecState.clearing then 1 else 2) ++ word h)))) ∧
  (∀ (s : State) (l : Link) (start : Nat) (f : Filter), s.ready l → TableSound s.table →
     (48 < start → exec (.scan l start f) s = .next (s.replies l .badValue [])) ∧
     (start ≤ 48 →
       let found := (s.table.filter (fun q => decide (start ≤ q.slot) &&
         (match f with
          | .all => true
          | .unread => q.unread.get l
          | .classAtLeast k => decide (clsIndex k ≤ clsIndex q.cls)))).take 4
       exec (.scan l start f) s =
         .next (({ s.begun l with
           table := s.table.map (fun q => if q ∈ found then { q with unread := q.unread.set l false } else q) }).answered l
             (s.checkMode l) .done
             (named found.length ++
              (found.map (fun q : Record =>
                word q.slot ++ codeBytes q.code ++ named (clsIndex q.cls) ++ named (recStateIndex q.state) ++
                word q.occurrences ++ flag (q.unread.get l))).flatten ++
              word (match found[3]? with | none => 48 | some q => q.slot + 1)))))

/-! ## Requests that change the table (each hands its changes to the resolver: R6, R40, R41) -/

/-- RAISE (R28): a code of a group below 8, or effects that break R4 for the request's class, are refused BAD_VALUE; a
present code is re-raised (R8) as an EDGE record under its first origin (R10) with class and effects merged (R5); an
absent code takes the lowest free general slot (R2, R7); in a full table the oldest NOTICE record makes room (R20), and
where there is none the request is refused TABLE_FULL (R22). A TRIP has its cap forced to 0 (R4), the other link's mark is
set (R23), and the raise is offered to the reaction unit. What follows the change is handed on in the order of logs 2, 4
and 24, an eviction's offer before its REACTION_SPENT (log 24), and the answer gives the slot and the occurrences right
after the raise (log 30). A raise from inside that no slot can hold is folded into OVERFLOW, created in slot 47 or
re-raised, with the dropped class, effects and code (R21), of which the cooling unit takes note for a PUMP_FAIL (R161). -/
def Obligations.RaiseCreatesOrReRaises : Prop :=
  (∀ (s : State) (l : Link) (c : Code) (cls : Cls) (detail : Nat) (cap : Option Nat) (lanes : LaneSet) (yaw : YawEffect)
    (loops : LoopSet), s.ready l → TableSound s.table →
    let request := Instr.raise l c cls detail cap lanes yaw loops
    let broken : Prop := cls = .notice ∧ ¬(cap = none ∧ lanes = 0 ∧ flagOf yaw = 0 ∧ loops = 0) ∨ cls = .limit ∧ lanes ≠ 0
    let full : Prop := ∀ m, m < 47 → ∃ q ∈ s.table, q.slot = m
    let victims := s.table.filter (fun q => q.cls == .notice && decide (q.slot < 47))
    let created := fun slot : Nat =>
      ({ slot := slot, code := c, cls := cls, mode := .edge, origin := match l with | .main => .main | .service => .service
         state := .active, cause := false, occurrences := 1, firstRaised := s.uptime, lastChange := s.uptime
         detail := detail
         eff := { cap := if cls = .trip then some 0 else cap, lanes := lanes, yaw := flagOf yaw, boost := loops }
         unread := PerLink.set ⟨false, false⟩ l.other true, holdoff := none } : Record)
    (c.group.val < 8 ∨ broken → exec request s = .next (s.replies l .badValue [])) ∧
    (8 ≤ c.group.val → ¬broken →
      (∀ q ∈ s.table, q.code = c →
        let k := if clsIndex q.cls ≤ clsIndex cls then cls else q.cls
        let lower := match q.eff.cap, cap with
          | none, b => b
          | a, none => a
          | some a, some b => some (min a b)
        let r : Record :=
          { q with
            cls := k, mode := .edge, state := .active, cause := false, occurrences := min 255 (q.occurrences + 1)
            lastChange := s.uptime, detail := detail
            eff := { cap := if k = .trip then some 0 else lower, lanes := q.eff.lanes ||| lanes
                     yaw := q.eff.yaw ||| flagOf yaw, boost := q.eff.boost ||| loops }
            unread := q.unread.set l.other true, holdoff := none }
        exec request s =
          s.carriesOut l (((s.begun l).ask (some q) r).tabled (replaceRecord r s.table))
            (s.news (replaceRecord r s.table) ++ [.ruOffer c]) .done (word q.slot ++ word r.occurrences)) ∧
      ((∀ q ∈ s.table, q.code ≠ c) →
        (∀ n, n < 47 → (∀ q ∈ s.table, q.slot ≠ n) → (∀ m, m < n → ∃ q ∈ s.table, q.slot = m) →
          exec request s =
            s.carriesOut l (((s.begun l).ask none (created n)).tabled (insertRecord (created n) s.table))
              (s.news (insertRecord (created n) s.table) ++ [.ruOffer c]) .done (word n ++ word 1)) ∧
        (full → ∀ v ∈ victims,
          (∀ q ∈ victims, v.lastChange < q.lastChange ∨ v.lastChange = q.lastChange ∧ v.slot ≤ q.slot) →
          let table := insertRecord (created v.slot) (s.table.filter (fun q => q.code ≠ v.code))
          exec request s =
            s.carriesOut l
              { ((s.begun l).ask none (created v.slot)).tabled table with slots := cancelSlots v.code s.slots }
              (s.news table ++ boostHandover s.slots (cancelSlots v.code s.slots) ++ [.ruOffer c] ++
               spentRaises (exhaustedBy v.code s.slots)) .done (word v.slot ++ word 1)) ∧
        (full → victims = [] → exec request s = .next (s.replies l .tableFull []))))) ∧
  (∀ (s : State) (r : Raise), TableSound s.table → r.via = none → (∀ q ∈ s.table, q.code ≠ r.code) →
    (∀ m, m < 47 → ∃ q ∈ s.table, q.slot = m) → (∀ q ∈ s.table, q.slot < 47 → q.cls ≠ .notice) →
    let noted := fun l : Fin 3 =>
      if r.code = pumpFailCode l then { s.cu.loops.get l with failFolded := true } else s.cu.loops.get l
    let z := { s with cu := { s.cu with loops := ⟨noted 0, noted 1, noted 2⟩ } }
    let detail := r.code.group.val * 4096 + r.code.item.val
    let created : Record :=
      { slot := 47, code := ⟨0, 1⟩, cls := r.cls, mode := .edge, origin := .internal, state := .active, cause := false
        occurrences := 1, firstRaised := s.uptime, lastChange := s.uptime, detail := detail
        eff := { r.eff with cap := if r.cls = .trip then some 0 else r.eff.cap }
        unread := ⟨true, true⟩, holdoff := none }
    ((∀ q ∈ s.table, q.code ≠ ⟨0, 1⟩) →
      handle (.ctRaise r) s =
        ((z.ask none created).tabled (s.table ++ [created]), s.news (s.table ++ [created]) ++ [.ruOffer ⟨0, 1⟩])) ∧
    (∀ q ∈ s.table, q.code = ⟨0, 1⟩ →
      let k := if clsIndex q.cls ≤ clsIndex r.cls then r.cls else q.cls
      let lower := match q.eff.cap, r.eff.cap with
        | none, b => b
        | a, none => a
        | some a, some b => some (min a b)
      let again : Record :=
        { q with
          cls := k, mode := .edge, state := .active, cause := false, occurrences := min 255 (q.occurrences + 1)
          lastChange := s.uptime, detail := detail
          eff := { cap := if k = .trip then some 0 else lower, lanes := q.eff.lanes ||| r.eff.lanes
                   yaw := q.eff.yaw ||| r.eff.yaw, boost := q.eff.boost ||| r.eff.boost }
          unread := ⟨true, true⟩, holdoff := none }
      handle (.ctRaise r) s =
        ((z.ask (some q) again).tabled (replaceRecord again s.table),
         s.news (replaceRecord again s.table) ++ [.ruOffer ⟨0, 1⟩])))

/-- AMEND (R16): NOT_FOUND, NOT_OWNER for a record of INTERNAL or LANE origin or, on the main link, of SERVICE origin, and
BAD_VALUE for effects that break R4 for the record's class; otherwise the four effect fields are replaced, a TRIP's cap
forced to 0, and the other link's mark set. The limits that changed are delivered in the order of log 4. -/
def Obligations.AmendReplacesTheEffects : Prop :=
  ∀ (s : State) (l : Link) (c : Code) (cap : Option Nat) (lanes : LaneSet) (yaw : YawEffect) (loops : LoopSet),
    s.ready l → TableSound s.table →
    ((∀ q ∈ s.table, q.code ≠ c) → exec (.amend l c cap lanes yaw loops) s = .next (s.replies l .notFound [])) ∧
    ∀ q ∈ s.table, q.code = c →
      let owned : Prop := q.origin = .main ∨ q.origin = .service ∧ l = .service
      let broken :=
        q.cls = .notice ∧ ¬(cap = none ∧ lanes = 0 ∧ flagOf yaw = 0 ∧ loops = 0) ∨ q.cls = .limit ∧ lanes ≠ 0
      let r : Record :=
        { q with
          eff := { cap := if q.cls = .trip then some 0 else cap, lanes := lanes, yaw := flagOf yaw, boost := loops }
          lastChange := s.uptime, unread := q.unread.set l.other true }
      (¬owned → exec (.amend l c cap lanes yaw loops) s = .next (s.replies l .notOwner [])) ∧
      (owned → broken → exec (.amend l c cap lanes yaw loops) s = .next (s.replies l .badValue [])) ∧
      (owned → ¬broken →
        exec (.amend l c cap lanes yaw loops) s =
          s.carriesOut l (((s.begun l).ask (some q) r).tabled (replaceRecord r s.table))
            (s.news (replaceRecord r s.table)) .done [])

/-- ACK takes an ACTIVE record to ACKED, or at once to CLEARING when it is LEVEL with its cause absent, with its held
hold-off or that of its class (R11, R13); an ACKED or CLEARING record is left as it is. The answer is the state after the
request, the other link's mark is set, and no limit moves (R23, R40). -/
def Obligations.AckAcknowledges : Prop :=
  ∀ (s : State) (l : Link) (c : Code), s.ready l → TableSound s.table → s.limitsAgree →
    ((∀ q ∈ s.table, q.code ≠ c) → exec (.ack l c) s = .next (s.replies l .notFound [])) ∧
    ∀ q ∈ s.table, q.code = c →
      (q.state = .active →
        let clears : Prop := q.mode = .level ∧ q.cause = false
        let hold := s.settingNat (match q.cls with | .notice => 15 | .limit => 16 | .shed => 17 | .trip => 18)
        let r : Record :=
          { q with
            state := if clears then .clearing else .acked
            holdoff := if clears then some (q.holdoff.getD hold) else q.holdoff
            lastChange := s.uptime, unread := q.unread.set l.other true }
        exec (.ack l c) s =
          .next (({ (s.begun l).ask (some q) r with table := replaceRecord r s.table }).answered l (s.checkMode l) .done
            (named (if clears then 2 else 1)))) ∧
      (q.state = .acked → exec (.ack l c) s = .next (s.replies l .done (named 1))) ∧
      (q.state = .clearing → exec (.ack l c) s = .next (s.replies l .done (named 2)))

/-- What the table's other arrivals do. A cause-present report of an absent code is a raise (R9), which an inside raise that
finds a slot creates unread for both links (R7, R23); of a LEVEL record with its cause it does nothing, and of any other
record it is a re-raise (R8), an EDGE one staying EDGE (R10), one in CLEARING coming back ACTIVE. A cause-absent report
takes the cause from a LEVEL record: an ACTIVE one waits for its ACK, an ACKED one goes to CLEARING with its hold-off (R12,
R13). A refresh gives a record below TRIP a new cap (R14), an owner's escalation raises class and lowers cap, and one that
alters neither does nothing (R15). Each change leaves the record unread, asks for attention on a link where its class
reaches the threshold and it did not before or the mark was clear, the request coming late where a payload is in flight
(R25, R198), and delivers each limit that changed to its block (R41), the blocks in the order of log 4. -/
def Obligations.ReportsMoveRecordsAndAreHandedOn : Prop :=
  ∀ s : State, TableSound s.table →
    let changed := fun (q r : Record) =>
      ((s.ask (some q) r).tabled (replaceRecord r s.table), s.news (replaceRecord r s.table))
    let higher := fun a b : Cls => if clsIndex a ≤ clsIndex b then b else a
    let lower := fun a b : Option Nat =>
      match a, b with
      | none, b => b
      | a, none => a
      | some a, some b => some (min a b)
    (∀ r : Raise, r.via = none →
      ((∀ q ∈ s.table, q.code ≠ r.code) →
        handle (.ctPresent r) s = handle (.ctRaise r) s ∧
        ∀ n, n < 47 → (∀ q ∈ s.table, q.slot ≠ n) → (∀ m, m < n → ∃ q ∈ s.table, q.slot = m) →
          let created : Record :=
            { slot := n, code := r.code, cls := r.cls, mode := r.mode, origin := r.origin, state := .active
              cause := decide (r.mode = .level), occurrences := 1, firstRaised := s.uptime, lastChange := s.uptime
              detail := r.detail, eff := { r.eff with cap := if r.cls = .trip then some 0 else r.eff.cap }
              unread := ⟨true, true⟩, holdoff := none }
          handle (.ctRaise r) s =
            ((s.ask none created).tabled (insertRecord created s.table),
             s.news (insertRecord created s.table) ++ [.ruOffer r.code])) ∧
      ∀ q ∈ s.table, q.code = r.code →
        let level : Prop := q.mode = .level ∧ r.mode = .level
        let again : Record :=
          { q with
            cls := higher q.cls r.cls, mode := if level then .level else .edge, state := .active, cause := decide level
            occurrences := min 255 (q.occurrences + 1), lastChange := s.uptime, detail := r.detail
            eff := { cap := if higher q.cls r.cls = .trip then some 0 else lower q.eff.cap r.eff.cap
                     lanes := q.eff.lanes ||| r.eff.lanes, yaw := q.eff.yaw ||| r.eff.yaw
                     boost := q.eff.boost ||| r.eff.boost }
            unread := ⟨true, true⟩, holdoff := none }
        (q.mode = .level → q.cause = true → handle (.ctPresent r) s = (s, [])) ∧
        (¬(q.mode = .level ∧ q.cause = true) → handle (.ctPresent r) s = handle (.ctRaise r) s) ∧
        handle (.ctRaise r) s = ((changed q again).1, (changed q again).2 ++ [.ruOffer r.code])) ∧
    (∀ c : Code,
      ((∀ q ∈ s.table, q.code ≠ c) →
        handle (.ctAbsent c) s = (s, []) ∧ (∀ cap, handle (.ctRefresh c cap) s = (s, [])) ∧
        ∀ k cap, handle (.ctEscalateTo c k cap) s = (s, [])) ∧
      ∀ q ∈ s.table, q.code = c →
        let lost : Record := { q with cause := false, lastChange := s.uptime, unread := ⟨true, true⟩ }
        let hold := s.settingNat (match q.cls with | .notice => 15 | .limit => 16 | .shed => 17 | .trip => 18)
        (q.mode = .edge ∨ q.cause = false → handle (.ctAbsent c) s = (s, [])) ∧
        (q.cause = true → q.state = .active → handle (.ctAbsent c) s = changed q lost) ∧
        (q.cause = true → q.state = .acked →
          handle (.ctAbsent c) s = changed q { lost with state := .clearing, holdoff := some (q.holdoff.getD hold) }) ∧
        (∀ cap : Nat,
          handle (.ctRefresh c cap) s =
            if q.cls = .trip then (s, [])
            else
              changed q { q with
                eff := { q.eff with cap := some cap }, lastChange := s.uptime, unread := ⟨true, true⟩ }) ∧
        (∀ (k : Cls) (cap : Nat),
          let r : Record :=
            { q with
              cls := higher q.cls k
              eff := { q.eff with cap := if higher q.cls k = .trip then some 0 else lower q.eff.cap (some cap) }
              lastChange := s.uptime, unread := ⟨true, true⟩ }
          handle (.ctEscalateTo c k cap) s =
            if r.cls = q.cls ∧ r.eff.cap = q.eff.cap then (s, []) else changed q r)) ∧
    (∀ (before : Option Record) (r : Record),
      let reached := fun (l : Link) (k : Cls) =>
        let v := match l with | .main => s.setting 35 | .service => s.setting 36
        1 ≤ v ∧ v ≤ (clsIndex k : Int) + 1
      let t := s.ask before r
      t = { s with links := t.links } ∧
      ∀ l : Link,
        let u := s.links.get l
        let asks : Prop := r.unread.get l = true ∧ reached l r.cls ∧
          ∀ b, before = some b → b.unread.get l = false ∨ ¬reached l b.cls
        (asks → t.links.get l = { u with attention := true, late := u.late || u.payload.isSome }) ∧
        (¬asks → t.links.get l = u)) ∧
    ∀ table : List Record,
      let new := resolve table
      s.news table =
        (if s.limits.capEff = new.capEff ∧ s.limits.capSource = new.capSource ∧ s.limits.excluded = new.excluded then []
         else
          [.euLimits
            { capEff := if s.limits.capEff = new.capEff then none else some new.capEff
              capSource := if s.limits.capSource = new.capSource then none else some new.capSource
              excluded := if s.limits.excluded = new.excluded then none else some new.excluded }]) ++
        (if s.limits.excluded = new.excluded then [] else [.lmExcluded new.excluded false]) ++
        (if s.limits.yaw = new.yaw then [] else [.ymLimits new.yaw]) ++
        (if hasBit s.limits.yaw 2 = hasBit new.yaw 2 then [] else [.whPark (hasBit new.yaw 2) false]) ++
        (if s.limits.boost = new.boost then [] else [.cuBoost new.boost])

/-- Every internal code is raised or reported with the class, mode, origin and effects that the catalogue gives it, no link
behind it, and the detail that its owner hands over: a signed detail in two's complement and a pressure modulo 65536 are
the model's choice (R32; log 16). -/
def Obligations.CatalogueGivesEachCodeItsEffects : Prop :=
  let none' : Effects := ⟨none, 0, 0, 0⟩
  let capped := fun kw : Nat => (⟨some kw, 0, 0, 0⟩ : Effects)
  let exclude := fun n : Fin 4 => (⟨none, 1 <<< n.val, 0, 0⟩ : Effects)
  let hold : Effects := ⟨none, 0, 0b10000, 0⟩
  let raised := fun (code : Code) (cls : Cls) (mode : RecMode) (detail : Nat) (eff : Effects) =>
    (⟨code, cls, mode, .internal, detail, eff, none⟩ : Raise)
  (∀ k, spentRaise k = raised ⟨0, 2⟩ .notice .edge k.val none') ∧
  (∀ d, hostSilentRaise d = raised ⟨0, 3⟩ .trip .level d ⟨some 0, 0, 0b100, 0⟩) ∧
  serviceLockRaise = raised ⟨0, 4⟩ .shed .level 0 ⟨some 0, 0b1111, 0b1000, 0⟩ ∧
  (∀ d, warmRestartRaise d = raised ⟨0, 5⟩ .notice .edge d none') ∧
  (∀ d, gridLossRaise d = raised ⟨1, 1⟩ .limit .level d (capped 0)) ∧
  (∀ d, upsLowRaise d = raised ⟨1, 2⟩ .shed .level d hold) ∧
  (∀ (n : Fin 4) (xx d : Nat), xx < 256 →
    laneTripRaise n xx d = ⟨⟨2, Fin.ofNat 4096 (256 * n.val + xx)⟩, .shed, .edge, .lane n, d, exclude n, none⟩ ∧
    laneWarnRaise n xx d = ⟨⟨2, Fin.ofNat 4096 (256 * n.val + xx)⟩, .notice, .level, .lane n, d, none', none⟩) ∧
  (∀ n : Fin 4,
    laneSilentRaise n = raised ⟨2, Fin.ofNat 4096 (0x400 + n.val)⟩ .shed .edge 0 (exclude n) ∧
    (∀ d, prechargeFailRaise n d = raised ⟨2, Fin.ofNat 4096 (0x410 + n.val)⟩ .shed .edge d (exclude n)) ∧
    syncFailRaise n = raised ⟨2, Fin.ofNat 4096 (0x420 + n.val)⟩ .shed .edge 0 (exclude n) ∧
    resetFailRaise n = raised ⟨2, Fin.ofNat 4096 (0x430 + n.val)⟩ .shed .edge 0 (exclude n)) ∧
  (∀ t : Int, twistLimitRaise t =
    raised ⟨3, 1⟩ .limit .level (t % 65536).toNat ⟨none, 0, if 0 < t then 0b00001 else 0b00010, 0⟩) ∧
  (∀ d, yawStallRaise d = raised ⟨3, 2⟩ .shed .edge d hold) ∧
  (∀ d, drivesLowRaise d = raised ⟨3, 3⟩ .limit .level d hold) ∧
  (∀ d, brakeFailRaise d = raised ⟨3, 4⟩ .shed .edge (d % 65536) hold) ∧
  (∀ w : Int, stormRaise w = raised ⟨3, 5⟩ .limit .level (w % 65536).toNat ⟨some 0, 0, 0b100, 0⟩) ∧
  (∀ (f : Int) (cap : Nat), misalignRaise f cap = raised ⟨3, 6⟩ .limit .level (f % 65536).toNat (capped cap)) ∧
  trackBlockedRaise .cw = raised ⟨3, 7⟩ .notice .level 1 none' ∧
  trackBlockedRaise .ccw = raised ⟨3, 7⟩ .notice .level 2 none' ∧
  (∀ f : Int, vaneFaultRaise f = raised ⟨3, 8⟩ .limit .level (f % 65536).toNat ⟨none, 0, 0b1000, 0⟩) ∧
  (∀ d, headingFaultRaise d = raised ⟨3, 9⟩ .shed .level d hold) ∧
  (∀ n : Fin 8, driveFaultRaise n = raised ⟨3, Fin.ofNat 4096 (0x10 + n.val)⟩ .limit .edge 0 none') ∧
  (∀ d, pumpFailRaise 0 d = raised ⟨4, 0x10⟩ .shed .edge d ⟨some 0, 0b1111, 0, 0⟩ ∧
    pumpFailRaise 1 d = raised ⟨4, 0x11⟩ .limit .edge d (capped 4000) ∧
    pumpFailRaise 2 d = raised ⟨4, 0x12⟩ .limit .edge d (capped 8000)) ∧
  (∀ (l : Fin 3) (t : Int) (cap : Nat),
    loopHotRaise l t cap = raised ⟨4, Fin.ofNat 4096 (0x20 + l.val)⟩ .limit .level (t % 65536).toNat (capped cap)) ∧
  ∀ l : Fin 3,
    sensorFaultRaise l = raised ⟨4, Fin.ofNat 4096 (0x30 + l.val)⟩ .limit .level 0 ⟨some 8000, 0, 0, 1 <<< l.val⟩

/-- RETIRE (R17) checks in order NOT_FOUND, REFUSED_STATE for an ACTIVE record, CAUSE_PRESENT, and REFUSED_AUTHORITY for a
TRIP record on the main link beyond remote_retire; then, as at the end of a hold-off (R13), the record is retired (R18):
it leaves the table, the limits are recomputed, pending actions bound to its code are cancelled, and the block that owns a
side effect takes the retirement. What follows is handed on in the order of logs 4 and 24. A cancelled action ends
CANCELLED and takes 1 from its slot's count, and at 0 the slot unbinds itself and REACTION_SPENT is raised with its number
(R54, R55); a changed reaction boost set is handed over (R52); and the owner told is the yaw motion unit for
DRIVE_FAULT(n) and the cooling unit for PUMP_FAIL(L) (R18). -/
def Obligations.RetirementRemovesTheRecord : Prop :=
  ∀ (s : State) (c : Code), TableSound s.table →
    let table := s.table.filter (fun q => q.code ≠ c)
    let slots := cancelSlots c s.slots
    let told := s.news table ++ boostHandover s.slots slots ++ retirementOwner c ++ spentRaises (exhaustedBy c s.slots)
    (∀ l : Link, s.ready l →
      ((∀ q ∈ s.table, q.code ≠ c) → exec (.retire l c) s = .next (s.replies l .notFound [])) ∧
      ∀ q ∈ s.table, q.code = c →
        let held : Prop := q.mode = .level ∧ q.cause = true
        let barred : Prop := l = .main ∧ q.cls = .trip ∧ ¬(s.setting 19 = 1 ∧ (q.occurrences : Int) ≤ s.setting 20)
        (q.state = .active → exec (.retire l c) s = .next (s.replies l .refusedState [])) ∧
        (q.state ≠ .active → held → exec (.retire l c) s = .next (s.replies l .causePresent [])) ∧
        (q.state ≠ .active → ¬held → barred → exec (.retire l c) s = .next (s.replies l .refusedAuthority [])) ∧
        (q.state ≠ .active → ¬held → ¬barred →
          exec (.retire l c) s = s.carriesOut l { (s.begun l).tabled table with slots := slots } told .done [])) ∧
    (s.unsettled = [] → ∀ q ∈ s.table, q.code = c → q.state = .clearing →
      exec (.holdoffExpiry c) s = State.comesTo { s.tabled table with slots := slots } told) ∧
    (∀ k : Fin 8,
      let v := s.slots.get k
      slots.get k =
        if v.bound = some c ∧ v.pending.isSome then
          (if v.count ≤ 1 then
            { bound := none, action := none, loops := none, delay := none, count := 0, pending := none, last := .cancelled }
           else { v with count := v.count - 1, pending := none, last := .cancelled })
        else v) ∧
    spentRaises (exhaustedBy c s.slots) =
      (eightIndices.filter (fun k =>
        decide ((s.slots.get k).bound = some c ∧ (s.slots.get k).pending.isSome ∧ (s.slots.get k).count ≤ 1))).map
        (fun k => .ctRaise (spentRaise k)) ∧
    boostHandover s.slots slots =
      (if reactionBoost s.slots = reactionBoost slots then [] else [.cuReaction (reactionBoost slots)]) ∧
    (∀ m : Fin 3, hasBit (reactionBoost s.slots) m.val = true ↔
      ∃ k : Fin 8, (s.slots.get k).action = some .coolBoost ∧ (s.slots.get k).pending.isSome = true ∧
        ∃ set, (s.slots.get k).loops = some set ∧ hasBit set m.val = true) ∧
    (∀ n : Fin 8, c = ⟨3, ⟨16 + n.val, by omega⟩⟩ → retirementOwner c = [.ymDriveRetired n]) ∧
    (∀ l : Fin 3, c = ⟨4, ⟨16 + l.val, by omega⟩⟩ → retirementOwner c = [.cuPumpRetired l]) ∧
    ((∀ n : Fin 8, c ≠ ⟨3, ⟨16 + n.val, by omega⟩⟩) → (∀ l : Fin 3, c ≠ ⟨4, ⟨16 + l.val, by omega⟩⟩) →
      retirementOwner c = [])

/-! ## Reaction slots -/

/-- BIND checks in order a slot above 7, a slot already bound, the count, the delay and an empty loop set, and otherwise
stores the code, the action and the count with the fields that the action uses; it fires nothing (R46). UNBIND leaves an
unbound slot as it is, unbinds a bound one keeping its last_outcome, and cancels a pending action first, its loops leaving
the reaction boost set; it raises nothing (R47). -/
def Obligations.BindAndUnbindMoveTheSlot : Prop :=
  (∀ (s : State) (l : Link) (slot : Nat) (c : Code) (a : Action) (loops : LoopSet) (delay count : Nat), s.ready l →
     (7 < slot → exec (.bind l slot c a loops delay count) s = .next (s.replies l .badValue [])) ∧
     ∀ k : Fin 8, k.val = slot → (s.slots.get k).sound →
       let waits : Prop := a = .autoRetire ∨ a = .coolBoost
       let wrong : Prop := count = 0 ∨ 15 < count ∨ (waits ∧ (delay = 0 ∨ 600 < delay)) ∨ (a = Action.coolBoost ∧ loops = 0)
       ((s.slots.get k).bound.isSome = true →
         exec (.bind l slot c a loops delay count) s = .next (s.replies l .refusedState [])) ∧
       ((s.slots.get k).bound = none → wrong →
         exec (.bind l slot c a loops delay count) s = .next (s.replies l .badValue [])) ∧
       ((s.slots.get k).bound = none → ¬wrong →
         exec (.bind l slot c a loops delay count) s =
           .next (({ s.begun l with
             slots := s.slots.set k
               { bound := some c, action := some a, loops := if a = Action.coolBoost then some loops else none
                 delay := if waits then some delay else none, count := count, pending := none, last := .none } }).answered l
                 (s.checkMode l) .done []))) ∧
  ∀ (s : State) (l : Link) (slot : Nat), s.ready l →
    (7 < slot → exec (.unbind l slot) s = .next (s.replies l .badValue [])) ∧
    ∀ k : Fin 8, k.val = slot → (s.slots.get k).sound →
      ((s.slots.get k).bound = none → exec (.unbind l slot) s = .next (s.replies l .done [])) ∧
      ((s.slots.get k).bound.isSome = true →
        let slots := s.slots.set k
          { bound := none, action := none, loops := none, delay := none, count := 0, pending := none
            last := if (s.slots.get k).pending.isSome then .cancelled else (s.slots.get k).last }
        exec (.unbind l slot) s =
          s.carriesOut l { s.begun l with slots := slots }
            (if reactionBoost s.slots = reactionBoost slots then [] else [.cuReaction (reactionBoost slots)]) .done [])

/-- An offered raise fires the lowest slot bound to its code, unless that slot's action is pending (R49): AUTO_RETIRE and
COOL_BOOST start their delay (R50, R52), ESCALATE hands its escalation over and ends DONE at once (R53), which raises the
record's class one step, forces the cap of a TRIP to 0 and counts no occurrence (R15). An expired AUTO_RETIRE judges the
record as it stands: REFUSED_CLASS for TRIP, NOT_APPLICABLE for LEVEL with its cause, else retired with outcome DONE
(R51); a COOL_BOOST that runs out ends DONE and its loops leave the reaction boost set (R52). Each end takes 1 from the
count, and at 0 unbinds the slot and raises REACTION_SPENT with the slot number (R55), last of all (log 24). -/
def Obligations.SlotActionsEnd : Prop :=
  (∀ (s : State) (c : Code), s.slotsSound →
    ((∀ k : Fin 8, (s.slots.get k).bound ≠ some c) → handle (.ruOffer c) s = (s, [])) ∧
    ∀ k : Fin 8, (s.slots.get k).bound = some c → (∀ j, j < k → (s.slots.get j).bound ≠ some c) →
      let v := s.slots.get k
      let fired := s.slots.set k { v with pending := v.delay }
      let ended := s.slots.set k
        (if v.count = 1 then
          { bound := none, action := none, loops := none, delay := none, count := 0, pending := none, last := .done }
         else { v with count := v.count - 1, pending := none, last := .done })
      (v.pending.isSome = true → handle (.ruOffer c) s = (s, [])) ∧
      (v.pending = none → v.action = some .autoRetire ∨ v.action = some .coolBoost →
        handle (.ruOffer c) s =
          ({ s with slots := fired },
           if reactionBoost s.slots = reactionBoost fired then [] else [.cuReaction (reactionBoost fired)])) ∧
      (v.pending = none → v.action = some .escalate →
        handle (.ruOffer c) s =
          ({ s with slots := ended },
           .ctEscalateStep c :: (if v.count = 1 then [.ctRaise (spentRaise k)] else [])))) ∧
  (∀ (s : State) (c : Code), TableSound s.table →
    ((∀ q ∈ s.table, q.code ≠ c) → handle (.ctEscalateStep c) s = (s, [])) ∧
    ∀ q ∈ s.table, q.code = c →
      let next : Cls := match q.cls with
        | .notice => .limit
        | .limit => .shed
        | _ => .trip
      let r : Record :=
        { q with
          cls := next, eff := { q.eff with cap := if next = .trip then some 0 else q.eff.cap }, lastChange := s.uptime
          unread := ⟨true, true⟩ }
      (q.cls = .trip → handle (.ctEscalateStep c) s = (s, [])) ∧
      (q.cls ≠ .trip →
        handle (.ctEscalateStep c) s =
          ((s.ask (some q) r).tabled (replaceRecord r s.table), s.news (replaceRecord r s.table)))) ∧
  ∀ (s : State) (k : Fin 8), s.unsettled = [] → TableSound s.table → (s.slots.get k).sound →
    (s.slots.get k).pending.isSome = true →
    let v := s.slots.get k
    let ended := fun o : SlotOutcome => s.slots.set k
      (if v.count = 1 then
        { bound := none, action := none, loops := none, delay := none, count := 0, pending := none, last := o }
       else { v with count := v.count - 1, pending := none, last := o })
    let spent := if v.count = 1 then [Ev.ctRaise (spentRaise k)] else []
    (v.action = some .coolBoost →
      exec (.coolBoostEnd k) s =
        State.comesTo { s with slots := ended .done }
          ((if reactionBoost s.slots = reactionBoost (ended .done) then []
            else [.cuReaction (reactionBoost (ended .done))]) ++ spent)) ∧
    (v.action = some .autoRetire → ∀ q ∈ s.table, v.bound = some q.code →
      (q.cls = .trip →
        exec (.autoRetireExpiry k) s = State.comesTo { s with slots := ended .refusedClass } spent) ∧
      (q.cls ≠ .trip → q.mode = .level → q.cause = true →
        exec (.autoRetireExpiry k) s = State.comesTo { s with slots := ended .notApplicable } spent) ∧
      (q.cls ≠ .trip → ¬(q.mode = .level ∧ q.cause = true) →
        let table := s.table.filter (fun p => p.code ≠ q.code)
        let slots := cancelSlots q.code (ended .done)
        exec (.autoRetireExpiry k) s =
          State.comesTo { s.tabled table with slots := slots }
            (s.news table ++ boostHandover (ended .done) slots ++ retirementOwner q.code ++
             spentRaises (exhaustedBy q.code (ended .done)) ++ spent)))

/-! ## Envelope -/

/-- SET_DEMAND is refused REFUSED_AUTHORITY on the main link under the key, and otherwise sets D, 16000 at most, answering
D and whether it was clamped (R61). A changed D recomputes the envelope from the inputs it holds: a target at or below C
takes C to it at once and stops the ramp (R71), a higher one leaves C and keeps or starts the ramp (R72); changed shares,
a changed C and demand coming or going are handed on (R62, R79, R80; in the order of log 2). So do a report's temperature
that changes its lane's thermal factor (R65, R66), a lane's entry into or exit from RUNNING that changes the running set
(R63), and a delivery that carries the cap or the excluded lanes (R64, R68); cap_source alone is stored. -/
def Obligations.InputsRecomputeTheEnvelope : Prop :=
  (∀ (s : State) (l : Link) (d : Nat), s.ready l →
     let status : Status := if d ≤ 16000 then .done else .clamped
     (l = .main → s.keyView = true → exec (.setDemand l d) s = .next (s.replies l .refusedAuthority [])) ∧
     (¬(l = .main ∧ s.keyView = true) →
       (min d 16000 = s.eu.demand → exec (.setDemand l d) s = .next (s.replies l status (word (min d 16000)))) ∧
       (min d 16000 ≠ s.eu.demand →
         ∃ e : Envelope, e.sound ∧ e.demand = min d 16000 ∧ e.capEff = s.eu.capEff ∧ e.capSource = s.eu.capSource ∧
           e.running = s.eu.running ∧ e.excluded = s.eu.excluded ∧ e.factor = s.eu.factor ∧
           (e.target ≤ s.eu.commanded → e.commanded = e.target ∧ e.ramp = none) ∧
           (s.eu.commanded < e.target → e.commanded = s.eu.commanded ∧ e.ramp = some (s.eu.ramp.getD 100)) ∧
           exec (.setDemand l d) s =
             s.carriesOut l { s.begun l with eu := e }
               (envelopeHandover s.eu e ++
                (if s.eu.demand = 0 then [.lmDemand true] else if min d 16000 = 0 then [.lmDemand false] else []))
               status (word (min d 16000))))) ∧
  ∀ s : State,
    let recomputes := fun (ev : Ev) (z : Envelope) =>
      ∃ e : Envelope, e.sound ∧ e.demand = z.demand ∧ e.capEff = z.capEff ∧ e.capSource = z.capSource ∧
        e.running = z.running ∧ e.excluded = z.excluded ∧ e.factor = z.factor ∧
        (e.target ≤ z.commanded → e.commanded = e.target ∧ e.ramp = none) ∧
        (z.commanded < e.target → e.commanded = z.commanded ∧ e.ramp = some (z.ramp.getD 100)) ∧
        handle ev s =
          ({ s with eu := e },
           (fourIndices.map (fun n =>
             if s.eu.share.get n = e.share.get n then [] else [Ev.lmShare n (e.share.get n)])).flatten ++
           (if s.eu.commanded = e.commanded then [] else [.cuCommanded e.commanded]))
    (∀ (n : Fin 4) (t : Int),
      let tw := s.setting 3
      let tl := max (s.setting 4) (tw + 50)
      let f : Nat := if t ≤ tw then 64 else if tl ≤ t then 0 else (64 * (tl - t) / (tl - tw)).toNat
      (s.eu.factor.get n = some f → handle (.euTemp n t) s = (s, [])) ∧
      (s.eu.factor.get n ≠ some f →
        recomputes (.euTemp n t) { s.eu with factor := s.eu.factor.set n (some f) })) ∧
    (∀ (n : Fin 4) (running : Bool) (set : LaneSet),
      (∀ k : Fin 4, hasBit set k.val = if k = n then running else hasBit s.eu.running k.val) →
      (set = s.eu.running → handle (.euLane n running) s = (s, [])) ∧
      (set ≠ s.eu.running → recomputes (.euLane n running) { s.eu with running := set })) ∧
    ∀ d : EnvelopeDelivery,
      let z := { s.eu with
        capEff := d.capEff.getD s.eu.capEff, capSource := d.capSource.getD s.eu.capSource
        excluded := d.excluded.getD s.eu.excluded }
      (d.capEff = none → d.excluded = none → handle (.euLimits d) s = ({ s with eu := z }, [])) ∧
      (d.capEff.isSome = true ∨ d.excluded.isSome = true → recomputes (.euLimits d) z)

/-- At a ramp step C becomes the smaller of T and C + ramp_up; the timer stops there or runs another 100 ms, and the shares
follow the new C in proportion to headroom, each at most 1 kW above its floor (R73, R75, R76, R79, R80). -/
def Obligations.RampStepRaisesCommanded : Prop :=
  ∀ s : State, s.unsettled = [] → s.eu.sound → s.eu.ramp.isSome = true →
    ∃ e : Envelope, e.sound ∧
      e = { s.eu with
        commanded := min s.eu.target (s.eu.commanded + (s.setting 1).toNat)
        ramp := if s.eu.target ≤ s.eu.commanded + (s.setting 1).toNat then none else some 100, share := e.share } ∧
      (∀ n : Fin 4, e.commanded * e.headroom.get n / e.total ≤ e.share.get n ∧
        e.share.get n ≤ e.commanded * e.headroom.get n / e.total + 1) ∧
      exec .rampStep s =
        State.comesTo { s with eu := e }
          ((fourIndices.map (fun n =>
             if e.share.get n = s.eu.share.get n then [] else [Ev.lmShare n (e.share.get n)])).flatten ++
           (if e.commanded = s.eu.commanded then [] else [.cuCommanded e.commanded]))

/-! ## Lanes -/

/-- LANE_START checks the number, the key and the state, sets start_flag and evaluates the start condition: not excluded,
supply FULL, the L0 pump RUNNING (R93, R106); a lane that starts goes to PRECHARGE, or to RESETTING where its last report
carries a trip (R94). LANE_STOP clears the flag: RUNNING sheds, SHEDDING takes the reason STOP, PRECHARGE and SYNC go to
OFFLINE, where lanes_auto with demand may start the lane again (R107). Either answers the state after it, and the lane
cooling demand follows (R105). That the demand is formed for all four lanes at this event is the model's choice (log 44).
-/
def Obligations.LaneStartAndStopMoveTheLane : Prop :=
  ∀ (s : State) (l : Link), s.ready l →
    (∀ n : Nat, 4 ≤ n →
      exec (.laneStart l n) s = .next (s.replies l .badValue []) ∧
      exec (.laneStop l n) s = .next (s.replies l .badValue [])) ∧
    ∀ n : Fin 4,
      let x := s.lm.lanes.get n
      let may : Prop := hasBit s.lm.excluded n.val = false ∧ s.lm.supply = .full ∧ s.lm.pump = .running
      let auto : Prop := s.setting 2 = 1 ∧ s.lm.demand = true
      let started := fun y : Lane =>
        if ∃ r, y.report = some r ∧ r.severity = .trip then { y with state := .resetting, timer := some ⟨.reset, 2000⟩ }
        else { y with state := .precharge, timer := some ⟨.precharge, 8000⟩ }
      let becomes := fun (i : Instr) (y : Lane) =>
        exec i s =
          s.carriesOut l ((s.begun l).laned (s.lm.put n y))
            ((if x.state = .running ∧ y.state ≠ .running then [.euLane n false] else []) ++
             s.coolingNews (s.lm.put n y)) .done (named (laneStateIndex y.state))
      (l = .main → s.keyView = true → exec (.laneStart l n.val) s = .next (s.replies l .refusedAuthority [])) ∧
      (¬(l = .main ∧ s.keyView = true) →
        (x.state ≠ .offline → exec (.laneStart l n.val) s = .next (s.replies l .refusedState [])) ∧
        (x.state = .offline → may → becomes (.laneStart l n.val) (started { x with startFlag := true })) ∧
        (x.state = .offline → ¬may → becomes (.laneStart l n.val) { x with startFlag := true })) ∧
      (x.state = .running →
        becomes (.laneStop l n.val)
          { x with
            state := .shedding, startFlag := false, shed := some .stop, timer := some ⟨.shed, 2000⟩, share := 0 }) ∧
      (x.state = .precharge ∨ x.state = .sync →
        let y := { x with state := .offline, startFlag := false, timer := none, shed := none }
        (may → auto → becomes (.laneStop l n.val) (started y)) ∧
        (¬(may ∧ auto) → becomes (.laneStop l n.val) y)) ∧
      (x.state = .shedding → becomes (.laneStop l n.val) { x with startFlag := false, shed := some .stop }) ∧
      (x.state = .offline ∨ x.state = .locked ∨ x.state = .faulted ∨ x.state = .resetting →
        becomes (.laneStop l n.val) { x with startFlag := false })

/-- Every report is answered with the command of its lane's state (R88); an invalid one does nothing else (R87). A valid one
becomes last_report, arms the silence timer at 50 ms (R89), and is taken for its fault fields before its state: a trip
onset (R90) faults the lane, tells the envelope unit of an exit and raises LANE_TRIP, in that order (R91), the warning
is tracked (R92), and then the temperature is handed over and the report acted on (R105). Acted on, an OFFLINE lane goes to
LOCKED while it is excluded (R101) and otherwise has its start evaluated (R93, R94), READY takes PRECHARGE to SYNC (R95),
SYNCED takes SYNC to RUNNING, which the envelope unit is told (R96), a power of 50 kW or less ends a shed (R98), and DOWN
with no fault ends a reset (R100), both in LOCKED or OFFLINE with its start evaluated; nothing else moves the lane. That the
lane cooling demand (R105) is formed for all four lanes at each of these events is the model's choice (log 44). -/
def Obligations.LaneReportsAreTaken : Prop :=
  ∀ (s : State) (n : Fin 4) (bytes : List Byte), s.unsettled = [] →
    let x := s.lm.lanes.get n
    (readReport bytes = none →
      exec (.laneReport n bytes) s =
        .next { s with lm := s.lm.put n { x with
          command := some (match x.state with
            | .offline => ⟨.opened, 0⟩ | .precharge => ⟨.precharge, 0⟩ | .sync => ⟨.sync, 0⟩
            | .running => ⟨.run, x.share⟩ | .shedding => ⟨.run, 0⟩ | .locked => ⟨.opened, 0⟩
            | .faulted => ⟨.opened, 0⟩ | .resetting => ⟨.resetFault, 0⟩) } }) ∧
    (∀ r : Report, readReport bytes = some r →
      let active : Prop := x.state = .precharge ∨ x.state = .sync ∨ x.state = .running ∨ x.state = .shedding
      let onset : Prop := r.severity = .trip ∧
        (active ∨ ¬∃ p, x.report = some p ∧ p.severity = .trip ∧ p.localCode = r.localCode)
      let warning := if r.severity = .warn then some r.localCode else none
      let y := { x with report := some r, silence := some 50, warned := warning }
      let z :=
        if onset ∧ active then { y with state := .faulted, timer := none, shed := none, share := 0 }
        else if onset ∧ x.state = .resetting then { y with state := .faulted, timer := none, shed := none }
        else y
      exec (.laneReport n bytes) s =
        (s.laned (s.lm.put n z)).comesTo
          ((if onset ∧ x.state = .running then [.euLane n false] else []) ++ s.coolingNews (s.lm.put n z) ++
           (if onset then [.ctRaise (laneTripRaise n r.localCode r.detail)] else []) ++
           (if warning = x.warned then []
            else
              (match x.warned with | none => [] | some yy => [.ctAbsent (laneCode n yy)]) ++
              (match warning with | none => [] | some xx => [.ctPresent (laneWarnRaise n xx r.detail)])) ++
           [.euTemp n r.heatsink, .lmAct n, .lmReply n])) ∧
    (∀ r : Report, x.report = some r →
      let auto := s.settingOn 2
      let acts := fun (y : Lane) (entry : List Ev) =>
        handle (.lmAct n) s = (s.laned (s.lm.put n y), entry ++ s.coolingNews (s.lm.put n y))
      (x.state = .offline → hasBit s.lm.excluded n.val = true →
        acts { x with state := .locked, timer := none, shed := none } []) ∧
      (x.state = .offline → hasBit s.lm.excluded n.val = false → acts (s.lm.evaluated auto n x) []) ∧
      (x.state = .precharge →
        acts (if r.laneState = .ready then { x with state := .sync, timer := some ⟨.sync, 3000⟩ } else x) []) ∧
      (x.state = .sync → r.laneState = .synced →
        acts { x with state := .running, timer := none, shed := none } [.euLane n true]) ∧
      (x.state = .sync → r.laneState ≠ .synced → acts x []) ∧
      (x.state = .shedding → acts (if r.power ≤ 50 then s.lm.rested auto n x else x) []) ∧
      (x.state = .resetting →
        acts (if r.laneState = .down ∧ r.severity = .none then s.lm.rested auto n x else x) []) ∧
      (x.state = .running ∨ x.state = .locked ∨ x.state = .faulted → acts x []))

/-- A lane's timers run out: silence raises LANE_SILENT, ends a tracked warning and disarms (R89); a precharge or sync
timeout takes the lane to OFFLINE, then raises its failure, then evaluates the start (R93, R95, R96); a shed ends in
LOCKED while the lane is excluded and otherwise in OFFLINE, where the start is evaluated at once (R93, R94, R98); a reset
timeout takes the lane to FAULTED and raises LANE_RESET_FAIL (R100). That the lane cooling demand (R105) is formed for all
four lanes at each of these expiries is the model's choice (log 44). -/
def Obligations.LaneTimersRunOut : Prop :=
  ∀ (s : State) (n : Fin 4), s.unsettled = [] →
    let x := s.lm.lanes.get n
    let moved := fun (i : Instr) (y : Lane) (evs : List Ev) =>
      exec i s = (s.laned (s.lm.put n y)).comesTo (s.coolingNews (s.lm.put n y) ++ evs)
    (x.silence.isSome = true →
      exec (.laneSilenceExpiry n) s =
        State.comesTo { s with lm := s.lm.put n { x with silence := none, warned := none } }
          (.ctRaise (laneSilentRaise n) ::
            (match x.warned with | none => [] | some yy => [.ctAbsent (laneCode n yy)]))) ∧
    (∀ ms, x.timer = some ⟨.precharge, ms⟩ →
      moved (.prechargeTimeout n) { x with state := .offline, timer := none, shed := none }
        [.ctRaise (prechargeFailRaise n (match x.report with | none => 0 | some r => r.dcVoltage)), .lmEvaluate n]) ∧
    (∀ ms, x.timer = some ⟨.sync, ms⟩ →
      moved (.syncTimeout n) { x with state := .offline, timer := none, shed := none }
        [.ctRaise (syncFailRaise n), .lmEvaluate n]) ∧
    (∀ ms, x.timer = some ⟨.shed, ms⟩ → hasBit s.lm.excluded n.val = true →
      moved (.shedTimeout n) { x with state := .locked, timer := none, shed := none } []) ∧
    (∀ ms, x.timer = some ⟨.shed, ms⟩ → hasBit s.lm.excluded n.val = false →
      moved (.shedTimeout n)
        (s.lm.evaluated (s.settingOn 2) n { x with state := .offline, timer := none, shed := none }) []) ∧
    (x.state = .offline →
      handle (.lmEvaluate n) s =
        (let m := s.lm.put n (s.lm.evaluated (s.settingOn 2) n x)
         (s.laned m, s.coolingNews m))) ∧
    (∀ ms, x.timer = some ⟨.reset, ms⟩ →
      moved (.resetTimeout n) { x with state := .faulted, timer := none, shed := none }
        [.ctRaise (resetFailRaise n)])

/-! ## Wind, heading and twist -/

/-- A valid heading read adds the shortest difference to the twist account, saturating, ends a HEADING_FAULT cause, evaluates
TWIST_LIMIT with its hysteresis and hands heading and twist on (R112, R115); an invalid one freezes the account and reports
HEADING_FAULT once (R113). SET_TWIST is the service link's: it clamps, refuses a step from one limit band to the other, sets
the twist, evaluates TWIST_LIMIT and the unwind request, and then hands ref_heading and the twist on (R114, R124). An UNWIND
is requested where the twist is at or above unwind_start, the wind below unwind_wind_max, no park seen and no UNWIND in the
chain: after a heading read, at a delivery of yaw_park and when an UNWIND has left the chain too (R123). The model's choices:
the absent report owed at a first read (log 14), a full delivery that evaluates no request (log 18), a request that stands
before the twist (log 19), and the heading that SET_TWIST hands on (log 41). -/
def Obligations.HeadingAndTwistAreAccounted : Prop :=
  ∀ s : State,
    let view := fun twist : Int =>
      if s.wh.views.twistLimit then decide (10500 ≤ twist.natAbs) else decide (10800 ≤ twist.natAbs)
    let limit := fun twist : Int =>
      if view twist = s.wh.views.twistLimit then []
      else if view twist then [Ev.ctPresent (twistLimitRaise twist)] else [.ctAbsent twistLimitCode]
    let asks := fun twist : Int =>
      decide ((s.setting 10).toNat ≤ twist.natAbs ∧ s.wh.speed < s.setting 12 ∧ s.wh.parkSeen = false ∧
        s.wh.unwindInChain = false)
    let request := fun twist : Int =>
      if asks twist then [Ev.ymUnwind (s.setting 11) (if 0 < twist then .ccw else .cw)] else []
    handle .whUnwindEval s =
      ({ s with wh := { s.wh with unwindInChain := s.wh.unwindInChain || asks s.wh.twist } }, request s.wh.twist) ∧
    (∀ on : Bool,
      handle (.whPark on false) s = handle .whUnwindEval { s with wh := { s.wh with parkSeen := on } } ∧
      handle (.whPark on true) s = ({ s with wh := { s.wh with parkSeen := on } }, [])) ∧
    handle (.whUnwind false) s = handle .whUnwindEval { s with wh := { s.wh with unwindInChain := false } } ∧
    handle (.whUnwind true) s = ({ s with wh := { s.wh with unwindInChain := true } }, []) ∧
    (s.unsettled = [] → ∀ h : Nat, h < 3600 →
      let twist := match s.wh.refHeading with
        | none => s.wh.twist
        | some r => max (-32767) (min 32767 (s.wh.twist + (((h : Int) - r + 1800) % 3600 - 1800)))
      exec (.headingRead (some h)) s =
        State.comesTo
          { s with wh := { s.wh with
            refHeading := some h, headingOk := true, headingOwed := false, twist := twist
            views := { s.wh.views with headingFault := false, twistLimit := view twist } } }
          ((if s.wh.views.headingFault ∨ s.wh.headingOwed then [.ctAbsent headingFaultCode] else []) ++ limit twist ++
           [.ymHeading (some h) twist, .whUnwindEval])) ∧
    (s.unsettled = [] → ∀ reading : Option Nat, (∀ h, reading = some h → 3600 ≤ h) →
      exec (.headingRead reading) s =
        State.comesTo
          { s with wh := { s.wh with
            headingOk := false, headingOwed := false, views := { s.wh.views with headingFault := true } } }
          (if s.wh.views.headingFault then [] else [.ctPresent (headingFaultRaise (s.wh.refHeading.getD 0))])) ∧
    (s.ready .main → ∀ v : Int, exec (.setTwist .main v) s = .next (s.replies .main .refusedAuthority [])) ∧
    (s.ready .service → ∀ v : Int,
      let twist := max (-12600) (min 12600 v)
      let crosses : Prop := s.wh.views.twistLimit = true ∧ 10500 ≤ twist.natAbs ∧
        (0 < twist ∧ s.wh.twist < 0 ∨ twist < 0 ∧ 0 < s.wh.twist)
      (crosses → exec (.setTwist .service v) s = .next (s.replies .service .refusedState [])) ∧
      (¬crosses →
        exec (.setTwist .service v) s =
          s.carriesOut .service
            { s.begun .service with wh := { s.wh with
              twist := twist, views := { s.wh.views with twistLimit := view twist }
              unwindInChain := s.wh.unwindInChain || asks twist } }
            (limit twist ++ request twist ++ [.ymHeading s.wh.refHeading twist]) (if twist = v then .done else .clamped)
            (signed twist)))

/-- A valid vane sample moves F by an eighth of the difference, truncated toward zero, ends a VANE_FAULT cause, then
evaluates YAW_MISALIGN, hands F over and evaluates the dwell (R116); an invalid one leaves F, clears the dwell and reports
VANE_FAULT once. An anemometer sample moves W by a sixteenth, the count limited to 700, and evaluates STORM with its
hysteresis (R119, R120). While TRACK watches, F at or above track_threshold counts the dwell up, and at track_dwell a move
to heading + F is handed over (R121, R122). YAW_MISALIGN follows |F| with its band, its cap falling 50 kW a tenth from
16000 at 100 to 5000 at 320 (R117), and while its view stays the record's cap is refreshed where the computed one is
lower, or higher by at least 500 (R118). The model's choices: the absent report owed at a first sample (log 14), an angle
outside -1800..1799 as an invalid sample (log 25), and a move that completes the dwell handed over for the yaw motion unit
to take within the same step (log 48). -/
def Obligations.WindSamplesMoveTheFilters : Prop :=
  ∀ s : State, s.unsettled = [] →
    (∀ e : Int, -1800 ≤ e → e ≤ 1799 →
      let f := s.wh.filtered + Int.tdiv (e - s.wh.filtered) 8
      exec (.vaneSample (some e)) s =
        State.comesTo
          { s with wh := { s.wh with
            filtered := f, vaneOk := true, vaneOwed := false, views := { s.wh.views with vaneFault := false } } }
          ((if s.wh.views.vaneFault ∨ s.wh.vaneOwed then [.ctAbsent vaneFaultCode] else []) ++
           [.whMisalign, .ymFiltered f, .whDwell])) ∧
    (∀ reading : Option Int, (∀ e, reading = some e → e < -1800 ∨ 1799 < e) →
      exec (.vaneSample reading) s =
        State.comesTo
          { s with wh := { s.wh with
            vaneOk := false, vaneOwed := false, dwell := 0, views := { s.wh.views with vaneFault := true } } }
          (if s.wh.views.vaneFault then [] else [.ctPresent (vaneFaultRaise s.wh.filtered)])) ∧
    (∀ pulses : Nat,
      let w := s.wh.speed + Int.tdiv (min 700 (pulses : Int) - s.wh.speed) 16
      let storm := if s.wh.views.storm then decide (s.setting 14 ≤ w) else decide (s.setting 13 ≤ w)
      exec (.anemometerSample pulses) s =
        State.comesTo { s with wh := { s.wh with speed := w, views := { s.wh.views with storm := storm } } }
          ((if storm = s.wh.views.storm then []
            else if storm then [.ctPresent (stormRaise w)] else [.ctAbsent stormCode]) ++ [.whUnwindEval])) ∧
    (let f := s.wh.filtered.natAbs
     let cap : Nat := if f ≤ 100 then 16000 else if f < 320 then 16000 - 50 * (f - 100) else 5000
     let old := s.wh.views.misalign
     let view := if old then decide (80 < f) else decide (100 < f)
     handle .whMisalign s =
       ({ s with wh := { s.wh with views := { s.wh.views with misalign := view } } },
        (if view = old then []
         else if view then [.ctPresent (misalignRaise s.wh.filtered cap)] else [.ctAbsent misalignCode]) ++
        (if old = true ∧ view = true ∧
            (∃ q, s.table.find? (fun q => q.code == misalignCode) = some q ∧
              ∃ held, q.eff.cap = some held ∧ (cap < held ∨ held + 500 ≤ cap)) then
           [.ctRefresh misalignCode cap] else []))) ∧
    (let counts : Prop := s.wh.watching = true ∧ (s.setting 6).toNat ≤ s.wh.filtered.natAbs
     (¬counts → handle .whDwell s = ({ s with wh := { s.wh with dwell := 0 } }, [])) ∧
     (counts → s.wh.dwell + 1 < (s.setting 7).toNat →
       handle .whDwell s = ({ s with wh := { s.wh with dwell := s.wh.dwell + 1 } }, [])) ∧
     (counts → (s.setting 7).toNat ≤ s.wh.dwell + 1 →
       handle .whDwell s =
         ({ s with wh := { s.wh with dwell := 0 } },
          match s.wh.headingOk, s.wh.refHeading with
          | true, some h =>
            [.ymMove (((h : Int) + s.wh.filtered) % 3600).toNat (if 0 < s.wh.filtered then .cw else .ccw)]
          | _, _ => [])))

/-! ## Yaw -/

/-- SET_TRACKING is refused on the main link under the key; otherwise it writes setting 5 and the chain follows: TRACK joins
below every other context, alone at the top WATCHING or held, or leaves from wherever it stands (R130, R131, R136).
START_UNWIND is refused REFUSED_IN_CHAIN beside an UNWIND and REFUSED_STATE at or below unwind_stop; otherwise an UNWIND with
the link's origin and that goal is inserted by its priority: at the top HELD or MOVING in the unwinding direction, below
a PARK or SERVICE SUSPENDED. The wind and heading unit is handed the insertion last, and the answer is the UNWIND's
state (R139, with R130 to R133). That a suspended TRACK drops its target and direction is the model's choice (log 22). -/
def Obligations.TrackingAndUnwindRequestsMoveTheChain : Prop :=
  (∀ (s : State) (l : Link) (on : Bool), s.ready l →
    let z := { s.begun l with settings := s.settings.set 4 (if on then 1 else 0) }
    let r := setYaw [] (if on then s.ym.insert z.settings ⟨.track, .auto, .absent, none, .watching⟩
      else s.ym.remove z.settings .track) z
    (l = .main → s.keyView = true → exec (.setTracking l on) s = .next (s.replies l .refusedAuthority [])) ∧
    (¬(l = .main ∧ s.keyView = true) → (on = true ↔ ∃ c ∈ s.ym.chain, c.kind = .track) →
      exec (.setTracking l on) s = .next (z.answered l (s.checkMode l) .done [])) ∧
    (¬(l = .main ∧ s.keyView = true) → ¬(on = true ↔ ∃ c ∈ s.ym.chain, c.kind = .track) →
      exec (.setTracking l on) s = s.carriesOut l r.1 r.2 .done [] ∧
      (s.ym.sound → s.ym.sameInputs r.1.ym ∧
        r.1.ym.chain =
          (if on = false then s.ym.chain.filter (fun c => c.kind ≠ .track)
           else
             s.ym.chain ++
               [⟨.track, .auto, .absent, none,
                 if s.ym.chain ≠ [] then .suspended
                 else if s.ym.hold ∨ s.ym.holdAuto ∨ s.ym.supply = .low then .held else .watching⟩])))) ∧
  (∀ (s : State) (l : Link), s.ready l →
    ((∃ c ∈ s.ym.chain, c.kind = .unwind) → exec (.startUnwind l) s = .next (s.replies l .refusedInChain [])) ∧
    ((∀ c ∈ s.ym.chain, c.kind ≠ .unwind) →
      ((s.ym.twist.natAbs : Int) ≤ s.setting 11 → exec (.startUnwind l) s = .next (s.replies l .refusedState [])) ∧
      (s.setting 11 < (s.ym.twist.natAbs : Int) →
        let d : Dir := if 0 < s.ym.twist then .ccw else .cw
        let below : Prop := ∃ c ∈ s.ym.chain, c.kind = .park ∨ c.kind = .service
        let origin : ContextOrigin := match l with
          | .main => .main
          | .service => .service
        let w := s.ym.insert s.settings ⟨.unwind, origin, .twist (s.setting 11), some d, .moving⟩
        let r := setYaw [] (w.1, w.2 ++ [.whUnwind true]) (s.begun l)
        let st := (r.1.ym.chain.find? (fun c => c.kind == .unwind)).map (fun c => c.state)
        exec (.startUnwind l) s =
          s.carriesOut l r.1 r.2 .done (match st with | none => [] | some q => named (contextStateIndex q)) ∧
        (s.ym.sound → s.ym.sameInputs r.1.ym ∧
          st = some
            (if below then .suspended
             else if s.ym.hold ∨ s.ym.holdAuto ∨ s.ym.supply = .low ∨ s.ym.blocked d then .held else .moving) ∧
          ∀ q, st = some q →
            r.1.ym.chain =
              s.ym.chain.filter (fun c => c.kind ≠ .track) ++
                ⟨.unwind, origin, .twist (s.setting 11), some d, q⟩ ::
                  (s.ym.chain.filter (fun c => c.kind = .track)).map
                    (fun c => if below then c else { c with target := .absent, dir := none, state := .suspended })))))

/-! ## Lanes under the handovers of other blocks -/

/-- What other blocks hand the lane manager moves the lanes. At a delivery of excluded_lanes an included lane leaves
PRECHARGE and SYNC for LOCKED and RUNNING for SHEDDING, an OFFLINE one that has reported is LOCKED, and no other changes
state (R101); a lane no longer included goes from LOCKED to OFFLINE and from FAULTED to RESETTING, and an OFFLINE one has
its start evaluated (R99, R102). A supply that leaves FULL takes PRECHARGE, SYNC, RUNNING and SHEDDING to OFFLINE with
share 0 (R103), an L0 pump that leaves RUNNING takes PRECHARGE and SYNC there (R104), and every change of supply, pump or
demand evaluates the start of the OFFLINE lanes (R62, R93). Exits from RUNNING are told first, then a changed lane cooling
demand (R105); a share is stored (R79). The model's choices: which lanes a delivery looks at (log 29), and that the demand
is formed for all lanes at each of these events (log 44). -/
def Obligations.HandoversMoveTheLanes : Prop :=
  ∀ s : State,
    let auto := s.settingOn 2
    let told := fun (e : Ev) (m : LaneManager) =>
      handle e s = (s.laned m, s.exitNews m ++ s.coolingNews m)
    (∀ (set : LaneSet) (full : Bool), ∃ m : LaneManager,
      told (.lmExcluded set full) m ∧ m = { s.lm with lanes := m.lanes, excluded := set } ∧
      ∀ n : Fin 4,
        let x := s.lm.lanes.get n
        let looked : Prop :=
          full = true ∨ hasBit s.lm.excluded n.val ≠ hasBit set n.val ∨ x.state = .offline ∨ x.state = .faulted
        let locked : Lane := { x with state := .locked, timer := none, shed := none }
        (¬looked → m.lanes.get n = x) ∧
        (looked → hasBit set n.val = true →
          m.lanes.get n =
            match x.state with
            | .offline => if x.report.isSome then locked else x
            | .precharge => locked
            | .sync => locked
            | .running => { x with state := .shedding, shed := some .excluded, timer := some ⟨.shed, 2000⟩, share := 0 }
            | .shedding => { x with shed := some .excluded }
            | _ => x) ∧
        (looked → hasBit set n.val = false →
          m.lanes.get n =
            match x.state with
            | .offline => m.evaluated auto n x
            | .locked => m.evaluated auto n { x with state := .offline, timer := none, shed := none }
            | .faulted => { x with state := .resetting, timer := some ⟨.reset, 2000⟩ }
            | _ => x)) ∧
    handle (.lmSupply s.lm.supply) s = (s, []) ∧
    (∀ st, st ≠ s.lm.supply → ∃ m : LaneManager,
      told (.lmSupply st) m ∧ m = { s.lm with lanes := m.lanes, supply := st } ∧
      ∀ n : Fin 4,
        let x := s.lm.lanes.get n
        let y :=
          if s.lm.supply = .full ∧
              (x.state = .precharge ∨ x.state = .sync ∨ x.state = .running ∨ x.state = .shedding) then
            { x with state := .offline, timer := none, shed := none, share := 0 }
          else x
        m.lanes.get n = if y.state = .offline then m.evaluated auto n y else y) ∧
    handle (.lmPump s.lm.pump) s = (s, []) ∧
    (∀ p, p ≠ s.lm.pump → ∃ m : LaneManager,
      told (.lmPump p) m ∧ m = { s.lm with lanes := m.lanes, pump := p } ∧
      ∀ n : Fin 4,
        let x := s.lm.lanes.get n
        let y :=
          if s.lm.pump = .running ∧ (x.state = .precharge ∨ x.state = .sync) then
            { x with state := .offline, timer := none, shed := none }
          else x
        m.lanes.get n = if y.state = .offline then m.evaluated auto n y else y) ∧
    handle (.lmDemand s.lm.demand) s = (s, []) ∧
    (∃ m : LaneManager,
      told (.lmDemand (!s.lm.demand)) m ∧ m = { s.lm with lanes := m.lanes, demand := !s.lm.demand } ∧
      ∀ n : Fin 4,
        let x := s.lm.lanes.get n
        m.lanes.get n = if x.state = .offline then m.evaluated auto n x else x) ∧
    ∀ (n : Fin 4) (kw : Nat),
      handle (.lmShare n kw) s = ({ s with lm := s.lm.put n { s.lm.lanes.get n with share := kw } }, [])

/-! ## The chain under holds and handovers -/

/-- The chain's own moves. The holds that need no direction, and when a direction is blocked (R132, R133). A context that
becomes the top, or whose holds lift, is evaluated: under a hold it is HELD; TRACK watches, its entry with dwell where it is
new at the top; PARK heads for heading + F - park_offset the shorter way unless it is there; UNWIND unwinds, or leaves at
its goal, the next context being evaluated; SERVICE moves (R131, R137, R138). Insertion and removal keep the order of
priority, a new top suspending the old (R130). A re-evaluation of the holds makes a held top HELD, removes a SERVICE, and
evaluates a HELD top whose holds are gone (R134). The model's choices: what a suspended context drops (log 22), and the
track_threshold that a held TRACK is judged with (log 43). -/
def Obligations.ChainIsEvaluatedAndHeld : Prop :=
  ∀ (st : List Int) (y : Yaw),
    let held := fun k : Kind =>
      hasBit y.held 4 = true ∨ y.supply = .low ∨ (hasBit y.held 3 = true ∧ k ≠ .service)
    let left := fun top : Context =>
      if top.kind = .track ∧ top.state = .watching then [Ev.whWatch .leave] else []
    let rank := fun k : Kind =>
      match k with
      | .service => 4
      | .park => 3
      | .unwind => 2
      | .track => 1
    (∀ k, y.freeHold k = true ↔ held k) ∧
    (y.blocked .cw = true ↔ hasBit y.held 0 = true ∨ 10800 ≤ y.twist) ∧
    (y.blocked .ccw = true ↔ hasBit y.held 1 = true ∨ y.twist ≤ -10800) ∧
    (∀ fresh, evalChain st y fresh [] = ([], [])) ∧
    (∀ (fresh : Bool) (c : Context) (rest : List Context),
      let becomes := fun (q : Context) (evs : List Ev) => evalChain st y fresh (c :: rest) = (q :: rest, evs)
      let watching : Context := { c with target := .absent, dir := none, state := .watching }
      let heads := fun (t : Target) (d : Dir) =>
        { c with target := t, dir := some d, state := if y.blocked d then .held else .moving }
      (c.kind = .service → becomes { c with state := .moving } []) ∧
      (c.kind ≠ .service → held c.kind → becomes { c with state := .held } []) ∧
      (c.kind = .track → ¬held .track → becomes watching [.whWatch (if fresh then .enterDwell else .enterNow)]) ∧
      (c.kind = .park → ¬held .park →
        becomes
          (match y.heading with
           | none => watching
           | some h =>
             let t := ((h : Int) + y.filtered - settingOf st 8) % 3600
             let way := (t - h + 1800) % 3600 - 1800
             if way.natAbs ≤ 5 then watching else heads (.heading t.toNat) (if 0 < way then .cw else .ccw)) []) ∧
      (∀ goal : Int, c.kind = .unwind → c.target = .twist goal → ¬held .unwind →
        (goal < (y.twist.natAbs : Int) → becomes (heads (.twist goal) (if 0 < y.twist then .ccw else .cw)) []) ∧
        ((y.twist.natAbs : Int) ≤ goal →
          evalChain st y fresh (c :: rest) =
            ((evalChain st y false rest).1, .whUnwind false :: (evalChain st y false rest).2)))) ∧
    (∀ c : Context,
      (y.chain = [] →
        y.insert st c = ({ y with chain := (evalChain st y true [c]).1 }, (evalChain st y true [c]).2)) ∧
      (∀ top rest, y.chain = top :: rest → rank top.kind < rank c.kind →
        let under : Context :=
          if top.kind = .track ∨ top.kind = .park then { top with target := .absent, dir := none, state := .suspended }
          else { top with state := .suspended }
        let r := evalChain st y true (c :: under :: rest)
        y.insert st c = ({ y with chain := r.1 }, left top ++ r.2)) ∧
      (∀ above below, y.chain = above ++ below → above ≠ [] → (∀ q ∈ above, rank c.kind ≤ rank q.kind) →
        (∀ q ∈ below.head?, rank q.kind < rank c.kind) →
        y.insert st c = ({ y with chain := above ++ { c with state := .suspended } :: below }, []))) ∧
    (∀ k : Kind,
      let gone := if k = .unwind then [Ev.whUnwind false] else []
      ((∀ c ∈ y.chain, c.kind ≠ k) → y.remove st k = (y, [])) ∧
      (∀ top rest, y.chain = top :: rest →
        (top.kind = k →
          let r := evalChain st y false rest
          y.remove st k = ({ y with chain := r.1 }, left top ++ gone ++ r.2)) ∧
        (top.kind ≠ k → (∃ c ∈ rest, c.kind = k) →
          y.remove st k = ({ y with chain := y.chain.filter (fun c => c.kind ≠ k) }, gone)))) ∧
    (y.chain = [] → y.rehold st = (y, [])) ∧
    ∀ top rest, y.chain = top :: rest →
      let against : Prop := ∃ d, top.dir = some d ∧ y.blocked d = true ∧
        (top.kind = .track → top.state = .held →
          (settingOf st 6).toNat ≤ y.filtered.natAbs ∧ y.blocked (if 0 < y.filtered then .cw else .ccw) = true)
      let holds : Prop := held top.kind ∨ against
      (top.state = .suspended → y.rehold st = (y, [])) ∧
      (top.state = .held → holds → y.rehold st = (y, [])) ∧
      (top.state = .held → ¬holds →
        y.rehold st = ({ y with chain := (evalChain st y false y.chain).1 }, (evalChain st y false y.chain).2)) ∧
      (top.state = .watching ∨ top.state = .moving →
        (¬holds → y.rehold st = (y, [])) ∧
        (holds → top.kind = .service → y.rehold st = y.remove st .service) ∧
        (holds → top.kind ≠ .service →
          y.rehold st = ({ y with chain := { top with state := .held } :: rest }, left top)))

/-- What the other blocks hand the yaw motion unit. A delivery of yaw limits brings a PARK or takes it away with yaw_park
(R137), and it, like a supply state, re-evaluates the holds (R134). A TRACK move is taken by a TRACK that watches and by
nothing else, MOVING or HELD by its direction (R136); an automatic UNWIND joins where none is in the chain (R138). F moves
a PARK that a direction alone holds to a fresh target, a PARK that watches once F is off park_offset by park_threshold,
and re-evaluates the holds of another HELD top (R134, R137). TRACK's entry into WATCHING clears the dwell, and an
immediate one hands a move over at once where |F| has reached track_threshold and the heading is valid (R121, R122), by
the setting as it stands there (the model's choice, log 43). That park_offset acts in the comparison too (log 50), and
that a move is judged by the TRACK as it stands at the handover, whatever comes next (log 48), are the model's choices. -/
def Obligations.YawTakesWhatBlocksHandIt : Prop :=
  ∀ s : State,
    (∀ flags : YawFlags,
      let y := { s.ym with held := flags }
      let p :=
        if hasBit flags 2 = true ∧ ∀ c ∈ s.ym.chain, c.kind ≠ .park then
          y.insert s.settings ⟨.park, .auto, .absent, none, .watching⟩
        else if hasBit flags 2 = false ∧ ∃ c ∈ s.ym.chain, c.kind = .park then y.remove s.settings .park
        else (y, [])
      let q := p.1.rehold s.settings
      handle (.ymLimits flags) s = setYaw [] (q.1, p.2 ++ q.2) s) ∧
    (∀ supply : SupplyState,
      handle (.ymSupply supply) s = setYaw [] (Yaw.rehold s.settings { s.ym with supply := supply }) s) ∧
    (∀ (goal : Int) (d : Dir),
      ((∃ c ∈ s.ym.chain, c.kind = .unwind) → handle (.ymUnwind goal d) s = (s, [])) ∧
      ((∀ c ∈ s.ym.chain, c.kind ≠ .unwind) →
        handle (.ymUnwind goal d) s =
          setYaw [] (s.ym.insert s.settings ⟨.unwind, .auto, .twist goal, some d, .moving⟩) s)) ∧
    (∀ (t : Nat) (d : Dir),
      ((∀ top ∈ s.ym.chain.head?, ¬(top.kind = .track ∧ top.state = .watching)) →
        handle (.ymMove t d) s = (s, [])) ∧
      ∀ top rest, s.ym.chain = top :: rest → top.kind = .track → top.state = .watching →
        handle (.ymMove t d) s =
          setYaw []
            ({ s.ym with
               chain :=
                 { top with
                   target := .heading t, dir := some d, state := if s.ym.blocked d then .held else .moving } :: rest },
             [.whWatch .leave]) s) ∧
    (∀ f : Int,
      let y := { s.ym with filtered := f }
      (s.ym.chain = [] → handle (.ymFiltered f) s = setYaw [] (y, []) s) ∧
      ∀ top rest, s.ym.chain = top :: rest →
        let retargets : Prop := top.kind = .park ∧ top.state = .held ∧ y.heading.isSome = true ∧
          y.freeHold .park = false ∧ ∃ d, top.dir = some d ∧ y.blocked d = true
        let off := f - s.setting 8
        let turns : Prop := top.kind = .park ∧ top.state = .watching ∧ s.setting 9 ≤ (off.natAbs : Int)
        (retargets →
          handle (.ymFiltered f) s =
            setYaw [] ({ y with chain := (evalChain s.settings y false (top :: rest)).1 }, []) s) ∧
        (∀ h, y.heading = some h → turns →
          let t := ((h : Int) + off) % 3600
          let d : Dir := if 0 < (t - h + 1800) % 3600 - 1800 then .cw else .ccw
          handle (.ymFiltered f) s =
            setYaw []
              ({ y with
                 chain :=
                   { top with
                     target := .heading t.toNat, dir := some d, state := if y.blocked d then .held else .moving } :: rest },
               []) s) ∧
        (top.state = .held → ¬retargets → handle (.ymFiltered f) s = setYaw [] (y.rehold s.settings) s) ∧
        (top.state ≠ .held → (y.heading = none ∨ ¬turns) → handle (.ymFiltered f) s = setYaw [] (y, []) s)) ∧
    handle (.whWatch .leave) s = ({ s with wh := { s.wh with watching := false, dwell := 0 } }, []) ∧
    handle (.whWatch .enterDwell) s = ({ s with wh := { s.wh with watching := true, dwell := 0 } }, []) ∧
    handle (.whWatch .enterNow) s =
      ({ s with wh := { s.wh with watching := true, dwell := 0 } },
       match s.wh.headingOk, s.wh.refHeading with
       | true, some h =>
         if (s.setting 6).toNat ≤ s.wh.filtered.natAbs then
           [.ymMove (((h : Int) + s.wh.filtered) % 3600).toNat (if 0 < s.wh.filtered then .cw else .ccw)]
         else []
       | _, _ => [])

/-! ## Service moves, drives and brake -/

/-- YAW_GOTO and YAW_JOG check in order the link, the value, a SERVICE in the chain, the holds with no heading for a GOTO,
arrival, and the direction; what passes puts a SERVICE at the top, the old top SUSPENDED (R140, R130). SERVICE_STOP and
the end of a jog's time remove it and the next context becomes the top (R141, R131). The model's choices: what a suspended
context drops (log 22), and the one yes/no byte of SERVICE_STOP's answer (log 17). -/
def Obligations.ServiceMovesComeAndGo : Prop :=
  ∀ s : State,
    let serves : Prop := ∃ c ∈ s.ym.chain, c.kind = .service
    let barred : Prop := s.ym.hold = true ∨ s.ym.supply = .low
    let under := match s.ym.chain with
      | [] => []
      | top :: rest =>
        { top with
          target := if top.kind = .unwind then top.target else .absent
          dir := if top.kind = .unwind then top.dir else none, state := .suspended } :: rest
    let inserted := fun (i : Instr) (target : Target) (d : Dir) =>
      let r := setYaw [] (s.ym.insert s.settings ⟨.service, .service, target, some d, .moving⟩) (s.begun .service)
      exec i s = s.carriesOut .service r.1 r.2 .done [] ∧
      (s.ym.sound → s.ym.sameInputs r.1.ym ∧
        r.1.ym.chain = ⟨.service, .service, target, some d, .moving⟩ :: under)
    let removed := fun (i : Instr) (z : State) (outcome : State × List Ev → Host.Outcome State Fault Refusal) =>
      let r := setYaw [] (s.ym.remove s.settings .service) z
      exec i s = outcome r ∧
      (s.ym.sound → s.ym.sameInputs r.1.ym ∧ r.1.ym.chain = (evalChain s.settings s.ym false s.ym.chain.tail).1)
    (s.ready .main →
      (∀ h, exec (.yawGoto .main h) s = .next (s.replies .main .refusedAuthority [])) ∧
      (∀ d n, exec (.yawJog .main d n) s = .next (s.replies .main .refusedAuthority [])) ∧
      exec (.serviceStop .main) s = .next (s.replies .main .refusedAuthority [])) ∧
    (s.ready .service →
      (∀ t : Nat, 3599 < t → exec (.yawGoto .service t) s = .next (s.replies .service .badValue [])) ∧
      (∀ (d : Dir) (n : Nat), n = 0 ∨ 60 < n → exec (.yawJog .service d n) s = .next (s.replies .service .badValue [])) ∧
      (∀ t : Nat, t ≤ 3599 → serves → exec (.yawGoto .service t) s = .next (s.replies .service .refusedInChain [])) ∧
      (∀ (d : Dir) (n : Nat), 1 ≤ n → n ≤ 60 → serves →
        exec (.yawJog .service d n) s = .next (s.replies .service .refusedInChain [])) ∧
      (∀ t : Nat, t ≤ 3599 → ¬serves → barred ∨ s.ym.heading = none →
        exec (.yawGoto .service t) s = .next (s.replies .service .refusedState [])) ∧
      (∀ (d : Dir) (n : Nat), 1 ≤ n → n ≤ 60 → ¬serves → barred ∨ s.ym.blocked d = true →
        exec (.yawJog .service d n) s = .next (s.replies .service .refusedState [])) ∧
      (∀ t h : Nat, t ≤ 3599 → ¬serves → ¬barred → s.ym.heading = some h →
        let way := ((t : Int) - h + 1800) % 3600 - 1800
        let d : Dir := if 0 < way then .cw else .ccw
        (way.natAbs ≤ 5 → exec (.yawGoto .service t) s = .next (s.replies .service .done [])) ∧
        (5 < way.natAbs → s.ym.blocked d = true →
          exec (.yawGoto .service t) s = .next (s.replies .service .refusedState [])) ∧
        (5 < way.natAbs → s.ym.blocked d = false → inserted (.yawGoto .service t) (.heading t) d)) ∧
      (∀ (d : Dir) (n : Nat), 1 ≤ n → n ≤ 60 → ¬serves → ¬barred → s.ym.blocked d = false →
        inserted (.yawJog .service d n) (.time (n * 1000)) d) ∧
      (¬serves → exec (.serviceStop .service) s = .next (s.replies .service .done (flag false))) ∧
      (serves →
        removed (.serviceStop .service) (s.begun .service) (fun r => s.carriesOut .service r.1 r.2 .done (flag true)))) ∧
    (s.unsettled = [] → (∃ c ∈ s.ym.chain, c.kind = .service ∧ ∃ ms, c.target = .time ms) →
      removed .yawJogExpiry s (fun r => r.1.comesTo r.2))

/-- DRIVE_ISOLATE and DRIVE_RETURN are the service link's and check the number; a drive isolated stands ISOLATED, a drive
returned with its line clear is healthy again and forgets a DRIVE_FAULT that is gone, an ISOLATED one with its line active
faults and raises it, any other is refused (R144). A read of the fault lines takes the eight lines in turn: it stores the
line, faults a healthy drive whose line is active, raises DRIVE_FAULT where none is outstanding and follows with
YAW_DRIVES_LOW as it changes (R142, R143). The drives and the brake then follow (R142, R146). The retirement of
DRIVE_FAULT(n) forgets the outstanding raise and gives a FAULTED drive with its line clear back (R143). The model's
choices: both requests answer the drive's state (log 17), and the reports of one read come drive by drive (log 23). -/
def Obligations.DrivesLeaveAndJoin : Prop :=
  ∀ s : State,
    (s.ready .main → ∀ n,
      exec (.driveIsolate .main n) s = .next (s.replies .main .refusedAuthority []) ∧
      exec (.driveReturn .main n) s = .next (s.replies .main .refusedAuthority [])) ∧
    (s.ready .service →
      (∀ n : Nat, 8 ≤ n →
        exec (.driveIsolate .service n) s = .next (s.replies .service .badValue []) ∧
        exec (.driveReturn .service n) s = .next (s.replies .service .badValue [])) ∧
      ∀ n : Fin 8,
        let d := s.ym.drives.get n
        let follows := fun (i : Instr) (e : Drive) (raises : List Ev) =>
          let r := setYaw raises ({ s.ym with drives := s.ym.drives.set n e }, []) (s.begun .service)
          exec i s =
            s.carriesOut .service r.1 r.2 .done (named (driveStateIndex (r.1.ym.drives.get n).state))
        follows (.driveIsolate .service n.val) { d with state := .isolated } [] ∧
        (d.line = false → d.state = .isolated ∨ d.state = .faulted →
          follows (.driveReturn .service n.val)
            { d with
              state := .ready
              reported := d.reported && decide (∃ q ∈ s.table, q.code = driveFaultCode n) } []) ∧
        (d.line = true → d.state = .isolated →
          follows (.driveReturn .service n.val) { d with state := .faulted, reported := true }
            [.ctRaise (driveFaultRaise n)]) ∧
        (d.state = .ready ∨ d.state = .running ∨ (d.state = .faulted ∧ d.line = true) →
          exec (.driveReturn .service n.val) s = .next (s.replies .service .refusedState []))) ∧
    (s.unsettled = [] → ∀ lines : BitVec 8,
      let w := eightIndices.foldl (Yaw.readLine lines) (s.ym, [])
      let r := setYaw w.2 (w.1, []) s
      exec (.driveFaultRead lines) s = r.1.comesTo r.2 ∧
      r.1.ym.chain = s.ym.chain ∧ s.ym.sameInputs r.1.ym ∧
      ∀ n : Fin 8,
        let d := s.ym.drives.get n
        let active : Prop := hasBit lines n.val = true
        (r.1.ym.drives.get n).line = hasBit lines n.val ∧
        ((r.1.ym.drives.get n).state =
          if d.state = .isolated then .isolated
          else if active ∨ d.state = .faulted then .faulted
          else if r.1.ym.run.isSome then .running else .ready) ∧
        ((r.1.ym.drives.get n).reported = if active ∧ d.state ≠ .isolated then true else d.reported) ∧
        (Ev.ctRaise (driveFaultRaise n) ∈ r.2 ↔
          active ∧ (d.state = .ready ∨ d.state = .running ∨ (d.state = .faulted ∧ d.reported = false)))) ∧
    (∀ (lines : BitVec 8) (w : Yaw × List Ev) (n : Fin 8),
      let d := w.1.drives.get n
      let active : Prop := hasBit lines n.val = true
      let e : Drive :=
        { line := hasBit lines n.val
          state := if active ∧ (d.state = .ready ∨ d.state = .running) then .faulted else d.state
          reported := if active ∧ d.state ≠ .isolated then true else d.reported }
      let drives := w.1.drives.set n e
      let healthy := (drives.toList.filter (fun q => decide (q.state = .ready ∨ q.state = .running))).length
      Yaw.readLine lines w n =
        ({ w.1 with drives := drives, lowView := decide (healthy < 4) },
         w.2 ++
          (if active ∧ (d.state = .ready ∨ d.state = .running ∨ (d.state = .faulted ∧ d.reported = false)) then
            [.ctRaise (driveFaultRaise n)] else []) ++
          (if w.1.lowView = decide (healthy < 4) then []
           else if healthy < 4 then [.ctPresent (drivesLowRaise healthy)] else [.ctAbsent ⟨3, 3⟩]))) ∧
    ∀ n : Fin 8,
      let d := s.ym.drives.get n
      let e : Drive :=
        { d with reported := false, state := if d.state = .faulted ∧ d.line = false then .ready else d.state }
      handle (.ymDriveRetired n) s = setYaw [] ({ s.ym with drives := s.ym.drives.set n e }, []) s

/-- The brake and the drives follow what the top wants (R142, R145, R146, R148), at every event of the yaw motion unit; a
pressure read moves RELEASING to RELEASED at 20 bar or less and APPLYING to APPLIED at 150 or more (R146); a brake timer
that runs out raises BRAKE_FAIL, a release failure applying afresh (R147); and the reversal settle ends (R148). At a
heading and twist handover a TRACK or PARK that moves with no hold and comes within 5 tenths of its target goes to
WATCHING, a SERVICE GOTO there and an UNWIND at its goal leave the chain (R138, R149), and the stall watch of a run that
goes on starts afresh at 5 tenths of turn and raises YAW_STALL after 20000 ms without (R150). YAW_DRIVES_LOW is reported
as healthy crosses 4 (R142), then TRACK_BLOCKED as a held TRACK or PARK comes to have its direction blocked or no longer
has (R135), both after what the event raises and before what it hands the wind and heading unit. That the view is compared
at the event's end alone, one blocked context taking over from another with no report, is the model's choice (log 47). A
read that reaches RELEASED starts the drives where the top still wants motion, whatever comes next (the model's choice
beside R152, log 42), and where no motion is wanted it starts none and the brake applies. -/
def Obligations.BrakeAndDrivesFollow : Prop :=
  (∀ y : Yaw,
    let z := y.follow
    (y.brake = .applied → y.wants.isSome = true → z.brake = .releasing ∧ z.brakeTimer = some 3000 ∧ z.run = y.run) ∧
    (y.brake = .releasing → y.wants = none → z.brake = .applying ∧ z.brakeTimer = some 3000 ∧ z.run = y.run) ∧
    (y.brake = .released → y.wants = none →
      z.brake = .applying ∧ z.brakeTimer = some 3000 ∧ z.run = none ∧ z.stall = none ∧ z.settle = none) ∧
    (y.brake = .applying ∨ (y.brake = .applied ∧ y.wants = none) ∨ (y.brake = .releasing ∧ y.wants.isSome = true) →
      z.brake = y.brake ∧ z.brakeTimer = y.brakeTimer ∧ z.run = y.run) ∧
    (∀ d, y.brake = .released → y.wants = some d → z.brake = .released ∧ z.brakeTimer = y.brakeTimer ∧
      (y.run = some d → y.blocked d = false → z.run = some d ∧ z.stall = y.stall) ∧
      (y.run = some d.opposite → z.run = none ∧ z.stall = none ∧ z.settle = some ⟨2000, d.opposite⟩) ∧
      (y.run = none → y.settle = none → y.blocked d = false →
        z.run = some d ∧ z.stall = y.heading.map (fun h => ⟨h, 0⟩)) ∧
      (∀ ms, y.run = none → y.settle = some ⟨ms, d⟩ → y.blocked d = false → z.run = some d ∧ z.settle = none) ∧
      (∀ ms, y.run = none → y.settle = some ⟨ms, d.opposite⟩ → z.run = none ∧ z.settle = some ⟨ms, d.opposite⟩) ∧
      (y.blocked d = true → z.run = none)) ∧
    (∀ n : Fin 8,
      (z.drives.get n).state =
        if (y.drives.get n).state = .ready ∨ (y.drives.get n).state = .running then
          (if z.run.isSome then .running else .ready)
        else (y.drives.get n).state)) ∧
  (∀ (raises evs : List Ev) (y : Yaw) (s : State),
    let healthy := (y.drives.toList.filter (fun q => decide (q.state = .ready ∨ q.state = .running))).length
    let stuck : Option Dir :=
      match y.chain with
      | [] => none
      | top :: _ =>
        if (top.kind = .track ∨ top.kind = .park) ∧ top.state = .held then top.dir.filter (fun d => y.blocked d) else none
    setYaw raises (y, evs) s =
      ({ s with ym := { y.follow with lowView := decide (healthy < 4), blockedView := stuck.isSome } },
       raises ++
        (if y.lowView = decide (healthy < 4) then []
         else if healthy < 4 then [.ctPresent (drivesLowRaise healthy)] else [.ctAbsent ⟨3, 3⟩]) ++
        (match y.blockedView, stuck with
         | false, some d => [.ctPresent (trackBlockedRaise d)]
         | true, none => [.ctAbsent ⟨3, 7⟩]
         | _, _ => []) ++ evs)) ∧
  (∀ s : State, s.unsettled = [] →
    let follows := fun (i : Instr) (raises : List Ev) (y : Yaw) =>
      exec i s = (setYaw raises (y, []) s).1.comesTo (setYaw raises (y, []) s).2
    (∀ bar : Nat,
      follows (.brakePressureRead bar) []
        (if s.ym.brake = .releasing ∧ bar ≤ 20 then { s.ym with pressure := bar, brake := .released, brakeTimer := none }
         else if s.ym.brake = .applying ∧ 150 ≤ bar then
           { s.ym with pressure := bar, brake := .applied, brakeTimer := none }
         else { s.ym with pressure := bar })) ∧
    (s.ym.brake = .releasing → s.ym.wants = none → ∀ bar : Nat, bar ≤ 20 →
      let t := (setYaw [] ({ s.ym with pressure := bar, brake := .released, brakeTimer := none }, []) s).1
      t.ym.run = none ∧ t.ym.brake = .applying ∧ t.ym.brakeTimer = some 3000) ∧
    (s.ym.brakeTimer.isSome = true →
      follows .brakeTimerExpiry [.ctRaise (brakeFailRaise s.ym.pressure)]
        (if s.ym.brake = .releasing then { s.ym with brake := .applying, brakeTimer := some 3000, settle := none }
         else { s.ym with brakeTimer := none })) ∧
    (s.ym.settle.isSome = true → follows .settleExpiry [] { s.ym with settle := none })) ∧
  (∀ (s : State) (h : Nat) (twist : Int) (top : Context) (rest : List Context) (d : Dir), s.ym.sound →
    let y := { s.ym with heading := some h, twist := twist }
    s.ym.chain = top :: rest → top.state = .moving → top.dir = some d → y.freeHold top.kind = false →
    y.blocked d = false →
    let near : Prop := ∃ t, top.target = .heading t ∧ (((t : Int) - h + 1800) % 3600 - 1800).natAbs ≤ 5
    let wound : Prop := top.kind = .unwind ∧ ∃ goal, top.target = .twist goal ∧ (twist.natAbs : Int) ≤ goal
    (near → top.kind = .track ∨ top.kind = .park →
      handle (.ymHeading (some h) twist) s =
        setYaw []
          ({ y with chain := { top with target := .absent, dir := none, state := .watching } :: rest },
           if top.kind = .track then [.whWatch .enterDwell] else []) s) ∧
    ((near ∧ top.kind = .service) ∨ wound →
      handle (.ymHeading (some h) twist) s =
        (let w := y.remove s.settings top.kind
         let q := w.1.follow.watchStall
         setYaw q.2 (q.1, w.2) s)) ∧
    (¬near → ¬wound → s.ym.run = some d →
      handle (.ymHeading (some h) twist) s =
        match s.ym.stall with
        | none => setYaw [] ({ y with stall := some ⟨h, 0⟩ }, []) s
        | some w =>
          if 5 ≤ (((h : Int) - w.ref + 1800) % 3600 - 1800).natAbs then setYaw [] ({ y with stall := some ⟨h, 0⟩ }, []) s
          else if 20000 ≤ w.ms then setYaw [.ctRaise (yawStallRaise h)] ({ y with stall := none }, []) s
          else setYaw [] (y, []) s))

/-! ## Cooling -/

/-- A valid sample stores t_out and ends a SENSOR_FAULT cause, an invalid one reports it once; then come derate, demand
and fan (R155). Derate sets the loop factor, the computed cap and the LOOP_HOT view with its 20-tenth band, and refreshes
a record whose cap differs, or escalates it once at the trip temperature (R166 to R168, log 20). The fan law is
feedforward plus error term within fan_min..100, 100 while boosted, 0 while the pump is not RUNNING (R163). An escalation
hands the table SHED and cap 0, or reports the cause present in that class where the table holds no record (R168); after
an invalid sample nothing of the derate moves. That the first sample after a reset also sends the absent reports which
start-up owes is the model's choice (log 14). -/
def Obligations.TemperatureSamplesDerateAndCool : Prop :=
  ∀ (s : State) (l : Fin 3), s.unsettled = [] →
    let x := s.cu.loops.get l
    let warn := max (s.setting (25 + l.val)) (s.setting (22 + l.val) + 50)
    let trip := max (s.setting (28 + l.val)) (warn + 50)
    (∀ t : Int, -400 ≤ t → t ≤ 1500 →
      exec (.temperatureSample l (some t)) s =
        State.comesTo { s with cu := s.cu.put l { x with tOut := some t, sensorOk := true, sensorView := false } }
          ((if x.sensorView ∨ x.owed then [.ctAbsent (sensorFaultCode l)] else []) ++
           [.cuDerate l true, .cuDemand l, .cuFan l])) ∧
    (∀ reading : Option Int, (∀ t, reading = some t → t < -400 ∨ 1500 < t) →
      exec (.temperatureSample l reading) s =
        State.comesTo { s with cu := s.cu.put l { x with sensorOk := false, sensorView := true } }
          ((if x.sensorView then [] else [.ctPresent (sensorFaultRaise l)]) ++
           [.cuDerate l false, .cuDemand l, .cuFan l])) ∧
    (∀ t : Int, x.tOut = some t →
      let f : Nat := if t ≤ warn then 64 else if trip ≤ t then 0 else (64 * (trip - t) / (trip - warn)).toNat
      let hot := if x.hotView then decide (warn - 20 < t) else decide (warn < t)
      let record := s.table.find? (fun q => q.code == loopHotCode l)
      let escalated := x.hotEscalated && record.isSome
      handle (.cuDerate l true) s =
        ({ s with cu := s.cu.put l { x with
            owed := false, factor := f, computedCap := 250 * f, hotView := hot, hotEscalated := escalated } },
         (if hot then (if x.hotView then [] else [.ctPresent (loopHotRaise l t (250 * f))])
          else if x.hotView ∨ x.owed then [.ctAbsent (loopHotCode l)] else []) ++
         (if trip ≤ t then (if escalated then [] else [.cuEscalate l])
          else
            match record with
            | none => []
            | some q =>
              if x.hotView ∧ hot ∧ escalated = false ∧ q.eff.cap ≠ some (250 * f) then
                [.ctRefresh (loopHotCode l) (250 * f)]
              else []))) ∧
    handle (.cuFan l) s =
      (let forward : Int := if l.val = 2 then 0 else ((s.cu.commanded * 25 / 16000 : Nat) : Int)
       let error : Int := match x.tOut with
         | none => 0
         | some t => s.setting (31 + l.val) * (t - s.setting (22 + l.val)) / 10
       let law : Int :=
         if forward + error < s.setting 34 then s.setting 34
         else if 100 < forward + error then 100 else forward + error
       let duty : Nat :=
         if x.pump = .running then (if hasBit s.cu.boost l.val || hasBit s.cu.reaction l.val then 100 else law.toNat)
         else 0
       ({ s with cu := s.cu.put l { x with duty := duty } }, [])) ∧
    handle (.cuDerate l false) s =
      ({ s with cu := s.cu.put l { x with owed := false } }, if x.owed then [.ctAbsent (loopHotCode l)] else []) ∧
    handle (.cuEscalate l) s =
      ({ s with cu := s.cu.put l { x with hotEscalated := true } },
       if (s.table.find? (fun q => q.code == loopHotCode l)).isSome then [.ctEscalateTo (loopHotCode l) .shed 0]
       else [.ctPresent { loopHotRaise l (x.tOut.getD 0) 0 with cls := .shed }])

/-- A flow read is stored; seen in PRIMING it takes the pump to RUNNING with its fan (R159, R165), in RUNNING it clears
the misses, and the third read without flow in a row fails the pump with detail 2 (R160); a prime timeout fails it with
detail 1 (R159). The demand of a loop follows supply, lane cooling demand, C and L1's own temperature (R157), and moves
its pump at each evaluation: OFF to PRIMING with 5000 ms, PRIMING and RUNNING to OFF (R158); a retirement of PUMP_FAIL
lets a FAILED pump go, its demand evaluated at once, and so does a temperature sample that finds a folded failure and no
OVERFLOW record (R161), at the sample's demand step (the model's choice, log 21). A change of boost_loops or of the
reaction boost set takes each running loop whose boosted status changes to duty 100 or to the fan law (R163, R164). That
loop_set and loop_kp act at each of these events as they stand, before the loop's next sample too, is the model's choice
(log 49). A changed L0 pump state is handed to the lane manager before anything is raised (R162). -/
def Obligations.FlowAndPrimingMoveThePump : Prop :=
  ∀ (s : State) (l : Fin 3), s.unsettled = [] →
    let x := s.cu.loops.get l
    let becomes := fun (i : Instr) (y : Loop) (raises : List Ev) =>
      exec i s =
        State.comesTo { s with cu := s.cu.put l y }
          ((if l = 0 ∧ x.pump ≠ y.pump then [.lmPump y.pump] else []) ++ raises)
    (x.pump = .priming →
      becomes (.flowRead l false) { x with flow := false } [] ∧
      becomes (.flowRead l true)
        { x with
          flow := true, pump := .running, prime := none, misses := 0
          duty := if s.cu.boosted l then 100 else fanLaw s.settings l s.cu.commanded x.tOut } []) ∧
    (x.pump = .running →
      becomes (.flowRead l true) { x with flow := true, misses := 0 } [] ∧
      (x.misses < 2 → becomes (.flowRead l false) { x with flow := false, misses := x.misses + 1 } []) ∧
      (2 ≤ x.misses →
        becomes (.flowRead l false)
          { x with flow := false, pump := .failed, prime := none, misses := 0, duty := 0, failFolded := false }
          [.ctRaise (pumpFailRaise l 2)])) ∧
    (x.pump = .off ∨ x.pump = .failed → ∀ seen, becomes (.flowRead l seen) { x with flow := seen } []) ∧
    (x.prime.isSome = true →
      becomes (.primeTimeout l) { x with pump := .failed, prime := none, misses := 0, duty := 0, failFolded := false }
        [.ctRaise (pumpFailRaise l 1)]) ∧
    (let evaluated := fun (y : Loop) (demanded : Bool) =>
       match y.pump, demanded with
       | .off, true => { y with pump := .priming, prime := some 5000, misses := 0 }
       | .priming, false => { y with pump := .off, prime := none }
       | .running, false => { y with pump := .off, misses := 0, duty := 0 }
       | _, _ => y
     let warm : Bool := match (s.cu.loops.get 1).tOut with
       | none => false
       | some t => decide (s.setting 23 < t)
     let asked := fun (u : Cooling) (k : Fin 3) =>
       match k with
       | 0 => u.supply == .full && u.laneDemand
       | 1 => u.supply == .full && (decide (0 < u.commanded) || warm)
       | 2 => u.supply != .low
     let settled := fun (e : Ev) (u : Cooling) =>
       handle e s =
         ({ s with cu := u },
          if u.loops.x0.pump = s.cu.loops.x0.pump then [] else [.lmPump u.loops.x0.pump])
     (∀ yes : Bool,
       let u := { s.cu with laneDemand := yes }
       settled (.cuLaneDemand yes) (u.put 0 (evaluated (u.loops.get 0) (asked u 0)))) ∧
     (∀ kw : Nat,
       let u := { s.cu with commanded := kw }
       settled (.cuCommanded kw) (u.put 1 (evaluated (u.loops.get 1) (asked u 1)))) ∧
     (∀ st : SupplyState,
       let u := { s.cu with supply := st }
       settled (.cuSupply st)
         { u with
           loops := ⟨evaluated u.loops.x0 (asked u 0), evaluated u.loops.x1 (asked u 1),
             evaluated u.loops.x2 (asked u 2)⟩ }) ∧
     settled (.cuPumpRetired l)
       (if x.pump = .failed then s.cu.put l (evaluated { x with pump := .off } (asked s.cu l)) else s.cu) ∧
     (let freed : Prop := x.pump = .failed ∧ x.failFolded = true ∧ ∀ q ∈ s.table, q.code ≠ ⟨0, 1⟩
      settled (.cuDemand l)
        (s.cu.put l
          (if freed then evaluated { x with pump := .off } (asked s.cu l)
           else if l = 1 then evaluated x (asked s.cu 1) else x))) ∧
     (let law := fun (k : Fin 3) =>
        let y := s.cu.loops.get k
        let forward : Int := if k.val = 2 then 0 else ((s.cu.commanded * 25 / 16000 : Nat) : Int)
        let error : Int := match y.tOut with
          | none => 0
          | some t => s.setting (31 + k.val) * (t - s.setting (22 + k.val)) / 10
        let duty : Int :=
          if forward + error < s.setting 34 then s.setting 34
          else if 100 < forward + error then 100 else forward + error
        duty.toNat
      let boosted := fun (u : Cooling) (k : Fin 3) => hasBit u.boost k.val || hasBit u.reaction k.val
      let reboosted := fun (u : Cooling) (k : Fin 3) =>
        let y := s.cu.loops.get k
        if boosted s.cu k = boosted u k then y
        else { y with duty := if y.pump = .running then (if boosted u k then 100 else law k) else 0 }
      ∀ set : LoopSet,
        (let u := { s.cu with boost := set }
         handle (.cuBoost set) s =
           ({ s with cu := { u with loops := ⟨reboosted u 0, reboosted u 1, reboosted u 2⟩ } }, [])) ∧
        (let u := { s.cu with reaction := set }
         handle (.cuReaction set) s =
           ({ s with cu := { u with loops := ⟨reboosted u 0, reboosted u 1, reboosted u 2⟩ } }, []))))

/-! ## Supply, key, silence and settings -/

/-- The supply monitor: a grid-absent event in FULL goes to AUX, or to LOW with the UPS below 20, and elsewhere cancels
the settle; a grid-present event starts the settle at 10000 ms, whose completion goes to FULL (R174, R176); a valid UPS
sample takes AUX to LOW below 20 and LOW to AUX at 30 (R175, R177). A changed state is handed over first, then the changed
views are reported, GRID_LOSS before UPS_LOW (R178). A charge above 100 is an invalid sample by the model's choice (log
25). -/
def Obligations.SupplyMonitorFollowsItsInputs : Prop :=
  ∀ s : State, s.unsettled = [] → s.sm.sound →
    let becomes := fun (i : Instr) (m : Supply) =>
      exec i s =
        State.comesTo { s with sm := m }
          (if m.state = s.sm.state then []
           else
             [.lmSupply m.state, .ymSupply m.state, .cuSupply m.state] ++
             (if s.sm.state = .full then [.ctPresent (gridLossRaise (m.ups.getD 0))]
              else if m.state = .full then [.ctAbsent gridLossCode] else []) ++
             (if m.state = .low then [.ctPresent (upsLowRaise (m.ups.getD 0))]
              else if s.sm.state = .low then [.ctAbsent upsLowCode] else []))
    (∀ present, present = s.sm.grid → exec (.gridRead present) s = .next s) ∧
    (s.sm.grid = false → becomes (.gridRead true) { s.sm with grid := true, settle := some 10000 }) ∧
    (s.sm.grid = true → s.sm.state = .full →
      becomes (.gridRead false)
        { s.sm with grid := false, state := if ∃ p, s.sm.ups = some p ∧ p < 20 then .low else .aux }) ∧
    (s.sm.grid = true → s.sm.state ≠ .full → becomes (.gridRead false) { s.sm with grid := false, settle := none }) ∧
    (s.sm.settle.isSome = true → becomes .gridSettleComplete { s.sm with settle := none, state := .full }) ∧
    (∀ reading : Option Nat, (∀ p, reading = some p → 100 < p) →
      exec (.upsSample reading) s = .next { s with sm := { s.sm with upsOk := false } }) ∧
    (∀ p : Nat, p ≤ 100 →
      becomes (.upsSample (some p))
        { s.sm with
          ups := some p, upsOk := true
          state :=
            if s.sm.state = .aux ∧ p < 20 then .low else if s.sm.state = .low ∧ 30 ≤ p then .aux else s.sm.state })

/-- A read of the key sets the key view and reports SERVICE_LOCK where the view changed, and at the first read after a
reset (R192, log 14). Silence on the main link stops its timer and reports HOST_SILENT once; the next request executed
there restarts the timer and reports the cause absent before its owner serves it (R194). That HOST_SILENT's detail is
silence_timeout as it stands at the expiry, also where it was written while the timer ran, is the model's choice (log 46).
-/
def Obligations.KeyAndSilenceAreWatched : Prop :=
  ∀ s : State, s.unsettled = [] →
    (∀ on : Bool,
      exec (.keySwitchRead on) s =
        State.comesTo { s with keyView := on, keyOwed := false }
          (if s.keyOwed = false ∧ s.keyView = on then []
           else if on then [.ctPresent serviceLockRaise] else [.ctAbsent serviceLockCode])) ∧
    (s.silence.isSome = true →
      exec .silenceExpiry s =
        State.comesTo { s with silence := none, silenceView := true }
          (if s.silenceView then [] else [.ctPresent (hostSilentRaise (s.settingNat 21))])) ∧
    (s.takesFrame .main = true → s.links.main.frame ≠ .receiving → s.silenceView = true →
      ∀ (r : Request) (c : Instr), r.command .main = some c →
      exec c s =
        .next (settle (leftAfter 2) [.ctAbsent hostSilentCode, .lkServe .main r]
          { s.setLink .main { s.links.main with
              frame := .idle, received := [], payload := none, ackSlot := .ack, driven := [] } with
            silence := if s.setting 21 ≤ 0 then none else some ((s.setting 21).toNat * 1000)
            silenceView := false }))

/-- SET_SETTING refuses an unknown id, and setting 5 on the main link under the key; it clamps the value to the setting's
range and then to its bound on another setting, stores it, lowers storm_release under storm_wind and unwind_stop under
unwind_start, and answers the value stored; a value already held moves nothing. Setting 5 moves the chain and setting 34
the fans of the running loops that are not boosted (R165, R191, R193, R202), by loop_set and loop_kp as they stand (the
model's choice, log 49). -/
def Obligations.SetSettingStoresAndActs : Prop :=
  ∀ (s : State) (l : Link) (id : Nat) (value : Int), s.ready l →
    (id = 0 ∨ 38 < id → exec (.setSetting l id value) s = .next (s.replies l .badValue [])) ∧
    (1 ≤ id → id ≤ 38 →
      let lo := (settingRange id).1
      let hi := (settingRange id).2
      let ranged := if value < lo then lo else if hi < value then hi else value
      let v : Int := match id with
        | 4 => max ranged (s.setting 3 + 50)
        | 11 => min ranged (s.setting 10 - 1800)
        | 14 => min ranged (s.setting 13 - 20)
        | 25 => max ranged (s.setting 22 + 50)
        | 26 => max ranged (s.setting 23 + 50)
        | 27 => max ranged (s.setting 24 + 50)
        | 28 => max ranged (s.setting 25 + 50)
        | 29 => max ranged (s.setting 26 + 50)
        | 30 => max ranged (s.setting 27 + 50)
        | _ => ranged
      let status : Status := if v = value then .done else .clamped
      let st := s.settings.set (id - 1) v
      let stored := match id with
        | 13 => st.set 13 (min (s.setting 14) (v - 20))
        | 10 => st.set 10 (min (s.setting 11) (v - 1800))
        | _ => st
      (id = 5 → l = .main → s.keyView = true →
        exec (.setSetting l id value) s = .next (s.replies l .refusedAuthority [])) ∧
      (¬(id = 5 ∧ l = .main ∧ s.keyView = true) →
        (v = s.setting id → exec (.setSetting l id value) s = .next (s.replies l status (signed v))) ∧
        (v ≠ s.setting id → id ≠ 5 → id ≠ 34 →
          exec (.setSetting l id value) s =
            .next (({ s.begun l with settings := stored }).answered l (s.checkMode l) status (signed v))) ∧
        (v ≠ s.setting id → id = 34 →
          ∃ u : Cooling,
            exec (.setSetting l id value) s =
              .next (({ s.begun l with settings := stored, cu := u }).answered l (s.checkMode l) status (signed v)) ∧
            u = { s.cu with loops := u.loops } ∧
            ∀ k : Fin 3, u.loops.get k =
              { s.cu.loops.get k with
                duty :=
                  if (s.cu.loops.get k).pump = .running then
                    (if s.cu.boosted k then 100 else fanLaw stored k s.cu.commanded (s.cu.loops.get k).tOut)
                  else 0 }) ∧
        (v ≠ s.setting id → id = 5 →
          let w := followTracking (v == 1) { s.begun l with settings := stored }
          exec (.setSetting l id value) s = s.carriesOut l w.1 w.2 status (signed v))))

end
end

