-- ==== Sys2Proof/Laws/Cascade.lean ====
section
/-! SUPPORT. What the run of a command's events does: how a queue is taken, and how what every event keeps is kept by a
whole command and by a step. -/

namespace Sys2Proof.Machine

/-! ## The queue -/

/-- An event put behind another adds itself and nothing else. -/
theorem mem_waitBehind {e x : Ev} : ∀ {q r : List Ev}, waitBehind e q = some r → x ∈ r → x = e ∨ x ∈ q := by
  intro q
  induction q with
  | nil => intro r h; simp [waitBehind] at h
  | cons a rest ih =>
    intro r h hx
    simp only [waitBehind] at h
    split at h
    · rename_i r' hr
      cases h
      rcases List.mem_cons.mp hx with rfl | hx
      · exact .inr (by simp)
      · rcases ih hr hx with h | h
        · exact .inl h
        · exact .inr (by simp [h])
    · split at h
      · cases h
        simp only [List.mem_cons] at hx ⊢
        tauto
      · cases h

/-- Posting one event adds it and nothing else. -/
theorem mem_postOne {w : List Ev × List Ev} {e x : Ev} (h : x ∈ (postOne w e).1 ∨ x ∈ (postOne w e).2) :
    x = e ∨ x ∈ w.1 ∨ x ∈ w.2 := by
  unfold postOne at h
  split at h
  · rename_i r hr
    rcases h with h | h
    · exact .inr (.inl h)
    · rcases mem_waitBehind hr h with h | h
      · exact .inl h
      · exact .inr (.inr h)
  · simp only [List.mem_append, List.mem_singleton] at h
    tauto

theorem mem_foldl_postOne {x : Ev} : ∀ (evs : List Ev) (w : List Ev × List Ev),
    x ∈ (evs.foldl postOne w).1 ∨ x ∈ (evs.foldl postOne w).2 → x ∈ evs ∨ x ∈ w.1 ∨ x ∈ w.2 := by
  intro evs
  induction evs with
  | nil => intro w h; exact .inr h
  | cons e rest ih =>
    intro w h
    rcases ih _ h with h | h
    · exact .inl (by simp [h])
    · rcases mem_postOne h with h | h
      · exact .inl (by simp [h])
      · exact .inr h

/-- Every event of a queue after a posting was handed on or stood there before. -/
theorem mem_post {x : Ev} {evs rest : List Ev} (h : x ∈ post evs rest) : x ∈ evs ∨ x ∈ rest := by
  simp only [post, List.mem_append] at h
  have := mem_foldl_postOne evs ([], rest) h
  simpa using this

theorem foldl_postOne_nil (evs front : List Ev) : evs.foldl postOne (front, []) = (front ++ evs, []) := by
  induction evs generalizing front with
  | nil => simp
  | cons e rest ih => simp [postOne, waitBehind, ih]

/-- With nothing waiting, what is handed on is taken in its order. -/
@[simp] theorem post_nil (evs : List Ev) : post evs [] = evs := by
  simp [post, foldl_postOne_nil]

/-- With nothing handed on, the queue stays. -/
@[simp] theorem nil_post (rest : List Ev) : post [] rest = rest := rfl

/-! ## Taking events -/

@[simp] theorem settle_nil (n : Nat) (s : State) : settle n [] s = s := by cases n <;> rfl

theorem settle_cons (n : Nat) (e : Ev) (rest : List Ev) (s : State) :
    settle (n + 1) (e :: rest) s = settle n (post (handle e s).2 rest) (handle e s).1 := rfl

/-- What every event keeps, events that are all of a closed kind keep. -/
theorem settle_keeps {P : State → Prop} {Q : Ev → Prop}
    (left : ∀ s evs, P s → (∀ e ∈ evs, Q e) → P { s with unsettled := evs })
    (one : ∀ e s, Q e → P s → P (handle e s).1 ∧ ∀ x ∈ (handle e s).2, Q x) :
    ∀ n evs s, (∀ e ∈ evs, Q e) → P s → P (settle n evs s) := by
  intro n
  induction n with
  | zero =>
    intro evs s hq hp
    cases evs with
    | nil => simpa using hp
    | cons e rest => exact left _ _ hp hq
  | succ n ih =>
    intro evs s hq hp
    cases evs with
    | nil => simpa using hp
    | cons e rest =>
      have h := one e s (hq e (by simp)) hp
      rw [settle_cons]
      refine ih _ _ (fun x hx => ?_) h.1
      rcases mem_post hx with hx | hx
      · exact h.2 x hx
      · exact hq x (by simp [hx])

/-- What every event keeps, whatever it is, a run of events keeps. -/
theorem settle_keeps_all {P : State → Prop} (left : ∀ s evs, P s → P { s with unsettled := evs })
    (one : ∀ e s, P s → P (handle e s).1) (n : Nat) (evs : List Ev) (s : State) (h : P s) : P (settle n evs s) :=
  settle_keeps (Q := fun _ => True) (fun s evs hp _ => left s evs hp) (fun e s _ hp => ⟨one e s hp, fun _ _ => trivial⟩)
    n evs s (fun _ _ => trivial) h

theorem State.unsettled_nil {s : State} (h : s.unsettled = []) : { s with unsettled := [] } = s := by
  cases s; cases h; rfl

/-- A command's one event, in a part that has nothing left over: its effect, then what it hands on. -/
theorem run_one {s : State} (h : s.unsettled = []) (e : Ev) :
    run [e] s = .next (settle (leftAfter 1) (handle e s).2 (handle e s).1) := by
  have hb : Config.cascadeBound = leftAfter 1 + 1 := rfl
  simp only [run, settled, h, List.nil_append, State.unsettled_nil h]
  rw [hb, settle_cons, post_nil]

/-- A command whose one event hands nothing on. -/
theorem run_quiet {s : State} (h : s.unsettled = []) {e : Ev} {t : State} (he : handle e s = (t, [])) :
    run [e] s = .next t := by
  rw [run_one h, he]; simp

/-- One event of a queue on which no other waits. -/
theorem settle_one (n : Nat) (e : Ev) (s : State) :
    settle (n + 1) [e] s = settle n (handle e s).2 (handle e s).1 := by
  rw [settle_cons, post_nil]

/-! ## Requests -/

theorem begun_service (s : State) :
    s.begun .service = s.setLink .service { (s.links.get .service).ends with ackSlot := .ack, driven := [] } := rfl

/-- A request frame that is executed: the owner serves it from `State.begun`, and its answer is stored before what it
hands on is taken (R189, R194). -/
theorem run_request {s : State} {l : Link} (h : s.ready l) {r : Request} (hr : ∀ straps, r ≠ .warmReset straps) :
    run [.lkRequest l r] s =
      .next (settle (leftAfter 3) (serve l r (s.begun l)).events
        ((serve l r (s.begun l)).state.answered l ((s.begun l).checkMode l) (serve l r (s.begun l)).answer.status
          (serve l r (s.begun l)).answer.data)) := by
  obtain ⟨ht, hf, hu, hm⟩ := h
  rw [run_one hu]
  have h1 : handle (.lkRequest l r) s =
      (s.setLink l { (s.links.get l).ends with ackSlot := .ack, driven := [] }, [.lkBegin l r]) := by
    simp [handle, takeRequest, ht, hf]
  rw [h1]
  have hb : leftAfter 1 = leftAfter 2 + 1 := rfl
  have hc : leftAfter 2 = leftAfter 3 + 1 := rfl
  rw [hb, settle_one]
  have h2 : handle (.lkBegin l r) (s.setLink l { (s.links.get l).ends with ackSlot := .ack, driven := [] }) =
      (s.begun l, [.lkServe l r]) := by
    cases l with
    | service => rfl
    | main =>
      have := hm rfl
      simp [handle, takeBegin, State.setLink, this, State.begun, LinkUnit.ends]
  rw [h2, hc, settle_one]
  have h3 : handle (.lkServe l r) (s.begun l) =
      (storeResponse l ((s.begun l).checkMode l) (serve l r (s.begun l)).answer (serve l r (s.begun l)).state,
        (serve l r (s.begun l)).events) := by
    simp only [handle, takeServe]
  rw [h3]
  rfl

/-! ## What a command and a step keep -/

/-- The event that a command sets off. -/
def firstEvent : Instr → Ev
  | .coldPowerUp straps => .coldStart straps
  | .resetLineAssert => .lineAssert
  | .resetLineRelease straps => .lineRelease straps
  | .warmReset l straps => .lkRequest l (.warmReset straps)
  | .startCondition l addr parityGood bytes => .lkStart l addr parityGood bytes
  | .framePoison l byte parityGood => .lkByte l byte parityGood
  | .requestFrameFault l => .lkStop l
  | .responseFrame l clocked => .lkRead l clocked
  | .linkReset l => .lkReset l
  | .attentionFrame l => .lkAttention l
  | .attentionSlot l ack => .lkAttentionSlot l ack
  | .payloadComplete l => .lkPayloadDone l
  | .lookup l code => .lkRequest l (.lookup code)
  | .scan l start filter => .lkRequest l (.scan start filter)
  | .raise l code cls detail cap lanes yaw loops => .lkRequest l (.raise code cls detail cap lanes yaw loops)
  | .amend l code cap lanes yaw loops => .lkRequest l (.amend code cap lanes yaw loops)
  | .ack l code => .lkRequest l (.ack code)
  | .retire l code => .lkRequest l (.retire code)
  | .bind l slot code action loops delay count => .lkRequest l (.bind slot code action loops delay count)
  | .unbind l slot => .lkRequest l (.unbind slot)
  | .readSlot l slot => .lkRequest l (.readSlot slot)
  | .setDemand l demand => .lkRequest l (.setDemand demand)
  | .readEnvelope l => .lkRequest l .readEnvelope
  | .laneStart l lane => .lkRequest l (.laneStart lane)
  | .laneStop l lane => .lkRequest l (.laneStop lane)
  | .readLane l lane => .lkRequest l (.readLane lane)
  | .setTracking l on => .lkRequest l (.setTracking on)
  | .startUnwind l => .lkRequest l .startUnwind
  | .yawGoto l heading => .lkRequest l (.yawGoto heading)
  | .yawJog l dir seconds => .lkRequest l (.yawJog dir seconds)
  | .serviceStop l => .lkRequest l .serviceStop
  | .readYaw l => .lkRequest l .readYaw
  | .driveIsolate l drive => .lkRequest l (.driveIsolate drive)
  | .driveReturn l drive => .lkRequest l (.driveReturn drive)
  | .setTwist l twist => .lkRequest l (.setTwist twist)
  | .readLoop l loop => .lkRequest l (.readLoop loop)
  | .setSetting l id value => .lkRequest l (.setSetting id value)
  | .getSetting l id => .lkRequest l (.getSetting id)
  | .readSupply l => .lkRequest l .readSupply
  | .ident l => .lkRequest l .ident
  | .holdoffExpiry code => .ctHoldoffEnd code
  | .autoRetireExpiry slot => .ruAutoRetire slot
  | .coolBoostEnd slot => .ruBoostEnd slot
  | .rampStep => .euRampStep
  | .laneReport lane bytes => .lmReport lane bytes
  | .laneSilenceExpiry lane => .lmSilence lane
  | .prechargeTimeout lane => .lmTimeout lane .precharge
  | .syncTimeout lane => .lmTimeout lane .sync
  | .shedTimeout lane => .lmTimeout lane .shed
  | .resetTimeout lane => .lmTimeout lane .reset
  | .headingRead reading => .whHeading reading
  | .vaneSample reading => .whVane reading
  | .anemometerSample pulses => .whAnemometer pulses
  | .yawJogExpiry => .ymJogEnd
  | .driveFaultRead lines => .ymFaultLines lines
  | .brakePressureRead bar => .ymPressure bar
  | .brakeTimerExpiry => .ymBrakeTimer
  | .settleExpiry => .ymSettleEnd
  | .temperatureSample loop reading => .cuSample loop reading
  | .flowRead loop seen => .cuFlow loop seen
  | .primeTimeout loop => .cuPrimeTimeout loop
  | .gridRead present => .smGrid present
  | .gridSettleComplete => .smSettled
  | .upsSample reading => .smUps reading
  | .keySwitchRead on => .lkKey on
  | .silenceExpiry => .lkSilence
  | .poisonedFrameStop l => .lkPoisonStop l
  | .attentionPayloadCutShort l => .lkPayloadCut l

/-- Every command is the run of its one event; COLD_POWER_UP first drops what an earlier command left. -/
theorem exec_eq (c : Instr) (s : State) :
    exec c s = run [firstEvent c] (match c with | .coldPowerUp _ => { s with unsettled := [] } | _ => s) := by
  cases c <;> rfl

/-- What every event of a closed kind keeps, a run of such events keeps. -/
theorem run_keeps {P : State → Prop} {Q : Ev → Prop}
    (left : ∀ s evs, P s → (∀ e ∈ evs, Q e) → P { s with unsettled := evs })
    (one : ∀ e s, Q e → P s → P (handle e s).1 ∧ ∀ x ∈ (handle e s).2, Q x)
    {evs : List Ev} {s t : State} (h : run evs s = .next t) (hu : ∀ e ∈ s.unsettled, Q e) (hq : ∀ e ∈ evs, Q e)
    (hp : P s) : P t := by
  simp only [run, Host.Outcome.next.injEq] at h
  subst h
  refine settle_keeps left one _ _ _ (fun e he => ?_) (left _ _ hp (by simp))
  rcases List.mem_append.mp he with he | he
  · exact hu e he
  · exact hq e he

/-- What every event, the clock and the queue keep, a step keeps. -/
theorem step_keeps {P : State → Prop} (left : ∀ s evs, P s → P { s with unsettled := evs })
    (one : ∀ e s, P s → P (handle e s).1) (queue : ∀ s cs, P s → P { s with pending := cs })
    (clock : ∀ s n, P s → P { s.advance with arrivals := n }) {s t : State} (h : step s = .next t) (hp : P s) : P t := by
  have hrun : ∀ {evs : List Ev} {z w : State}, run evs z = .next w → P z → P w := fun hr hz =>
    run_keeps (Q := fun _ => True) (fun s evs hp _ => left s evs hp) (fun e s _ hp => ⟨one e s hp, fun _ _ => trivial⟩)
      hr (fun _ _ => trivial) (fun _ _ => trivial) hz
  unfold step at h
  split at h
  · exact hrun h (clock _ _ hp)
  · rw [exec_eq] at h
    refine hrun h ?_
    split
    · exact left _ _ (queue _ _ hp)
    · exact queue _ _ hp

end Sys2Proof.Machine
end

