-- ==== Sys2Proof/Laws/Table.lean ====
section
/-! SUPPORT. What each operation on the condition table and the reaction slots touches, and how it moves the table and the
limits. -/

namespace Sys2Proof.Machine

/-! ## Links asked for attention -/

/-- Asking for attention touches the links alone. -/
theorem askLink_eq (s : State) (l : Link) (b : Option Record) (a : Record) :
    s.askLink l b a = { s with links := (s.askLink l b a).links } := by
  unfold State.askLink; split <;> rfl

theorem ask_eq (s : State) (b : Option Record) (a : Record) : s.ask b a = { s with links := (s.ask b a).links } := by
  unfold State.ask
  rw [askLink_eq (s.askLink .main b a), askLink_eq s .main]

theorem askRetained_eq (kept : List Record) (s : State) :
    askRetained kept s = { s with links := (askRetained kept s).links } := by
  unfold askRetained
  induction kept generalizing s with
  | nil => rfl
  | cons q rest ih =>
    simp only [List.foldl_cons]
    rw [ih, ask_eq]

/-- A link unit apart from what an attention request writes. -/
def LinkUnit.unasked (u : LinkUnit) : LinkUnit := { u with attention := false, late := false }

/-- What a state keeps when the table changes: everything but the table, the limits, the attention marks of the links,
the slots and the note of a folded pump failure. -/
def State.apartFromTable (s : State) : State :=
  { s with
    table := [], limits := Limits.initial, links := ⟨s.links.main.unasked, s.links.service.unasked⟩
    slots := State.powerOn.slots
    cu := { s.cu with
      loops :=
        ⟨{ s.cu.loops.x0 with failFolded := false }, { s.cu.loops.x1 with failFolded := false },
         { s.cu.loops.x2 with failFolded := false }⟩ } }

theorem askLink_apart (s : State) (l : Link) (b : Option Record) (a : Record) :
    (s.askLink l b a).apartFromTable = s.apartFromTable := by
  unfold State.askLink
  split
  · cases l <;> rfl
  · rfl

theorem ask_apart (s : State) (b : Option Record) (a : Record) : (s.ask b a).apartFromTable = s.apartFromTable := by
  unfold State.ask
  rw [askLink_apart, askLink_apart]

/-- A part of an event that moves only the table, the limits, attention marks, the slots and a folded failure's note. -/
def Act.atTable (f : Act) : Prop := ∀ s, (f s).1.apartFromTable = s.apartFromTable

theorem Act.atTable.andThen {f g : Act} (hf : f.atTable) (hg : g.atTable) : (Act.andThen f g).atTable := fun s => by
  simp only [Act.andThen]
  rw [hg, hf]

theorem Act.atTable_all {fs : List Act} (h : ∀ f ∈ fs, f.atTable) : (Act.all fs).atTable := by
  induction fs with
  | nil => intro s; rfl
  | cons f rest ih => exact (h f (by simp)).andThen (ih fun g hg => h g (by simp [hg]))

theorem Act.atTable_emit (evs : List Ev) : (Act.emit evs).atTable := fun _ => rfl

theorem withTable_atTable (t : List Record) : (State.withTable t).atTable := fun _ => rfl

theorem changeRecord_atTable (b a : Record) : (changeRecord b a).atTable := fun s => by
  exact ask_apart s (some b) a

theorem placeRecord_atTable (t : List Record) (r : Record) : (placeRecord t r).atTable := fun s => by
  exact ask_apart s none r

theorem cancelFor_atTable (c : Code) : (cancelFor c).atTable := fun _ => rfl

theorem offer_atTable (c : Code) : (offer c).atTable := fun _ => rfl

theorem noteFolded_apart (c : Code) (s : State) : (noteFolded c s).apartFromTable = s.apartFromTable := by
  unfold noteFolded
  split
  · rfl
  · rename_i l _
    match l with
    | 0 => rfl
    | 1 => rfl
    | 2 => rfl

theorem reRaise_atTable (r : Raise) (q : Record) : (reRaise r q).atTable := fun s =>
  (changeRecord_atTable _ _).andThen (offer_atTable _) s

theorem createIn_atTable (n : Nat) (r : Raise) : (createIn n r).atTable := fun s =>
  (placeRecord_atTable _ _).andThen (offer_atTable _) s

theorem createByEviction_atTable (v : Record) (r : Raise) : (createByEviction v r).atTable := fun s => by
  unfold createByEviction
  exact Act.atTable_all (by
    intro f hf
    simp only [List.mem_cons, List.not_mem_nil, or_false] at hf
    rcases hf with rfl | rfl | rfl | rfl
    · exact placeRecord_atTable _ _
    · exact cancelFor_atTable _
    · exact offer_atTable _
    · exact Act.atTable_emit _) s

theorem foldRaise_atTable (r : Raise) : (foldRaise r).atTable := fun s => by
  unfold foldRaise
  dsimp only
  split
  · rw [(changeRecord_atTable _ _).andThen (offer_atTable _), noteFolded_apart]
  · rw [(placeRecord_atTable _ _).andThen (offer_atTable _), noteFolded_apart]

/-- A raise touches the table, the limits, the links, the slots and a folded failure's note alone. -/
theorem takeRaise_atTable (r : Raise) : (takeRaise r).atTable := fun s => by
  unfold takeRaise
  split
  · exact reRaise_atTable _ _ s
  · split
    · exact createIn_atTable _ _ s
    · split
      · exact createByEviction_atTable _ _ s
      · split
        · rfl
        · exact foldRaise_atTable _ s

theorem takePresent_atTable (r : Raise) : (takePresent r).atTable := fun s => by
  unfold takePresent
  split
  · exact takeRaise_atTable _ s
  · split
    · rfl
    · exact takeRaise_atTable _ s

theorem takeAbsent_atTable (c : Code) : (takeAbsent c).atTable := fun s => by
  unfold takeAbsent
  split
  · rfl
  · split
    · exact changeRecord_atTable _ _ s
    · rfl

theorem takeRefresh_atTable (c : Code) (cap : Nat) : (takeRefresh c cap).atTable := fun s => by
  unfold takeRefresh
  split
  · rfl
  · split
    · rfl
    · exact changeRecord_atTable _ _ s

theorem takeEscalation_atTable (c : Code) (f : Cls → Cls) (cap : Option Nat) : (takeEscalation c f cap).atTable :=
  fun s => by
    unfold takeEscalation
    split
    · rfl
    · dsimp only
      split
      · rfl
      · exact changeRecord_atTable _ _ s

theorem retireRecord_atTable (c : Code) : (retireRecord c).atTable := fun s => by
  unfold retireRecord
  exact Act.atTable_all (by
    intro f hf
    simp only [List.mem_cons, List.not_mem_nil, or_false] at hf
    rcases hf with rfl | rfl | rfl | rfl
    · exact withTable_atTable _
    · exact cancelFor_atTable _
    · exact Act.atTable_emit _
    · exact Act.atTable_emit _) s

theorem takeHoldoffEnd_atTable (c : Code) : (takeHoldoffEnd c).atTable := fun s => by
  unfold takeHoldoffEnd
  split
  · rfl
  · split
    · exact retireRecord_atTable _ s
    · rfl

theorem setSlot_atTable (k : Fin 8) (v : Slot) : (setSlot k v).atTable := fun _ => rfl

theorem spentIf_atTable (k : Fin 8) (v : Slot) : (spentIf k v).atTable := Act.atTable_emit _

theorem takeOffer_atTable (c : Code) : (takeOffer c).atTable := fun s => by
  unfold takeOffer
  split
  · rfl
  · split
    · rfl
    · unfold fire
      dsimp only
      split
      · rfl
      · rfl
      · rfl
      · exact ((Act.atTable_emit _).andThen ((setSlot_atTable _ _).andThen ((spentIf_atTable _ _).andThen
          (fun _ => rfl)))) s

theorem takeAutoRetire_atTable (k : Fin 8) : (takeAutoRetire k).atTable := fun s => by
  unfold takeAutoRetire
  dsimp only
  split
  · split
    · exact ((setSlot_atTable _ _).andThen ((retireRecord_atTable _).andThen ((spentIf_atTable _ _).andThen
        (fun _ => rfl)))) s
    · exact ((setSlot_atTable _ _).andThen ((spentIf_atTable _ _).andThen (fun _ => rfl))) s
  · rfl

theorem takeBoostEnd_atTable (k : Fin 8) : (takeBoostEnd k).atTable := fun s => by
  unfold takeBoostEnd
  dsimp only
  split
  · exact ((setSlot_atTable _ _).andThen ((spentIf_atTable _ _).andThen (fun _ => rfl))) s
  · rfl

end Sys2Proof.Machine
end

