-- ==== Sys2Proof/Laws/Blocks.lean ====
section
/-! SUPPORT. Which block's state each internal event and each request touches. -/

namespace Sys2Proof.Machine

/-- The parts of the state that events touch one at a time. -/
inductive Part where
  | table
  | eu
  | lm
  | wh
  | ym
  | cu
  | sm
  | links
  | settings
  | nothing
  | everything
deriving DecidableEq, Repr

/-- What stays of the state when only one part of it is touched. -/
def touched (p : Part) (s t : State) : Prop :=
  match p with
  | .table => t.apartFromTable = s.apartFromTable
  | .eu => t = { s with eu := t.eu }
  | .lm => t = { s with lm := t.lm }
  | .wh => t = { s with wh := t.wh }
  | .ym => t = { s with ym := t.ym }
  | .cu => t = { s with cu := t.cu }
  | .sm => t = { s with sm := t.sm }
  | .links =>
    t = { s with
      links := t.links, silence := t.silence, silenceView := t.silenceView, keyView := t.keyView, keyOwed := t.keyOwed
      lineAsserted := t.lineAsserted }
  | .settings => t = { s with settings := t.settings, ym := t.ym, cu := t.cu }
  | .nothing => t = s
  | .everything => t.arrivals = s.arrivals ∧ t.pending = s.pending

/-- The part that an event touches; executing a request and resetting may touch everything. -/
def Ev.part : Ev → Part
  | .ctRaise _ => .table
  | .ctPresent _ => .table
  | .ctAbsent _ => .table
  | .ctRefresh _ _ => .table
  | .ctEscalateStep _ => .table
  | .ctEscalateTo _ _ _ => .table
  | .ctHoldoffEnd _ => .table
  | .ruOffer _ => .table
  | .ruAutoRetire _ => .table
  | .ruBoostEnd _ => .table
  | .euLimits _ => .eu
  | .euLane _ _ => .eu
  | .euTemp _ _ => .eu
  | .euRampStep => .eu
  | .lmExcluded _ _ => .lm
  | .lmShare _ _ => .lm
  | .lmSupply _ => .lm
  | .lmPump _ => .lm
  | .lmDemand _ => .lm
  | .lmReport _ _ => .lm
  | .lmAct _ => .lm
  | .lmReply _ => .lm
  | .lmEvaluate _ => .lm
  | .lmSilence _ => .lm
  | .lmTimeout _ _ => .lm
  | .whPark _ _ => .wh
  | .whWatch _ => .wh
  | .whUnwind _ => .wh
  | .whHeading _ => .wh
  | .whVane _ => .wh
  | .whMisalign => .wh
  | .whDwell => .wh
  | .whAnemometer _ => .wh
  | .whUnwindEval => .wh
  | .ymLimits _ => .ym
  | .ymSupply _ => .ym
  | .ymHeading _ _ => .ym
  | .ymFiltered _ => .ym
  | .ymMove _ _ => .ym
  | .ymUnwind _ _ => .ym
  | .ymDriveRetired _ => .ym
  | .ymJogEnd => .ym
  | .ymFaultLines _ => .ym
  | .ymPressure _ => .ym
  | .ymBrakeTimer => .ym
  | .ymSettleEnd => .ym
  | .cuBoost _ => .cu
  | .cuCommanded _ => .cu
  | .cuLaneDemand _ => .cu
  | .cuSupply _ => .cu
  | .cuReaction _ => .cu
  | .cuPumpRetired _ => .cu
  | .cuSample _ _ => .cu
  | .cuDerate _ _ => .cu
  | .cuEscalate _ => .cu
  | .cuDemand _ => .cu
  | .cuFan _ => .cu
  | .cuFlow _ _ => .cu
  | .cuPrimeTimeout _ => .cu
  | .smGrid _ => .sm
  | .smSettled => .sm
  | .smUps _ => .sm
  | .lkKey _ => .links
  | .lkSilence => .links
  | .lkStart _ _ _ _ => .links
  | .lkOpen _ _ _ _ => .links
  | .lkByte _ _ _ => .links
  | .lkStop _ => .links
  | .lkPoisonStop _ => .links
  | .lkRead _ _ => .links
  | .lkSend _ _ => .links
  | .lkReset _ => .links
  | .lkAttention _ => .links
  | .lkAttentionSlot _ _ => .links
  | .lkPayloadDone _ => .links
  | .lkPayloadCut _ => .links
  | .lkRequest _ _ => .links
  | .lkBegin _ _ => .links
  | .lkServe _ _ => .everything
  | .coldStart _ => .everything
  | .lineAssert => .links
  | .lineRelease _ => .everything
  | .due _ => .nothing

/-- The part that a request touches as its owner serves it. -/
def Request.part : Request → Part
  | .lookup _ => .table
  | .scan _ _ => .table
  | .raise _ _ _ _ _ _ _ => .table
  | .amend _ _ _ _ _ => .table
  | .ack _ => .table
  | .retire _ => .table
  | .bind _ _ _ _ _ _ => .table
  | .unbind _ => .table
  | .setDemand _ => .eu
  | .laneStart _ => .lm
  | .laneStop _ => .lm
  | .setTracking _ => .settings
  | .startUnwind => .ym
  | .yawGoto _ => .ym
  | .yawJog _ _ => .ym
  | .serviceStop => .ym
  | .driveIsolate _ => .ym
  | .driveReturn _ => .ym
  | .setTwist _ => .wh
  | .setSetting _ _ => .settings
  | .readSlot _ => .nothing
  | .readEnvelope => .nothing
  | .readLane _ => .nothing
  | .readYaw => .nothing
  | .readLoop _ => .nothing
  | .getSetting _ => .nothing
  | .readSupply => .nothing
  | .ident => .nothing
  | .warmReset _ => .nothing
  | .badEncoding => .nothing

theorem Request.part_ne_everything (r : Request) : r.part ≠ .everything := by cases r <;> exact fun h => nomatch h

theorem followTracking_touches (on : Bool) (s : State) : touched .ym s (followTracking on s).1 := by
  unfold followTracking
  split
  · rfl
  · split <;> rfl

/-- What a request touches (sections 1.10, 3.2, 4.2, 5.7, 6.2, 7.4 and 11.4). -/
theorem serve_touches (l : Link) (r : Request) (s : State) : touched r.part s (serve l r s).state := by
  cases r with
  | lookup c => simp only [serve, serveLookup]; split <;> rfl
  | scan a f => simp only [serve, serveScan]; split <;> rfl
  | raise c cls d cap ls y lp =>
    simp only [serve, serveRaise]
    repeat' split
    all_goals first | rfl | exact takeRaise_atTable _ s
  | amend c cap ls y lp =>
    simp only [serve, serveAmend]
    repeat' split
    all_goals first | rfl | exact changeRecord_atTable _ _ s
  | ack c =>
    simp only [serve, serveAck]
    repeat' split
    all_goals first | rfl | exact changeRecord_atTable _ _ s
  | retire c =>
    simp only [serve, serveRetire]
    repeat' split
    all_goals rfl
  | bind k c a lp d n => simp only [serve, serveBind]; repeat' split
                         all_goals rfl
  | unbind k => simp only [serve, serveUnbind]; repeat' split
                all_goals rfl
  | setDemand d => simp only [serve, serveSetDemand]; repeat' split
                   all_goals rfl
  | laneStart n => simp only [serve, serveLaneStart]; repeat' split
                   all_goals rfl
  | laneStop n => simp only [serve, serveLaneStop]; split <;> rfl
  | setTracking on =>
    simp only [serve, serveSetTracking]
    split
    · rfl
    · simp only [Served.did]
      rw [show touched (Request.setTracking on).part s = touched .settings s from rfl, touched,
        followTracking_touches on { s with settings := _ }]
  | startUnwind => simp only [serve, serveStartUnwind]; repeat' split
                   all_goals rfl
  | yawGoto g => simp only [serve, serveYawGoto]; repeat' split
                 all_goals rfl
  | yawJog d n => simp only [serve, serveYawJog]; repeat' split
                  all_goals rfl
  | serviceStop => simp only [serve, serveServiceStop]; repeat' split
                   all_goals rfl
  | driveIsolate n => simp only [serve, serveDriveIsolate]; repeat' split
                      all_goals rfl
  | driveReturn n => simp only [serve, serveDriveReturn]; repeat' split
                     all_goals rfl
  | setTwist t => simp only [serve, serveSetTwist, takeUnwindEval]; repeat' split
                  all_goals rfl
  | setSetting id v =>
    simp only [serve, serveSetSetting]
    repeat' split
    all_goals try rfl
    all_goals
      simp only [Served.did, settingActs]
      split
      · rw [show touched (Request.setSetting 5 v).part s = touched .settings s from rfl, touched,
          followTracking_touches _ { s with settings := _ }]
      · rfl
      · rfl
  | readSlot k => simp only [serve, serveReadSlot]; split <;> rfl
  | readLane n => simp only [serve, serveReadLane]; split <;> rfl
  | readLoop n => simp only [serve, serveReadLoop]; split <;> rfl
  | getSetting id => simp only [serve, serveGetSetting]; split <;> rfl
  | readEnvelope => rfl
  | readYaw => rfl
  | readSupply => rfl
  | ident => rfl
  | warmReset _ => rfl
  | badEncoding => rfl

/-- A warm reset keeps the queue. -/
theorem takeWarmStart_touches (d : Nat) (straps : Fin 4) (s : State) :
    touched .everything s (takeWarmStart d straps s).1 := by
  simp only [takeWarmStart, State.warmValues]
  rw [askRetained_eq]
  exact ⟨rfl, rfl⟩

theorem apart_queue {s t : State} (h : t.apartFromTable = s.apartFromTable) : touched .everything s t :=
  ⟨by simpa [State.apartFromTable] using congrArg State.arrivals h,
   by simpa [State.apartFromTable] using congrArg State.pending h⟩

/-- Whatever is touched, the queue stays. -/
theorem touched_queue {p : Part} {s t : State} (h : touched p s t) : touched .everything s t := by
  cases p with
  | table => exact apart_queue h
  | everything => exact h
  | _ =>
    simp only [touched] at h
    rw [h]; exact ⟨rfl, rfl⟩

theorem takeServe_touches (l : Link) (r : Request) (s : State) : touched .everything s (takeServe l r s).1 := by
  have h := touched_queue (serve_touches l r s)
  unfold takeServe
  split
  · exact takeWarmStart_touches (restartDetail l) _ s
  · exact ⟨h.1, h.2⟩

/-- What each event touches: one part of the state, but for the execution of a request and the resets. -/
theorem handle_touches (e : Ev) (s : State) : touched e.part s (handle e s).1 := by
  cases e with
  | ctRaise r => exact takeRaise_atTable r s
  | ctPresent r => exact takePresent_atTable r s
  | ctAbsent c => exact takeAbsent_atTable c s
  | ctRefresh c cap => exact takeRefresh_atTable c cap s
  | ctEscalateStep c => exact takeEscalation_atTable c _ _ s
  | ctEscalateTo c cls cap => exact takeEscalation_atTable c _ _ s
  | ctHoldoffEnd c => exact takeHoldoffEnd_atTable c s
  | ruOffer c => exact takeOffer_atTable c s
  | ruAutoRetire k => exact takeAutoRetire_atTable k s
  | ruBoostEnd k => exact takeBoostEnd_atTable k s
  | euLimits d => simp only [handle, takeEnvelopeLimits]; split <;> rfl
  | euLane n r => simp only [handle, takeLaneEvent]; split <;> rfl
  | euTemp n t => simp only [handle, takeLaneTemperature]; split <;> rfl
  | euRampStep => simp only [handle, takeRampStep]; split <;> rfl
  | lmExcluded set full => rfl
  | lmShare n kw => rfl
  | lmSupply st => simp only [handle, takeLaneSupply]; split <;> rfl
  | lmPump p => simp only [handle, takeLanePump]; split <;> rfl
  | lmDemand p => simp only [handle, takeLaneDemand]; split <;> rfl
  | lmReport n bytes => simp only [handle, takeReport]; split <;> rfl
  | lmAct n => simp only [handle, takeAct]; split <;> rfl
  | lmReply n => rfl
  | lmEvaluate n => rfl
  | lmSilence n => simp only [handle, takeSilence]; split <;> rfl
  | lmTimeout n k => simp only [handle, takeTimeout]; split
                     · cases k <;> rfl
                     · rfl
  | whPark on full => simp only [handle, takePark, takeUnwindEval]; repeat' split
                      all_goals rfl
  | whWatch w => cases w <;> rfl
  | whUnwind b => simp only [handle, takeUnwindEvent, takeUnwindEval]; repeat' split
                  all_goals rfl
  | whHeading r => simp only [handle, takeHeading]; split <;> rfl
  | whVane r => simp only [handle, takeVane]; split <;> rfl
  | whMisalign => rfl
  | whDwell => simp only [handle, takeDwell]; repeat' split
               all_goals rfl
  | whAnemometer p => rfl
  | whUnwindEval => simp only [handle, takeUnwindEval]; split <;> rfl
  | ymLimits f => rfl
  | ymSupply st => rfl
  | ymHeading h t => rfl
  | ymFiltered f => rfl
  | ymMove t d => simp only [handle, takeMove]; repeat' split
                  all_goals rfl
  | ymUnwind g d => simp only [handle, takeUnwind]; split <;> rfl
  | ymDriveRetired n => rfl
  | ymJogEnd => simp only [handle, takeJogEnd]; split <;> rfl
  | ymFaultLines lines => rfl
  | ymPressure bar => rfl
  | ymBrakeTimer => simp only [handle, takeBrakeTimer]; split <;> rfl
  | ymSettleEnd => simp only [handle, takeSettleEnd]; split <;> rfl
  | cuBoost set => rfl
  | cuCommanded kw => rfl
  | cuLaneDemand b => rfl
  | cuSupply st => rfl
  | cuReaction set => rfl
  | cuPumpRetired l => rfl
  | cuSample l r => simp only [handle, takeSample]; split <;> rfl
  | cuDerate l v => simp only [handle, takeDerate]; repeat' split
                    all_goals rfl
  | cuEscalate l => rfl
  | cuDemand l => rfl
  | cuFan l => rfl
  | cuFlow l seen => simp only [handle, takeFlow]; repeat' split
                     all_goals rfl
  | cuPrimeTimeout l => simp only [handle, takePrimeTimeout]; split <;> rfl
  | smGrid p => simp only [handle, takeGrid]; split <;> rfl
  | smSettled => simp only [handle, takeSettled]; split <;> rfl
  | smUps r => simp only [handle, takeUps]; split <;> rfl
  | lkKey on => rfl
  | lkSilence => simp only [handle, takeSilenceExpiry]; split <;> rfl
  | lkStart l a ok bytes => simp only [handle, takeStart]; repeat' split
                            all_goals rfl
  | lkOpen l a ok bytes => rfl
  | lkByte l b ok => simp only [handle, takeByte, Act.guarded]; split <;> rfl
  | lkStop l =>
    simp only [handle, takeFrameStop, Act.guarded, takeStop]
    repeat' split
    all_goals rfl
  | lkPoisonStop l => simp only [handle, takePoisonStop, Act.guarded]; split <;> rfl
  | lkRead l n => simp only [handle, takeRead]; repeat' split
                  all_goals rfl
  | lkSend l n => rfl
  | lkReset l => rfl
  | lkAttention l => simp only [handle, takeAttention]; split <;> rfl
  | lkAttentionSlot l a => simp only [handle, takeAttentionSlot]; repeat' split
                           all_goals rfl
  | lkPayloadDone l => simp only [handle, takePayloadDone]; split <;> rfl
  | lkPayloadCut l => simp only [handle, takePayloadCut]; split <;> rfl
  | lkRequest l r => simp only [handle, takeRequest]; repeat' split
                     all_goals rfl
  | lkBegin l r => cases l <;> rfl
  | lkServe l r => exact takeServe_touches l r s
  | coldStart straps => exact ⟨rfl, rfl⟩
  | lineAssert => rfl
  | lineRelease straps => exact takeWarmStart_touches 1 straps { s with lineAsserted := false }
  | due i => rfl

/-! ## What is not touched stays -/

theorem touched_eu {p : Part} {s t : State} (h : touched p s t) (h1 : p ≠ .eu) (h2 : p ≠ .everything) : t.eu = s.eu := by
  cases p with
  | table => simpa [State.apartFromTable] using congrArg State.eu h
  | eu => exact absurd rfl h1
  | everything => exact absurd rfl h2
  | _ => simp only [touched] at h; rw [h]

theorem touched_lm {p : Part} {s t : State} (h : touched p s t) (h1 : p ≠ .lm) (h2 : p ≠ .everything) : t.lm = s.lm := by
  cases p with
  | table => simpa [State.apartFromTable] using congrArg State.lm h
  | lm => exact absurd rfl h1
  | everything => exact absurd rfl h2
  | _ => simp only [touched] at h; rw [h]

theorem touched_wh {p : Part} {s t : State} (h : touched p s t) (h1 : p ≠ .wh) (h2 : p ≠ .everything) : t.wh = s.wh := by
  cases p with
  | table => simpa [State.apartFromTable] using congrArg State.wh h
  | wh => exact absurd rfl h1
  | everything => exact absurd rfl h2
  | _ => simp only [touched] at h; rw [h]

theorem touched_ym {p : Part} {s t : State} (h : touched p s t) (h1 : p ≠ .ym) (h2 : p ≠ .everything)
    (h3 : p ≠ .settings) : t.ym = s.ym := by
  cases p with
  | table => simpa [State.apartFromTable] using congrArg State.ym h
  | ym => exact absurd rfl h1
  | everything => exact absurd rfl h2
  | settings => exact absurd rfl h3
  | _ => simp only [touched] at h; rw [h]

theorem touched_sm {p : Part} {s t : State} (h : touched p s t) (h1 : p ≠ .sm) (h2 : p ≠ .everything) : t.sm = s.sm := by
  cases p with
  | table => simpa [State.apartFromTable] using congrArg State.sm h
  | sm => exact absurd rfl h1
  | everything => exact absurd rfl h2
  | _ => simp only [touched] at h; rw [h]

theorem touched_settings {p : Part} {s t : State} (h : touched p s t) (h1 : p ≠ .settings) (h2 : p ≠ .everything) :
    t.settings = s.settings := by
  cases p with
  | table => simpa [State.apartFromTable] using congrArg State.settings h
  | settings => exact absurd rfl h1
  | everything => exact absurd rfl h2
  | _ => simp only [touched] at h; rw [h]

/-- Only the table's events, requests and resets touch the table, the limits and the slots. -/
theorem touched_table {p : Part} {s t : State} (h : touched p s t) (h1 : p ≠ .table) (h2 : p ≠ .everything) :
    t.table = s.table ∧ t.limits = s.limits ∧ t.slots = s.slots := by
  cases p with
  | table => exact absurd rfl h1
  | everything => exact absurd rfl h2
  | _ => simp only [touched] at h; rw [h]; exact ⟨rfl, rfl, rfl⟩

theorem touched_uptime {p : Part} {s t : State} (h : touched p s t) (h2 : p ≠ .everything) : t.uptime = s.uptime := by
  cases p with
  | table => simpa [State.apartFromTable] using congrArg State.uptime h
  | everything => exact absurd rfl h2
  | _ => simp only [touched] at h; rw [h]

end Sys2Proof.Machine
end

