-- ==== Sys2Proof/Laws/Settings.lean ====
section
/-! SUPPORT. The settings store: what a write stores lies in range, and every event keeps the store sound. -/

namespace Sys2Proof.Machine

@[simp] theorem withSetting_length (st : List Int) (id : Nat) (v : Int) : (withSetting st id v).length = st.length := by
  simp [withSetting]

/-- A setting reads as it was written. -/
theorem settingOf_withSetting_self {st : List Int} {id : Nat} (h : id - 1 < st.length) (v : Int) :
    settingOf (withSetting st id v) id = v := by
  simp [settingOf, withSetting, h, List.getD]

/-- Another setting reads as before. -/
theorem settingOf_withSetting_ne {st : List Int} {i j : Nat} (h : i - 1 ≠ j - 1) (v : Int) :
    settingOf (withSetting st i v) j = settingOf st j := by
  simp [settingOf, withSetting, List.getD, h]

theorem clampInt_range {lo hi v : Int} (h : lo ≤ hi) : lo ≤ clampInt lo hi v ∧ clampInt lo hi v ≤ hi := by
  unfold clampInt
  split
  · omega
  · split <;> omega

/-- What a write stores lies in the setting's fixed range (R202 step 3). -/
theorem clampSetting_range {st : List Int} (h : SettingsSound st) {id : Nat} (h1 : 1 ≤ id) (h2 : id ≤ 38) (v : Int) :
    (settingRange id).1 ≤ clampSetting st id v ∧ clampSetting st id v ≤ (settingRange id).2 := by
  have hr := h.range
  have h3 := hr 3 (by omega) (by omega)
  have h10 := hr 10 (by omega) (by omega)
  have h13 := hr 13 (by omega) (by omega)
  have h22 := hr 22 (by omega) (by omega)
  have h23 := hr 23 (by omega) (by omega)
  have h24 := hr 24 (by omega) (by omega)
  have h25 := hr 25 (by omega) (by omega)
  have h26 := hr 26 (by omega) (by omega)
  have h27 := hr 27 (by omega) (by omega)
  simp only [settingRange] at h3 h10 h13 h22 h23 h24 h25 h26 h27
  interval_cases id <;> simp only [clampSetting, boundBySetting, settingRange, clampInt] <;> constructor <;>
    (repeat' split) <;> omega

/-- A write keeps the store sound (R202 steps 3 and 4). -/
theorem writeSetting_sound {st : List Int} (h : SettingsSound st) {id : Nat} (h1 : 1 ≤ id) (h2 : id ≤ 38) {v : Int}
    (hv : (settingRange id).1 ≤ v ∧ v ≤ (settingRange id).2) (h14 : id = 14 → v ≤ settingOf st 13 - 20)
    (h11 : id = 11 → v ≤ settingOf st 10 - 1800) : SettingsSound (writeSetting st id v) := by
  have hl := h.count
  have one : ∀ j, 1 ≤ j → j ≤ 38 → (settingRange j).1 ≤ settingOf (withSetting st id v) j ∧
      settingOf (withSetting st id v) j ≤ (settingRange j).2 := by
    intro j hj hj'
    by_cases he : id = j
    · subst he; rw [settingOf_withSetting_self (by omega)]; exact hv
    · rw [settingOf_withSetting_ne (by omega)]; exact h.range j hj hj'
  unfold writeSetting
  dsimp only
  split
  · simp only [settingRange] at hv
    have a13 : settingOf (withSetting st 13 v) 13 = v := settingOf_withSetting_self (by omega) v
    have a14 := one 14 (by omega) (by omega)
    simp only [settingRange] at a14
    constructor
    · simpa using hl
    · intro j hj hj'
      by_cases he : 14 = j
      · subst he
        rw [settingOf_withSetting_self (by simp; omega)]
        simp only [settingRange]; omega
      · rw [settingOf_withSetting_ne (by omega)]; exact one j hj hj'
    · rw [settingOf_withSetting_self (by simp; omega), settingOf_withSetting_ne (i := 14) (j := 13) (by omega), a13]
      omega
    · rw [settingOf_withSetting_ne (by omega), settingOf_withSetting_ne (by omega), settingOf_withSetting_ne (by omega),
        settingOf_withSetting_ne (by omega)]
      exact h.unwind
  · simp only [settingRange] at hv
    have a10 : settingOf (withSetting st 10 v) 10 = v := settingOf_withSetting_self (by omega) v
    have a11 := one 11 (by omega) (by omega)
    simp only [settingRange] at a11
    constructor
    · simpa using hl
    · intro j hj hj'
      by_cases he : 11 = j
      · subst he
        rw [settingOf_withSetting_self (by simp; omega)]
        simp only [settingRange]; omega
      · rw [settingOf_withSetting_ne (by omega)]; exact one j hj hj'
    · rw [settingOf_withSetting_ne (by omega), settingOf_withSetting_ne (by omega), settingOf_withSetting_ne (by omega),
        settingOf_withSetting_ne (by omega)]
      exact h.storm
    · rw [settingOf_withSetting_self (by simp; omega), settingOf_withSetting_ne (i := 11) (j := 10) (by omega), a10]
      omega
  · rename_i n13 n10
    constructor
    · simpa using hl
    · exact one
    · rw [settingOf_withSetting_ne (i := id) (j := 13) (fun hc => n13 (by omega))]
      by_cases he : id = 14
      · subst he; rw [settingOf_withSetting_self (by omega)]; exact h14 rfl
      · rw [settingOf_withSetting_ne (by omega)]; exact h.storm
    · rw [settingOf_withSetting_ne (i := id) (j := 10) (fun hc => n10 (by omega))]
      by_cases he : id = 11
      · subst he; rw [settingOf_withSetting_self (by omega)]; exact h11 rfl
      · rw [settingOf_withSetting_ne (by omega)]; exact h.unwind

theorem settingDefaults_sound : SettingsSound settingDefaults := by
  constructor
  · decide
  · intro id h1 h2
    interval_cases id <;> decide
  · decide
  · decide

theorem knownSetting_iff {id : Nat} : knownSetting id = true ↔ 1 ≤ id ∧ id ≤ 38 := by
  simp [knownSetting]

theorem serveSetSetting_settings {s : State} (h : SettingsSound s.settings) (l : Link) (id : Nat) (v : Int) :
    SettingsSound (serveSetSetting l id v s).state.settings := by
  simp only [serveSetSetting]
  split
  · exact h
  · rename_i hk
    have hk : 1 ≤ id ∧ id ≤ 38 := knownSetting_iff.mp (by simpa using hk)
    split
    · exact h
    · split
      · exact h
      · have hw : SettingsSound (writeSetting s.settings id (clampSetting s.settings id v)) := by
          refine writeSetting_sound h hk.1 hk.2 (clampSetting_range h hk.1 hk.2 v) ?_ ?_
          · rintro rfl; simp only [clampSetting, boundBySetting]; omega
          · rintro rfl; simp only [clampSetting, boundBySetting]; omega
        simp only [Served.did, settingActs]
        split
        · have := followTracking_touches (clampSetting s.settings 5 v == 1)
            { s with settings := writeSetting s.settings 5 (clampSetting s.settings 5 v) }
          rw [touched_settings this (by decide) (by decide)]; exact hw
        · exact hw
        · exact hw

theorem serveSetTracking_settings {s : State} (h : SettingsSound s.settings) (l : Link) (on : Bool) :
    SettingsSound (serveSetTracking l on s).state.settings := by
  simp only [serveSetTracking]
  split
  · exact h
  · have hw : SettingsSound (writeSetting s.settings 5 (if on then 1 else 0)) :=
      writeSetting_sound h (by omega) (by omega) (by simp only [settingRange]; split <;> omega) (by omega) (by omega)
    simp only [Served.did]
    have := followTracking_touches on { s with settings := withSetting s.settings 5 (if on then 1 else 0) }
    rw [touched_settings this (by decide) (by decide)]; exact hw

theorem takeWarmStart_settings (d : Nat) (straps : Fin 4) (s : State) :
    (takeWarmStart d straps s).1.settings = s.settings := by
  simp only [takeWarmStart, State.warmValues]
  rw [askRetained_eq]

/-- Every event keeps the settings sound (R202). -/
theorem handle_keeps_settings {s : State} (h : SettingsSound s.settings) (e : Ev) :
    SettingsSound (handle e s).1.settings := by
  by_cases he : e.part = .everything
  · cases e with
    | lkServe l r =>
      simp only [handle, takeServe]
      split
      · simpa only [storeResponse, State.setLink, takeWarmStart_settings] using h
      · by_cases hr : r.part = .settings
        · cases r with
          | setTracking on => exact serveSetTracking_settings h l on
          | setSetting id v => exact serveSetSetting_settings h l id v
          | _ => exact nomatch hr
        · have := touched_settings (serve_touches l r s) hr r.part_ne_everything
          simpa only [storeResponse, State.setLink, this] using h
    | coldStart straps => exact settingDefaults_sound
    | lineRelease straps => simpa only [handle, takeLineRelease, takeWarmStart_settings] using h
    | _ => exact nomatch he
  · rw [touched_settings (handle_touches e s) (by cases e <;> exact fun h => nomatch h) he]; exact h

theorem advance_settings (s : State) : s.advance.settings = s.settings := by
  unfold State.advance; dsimp only; split <;> rfl

end Sys2Proof.Machine
end

