-- ==== Sys2Proof/Laws/Cooling.lean ====
section
/-! SUPPORT. Every event keeps the cooling unit sound. -/

namespace Sys2Proof.Machine

theorem Three.get_set {α : Type} (v : Three α) (i j : Fin 3) (a : α) :
    (v.set i a).get j = if i = j then a else v.get j := by
  match i, j with
  | 0, 0 | 0, 1 | 0, 2 => rfl
  | 1, 0 | 1, 1 | 1, 2 => rfl
  | 2, 0 | 2, 1 | 2, 2 => rfl

/-- What a loop keeps whatever its duty is. -/
structure Loop.base (x : Loop) : Prop where
  prime : x.prime.isSome = true ↔ x.pump = .priming
  misses : x.misses < 3
  idleMisses : x.pump ≠ .running → x.misses = 0

theorem Loop.sound.base {fm : Int} {b : Bool} {x : Loop} (h : x.sound fm b) : x.base :=
  ⟨h.prime, h.misses, h.idleMisses⟩

/-- The three loops of a cooling unit are sound under settings. -/
def loopsSound (st : List Int) (u : Cooling) : Prop :=
  ∀ l : Fin 3, (u.loops.get l).sound (settingOf st 34) (u.boosted l)

theorem put_get (u : Cooling) (l k : Fin 3) (x : Loop) :
    (u.put l x).loops.get k = if l = k then x else u.loops.get k := Three.get_set _ _ _ _

@[simp] theorem put_boosted (u : Cooling) (l k : Fin 3) (x : Loop) : (u.put l x).boosted k = u.boosted k := rfl

theorem put_loops {st : List Int} {u : Cooling} (h : loopsSound st u) (l : Fin 3) {x : Loop}
    (hx : x.sound (settingOf st 34) (u.boosted l)) : loopsSound st (u.put l x) := by
  intro k
  rw [put_get, put_boosted]
  split
  · rename_i e; subst e; exact hx
  · exact h k

/-- fan_min lies in 0..100 (R202). -/
theorem fanMin_range {st : List Int} (h : SettingsSound st) : 0 ≤ settingOf st 34 ∧ settingOf st 34 ≤ 100 := by
  have := h.range 34 (by omega) (by omega)
  simp only [settingRange] at this
  omega

theorem fanLaw_range {st : List Int} (h : SettingsSound st) (l : Fin 3) (c : Nat) (t : Option Int) :
    settingOf st 34 ≤ (fanLaw st l c t : Int) ∧ fanLaw st l c t ≤ 100 := by
  have hr := fanMin_range h
  simp only [fanLaw, clampInt]
  repeat' split
  all_goals omega

/-- A loop takes a sound duty where its duty is set from what the unit holds (R163 to R165). -/
theorem dutyNow_sound {st : List Int} (h : SettingsSound st) {u : Cooling} {l : Fin 3} (hb : (u.loops.get l).base) :
    ({ u.loops.get l with duty := u.dutyNow st l } : Loop).sound (settingOf st 34) (u.boosted l) := by
  have hr := fanMin_range h
  refine ⟨hb.prime, hb.misses, hb.idleMisses, ?_, ?_, ?_⟩
  · intro hp
    simp only [Cooling.dutyNow, if_neg hp]
  · intro hp hq
    simp only at hp
    simp only [Cooling.dutyNow, if_pos hp, if_pos hq]
  · intro hp
    simp only at hp
    simp only [Cooling.dutyNow, if_pos hp]
    split
    · omega
    · exact fanLaw_range h l _ _

theorem setDuty_loops {st : List Int} (h : SettingsSound st) {u : Cooling} {l : Fin 3} (hb : (u.loops.get l).base)
    (ho : ∀ k, k ≠ l → (u.loops.get k).sound (settingOf st 34) (u.boosted k)) : loopsSound st (u.setDuty st l) := by
  intro k
  simp only [Cooling.setDuty]
  rw [put_get, put_boosted]
  split
  · rename_i e; subst e; exact dutyNow_sound h hb
  · rename_i e; exact ho k (fun hk => e hk.symm)

/-! ## Every duty after a change of what the duties follow -/

theorem setDuty_get (st : List Int) (l k : Fin 3) (u : Cooling) :
    (u.setDuty st l).loops.get k =
      if l = k then { u.loops.get k with duty := u.dutyNow st k } else u.loops.get k := by
  simp only [Cooling.setDuty]
  rw [put_get]
  split
  · rename_i e; subst e; rfl
  · rfl

theorem boostDuty_get (st : List Int) (old : Cooling) (l k : Fin 3) (u : Cooling) :
    (Cooling.boostDuty st old u l).loops.get k =
      if l = k ∧ old.boosted k ≠ u.boosted k then { u.loops.get k with duty := u.dutyNow st k } else u.loops.get k := by
  unfold Cooling.boostDuty
  by_cases he : l = k
  · subst he
    by_cases hb : old.boosted l = u.boosted l
    · simp [hb]
    · rw [if_neg hb, setDuty_get, if_pos rfl, if_pos ⟨rfl, hb⟩]
  · split
    · simp [he]
    · rw [setDuty_get]; simp [he]

theorem boostDuty_rest (st : List Int) (old : Cooling) (l : Fin 3) (u : Cooling) :
    Cooling.boostDuty st old u l = { u with loops := (Cooling.boostDuty st old u l).loops } := by
  unfold Cooling.boostDuty; split <;> rfl

theorem boostDuty_boosted (st : List Int) (old : Cooling) (l k : Fin 3) (u : Cooling) :
    (Cooling.boostDuty st old u l).boosted k = u.boosted k := by rw [boostDuty_rest]; rfl

theorem boostDuty_commanded (st : List Int) (old : Cooling) (l : Fin 3) (u : Cooling) :
    (Cooling.boostDuty st old u l).commanded = u.commanded := by rw [boostDuty_rest]

/-- The duty that a unit would set looks at C, the boosts and the loop itself. -/
theorem dutyNow_congr (st : List Int) {u v : Cooling} {k : Fin 3} (hl : u.loops.get k = v.loops.get k)
    (hb : u.boosted k = v.boosted k) (hc : u.commanded = v.commanded) : u.dutyNow st k = v.dutyNow st k := by
  simp only [Cooling.dutyNow, hl, hb, hc]

/-- A loop is reached once while the duties follow a change of the boosts (R164). -/
theorem reboost_get (st : List Int) (old u : Cooling) (k : Fin 3) :
    (Cooling.reboost st old u).loops.get k =
      if old.boosted k ≠ u.boosted k then { u.loops.get k with duty := u.dutyNow st k } else u.loops.get k := by
  have h0 : ∀ {k : Fin 3} (v : Cooling) (l : Fin 3), l ≠ k →
      (Cooling.boostDuty st old v l).loops.get k = v.loops.get k := by
    intro k v l hl; rw [boostDuty_get]; simp [hl]
  have h1 : ∀ {k : Fin 3} (v : Cooling), (Cooling.boostDuty st old v k).loops.get k =
      if old.boosted k ≠ v.boosted k then { v.loops.get k with duty := v.dutyNow st k } else v.loops.get k := by
    intro k v; rw [boostDuty_get]; simp
  simp only [Cooling.reboost, threeIndices, List.foldl]
  match k with
  | 0 => rw [h0 _ 2 (by decide), h0 _ 1 (by decide), h1]
  | 1 =>
    rw [h0 _ 2 (by decide), h1, h0 _ 0 (by decide), boostDuty_boosted,
      dutyNow_congr st (h0 (k := 1) u 0 (by decide)) (boostDuty_boosted _ _ _ _ _) (boostDuty_commanded _ _ _ _)]
  | 2 =>
    have a := h0 (k := 2) (Cooling.boostDuty st old u 0) 1 (by decide)
    have b := h0 (k := 2) u 0 (by decide)
    rw [h1, a, b, boostDuty_boosted, boostDuty_boosted,
      dutyNow_congr st (a.trans b) ((boostDuty_boosted _ _ _ _ _).trans (boostDuty_boosted _ _ _ _ _))
        ((boostDuty_commanded _ _ _ _).trans (boostDuty_commanded _ _ _ _))]

theorem reboost_boosted (st : List Int) (old u : Cooling) (k : Fin 3) :
    (Cooling.reboost st old u).boosted k = u.boosted k := by
  simp only [Cooling.reboost, threeIndices, List.foldl, boostDuty_boosted]

/-- The duties follow a change of the boosts (R164). -/
theorem reboost_loops {st : List Int} (h : SettingsSound st) {old u : Cooling} (ho : loopsSound st old)
    (hl : u.loops = old.loops) : loopsSound st (Cooling.reboost st old u) := by
  intro k
  rw [reboost_get, reboost_boosted]
  split
  · exact dutyNow_sound h (by rw [hl]; exact (ho k).base)
  · rename_i hb
    rw [hl, ← not_not.mp hb]
    exact ho k

/-- The duties follow a write of fan_min (R165). -/
theorem fanMin_loops {st : List Int} (h : SettingsSound st) {u : Cooling} (hb : ∀ k, (u.loops.get k).base) :
    loopsSound st (threeIndices.foldl (fun u l => u.setDuty st l) u) := by
  intro k
  have h0 : ∀ {k : Fin 3} (v : Cooling) (l : Fin 3), l ≠ k → (v.setDuty st l).loops.get k = v.loops.get k := by
    intro k v l hl; rw [setDuty_get]; simp [hl]
  have h1 : ∀ {k : Fin 3} (v : Cooling),
      (v.setDuty st k).loops.get k = { v.loops.get k with duty := v.dutyNow st k } := by
    intro k v; rw [setDuty_get]; simp
  have hbo : (threeIndices.foldl (fun u l => u.setDuty st l) u).boosted k = u.boosted k := rfl
  rw [hbo]
  simp only [threeIndices, List.foldl]
  match k with
  | 0 =>
    rw [h0 _ 2 (by decide), h0 _ 1 (by decide), h1]
    exact dutyNow_sound h (hb 0)
  | 1 =>
    rw [h0 _ 2 (by decide), h1, h0 _ 0 (by decide), dutyNow_congr st (h0 (k := 1) u 0 (by decide)) rfl rfl]
    exact dutyNow_sound h (hb 1)
  | 2 =>
    have a := h0 (k := 2) (u.setDuty st 0) 1 (by decide)
    have b := h0 (k := 2) u 0 (by decide)
    rw [h1, a, b, dutyNow_congr st (a.trans b) rfl rfl]
    exact dutyNow_sound h (hb 2)

/-! ## Pumps -/

theorem Loop.evaluate_sound {fm : Int} {b : Bool} {x : Loop} (h : x.sound fm b) (d : Bool) : (x.evaluate d).sound fm b := by
  unfold Loop.evaluate
  split
  · rename_i hp
    exact ⟨by simp, by simp, by simp, fun _ => h.still (by rw [hp]; decide), (fun e => nomatch e), (fun e => nomatch e)⟩
  · rename_i hp
    exact ⟨by simp, h.misses, fun _ => h.idleMisses (by rw [hp]; decide), fun _ => h.still (by rw [hp]; decide),
      (fun e => nomatch e), (fun e => nomatch e)⟩
  · rename_i hp
    have hn : x.prime = none := by
      have := h.prime; rw [hp] at this; simpa using this
    exact ⟨by simp [hn], by simp, by simp, by simp, (fun e => nomatch e), (fun e => nomatch e)⟩
  · exact h

theorem evaluate_loops {st : List Int} {u : Cooling} (h : loopsSound st u) (l : Fin 3) : loopsSound st (u.evaluate st l) :=
  put_loops h l (Loop.evaluate_sound (h l) _)

theorem release_loops {st : List Int} {u : Cooling} (h : loopsSound st u) (l : Fin 3) : loopsSound st (u.release st l) := by
  unfold Cooling.release
  split
  · rename_i hp
    refine evaluate_loops (put_loops h l ?_) l
    have hn : (u.loops.get l).prime = none := by
      have := (h l).prime; rw [hp] at this; simpa using this
    exact ⟨by simp [hn], (h l).misses, fun _ => (h l).idleMisses (by rw [hp]; decide),
      fun _ => (h l).still (by rw [hp]; decide), (fun e => nomatch e), (fun e => nomatch e)⟩
  · exact h

theorem fails_sound (fm : Int) (b : Bool) (x : Loop) : x.fails.sound fm b :=
  ⟨by simp [Loop.fails], by simp [Loop.fails], by simp [Loop.fails], by simp [Loop.fails], (fun e => nomatch e),
    (fun e => nomatch e)⟩

theorem sees_loops {st : List Int} {u : Cooling} (h : loopsSound st u) (l : Fin 3) (seen : Bool) :
    loopsSound st (u.sees l seen) :=
  put_loops h l ⟨(h l).prime, (h l).misses, (h l).idleMisses, (h l).still, (h l).full, (h l).fan⟩

theorem withMisses_loops {st : List Int} {u : Cooling} (h : loopsSound st u) (l : Fin 3)
    (hp : (u.loops.get l).pump = .running) {n : Nat} (hn : n < 3) : loopsSound st (u.withMisses l n) :=
  put_loops h l ⟨(h l).prime, hn, fun e => absurd hp e, (h l).still, (h l).full, (h l).fan⟩

theorem runs_loops {st : List Int} (hs : SettingsSound st) {u : Cooling} (h : loopsSound st u) (l : Fin 3) :
    loopsSound st (u.runs st l) := by
  refine setDuty_loops hs ?_ ?_
  · rw [put_get, if_pos rfl]
    exact ⟨by simp, by simp, by simp⟩
  · intro k hk
    rw [put_get, if_neg (fun e => hk e.symm)]
    exact h k

/-- A loop changed in what soundness does not look at stays sound. -/
theorem sample_sound {fm : Int} {b : Bool} {x y : Loop} (h : x.sound fm b) (h1 : y.pump = x.pump) (h2 : y.prime = x.prime)
    (h3 : y.misses = x.misses) (h4 : y.duty = x.duty) : y.sound fm b :=
  ⟨by rw [h1, h2]; exact h.prime, by rw [h3]; exact h.misses, by rw [h1, h3]; exact h.idleMisses,
    by rw [h1, h4]; exact h.still, by rw [h1, h4]; exact h.full, by rw [h1, h4]; exact h.fan⟩

theorem initial_cooling_loops (st : List Int) : loopsSound st Cooling.initial := by
  intro l
  match l with
  | 0 | 1 | 2 =>
    exact ⟨by decide, by decide, fun _ => rfl, fun _ => rfl, (fun e => nomatch e), (fun e => nomatch e)⟩

theorem afterReset_loops (st : List Int) (t : List Record) : loopsSound st (Cooling.afterReset t) := by
  have one : ∀ l b, (Loop.afterReset t l).sound (settingOf st 34) b := by
    intro l b
    have hp : (Loop.afterReset t l).pump = .failed ∨ (Loop.afterReset t l).pump = .off := by
      simp only [Loop.afterReset]; split <;> simp
    refine ⟨?_, by simp [Loop.afterReset, Loop.initial], fun _ => rfl, fun _ => rfl, ?_, ?_⟩
    · rcases hp with hp | hp <;> rw [hp] <;> simp [Loop.afterReset, Loop.initial]
    · intro e; rcases hp with hp | hp <;> rw [hp] at e <;> cases e
    · intro e; rcases hp with hp | hp <;> rw [hp] at e <;> cases e
  intro l
  match l with
  | 0 => exact one 0 _
  | 1 => exact one 1 _
  | 2 => exact one 2 _

/-! ## What other blocks' events leave of the cooling unit -/

theorem apart_cooling {s t : State} (h : t.apartFromTable = s.apartFromTable) {st : List Int}
    (hs : loopsSound st s.cu) : loopsSound st t.cu := by
  have hb : ∀ l, t.cu.boosted l = s.cu.boosted l := by
    intro l
    have h1 : t.apartFromTable.cu.boost = s.apartFromTable.cu.boost := by rw [h]
    have h2 : t.apartFromTable.cu.reaction = s.apartFromTable.cu.reaction := by rw [h]
    simp only [State.apartFromTable] at h1 h2
    simp only [Cooling.boosted, h1, h2]
  have hl := congrArg (fun z : State => z.cu.loops) h
  simp only [State.apartFromTable, Three.mk.injEq, Loop.mk.injEq] at hl
  intro l
  rw [hb]
  match l with
  | 0 => exact sample_sound (hs 0) hl.1.1 hl.1.2.1 hl.1.2.2.2.1 hl.1.2.2.2.2.2.1
  | 1 => exact sample_sound (hs 1) hl.2.1.1 hl.2.1.2.1 hl.2.1.2.2.2.1 hl.2.1.2.2.2.2.2.1
  | 2 => exact sample_sound (hs 2) hl.2.2.1 hl.2.2.2.1 hl.2.2.2.2.2.1 hl.2.2.2.2.2.2.2.1

theorem touched_cooling {p : Part} {s t : State} (h : touched p s t) (h1 : p ≠ .cu) (h2 : p ≠ .everything)
    (h3 : p ≠ .settings) {st : List Int} (hs : loopsSound st s.cu) : loopsSound st t.cu := by
  cases p with
  | table => exact apart_cooling h hs
  | cu => exact absurd rfl h1
  | everything => exact absurd rfl h2
  | settings => exact absurd rfl h3
  | _ => simp only [touched] at h; rw [h]; exact hs

theorem followTracking_cu (on : Bool) (s : State) : (followTracking on s).1.cu = s.cu := by
  have := followTracking_touches on s
  simp only [touched] at this
  rw [this]

/-- fan_min does not move when another setting is written. -/
theorem writeSetting_fanMin {st : List Int} {id : Nat} (h1 : 1 ≤ id) (h : id ≠ 34) (v : Int) :
    settingOf (writeSetting st id v) 34 = settingOf st 34 := by
  simp only [writeSetting]
  split
  · rw [settingOf_withSetting_ne (by omega), settingOf_withSetting_ne (by omega)]
  · rw [settingOf_withSetting_ne (by omega), settingOf_withSetting_ne (by omega)]
  · rw [settingOf_withSetting_ne (by omega)]

theorem loopsSound_congr {st st' : List Int} {u : Cooling} (h : loopsSound st u)
    (he : settingOf st' 34 = settingOf st 34) : loopsSound st' u := fun l => by rw [he]; exact h l

theorem serveSetSetting_cooling {s : State} (hs : SettingsSound s.settings) (h : loopsSound s.settings s.cu) (l : Link)
    (id : Nat) (v : Int) :
    loopsSound (serveSetSetting l id v s).state.settings (serveSetSetting l id v s).state.cu := by
  have hset := serveSetSetting_settings hs l id v
  revert hset
  simp only [serveSetSetting]
  split
  · exact fun _ => h
  · rename_i hk
    have hk : 1 ≤ id ∧ id ≤ 38 := knownSetting_iff.mp (by simpa using hk)
    split
    · exact fun _ => h
    · split
      · exact fun _ => h
      · simp only [Served.did, settingActs]
        split
        · intro _
          have ht := followTracking_touches (clampSetting s.settings 5 v == 1)
            { s with settings := writeSetting s.settings 5 (clampSetting s.settings 5 v) }
          rw [touched_settings ht (by decide) (by decide), followTracking_cu]
          exact loopsSound_congr h (writeSetting_fanMin (id := 5) (by decide) (by decide) _)
        · intro hset
          exact fanMin_loops hset (fun k => (h k).base)
        · rename_i hne
          intro _
          exact loopsSound_congr h (writeSetting_fanMin hk.1 (fun e => hne e) _)

theorem serveSetTracking_cooling {s : State} (h : loopsSound s.settings s.cu) (l : Link) (on : Bool) :
    loopsSound (serveSetTracking l on s).state.settings (serveSetTracking l on s).state.cu := by
  simp only [serveSetTracking]
  split
  · exact h
  · simp only [Served.did]
    have ht := followTracking_touches on { s with settings := withSetting s.settings 5 (if on then 1 else 0) }
    rw [touched_settings ht (by decide) (by decide), followTracking_cu]
    exact loopsSound_congr h (settingOf_withSetting_ne (i := 5) (j := 34) (by decide) _)

theorem takeWarmStart_cu (d : Nat) (straps : Fin 4) (s : State) :
    (takeWarmStart d straps s).1.cu = Cooling.afterReset (retention s.uptime s.table) := by
  simp only [takeWarmStart, State.warmValues]
  rw [askRetained_eq]

theorem takeFlow_loops {s : State} (hs : SettingsSound s.settings) (h : loopsSound s.settings s.cu) (l : Fin 3)
    (seen : Bool) : loopsSound s.settings (takeFlow l seen s).1.cu := by
  have hsee := sees_loops h l seen
  have hpump : ((s.cu.sees l seen).loops.get l).pump = (s.cu.loops.get l).pump := by
    simp only [Cooling.sees]; rw [put_get, if_pos rfl]
  unfold takeFlow
  split
  · split
    · exact runs_loops hs hsee l
    · exact hsee
  · rename_i hp
    split
    · exact withMisses_loops hsee l (by rw [hpump, hp]) (by omega)
    · split
      · exact put_loops hsee l (fails_sound _ _ _)
      · exact withMisses_loops hsee l (by rw [hpump, hp]) (by omega)
  · exact hsee
  · exact hsee

/-- Every event keeps the loops sound under sound settings (R154, R159, R160, R163 to R165). -/
theorem handle_keeps_cooling {s : State} (hs : SettingsSound s.settings) (h : loopsSound s.settings s.cu) (e : Ev) :
    loopsSound (handle e s).1.settings (handle e s).1.cu := by
  by_cases hp : e.part = .cu
  · have ht := handle_touches e s
    rw [hp] at ht
    rw [touched_settings ht (by decide) (by decide)]
    cases e with
    | cuBoost set => exact reboost_loops hs h rfl
    | cuReaction set => exact reboost_loops hs h rfl
    | cuCommanded kw => exact evaluate_loops (u := { s.cu with commanded := kw }) h 1
    | cuLaneDemand b => exact evaluate_loops (u := { s.cu with laneDemand := b }) h 0
    | cuSupply st =>
      exact evaluate_loops (evaluate_loops (evaluate_loops (u := { s.cu with supply := st }) h 0) 1) 2
    | cuPumpRetired l => exact release_loops h l
    | cuSample l r =>
      simp only [handle, takeSample]
      split <;> exact put_loops h l (sample_sound (h l) rfl rfl rfl rfl)
    | cuDerate l v =>
      simp only [handle, takeDerate]
      repeat' split
      all_goals exact put_loops h l (sample_sound (h l) rfl rfl rfl rfl)
    | cuEscalate l => exact put_loops h l (sample_sound (h l) rfl rfl rfl rfl)
    | cuDemand l =>
      have hu : loopsSound s.settings
          (if foldFreed s.table (s.cu.loops.get l) then s.cu.release s.settings l else s.cu) := by
        split
        · exact release_loops h l
        · exact h
      simp only [handle, takeSampleDemand, setCooling]
      split
      · exact evaluate_loops hu 1
      · exact hu
    | cuFan l => exact setDuty_loops hs (h l).base (fun k _ => h k)
    | cuFlow l seen => exact takeFlow_loops hs h l seen
    | cuPrimeTimeout l =>
      simp only [handle, takePrimeTimeout]
      split
      · exact h
      · exact put_loops h l (fails_sound _ _ _)
    | _ => exact nomatch hp
  · by_cases he : e.part = .everything
    · cases e with
      | lkServe l r =>
        simp only [handle, takeServe]
        split
        · simp only [storeResponse, State.setLink, takeWarmStart_cu]
          exact afterReset_loops _ _
        · by_cases hr : r.part = .settings
          · cases r with
            | setTracking on => exact serveSetTracking_cooling h l on
            | setSetting id v => exact serveSetSetting_cooling hs h l id v
            | _ => exact nomatch hr
          · have hst := touched_settings (serve_touches l r s) hr r.part_ne_everything
            have hcu := touched_cooling (serve_touches l r s) (by cases r <;> exact fun h => nomatch h)
              r.part_ne_everything hr h
            simp only [storeResponse, State.setLink]
            rw [hst]; exact hcu
      | coldStart straps => exact initial_cooling_loops _
      | lineRelease straps =>
        simp only [handle, takeLineRelease, takeWarmStart_cu]
        exact afterReset_loops _ _
      | _ => exact nomatch he
    · have hse : e.part ≠ .settings := by cases e <;> exact fun h => nomatch h
      rw [touched_settings (handle_touches e s) hse he]
      exact touched_cooling (handle_touches e s) hp he hse h

/-- The clock keeps the loops sound. -/
theorem advance_keeps_cooling {s : State} (h : loopsSound s.settings s.cu) :
    loopsSound s.advance.settings s.advance.cu := by
  have hcu : s.advance.cu = s.millisecond.cu := by unfold State.advance; dsimp only; split <;> rfl
  rw [advance_settings, hcu]
  have one : ∀ l, ((s.cu.loops.get l).tick).sound (settingOf s.settings 34) (s.cu.boosted l) := fun l =>
    ⟨by simpa [Loop.tick, down] using (h l).prime, (h l).misses, (h l).idleMisses, (h l).still, (h l).full, (h l).fan⟩
  intro l
  match l with
  | 0 => exact one 0
  | 1 => exact one 1
  | 2 => exact one 2

end Sys2Proof.Machine
end

