-- ==== Sys2Proof/Laws/Slots.lean ====
section
/-! SUPPORT. Every event keeps the reaction slots sound. -/

namespace Sys2Proof.Machine

theorem Eight.get_set {α : Type} (v : Eight α) (i j : Fin 8) (a : α) :
    (v.set i a).get j = if i = j then a else v.get j := by
  match i, j with
  | 0, 0 | 0, 1 | 0, 2 | 0, 3 | 0, 4 | 0, 5 | 0, 6 | 0, 7 => rfl
  | 1, 0 | 1, 1 | 1, 2 | 1, 3 | 1, 4 | 1, 5 | 1, 6 | 1, 7 => rfl
  | 2, 0 | 2, 1 | 2, 2 | 2, 3 | 2, 4 | 2, 5 | 2, 6 | 2, 7 => rfl
  | 3, 0 | 3, 1 | 3, 2 | 3, 3 | 3, 4 | 3, 5 | 3, 6 | 3, 7 => rfl
  | 4, 0 | 4, 1 | 4, 2 | 4, 3 | 4, 4 | 4, 5 | 4, 6 | 4, 7 => rfl
  | 5, 0 | 5, 1 | 5, 2 | 5, 3 | 5, 4 | 5, 5 | 5, 6 | 5, 7 => rfl
  | 6, 0 | 6, 1 | 6, 2 | 6, 3 | 6, 4 | 6, 5 | 6, 6 | 6, 7 => rfl
  | 7, 0 | 7, 1 | 7, 2 | 7, 3 | 7, 4 | 7, 5 | 7, 6 | 7, 7 => rfl

theorem Eight.get_map {α β : Type} (g : α → β) (v : Eight α) (i : Fin 8) : (v.map g).get i = g (v.get i) := by
  match i with
  | 0 | 1 | 2 | 3 | 4 | 5 | 6 | 7 => rfl

/-- An unbound slot is sound (R45). -/
theorem unbound_sound (k : Slot) : k.unbound.sound := by
  constructor <;> simp [Slot.unbound]

/-- A slot whose pending value is replaced stays sound, where the value stands beside a delay and is at most 600. -/
theorem withPending_sound {k : Slot} (h : k.sound) {p : Option Nat}
    (hp : ∀ x, p = some x → k.delay.isSome = true ∧ x ≤ 600) : ({ k with pending := p } : Slot).sound := by
  constructor
  · intro hb
    have := h.unbound hb
    have hd : k.delay = none := by rw [this]; rfl
    have hpn : p = none := by
      cases hx : p with
      | none => rfl
      | some x => have := (hp x hx).1; rw [hd] at this; cases this
    have hk : k = k.unbound := this
    cases k
    simp_all [Slot.unbound]
  · exact h.count
  · exact h.action
  · exact h.loops
  · exact h.delay
  · exact h.delayRange
  · exact hp

/-- The end of a slot's action leaves it sound (R55). -/
theorem ended_sound {k : Slot} (h : k.sound) (hb : k.bound.isSome = true) (o : SlotOutcome) : (k.ended o).sound := by
  unfold Slot.ended
  split
  · exact unbound_sound _
  · rename_i hc
    have := h.count hb
    constructor
    · intro hn; simp only at hn; rw [hn] at hb; cases hb
    · intro _; simp only; omega
    · exact h.action
    · exact h.loops
    · exact h.delay
    · exact h.delayRange
    · intro p hp; cases hp

theorem cancelledFor_sound {k : Slot} (h : k.sound) (c : Code) : (Slot.cancelledFor c k).sound := by
  unfold Slot.cancelledFor
  split
  · rename_i hc
    refine ended_sound h ?_ _
    simp only [Slot.pendingFor, Bool.and_eq_true, beq_iff_eq] at hc
    rw [hc.1]; rfl
  · exact h

/-- What BIND leaves is sound, once its checks have passed (R46). -/
theorem boundSlot_sound {c : Code} {a : Action} {lp : LoopSet} {d n : Nat} (hn : ¬(n = 0 ∨ 15 < n))
    (hd : ¬(a ≠ .escalate ∧ (d < 1 ∨ 600 < d))) : (boundSlot c a lp d n).sound := by
  constructor
  · intro h; cases h
  · intro _; simp only [boundSlot]; omega
  · rfl
  · simp only [boundSlot]; cases a <;> simp
  · simp only [boundSlot]; cases a <;> simp
  · intro x hx
    simp only [boundSlot] at hx
    split at hx
    · cases hx
    · cases hx
      rename_i ha
      have := not_and.mp hd ha
      omega
  · intro p hp; cases hp

/-- A table change that leaves the slots alone, or cancels what was pending for a code. -/
def SlotsMove (f : Act) : Prop := ∀ s, (∀ k, (s.slots.get k).sound) → ∀ k, ((f s).1.slots.get k).sound

theorem slotsMove_same {f : Act} (h : ∀ s, (f s).1.slots = s.slots) : SlotsMove f := fun s hs k => by
  rw [h]; exact hs k

theorem SlotsMove.andThen {f g : Act} (hf : SlotsMove f) (hg : SlotsMove g) : SlotsMove (Act.andThen f g) :=
  fun s hs => hg _ (hf s hs)

theorem slotsMove_all {fs : List Act} (h : ∀ f ∈ fs, SlotsMove f) : SlotsMove (Act.all fs) := by
  induction fs with
  | nil => exact fun s hs => hs
  | cons f rest ih => exact (h f (by simp)).andThen (ih fun g hg => h g (by simp [hg]))

theorem changeRecord_slots (b a : Record) (s : State) : (changeRecord b a s).1.slots = s.slots := by
  simp only [changeRecord, State.withTable]; rw [ask_eq]

theorem placeRecord_slots (t : List Record) (r : Record) (s : State) : (placeRecord t r s).1.slots = s.slots := by
  simp only [placeRecord, State.withTable]; rw [ask_eq]

theorem noteFolded_slots (c : Code) (s : State) : (noteFolded c s).slots = s.slots := by
  unfold noteFolded; split <;> rfl

theorem cancelFor_slots (c : Code) : SlotsMove (cancelFor c) := fun s hs k => by
  simp only [cancelFor, cancelSlots, Eight.get_map]
  exact cancelledFor_sound (hs k) c

theorem emit_slots (evs : List Ev) : SlotsMove (Act.emit evs) := fun _ hs => hs

theorem takeRaise_slots (r : Raise) : SlotsMove (takeRaise r) := fun s hs => by
  unfold takeRaise
  split
  · exact ((slotsMove_same (changeRecord_slots _ _)).andThen (emit_slots _)) s hs
  · split
    · exact ((slotsMove_same (placeRecord_slots _ _)).andThen (emit_slots _)) s hs
    · split
      · exact slotsMove_all (by
          intro f hf
          simp only [List.mem_cons, List.not_mem_nil, or_false] at hf
          rcases hf with rfl | rfl | rfl | rfl
          · exact slotsMove_same (placeRecord_slots _ _)
          · exact cancelFor_slots _
          · exact emit_slots _
          · exact emit_slots _) s hs
      · split
        · exact hs
        · unfold foldRaise
          dsimp only
          have hn : ∀ k, ((noteFolded r.code s).slots.get k).sound := by rw [noteFolded_slots]; exact hs
          split
          · exact ((slotsMove_same (changeRecord_slots _ _)).andThen (emit_slots _)) _ hn
          · exact ((slotsMove_same (placeRecord_slots _ _)).andThen (emit_slots _)) _ hn

theorem retireRecord_slots (c : Code) : SlotsMove (retireRecord c) := fun s hs => by
  unfold retireRecord
  exact slotsMove_all (by
    intro f hf
    simp only [List.mem_cons, List.not_mem_nil, or_false] at hf
    rcases hf with rfl | rfl | rfl | rfl
    · exact slotsMove_same fun _ => rfl
    · exact cancelFor_slots _
    · exact emit_slots _
    · exact emit_slots _) s hs

theorem setSlot_sound {s : State} (hs : ∀ k, (s.slots.get k).sound) (k : Fin 8) {v : Slot} (hv : v.sound) :
    ∀ j, (((setSlot k v) s).1.slots.get j).sound := fun j => by
  simp only [setSlot, Eight.get_set]
  split
  · exact hv
  · exact hs j

theorem takeOffer_slots (c : Code) : SlotsMove (takeOffer c) := fun s hs => by
  unfold takeOffer
  split
  · exact hs
  · rename_i k he
    split
    · exact hs
    · have hb : (s.slots.get k).bound.isSome = true := by
        have := List.find?_some he
        simp only [Bool.and_eq_true, beq_iff_eq] at this
        rw [this.1]; rfl
      have hfire : ∀ p, (s.slots.get k).delay = some p → (s.slots.get k).delay.isSome = true ∧ p ≤ 600 := fun p hp =>
        ⟨by rw [hp]; rfl, ((hs k).delayRange p hp).2⟩
      unfold fire
      dsimp only
      split
      · exact hs
      · exact setSlot_sound hs k (withPending_sound (hs k) hfire)
      · exact setSlot_sound hs k (withPending_sound (hs k) hfire)
      · exact setSlot_sound hs k (ended_sound (hs k) hb _)

theorem takeAutoRetire_slots (k : Fin 8) : SlotsMove (takeAutoRetire k) := fun s hs => by
  unfold takeAutoRetire
  dsimp only
  split
  · rename_i hb
    have hb : (s.slots.get k).bound.isSome = true := by rw [hb]; rfl
    have h1 := setSlot_sound hs k (ended_sound (hs k) hb .done)
    split
    · exact (retireRecord_slots _) _ h1
    · exact setSlot_sound hs k (ended_sound (hs k) hb _)
  · exact hs

theorem takeBoostEnd_slots (k : Fin 8) : SlotsMove (takeBoostEnd k) := fun s hs => by
  unfold takeBoostEnd
  dsimp only
  split
  · rename_i ha _
    have hb : (s.slots.get k).bound.isSome = true := by rw [(hs k).action, ha]; rfl
    exact setSlot_sound hs k (ended_sound (hs k) hb _)
  · exact hs

theorem takePresent_slots (r : Raise) : SlotsMove (takePresent r) := fun s hs => by
  unfold takePresent
  split
  · exact takeRaise_slots r s hs
  · split
    · exact hs
    · exact takeRaise_slots r s hs

theorem takeAbsent_slots (c : Code) (s : State) : (takeAbsent c s).1.slots = s.slots := by
  unfold takeAbsent; split
  · rfl
  · split
    · exact changeRecord_slots _ _ s
    · rfl

theorem takeRefresh_slots (c : Code) (cap : Nat) (s : State) : (takeRefresh c cap s).1.slots = s.slots := by
  unfold takeRefresh; split
  · rfl
  · split
    · rfl
    · exact changeRecord_slots _ _ s

theorem takeEscalation_slots (c : Code) (f : Cls → Cls) (cap : Option Nat) (s : State) :
    (takeEscalation c f cap s).1.slots = s.slots := by
  unfold takeEscalation; split
  · rfl
  · dsimp only; split
    · rfl
    · exact changeRecord_slots _ _ s

theorem takeHoldoffEnd_slots (c : Code) : SlotsMove (takeHoldoffEnd c) := fun s hs => by
  unfold takeHoldoffEnd; split
  · exact hs
  · split
    · exact retireRecord_slots _ s hs
    · exact hs

theorem takeWarmStart_slots (d : Nat) (straps : Fin 4) (s : State) :
    (takeWarmStart d straps s).1.slots = discardPending s.slots := by
  simp only [takeWarmStart, State.warmValues]
  rw [askRetained_eq]

theorem discardPending_sound {s : State} (hs : ∀ k, (s.slots.get k).sound) (k : Fin 8) :
    ((discardPending s.slots).get k).sound := by
  simp only [discardPending, Eight.get_map]
  exact withPending_sound (hs k) (by intro x hx; cases hx)

theorem serve_slots {s : State} (hs : ∀ k, (s.slots.get k).sound) (l : Link) (r : Request) :
    ∀ k, ((serve l r s).state.slots.get k).sound := by
  by_cases hr : r.part = .table
  case neg =>
    rw [(touched_table (serve_touches l r s) hr r.part_ne_everything).2.2]
    exact hs
  cases r with
  | lookup c => simp only [serve, serveLookup]; split <;> exact hs
  | scan a f => simp only [serve, serveScan]; split <;> exact hs
  | raise c cls d cap ls y lp =>
    simp only [serve, serveRaise]
    repeat' split
    all_goals first | exact hs | exact takeRaise_slots _ s hs
  | amend c cap ls y lp =>
    simp only [serve, serveAmend]
    repeat' split
    all_goals first | exact hs | exact slotsMove_same (changeRecord_slots _ _) s hs
  | ack c =>
    simp only [serve, serveAck]
    repeat' split
    all_goals first | exact hs | exact slotsMove_same (changeRecord_slots _ _) s hs
  | retire c =>
    simp only [serve, serveRetire]
    repeat' split
    all_goals first | exact hs | exact retireRecord_slots _ s hs
  | bind k c a lp d n =>
    simp only [serve, serveBind]
    split
    · exact hs
    · split
      · exact hs
      · split
        · exact hs
        · split
          · exact hs
          · split
            · exact hs
            · rename_i hn hd _
              exact setSlot_sound hs _ (boundSlot_sound hn hd)
  | unbind k =>
    simp only [serve, serveUnbind]
    split
    · exact hs
    · split
      · exact hs
      · split <;> exact setSlot_sound hs _ (unbound_sound _)
  | _ => exact nomatch hr

/-- Every event keeps the slots sound (R45). -/
theorem handle_keeps_slots {s : State} (hs : s.slotsSound) (e : Ev) : (handle e s).1.slotsSound := by
  by_cases hp : e.part = .table
  · cases e with
    | ctRaise r => exact takeRaise_slots r s hs
    | ctPresent r => exact takePresent_slots r s hs
    | ctAbsent c => exact slotsMove_same (takeAbsent_slots c) s hs
    | ctRefresh c cap => exact slotsMove_same (takeRefresh_slots c cap) s hs
    | ctEscalateStep c => exact slotsMove_same (takeEscalation_slots c _ _) s hs
    | ctEscalateTo c cls cap => exact slotsMove_same (takeEscalation_slots c _ _) s hs
    | ctHoldoffEnd c => exact takeHoldoffEnd_slots c s hs
    | ruOffer c => exact takeOffer_slots c s hs
    | ruAutoRetire k => exact takeAutoRetire_slots k s hs
    | ruBoostEnd k => exact takeBoostEnd_slots k s hs
    | _ => exact nomatch hp
  · by_cases he : e.part = .everything
    · cases e with
      | lkServe l r =>
        simp only [handle, takeServe]
        split
        · intro k
          simp only [storeResponse, State.setLink, takeWarmStart_slots]
          exact discardPending_sound hs k
        · exact serve_slots hs l r
      | coldStart straps =>
        intro k
        match k with
        | 0 | 1 | 2 | 3 | 4 | 5 | 6 | 7 => exact unbound_sound Slot.initial
      | lineRelease straps =>
        intro k
        simp only [handle, takeLineRelease, takeWarmStart_slots]
        exact discardPending_sound hs k
      | _ => exact nomatch he
    · intro k
      rw [(touched_table (handle_touches e s) hp he).2.2]; exact hs k

/-- The clock keeps the slots sound. -/
theorem advance_keeps_slots {s : State} (hs : s.slotsSound) : s.advance.slotsSound := by
  intro k
  unfold State.advance
  dsimp only
  split
  · simp only [Eight.get_map]
    refine withPending_sound (hs k) ?_
    intro x hx
    simp only [State.millisecond, down, Option.map_eq_some_iff] at hx
    obtain ⟨p, hp, rfl⟩ := hx
    have := (hs k).pending p hp
    exact ⟨this.1, by omega⟩
  · exact hs k

end Sys2Proof.Machine
end

