-- ==== Sys2Proof/Laws/Yaw.lean ====
section
/-! SUPPORT. Every event keeps the yaw motion unit sound. -/

namespace Sys2Proof.Machine

/-! ## The chain -/

/-- What stands below the top: strictly falling priorities, all SUSPENDED, and no SERVICE. -/
structure Tail (rest : List Context) : Prop where
  ordered : rest.Pairwise (fun a b => priority b.kind < priority a.kind)
  suspended : ∀ q ∈ rest, q.state = .suspended
  noService : ∀ q ∈ rest, q.kind ≠ .service

theorem tail_nil : Tail [] := ⟨List.Pairwise.nil, by simp, by simp⟩

theorem priority_inj {a b : Kind} (h : priority a = priority b) : a = b := by
  cases a <;> cases b <;> first | rfl | cases h

theorem suspended_sound {q : Context} (hs : q.state = .suspended) (hk : q.kind ≠ .service) : q.sound :=
  ⟨fun h => absurd h hk, fun _ => by rw [hs]; decide, fun h => (by rw [hs] at h; cases h),
    fun h => (by rw [hs] at h; cases h)⟩

/-- A chain is sound where its top stands over a tail and above it. -/
theorem chainSound_cons {c : Context} {rest : List Context} :
    ChainSound (c :: rest) ↔
      Tail rest ∧ (∀ q ∈ rest, priority q.kind < priority c.kind) ∧ c.state ≠ .suspended ∧ c.sound := by
  constructor
  · intro h
    have ho := List.pairwise_cons.mp h.ordered
    have hs : ∀ q ∈ rest, q.state = .suspended := by simpa using h.below
    refine ⟨⟨ho.2, hs, fun q hq hk => ?_⟩, ho.1, h.top c rfl, h.contexts c (by simp)⟩
    have := (h.contexts q (by simp [hq])).service hk
    rw [hs q hq] at this; cases this
  · rintro ⟨ht, hl, hc, hsound⟩
    refine ⟨List.pairwise_cons.mpr ⟨hl, ht.ordered⟩, by simpa using ht.suspended, ?_, ?_⟩
    · intro x hx; cases hx; exact hc
    · intro x hx
      rcases List.mem_cons.mp hx with rfl | hx
      · exact hsound
      · exact suspended_sound (ht.suspended x hx) (ht.noService x hx)

theorem chainSound_nil : ChainSound [] := ⟨List.Pairwise.nil, by simp, by simp, by simp⟩

/-- A chain whose top is under no hold that its state excludes, as a unit's limits, supply and twist stand. -/
structure Settled (y : Yaw) (chain : List Context) : Prop where
  sound : ChainSound chain
  free : ∀ c ∈ chain.head?, c.state = .watching ∨ c.state = .moving → y.freeHold c.kind = false
  moving : ∀ c ∈ chain.head?, c.state = .moving → ∃ d, c.dir = some d ∧ y.blocked d = false

theorem settled_nil (y : Yaw) : Settled y [] := ⟨chainSound_nil, by simp, by simp⟩

theorem held_settled (y : Yaw) {c : Context} {rest : List Context} (ht : Tail rest)
    (hl : ∀ q ∈ rest, priority q.kind < priority c.kind) (hk : c.kind ≠ .service) (hs : c.state = .held) :
    Settled y (c :: rest) := by
  refine ⟨chainSound_cons.mpr ⟨ht, hl, by rw [hs]; decide, ?_⟩, ?_, ?_⟩
  · exact ⟨fun h => absurd h hk, fun _ => by rw [hs]; decide, fun h => (by rw [hs] at h; cases h),
      fun h => (by rw [hs] at h; cases h)⟩
  · intro x hx h; cases hx; rw [hs] at h; simp at h
  · intro x hx h; cases hx; rw [hs] at h; cases h

theorem watches_settled (y : Yaw) {c : Context} {rest : List Context} (ht : Tail rest)
    (hl : ∀ q ∈ rest, priority q.kind < priority c.kind) (hk : c.kind = .track ∨ c.kind = .park)
    (hf : y.freeHold c.kind = false) : Settled y (c.watches :: rest) := by
  refine ⟨chainSound_cons.mpr ⟨ht, hl, by simp [Context.watches], ?_⟩, ?_, ?_⟩
  · refine ⟨?_, ?_, fun _ => ⟨rfl, rfl⟩, fun h => nomatch h⟩
    · intro h; rcases hk with hk | hk <;> rw [show c.watches.kind = c.kind from rfl, hk] at h <;> cases h
    · intro h; rcases hk with hk | hk <;> rw [show c.watches.kind = c.kind from rfl, hk] at h <;> cases h
  · intro x hx _; cases hx; exact hf
  · intro x hx h; cases hx; cases h

theorem heads_settled (y : Yaw) {c : Context} {rest : List Context} (ht : Tail rest)
    (hl : ∀ q ∈ rest, priority q.kind < priority c.kind) (hk : c.kind ≠ .service) (hf : y.freeHold c.kind = false)
    (t : Target) (d : Dir) : Settled y (c.heads y t d :: rest) := by
  by_cases hb : y.blocked d = true
  · exact held_settled y ht hl hk (by simp [Context.heads, hb])
  · have hs : (c.heads y t d).state = .moving := by simp [Context.heads, hb]
    refine ⟨chainSound_cons.mpr ⟨ht, hl, by rw [hs]; decide, ?_⟩, ?_, ?_⟩
    · exact ⟨fun _ => hs, fun _ => by rw [hs]; decide, fun h => (by rw [hs] at h; cases h), fun _ => rfl⟩
    · intro x hx _; cases hx; exact hf
    · intro x hx _; cases hx; exact ⟨d, rfl, by simpa using hb⟩

theorem evalPark_settled (st : List Int) (y : Yaw) {c : Context} {rest : List Context} (ht : Tail rest)
    (hl : ∀ q ∈ rest, priority q.kind < priority c.kind) (hk : c.kind = .park) (hf : y.freeHold c.kind = false) :
    Settled y (evalPark st y c :: rest) := by
  unfold evalPark
  split
  · exact watches_settled y ht hl (.inr hk) hf
  · split
    · exact watches_settled y ht hl (.inr hk) hf
    · exact heads_settled y ht hl (by rw [hk]; decide) hf _ _

/-- What a chain needs for its top to be evaluated: a tail below the top, and a SERVICE at the top only where it may
move. -/
def mayEvaluate (y : Yaw) : List Context → Prop
  | [] => True
  | c :: rest =>
    Tail rest ∧ (∀ q ∈ rest, priority q.kind < priority c.kind) ∧
      (c.kind = .service → y.freeHold .service = false ∧ ∃ d, c.dir = some d ∧ y.blocked d = false)

theorem mayEvaluate_tail (y : Yaw) {rest : List Context} (h : Tail rest) : mayEvaluate y rest := by
  cases rest with
  | nil => trivial
  | cons q rest =>
    have ho := List.pairwise_cons.mp h.ordered
    exact ⟨⟨ho.2, fun x hx => h.suspended x (by simp [hx]), fun x hx => h.noService x (by simp [hx])⟩, ho.1,
      fun hk => absurd hk (h.noService q (by simp))⟩

/-- The evaluation of the top leaves a settled chain (R131, R133). -/
theorem evalChain_settled (st : List Int) (y : Yaw) (chain : List Context) :
    ∀ fresh, mayEvaluate y chain → Settled y (evalChain st y fresh chain).1 := by
  induction chain with
  | nil => intro _ _; exact settled_nil y
  | cons c rest ih =>
    intro fresh h
    obtain ⟨ht, hl, hserv⟩ := h
    unfold evalChain
    split
    · rename_i hc; exact held_settled y ht hl hc.2 rfl
    · rename_i hc
      have hfree : c.kind ≠ .service → y.freeHold c.kind = false := fun hk => by
        cases hf : y.freeHold c.kind with
        | false => rfl
        | true => exact absurd ⟨hf, hk⟩ hc
      split
      · rename_i hk; exact watches_settled y ht hl (.inl hk) (hfree (by rw [hk]; decide))
      · rename_i hk; exact evalPark_settled st y ht hl hk (hfree (by rw [hk]; decide))
      · rename_i hk
        split
        · exact ih false (mayEvaluate_tail y ht)
        · exact heads_settled y ht hl (by rw [hk]; decide) (hfree (by rw [hk]; decide)) _ _
      · rename_i hk
        obtain ⟨hf, d, hd, hb⟩ := hserv hk
        refine ⟨chainSound_cons.mpr ⟨ht, hl, by simp, ?_⟩, ?_, ?_⟩
        · exact ⟨fun _ => rfl, fun h => (by rw [hk] at h; cases h), (fun h => nomatch h), fun _ => by simp [hd]⟩
        · intro x hx _; cases hx; simpa [hk] using hf
        · intro x hx _; cases hx; exact ⟨d, hd, hb⟩

/-- A unit with another chain has the same holds and blocked directions. -/
theorem settled_congr {y z : Yaw} {chain : List Context} (h : Settled y chain) (hh : z.held = y.held)
    (hs : z.supply = y.supply) (ht : z.twist = y.twist) : Settled z chain := by
  have hf : ∀ k, z.freeHold k = y.freeHold k := fun k => by
    simp only [Yaw.freeHold, Yaw.hold, Yaw.holdAuto, hh, hs]
  have hb : ∀ d, z.blocked d = y.blocked d := fun d => by
    simp only [Yaw.blocked, Yaw.guards, ht]
    cases d <;> simp only [Yaw.forbids, hh]
  exact ⟨h.sound, fun c hc hst => by rw [hf]; exact h.free c hc hst, fun c hc hst => by
    obtain ⟨d, hd, hbd⟩ := h.moving c hc hst
    exact ⟨d, hd, by rw [hb]; exact hbd⟩⟩

/-- What stays of a unit when its chain alone changes. -/
def chainOnly (y z : Yaw) : Prop := z = { y with chain := z.chain }

theorem chainOnly.settled {y z : Yaw} (h : chainOnly y z) {chain : List Context} (hs : Settled y chain) :
    Settled z chain := by
  rw [h]; exact settled_congr hs rfl rfl rfl

theorem evaluate_settled (st : List Int) (fresh : Bool) {y : Yaw} (h : mayEvaluate y y.chain) :
    Settled y (Yaw.evaluate st fresh y).1.chain := evalChain_settled st y y.chain fresh h

theorem evaluate_only (st : List Int) (fresh : Bool) (y : Yaw) : chainOnly y (Yaw.evaluate st fresh y).1 := rfl

/-! ## Insertion -/

theorem mem_insertBelow {c x : Context} {l : List Context} : x ∈ insertBelow c l ↔ x = c ∨ x ∈ l := by
  induction l with
  | nil => simp [insertBelow]
  | cons q rest ih =>
    simp only [insertBelow]
    split
    · simp
    · simp only [List.mem_cons, ih]; tauto

theorem insertBelow_tail {c : Context} {rest : List Context} (h : Tail rest) (hs : c.state = .suspended)
    (hk : c.kind ≠ .service) (hn : ∀ q ∈ rest, q.kind ≠ c.kind) : Tail (insertBelow c rest) := by
  induction rest with
  | nil => exact ⟨by simp [insertBelow], by simp [insertBelow, hs], by simp [insertBelow, hk]⟩
  | cons q rest ih =>
    have ho := List.pairwise_cons.mp h.ordered
    have hrest : Tail rest :=
      ⟨ho.2, fun x hx => h.suspended x (by simp [hx]), fun x hx => h.noService x (by simp [hx])⟩
    refine ⟨?_, ?_, ?_⟩
    · simp only [insertBelow]
      split
      · rename_i hlt
        refine List.pairwise_cons.mpr ⟨?_, h.ordered⟩
        intro x hx
        rcases List.mem_cons.mp hx with rfl | hx
        · exact hlt
        · exact lt_trans (ho.1 x hx) hlt
      · rename_i hlt
        refine List.pairwise_cons.mpr ⟨?_, (ih hrest (fun x hx => hn x (by simp [hx]))).ordered⟩
        intro x hx
        rcases mem_insertBelow.mp hx with rfl | hx
        · have hne : priority q.kind ≠ priority x.kind := fun e => hn q (by simp) (priority_inj e)
          omega
        · exact ho.1 x hx
    · intro x hx
      rcases mem_insertBelow.mp hx with rfl | hx
      · exact hs
      · exact h.suspended x hx
    · intro x hx
      rcases mem_insertBelow.mp hx with rfl | hx
      · exact hk
      · exact h.noService x hx

theorem suspends_kind (c : Context) : c.suspends.kind = c.kind := by
  unfold Context.suspends; cases h : c.kind <;> simp

theorem suspends_state (c : Context) : c.suspends.state = .suspended := by
  unfold Context.suspends; cases h : c.kind <;> rfl

theorem not_inChain {y : Yaw} {k : Kind} (h : y.inChain k = false) {q : Context} (hq : q ∈ y.chain) : q.kind ≠ k := by
  intro e
  simp only [Yaw.inChain, List.any_eq_false, beq_iff_eq] at h
  exact h q hq e

/-- What may be inserted: a kind that is not in the chain, and a SERVICE only where it may move. -/
structure MayInsert (y : Yaw) (c : Context) : Prop where
  absent : y.inChain c.kind = false
  service : c.kind = .service → y.freeHold .service = false ∧ ∃ d, c.dir = some d ∧ y.blocked d = false

theorem insert_only (st : List Int) (c : Context) (y : Yaw) : chainOnly y (y.insert st c).1 := by
  unfold Yaw.insert
  split
  · rfl
  · split <;> rfl

/-- An insertion leaves a sound chain, and the chain settled unless the top stays what it was (R130). -/
theorem insert_chain (st : List Int) {c : Context} {y : Yaw} (h : ChainSound y.chain) (hc : MayInsert y c) :
    Settled y (y.insert st c).1.chain ∨
      ChainSound (y.insert st c).1.chain ∧ (y.insert st c).1.chain.head? = y.chain.head? := by
  unfold Yaw.insert
  split
  · exact .inl (settled_congr (evaluate_settled st true (y := { y with chain := [c] })
      ⟨tail_nil, by simp, hc.service⟩) rfl rfl rfl)
  · rename_i top rest hch
    rw [hch] at h
    obtain ⟨ht, hl, htop, hsound⟩ := chainSound_cons.mp h
    have habs : ∀ q ∈ top :: rest, q.kind ≠ c.kind := fun q hq => not_inChain hc.absent (by rw [hch]; exact hq)
    split
    · rename_i hlt
      refine .inl (settled_congr (evaluate_settled st true (y := { y with chain := c :: top.suspends :: rest })
        ⟨⟨List.pairwise_cons.mpr ⟨?_, ht.ordered⟩, ?_, ?_⟩, ?_, hc.service⟩) rfl rfl rfl)
      · intro q hq; rw [suspends_kind]; exact hl q hq
      · intro q hq
        rcases List.mem_cons.mp hq with rfl | hq
        · exact suspends_state _
        · exact ht.suspended q hq
      · intro q hq
        rcases List.mem_cons.mp hq with rfl | hq
        · rw [suspends_kind]
          intro e
          rw [e] at hlt
          cases hk : c.kind <;> rw [hk] at hlt <;> simp [priority] at hlt
        · exact ht.noService q hq
      · intro q hq
        rcases List.mem_cons.mp hq with rfl | hq
        · rw [suspends_kind]; exact hlt
        · exact lt_trans (hl q hq) hlt
    · rename_i hlt
      refine .inr ?_
      have hne : priority top.kind ≠ priority c.kind := fun e => habs top (by simp) (priority_inj e)
      have hgt : priority c.kind < priority top.kind := by omega
      have hserv : c.kind ≠ .service := by
        intro e; rw [e] at hgt; cases hk : top.kind <;> rw [hk] at hgt <;> simp [priority] at hgt
      simp only [hch, insertBelow, hlt, if_false]
      refine ⟨chainSound_cons.mpr ⟨insertBelow_tail (c := { c with state := .suspended }) ht rfl hserv
        (fun q hq => habs q (by simp [hq])), ?_, htop, hsound⟩, rfl⟩
      intro q hq
      rcases mem_insertBelow.mp hq with rfl | hq
      · exact hgt
      · exact hl q hq

/-- A settled chain stays settled where a sound chain with its top takes its place. -/
theorem settled_head {y : Yaw} {a b : List Context} (h : Settled y a) (hb : ChainSound b) (he : b.head? = a.head?) :
    Settled y b :=
  ⟨hb, by rw [he]; exact h.free, by rw [he]; exact h.moving⟩

theorem insert_settled (st : List Int) {c : Context} {y : Yaw} (h : Settled y y.chain) (hc : MayInsert y c) :
    Settled y (y.insert st c).1.chain := by
  rcases insert_chain st h.sound hc with h' | ⟨h', he⟩
  · exact h'
  · exact settled_head h h' he

/-! ## Removal and re-evaluation -/

theorem remove_only (st : List Int) (k : Kind) (y : Yaw) : chainOnly y (y.remove st k).1 := by
  unfold Yaw.remove
  split
  · rfl
  · split
    · rfl
    · split <;> rfl

theorem remove_chain (st : List Int) (k : Kind) {y : Yaw} (h : ChainSound y.chain) :
    Settled y (y.remove st k).1.chain ∨
      ChainSound (y.remove st k).1.chain ∧ (y.remove st k).1.chain.head? = y.chain.head? := by
  unfold Yaw.remove
  split
  · rename_i hch; exact .inr ⟨h, rfl⟩
  · rename_i top rest hch
    rw [hch] at h
    obtain ⟨ht, hl, htop, hsound⟩ := chainSound_cons.mp h
    split
    · exact .inl (settled_congr (evaluate_settled st false (y := { y with chain := rest })
        (mayEvaluate_tail _ ht)) rfl rfl rfl)
    · rename_i hk
      split
      · refine .inr ?_
        have hf : (top :: rest).filter (fun c => !(c.kind == k)) = top :: rest.filter (fun c => !(c.kind == k)) :=
          List.filter_cons_of_pos (by simpa using hk)
        simp only [hch, hf]
        refine ⟨chainSound_cons.mpr ⟨⟨ht.ordered.filter _, ?_, ?_⟩, ?_, htop, hsound⟩, rfl⟩
        · intro q hq; exact ht.suspended q (List.mem_of_mem_filter hq)
        · intro q hq; exact ht.noService q (List.mem_of_mem_filter hq)
        · intro q hq; exact hl q (List.mem_of_mem_filter hq)
      · exact .inr ⟨by rw [hch]; exact h, rfl⟩

theorem remove_settled (st : List Int) (k : Kind) {y : Yaw} (h : Settled y y.chain) :
    Settled y (y.remove st k).1.chain := by
  rcases remove_chain st k h.sound with h' | ⟨h', he⟩
  · exact h'
  · exact settled_head h h' he

theorem rehold_only (st : List Int) (y : Yaw) : chainOnly y (y.rehold st).1 := by
  unfold Yaw.rehold
  split
  · rfl
  · dsimp only
    split
    · rfl
    · split <;> rfl
    · split
      · split
        · exact remove_only st _ y
        · rfl
      · rfl

/-- Re-evaluating the holds settles a sound chain (R134). -/
theorem rehold_settled (st : List Int) {y : Yaw} (h : ChainSound y.chain) : Settled y (y.rehold st).1.chain := by
  unfold Yaw.rehold
  split
  · rename_i hch; rw [hch]; exact settled_nil y
  · rename_i top rest hch
    rw [hch] at h
    obtain ⟨ht, hl, htop, hsound⟩ := chainSound_cons.mp h
    dsimp only
    split
    · rename_i hs; exact absurd hs htop
    · rename_i hs
      split
      · rw [hch]
        refine held_settled y ht hl (fun hk => ?_) hs
        have := hsound.service hk; rw [hs] at this; cases this
      · refine settled_congr (evaluate_settled st false ?_) rfl rfl rfl
        rw [hch]
        refine ⟨ht, hl, fun hk => ?_⟩
        have := hsound.service hk; rw [hs] at this; cases this
    · rename_i hns hnh
      split
      · split
        · rename_i hk
          have hrem : (y.remove st .service).1.chain = (Yaw.evaluate st false { y with chain := rest }).1.chain := by
            unfold Yaw.remove; rw [hch]; simp [hk]
          rw [hrem]
          exact settled_congr (evaluate_settled st false (y := { y with chain := rest })
            (mayEvaluate_tail _ ht)) rfl rfl rfl
        · rename_i hk; exact held_settled y ht hl hk rfl
      · rename_i hholds
        simp only [Bool.or_eq_true, not_or, Bool.not_eq_true] at hholds
        rw [hch]
        refine ⟨chainSound_cons.mpr ⟨ht, hl, htop, hsound⟩, ?_, ?_⟩
        · intro x hx _; cases hx; exact hholds.1
        · intro x hx hm
          cases hx
          obtain ⟨d, hd⟩ := Option.isSome_iff_exists.mp (hsound.moving hm)
          refine ⟨d, hd, ?_⟩
          have := hholds.2
          simp only [Yaw.directionHold, hd, hm, reduceCtorEq, and_false, if_false, Bool.and_true] at this
          exact this

end Sys2Proof.Machine
end

