-- ==== Sys2Proof/Laws/Drives.lean ====
section
/-! SUPPORT. The brake, the drives and the views after every event of the yaw motion unit; every event keeps it sound. -/

namespace Sys2Proof.Machine

/-! ## The brake and the drives follow (R145, R146, R148) -/

/-- What a unit needs for the brake and the drives to follow: a settled chain, and no run short of RELEASED. -/
structure Followable (y : Yaw) : Prop where
  chain : Settled y y.chain
  run : y.run.isSome = true → y.brake = .released

/-- The brake and the run after they have followed; the drives are synchronised after it. -/
def followed (y : Yaw) : Yaw :=
  match y.brake, y.wants with
  | .applied, some _ => { y with brake := .releasing, brakeTimer := some 3000 }
  | .releasing, none => y.applies
  | .released, none => (y.setRun none).applies
  | .released, some d => y.drive d
  | _, _ => y

theorem follow_eq (y : Yaw) :
    y.follow = { followed y with drives := (followed y).drives.map (Drive.sync (followed y).run.isSome) } := rfl

/-- What a unit keeps while the brake and the drives follow. -/
def followKeeps (y z : Yaw) : Prop :=
  z = { y with brake := z.brake, brakeTimer := z.brakeTimer, settle := z.settle, run := z.run, stall := z.stall }

theorem drive_keeps (y : Yaw) (d : Dir) : followKeeps y (y.drive d) := by
  unfold Yaw.drive
  split
  · split
    · split <;> rfl
    · rfl
  · split <;> rfl
  · split <;> rfl

theorem followed_keeps (y : Yaw) : followKeeps y (followed y) := by
  unfold followed
  split <;> first | rfl | exact drive_keeps _ _

theorem sync_healthy (b : Bool) (d : Drive) : (d.sync b).healthy = d.healthy := by
  unfold Drive.sync
  split
  · rename_i h; cases b <;> simp [Drive.healthy] at h ⊢ <;> split at h <;> simp_all
  · rfl

theorem sync_running (b : Bool) (d : Drive) :
    (d.sync b).state = .running ↔ b = true ∧ (d.sync b).healthy = true := by
  rw [sync_healthy]
  unfold Drive.sync
  split
  · rename_i h; cases b <;> simp [h]
  · rename_i h
    cases hd : d.state <;> simp_all [Drive.healthy]

theorem healthy_map {y : Yaw} {f : Drive → Drive} (h : ∀ d, (f d).healthy = d.healthy) :
    ({ y with drives := y.drives.map f } : Yaw).healthy = y.healthy := by
  simp only [Yaw.healthy, Eight.toList, Eight.map]
  have : ∀ l : List Drive, ((l.map f).filter Drive.healthy).length = (l.filter Drive.healthy).length := by
    intro l
    induction l with
    | nil => rfl
    | cons a b ih => simp only [List.map_cons, List.filter_cons, h]; split <;> simp [ih]
  exact this [y.drives.x0, y.drives.x1, y.drives.x2, y.drives.x3, y.drives.x4, y.drives.x5, y.drives.x6, y.drives.x7]

/-- What wanting motion looks at. -/
theorem wants_congr {y z : Yaw} (hc : z.chain = y.chain) (hh : z.healthy = y.healthy) (hs : z.supply = y.supply) :
    z.wants = y.wants := by
  unfold Yaw.wants Yaw.rate
  rw [hc, hh, hs]

theorem blocked_congr {y z : Yaw} (hh : z.held = y.held) (ht : z.twist = y.twist) (d : Dir) :
    z.blocked d = y.blocked d := by
  simp only [Yaw.blocked, Yaw.guards, ht]
  cases d <;> simp only [Yaw.forbids, hh]

/-- What runs after motion is wanted in a direction runs in it, and it is not blocked (R148). -/
theorem drive_run {y : Yaw} {w d : Dir} (h : (y.drive w).run = some d) : w = d ∧ y.blocked d = false := by
  unfold Yaw.drive at h
  split at h
  · rename_i r _ hrun
    split at h
    · rename_i hrw
      subst hrw
      split at h
      · cases h
      · rename_i hbl
        rw [hrun] at h
        cases h
        exact ⟨rfl, by simpa using hbl⟩
    · cases h
  · rename_i hrun hset
    split at h
    · rw [hrun] at h; cases h
    · rename_i hbl; cases h; exact ⟨rfl, by simpa using hbl⟩
  · rename_i q hrun hset
    split at h
    · rename_i hc; cases h; exact ⟨rfl, hc.2⟩
    · rw [hrun] at h; cases h

theorem drive_brake (y : Yaw) (w : Dir) : (y.drive w).brake = y.brake := by
  unfold Yaw.drive
  repeat' split
  all_goals rfl

/-- The run that is left when the brake and the drives have followed. -/
theorem followed_run {y : Yaw} (h : y.run.isSome = true → y.brake = .released) {d : Dir}
    (hr : (followed y).run = some d) :
    (followed y).brake = .released ∧ y.wants = some d ∧ y.blocked d = false := by
  have hn : y.brake ≠ .released → y.run = none := fun hb => by
    cases hq : y.run with
    | none => rfl
    | some r => exact absurd (h (by simp [hq])) hb
  unfold followed at hr ⊢
  cases hb : y.brake <;> cases hw : y.wants <;> rw [hb, hw] at hr <;>
    simp only [hb, ne_eq, reduceCtorEq, not_false_eq_true, forall_const, not_true_eq_false, false_implies] at hn
  all_goals simp only [Yaw.applies, Yaw.setRun, hn] at hr
  all_goals first
    | cases hr
    | skip
  rename_i w
  obtain ⟨rfl, hbl⟩ := drive_run hr
  exact ⟨by rw [drive_brake]; exact hb, rfl, hbl⟩

/-! ## A whole event (`setYaw`) -/

theorem initial_wants_none {y : Yaw} (h : y.run = none) : ∀ d, y.run ≠ some d := fun d e => by rw [h] at e; cases e

/-- What an event of the yaw motion unit leaves, from what its own part of it left. -/
theorem setYaw_ym (raises : List Ev) (w : YawWork) (s : State) :
    (setYaw raises w s).1.ym =
      { w.1.follow with
        lowView := decide (w.1.follow.healthy < 4), blockedView := w.1.follow.blockedDir.isSome } := rfl

theorem follow_keeps (y : Yaw) :
    y.follow =
      { y with
        brake := y.follow.brake, brakeTimer := y.follow.brakeTimer, settle := y.follow.settle, run := y.follow.run
        stall := y.follow.stall, drives := y.follow.drives } := by
  have h := followed_keeps y
  rw [follow_eq]
  simp only [followKeeps] at h
  rw [h]

theorem follow_healthy (y : Yaw) : y.follow.healthy = y.healthy := by
  rw [follow_eq, healthy_map (sync_healthy _)]
  have h := followed_keeps y
  simp only [followKeeps] at h
  rw [h]; rfl

theorem follow_drives (y : Yaw) (n : Fin 8) :
    (y.follow.drives.get n).state = .running ↔
      y.follow.run.isSome = true ∧ (y.follow.drives.get n).healthy = true := by
  rw [follow_eq]
  simp only [Eight.get_map]
  exact sync_running _ _

theorem follow_run (y : Yaw) : y.follow.run = (followed y).run := rfl

theorem follow_brake (y : Yaw) : y.follow.brake = (followed y).brake := rfl

theorem follow_wants (y : Yaw) : y.follow.wants = y.wants :=
  wants_congr (by rw [follow_keeps]) (follow_healthy y) (by rw [follow_keeps])

theorem follow_blocked (y : Yaw) (d : Dir) : y.follow.blocked d = y.blocked d :=
  blocked_congr (by rw [follow_keeps]) (by rw [follow_keeps]) d

/-- A followable unit that has followed is followable. -/
theorem follow_followable {y : Yaw} (h : Followable y) : Followable y.follow := by
  refine ⟨?_, ?_⟩
  · rw [show y.follow.chain = y.chain by rw [follow_keeps]]
    exact settled_congr h.chain (by rw [follow_keeps]) (by rw [follow_keeps]) (by rw [follow_keeps])
  · intro hr
    obtain ⟨d, hd⟩ := Option.isSome_iff_exists.mp hr
    exact (followed_run h.run hd).1

/-- An event of the yaw motion unit leaves it sound, where its own part leaves it followable (R129 to R148). -/
theorem setYaw_keeps {raises : List Ev} {w : YawWork} {s : State} (h : Followable w.1) :
    (setYaw raises w s).1.ym.sound := by
  rw [setYaw_ym]
  have hf := follow_followable h
  have hset : Settled { w.1.follow with
      lowView := decide (w.1.follow.healthy < 4), blockedView := w.1.follow.blockedDir.isSome } w.1.follow.chain :=
    settled_congr hf.chain rfl rfl rfl
  refine ⟨hset.sound, hset.free, hset.moving, ?_, ?_, ?_, ?_⟩
  · intro d hd
    obtain ⟨h1, h2, h3⟩ := followed_run h.run hd
    refine ⟨h1, ?_, ?_⟩
    · exact (wants_congr (y := w.1.follow) rfl rfl rfl).trans ((follow_wants _).trans h2)
    · exact (blocked_congr (y := w.1.follow) rfl rfl d).trans ((follow_blocked _ d).trans h3)
  · exact follow_drives w.1
  · rfl
  · rfl

/-! ## What each event's own part leaves -/

theorem Yaw.sound.followable {y : Yaw} (h : y.sound) : Followable y :=
  ⟨⟨h.chain, h.free, h.moving⟩, fun hr => by
    obtain ⟨d, hd⟩ := Option.isSome_iff_exists.mp hr
    exact (h.run d hd).1⟩

/-- A unit whose chain alone moved, to a settled one, is followable. -/
theorem chainOnly.followable {y z : Yaw} (h : chainOnly y z) (hs : Settled y z.chain)
    (hr : y.run.isSome = true → y.brake = .released) : Followable z := by
  refine ⟨h.settled hs, ?_⟩
  simp only [chainOnly] at h
  rw [h]; exact hr

theorem chainOnly.trans {y z x : Yaw} (h : chainOnly y z) (g : chainOnly z x) : chainOnly y x := by
  simp only [chainOnly] at h g ⊢
  rw [g, h]

theorem mayInsert_auto {y : Yaw} {c : Context} (h : y.inChain c.kind = false) (hk : c.kind ≠ .service) : MayInsert y c :=
  ⟨h, fun e => absurd e hk⟩

theorem insert_followable (st : List Int) {c : Context} {y : Yaw} (h : Followable y) (hc : MayInsert y c) :
    Followable (y.insert st c).1 :=
  (insert_only st c y).followable (insert_settled st h.chain hc) h.run

theorem remove_followable (st : List Int) (k : Kind) {y : Yaw} (h : Followable y) : Followable (y.remove st k).1 :=
  (remove_only st k y).followable (remove_settled st k h.chain) h.run

/-- Re-evaluating the holds leaves a unit followable where only its limits, its supply, its twist or F moved. -/
theorem rehold_followable (st : List Int) {y : Yaw} (hc : ChainSound y.chain)
    (hr : y.run.isSome = true → y.brake = .released) : Followable (y.rehold st).1 :=
  (rehold_only st y).followable (rehold_settled st hc) hr

theorem thenDo_fst (w : YawWork) (f : Yaw → YawWork) : (w.thenDo f).1 = (f w.1).1 := rfl

theorem followPark_chain (st : List Int) {y : Yaw} (h : ChainSound y.chain) :
    ChainSound (y.followPark st).1.chain ∧ chainOnly y (y.followPark st).1 := by
  unfold Yaw.followPark
  split
  · rename_i hc
    refine ⟨?_, insert_only _ _ _⟩
    rcases insert_chain st h (c := parkContext) (mayInsert_auto hc.2 (by decide)) with h' | ⟨h', _⟩
    · exact h'.sound
    · exact h'
  · split
    · refine ⟨?_, remove_only _ _ _⟩
      rcases remove_chain st .park h with h' | ⟨h', _⟩
      · exact h'.sound
      · exact h'
    · exact ⟨h, rfl⟩

theorem atGoal_followable (st : List Int) {y : Yaw} (h : Followable y) : Followable (y.atGoal st).1 := by
  unfold Yaw.atGoal
  split
  · exact h
  · split
    · exact remove_followable st _ h
    · exact h

/-- A top put in the place of one of its kind, where it is settled, leaves the unit followable. -/
theorem top_followable {y : Yaw} (h : Followable y) {chain : List Context} (hs : Settled y chain) :
    Followable { y with chain := chain } :=
  chainOnly.followable (y := y) rfl hs h.run

theorem settled_tail {y : Yaw} {top : Context} {rest : List Context} (h : Settled y (top :: rest)) :
    Tail rest ∧ ∀ q ∈ rest, priority q.kind < priority top.kind :=
  let hc := chainSound_cons.mp h.sound
  ⟨hc.1, hc.2.1⟩

theorem atArrival_followable (st : List Int) {y : Yaw} (h : Followable y) : Followable (y.atArrival st).1 := by
  unfold Yaw.atArrival
  split
  · rename_i top rest hd hch hh
    have hset : Settled y (top :: rest) := by rw [← hch]; exact h.chain
    obtain ⟨ht, hl⟩ := settled_tail hset
    split
    · rename_i t htgt hst
      split
      · split
        · rename_i hk
          exact top_followable h (watches_settled y ht hl (.inl hk) (hset.free top rfl (.inr hst)))
        · rename_i hk
          exact top_followable h (watches_settled y ht hl (.inr hk) (hset.free top rfl (.inr hst)))
        · exact remove_followable st _ h
        · exact h
      · exact h
    · exact h
  · exact h

theorem atFiltered_followable (st : List Int) {y : Yaw} (h : Followable y) : Followable (y.atFiltered st).1 := by
  unfold Yaw.atFiltered
  split
  · rename_i top rest hd hch hh
    have hset : Settled y (top :: rest) := by rw [← hch]; exact h.chain
    obtain ⟨ht, hl⟩ := settled_tail hset
    split
    · rename_i hc
      exact top_followable h (evalPark_settled st y ht hl hc.1 (by rw [hc.1]; exact hc.2.2.1))
    · split
      · rename_i hc
        exact top_followable h (heads_settled y ht hl (by rw [hc.1]; decide) (hset.free top rfl (.inl hc.2.1)) _ _)
      · split
        · exact rehold_followable st h.chain.sound h.run
        · exact h
  · split
    · exact rehold_followable st h.chain.sound h.run
    · exact h
  · exact h

theorem watchStall_followable {y : Yaw} (h : Followable y) : Followable y.watchStall.1 := by
  have hk : y.watchStall.1 = { y with stall := y.watchStall.1.stall } := by
    unfold Yaw.watchStall
    split
    · split
      · rfl
      · split
        · rfl
        · split <;> rfl
    · rfl
  rw [hk]
  exact ⟨settled_congr h.chain rfl rfl rfl, h.run⟩

/-- Drives replaced leave a unit followable. -/
theorem drives_followable {y : Yaw} (h : Followable y) (v : Eight Drive) (b : Bool) :
    Followable { y with drives := v, lowView := b } :=
  ⟨settled_congr h.chain rfl rfl rfl, h.run⟩

theorem readLine_followable (lines : BitVec 8) {w : YawWork} (h : Followable w.1) (n : Fin 8) :
    Followable (Yaw.readLine lines w n).1 := drives_followable h _ _

theorem atPressure_followable {y : Yaw} (h : Followable y) (bar : Nat) : Followable (y.atPressure bar) := by
  have hn : y.brake ≠ .released → y.run = none := fun hb => by
    cases hq : y.run with
    | none => rfl
    | some r => exact absurd (h.run (by simp [hq])) hb
  unfold Yaw.atPressure
  dsimp only
  split
  · rename_i hb
    split
    · exact ⟨settled_congr h.chain rfl rfl rfl, fun _ => rfl⟩
    · exact ⟨settled_congr h.chain rfl rfl rfl, h.run⟩
  · rename_i hb
    split
    · refine ⟨settled_congr h.chain rfl rfl rfl, fun hr => ?_⟩
      rw [show ({ y with pressure := bar, brake := .applied, brakeTimer := none } : Yaw).run = y.run from rfl,
        hn (by rw [hb]; decide)] at hr
      cases hr
    · exact ⟨settled_congr h.chain rfl rfl rfl, h.run⟩
  · exact ⟨settled_congr h.chain rfl rfl rfl, h.run⟩
  · exact ⟨settled_congr h.chain rfl rfl rfl, h.run⟩

theorem brakeTimer_followable {y : Yaw} (h : Followable y) :
    Followable (if y.brake = .releasing then y.applies else { y with brakeTimer := none }) := by
  split
  · rename_i hb
    refine ⟨settled_congr h.chain rfl rfl rfl, fun hr => ?_⟩
    have := h.run hr; rw [hb] at this; cases this
  · exact ⟨settled_congr h.chain rfl rfl rfl, h.run⟩

/-! ## Every event -/

theorem followTracking_keeps {s : State} (h : s.ym.sound) (on : Bool) : (followTracking on s).1.ym.sound := by
  unfold followTracking
  split
  · rename_i hc
    exact setYaw_keeps (insert_followable _ h.followable (mayInsert_auto (c := trackContext) hc.2 (by decide)))
  · split
    · exact setYaw_keeps (remove_followable _ _ h.followable)
    · exact h

theorem initial_ym (st : List Int) (on : Bool) {y : Yaw} (hc : y.chain = []) (hr : y.run = none)
    (hd : ∀ n : Fin 8, (y.drives.get n).state ≠ .running) (hb : y.blockedView = false)
    (hl : y.lowView = decide (y.healthy < 4)) (hs : y.supply ≠ .low) (hh : y.held = 0) :
    (if on then y.insert st trackContext else (y, [])).1.sound := by
  have base : ∀ z : Yaw, chainOnly y z → Settled y z.chain → z.blockedDir = none → z.sound := by
    intro z hz hset hbl
    have hset := hz.settled hset
    have hrun : z.run = none := by rw [hz]; exact hr
    refine ⟨hset.sound, hset.free, hset.moving, fun d hd => (by rw [hrun] at hd; cases hd), fun n => ?_, ?_, ?_⟩
    · rw [hrun]
      have : (z.drives.get n).state ≠ .running := by rw [hz]; exact hd n
      simp [this]
    · rw [hbl, hz]; exact hb
    · rw [hz]; exact hl
  have hfree : y.freeHold .track = false := by
    simp only [Yaw.freeHold, Yaw.hold, Yaw.holdAuto, hh, hasBit]
    cases hsu : y.supply <;> simp_all
  cases on with
  | false => exact base y rfl (by rw [hc]; exact settled_nil y) (by simp [Yaw.blockedDir, hc])
  | true =>
    have hev : (y.insert st trackContext).1.chain = [trackContext.watches] := by
      unfold Yaw.insert
      rw [hc]
      simp only [Yaw.evaluate, evalChain]
      rw [if_neg]
      · rfl
      · intro hcon
        have hf : ({ y with chain := [trackContext] } : Yaw).freeHold trackContext.kind = y.freeHold .track := rfl
        rw [hf, hfree] at hcon
        cases hcon.1
    refine base _ (insert_only _ _ _) ?_ ?_
    · refine insert_settled st (by rw [hc]; exact settled_nil y) (mayInsert_auto ?_ (by decide))
      simp [Yaw.inChain, hc]
    · simp only [Yaw.blockedDir]
      split
      · rfl
      · rename_i top rest hch
        simp only [if_true] at hch
        rw [hev] at hch
        cases hch
        simp [Context.watches]

theorem takeColdStart_ym (straps : Fin 4) (s : State) : (takeColdStart straps s).1.ym.sound := by
  simp only [takeColdStart, startTracking]
  exact initial_ym _ _ rfl rfl (by decide) rfl (by decide) (by decide) rfl

theorem afterReset_state (d : Drive) : d.afterReset.state ≠ .running := by
  simp only [Drive.afterReset]
  split <;> simp

theorem takeWarmStart_ym (d : Nat) (straps : Fin 4) (s : State) : (takeWarmStart d straps s).1.ym.sound := by
  have hz : (s.warmValues straps).ym = s.ym.afterReset := by
    simp only [State.warmValues]; rw [askRetained_eq]
  simp only [takeWarmStart, startTracking, hz]
  exact initial_ym _ _ rfl rfl
    (fun n => by
      rw [show (s.ym.afterReset.drives.get n) = (s.ym.drives.get n).afterReset from Eight.get_map _ _ _]
      exact afterReset_state _)
    rfl rfl (by show SupplyState.aux ≠ .low; decide) rfl

theorem serve_keeps_yaw {s : State} (h : s.ym.sound) (l : Link) (r : Request) : (serve l r s).state.ym.sound := by
  have hf := h.followable
  by_cases hp : r.part = .ym
  · cases r with
    | startUnwind =>
      simp only [serve, serveStartUnwind]
      split
      · exact h
      · rename_i hc
        split
        · exact h
        · exact setYaw_keeps (raises := []) (w := ((s.ym.insert s.settings _).1, _))
            (insert_followable _ hf (mayInsert_auto (by simpa [unwindContext] using hc) (by simp [unwindContext])))
    | yawGoto g =>
      simp only [serve, serveYawGoto]
      repeat' split
      all_goals try exact h
      rename_i hc hs _ _ _ _ hb
      simp only [Bool.not_eq_true] at hc hb
      refine setYaw_keeps (raises := []) (insert_followable _ hf ⟨by simpa [serviceContext] using hc, fun _ => ⟨?_, _, rfl, hb⟩⟩)
      simp only [not_or, Bool.not_eq_true] at hs
      simp [Yaw.freeHold, hs.1, hs.2]
    | yawJog d n =>
      simp only [serve, serveYawJog]
      repeat' split
      all_goals try exact h
      rename_i hc hs hb
      simp only [Bool.not_eq_true] at hc hb
      refine setYaw_keeps (raises := []) (insert_followable _ hf ⟨by simpa [serviceContext] using hc, fun _ => ⟨?_, _, rfl, hb⟩⟩)
      simp only [not_or, Bool.not_eq_true] at hs
      simp [Yaw.freeHold, hs.1, hs.2]
    | serviceStop =>
      simp only [serve, serveServiceStop]
      repeat' split
      all_goals first | exact h | exact setYaw_keeps (raises := []) (remove_followable _ _ hf)
    | driveIsolate n =>
      simp only [serve, serveDriveIsolate]
      repeat' split
      all_goals first | exact h | exact setYaw_keeps (raises := []) (drives_followable hf _ _)
    | driveReturn n =>
      simp only [serve, serveDriveReturn]
      repeat' split
      all_goals first
        | exact h
        | exact setYaw_keeps (raises := []) (drives_followable hf _ _)
    | _ => exact nomatch hp
  · by_cases hs : r.part = .settings
    · cases r with
      | setTracking on =>
        simp only [serve, serveSetTracking]
        split
        · exact h
        · exact followTracking_keeps (by exact h) on
      | setSetting id v =>
        simp only [serve, serveSetSetting]
        repeat' split
        all_goals try exact h
        all_goals
          simp only [Served.did, settingActs]
          split
          · exact followTracking_keeps (by exact h) _
          · exact h
          · exact h
      | _ => exact nomatch hs
    · rw [touched_ym (serve_touches l r s) hp r.part_ne_everything hs]; exact h

theorem readLines_followable (lines : BitVec 8) (ns : List (Fin 8)) :
    ∀ w : YawWork, Followable w.1 → Followable (ns.foldl (Yaw.readLine lines) w).1 := by
  induction ns with
  | nil => intro w hw; exact hw
  | cons n rest ih => intro w hw; exact ih _ (readLine_followable lines hw n)

theorem takeFaultLines_keeps {s : State} (h : s.ym.sound) (lines : BitVec 8) : (takeFaultLines lines s).1.ym.sound := by
  have := readLines_followable lines eightIndices (s.ym, []) h.followable
  unfold takeFaultLines
  generalize eightIndices.foldl (Yaw.readLine lines) (s.ym, []) = w at this ⊢
  exact setYaw_keeps (w := (w.1, [])) this

theorem takePressure_keeps {s : State} (h : s.ym.sound) (bar : Nat) : (takePressure bar s).1.ym.sound :=
  setYaw_keeps (raises := []) (w := (s.ym.atPressure bar, [])) (atPressure_followable h.followable bar)

theorem takeBrakeTimer_keeps {s : State} (h : s.ym.sound) : (takeBrakeTimer s).1.ym.sound := by
  unfold takeBrakeTimer
  split
  · exact h
  · exact setYaw_keeps (w := (_, [])) (brakeTimer_followable h.followable)

theorem takeSettleEnd_keeps {s : State} (h : s.ym.sound) : (takeSettleEnd s).1.ym.sound := by
  unfold takeSettleEnd
  split
  · exact h
  · exact setYaw_keeps (w := (_, [])) ⟨settled_congr h.followable.chain rfl rfl rfl, h.followable.run⟩

/-- Every event keeps the yaw motion unit sound (R129 to R150). -/
theorem handle_keeps_yaw {s : State} (h : s.ym.sound) (e : Ev) : (handle e s).1.ym.sound := by
  have hf := h.followable
  by_cases hp : e.part = .ym
  · cases e with
    | ymLimits f =>
      have hk := followPark_chain s.settings (y := { s.ym with held := f }) h.chain
      refine setYaw_keeps ?_
      rw [thenDo_fst]
      refine rehold_followable _ hk.1 ?_
      have := hk.2
      simp only [chainOnly] at this
      rw [this]; exact hf.run
    | ymSupply st => exact setYaw_keeps (rehold_followable _ (y := { s.ym with supply := st }) h.chain hf.run)
    | ymHeading hd t =>
      have h1 := rehold_followable s.settings (y := { s.ym with heading := hd.or s.ym.heading, twist := t }) h.chain
        hf.run
      exact setYaw_keeps (watchStall_followable (follow_followable
        (atArrival_followable s.settings (atGoal_followable s.settings h1))))
    | ymFiltered f =>
      exact setYaw_keeps (atFiltered_followable _ (y := { s.ym with filtered := f })
        ⟨settled_congr hf.chain rfl rfl rfl, hf.run⟩)
    | ymMove t d =>
      simp only [handle, takeMove]
      split
      · exact h
      · rename_i top rest hch
        split
        · rename_i hc
          have hset : Settled s.ym (top :: rest) := by rw [← hch]; exact hf.chain
          obtain ⟨ht, hl⟩ := settled_tail hset
          exact setYaw_keeps (w := (_, _)) (top_followable hf
            (heads_settled s.ym ht hl (by rw [hc.1]; decide) (hset.free top rfl (.inl hc.2)) _ _))
        · exact h
    | ymUnwind g d =>
      simp only [handle, takeUnwind]
      split
      · exact h
      · rename_i hc
        exact setYaw_keeps (insert_followable _ hf (mayInsert_auto (by simpa [unwindContext] using hc)
          (by simp [unwindContext])))
    | ymDriveRetired n => exact setYaw_keeps (drives_followable hf _ _)
    | ymJogEnd =>
      simp only [handle, takeJogEnd]
      split
      · exact setYaw_keeps (remove_followable _ _ hf)
      · exact h
    | ymFaultLines lines => exact takeFaultLines_keeps h lines
    | ymPressure bar => exact takePressure_keeps h bar
    | ymBrakeTimer => exact takeBrakeTimer_keeps h
    | ymSettleEnd => exact takeSettleEnd_keeps h
    | _ => exact nomatch hp
  · by_cases he : e.part = .everything
    · cases e with
      | lkServe l r =>
        simp only [handle, takeServe]
        split
        · exact takeWarmStart_ym (restartDetail l) _ s
        · exact serve_keeps_yaw h l r
      | coldStart straps => exact takeColdStart_ym straps s
      | lineRelease straps => exact takeWarmStart_ym 1 straps _
      | _ => exact nomatch he
    · rw [touched_ym (handle_touches e s) hp he (by cases e <;> exact fun h => nomatch h)]; exact h

/-! ## The clock -/

theorem tick_kind (c : Context) : c.tick.kind = c.kind := by unfold Context.tick; split <;> rfl

theorem tick_state (c : Context) : c.tick.state = c.state := by unfold Context.tick; split <;> rfl

theorem tick_dir (c : Context) : c.tick.dir = c.dir := by unfold Context.tick; split <;> rfl

theorem tick_sound {c : Context} (h : c.sound) : c.tick.sound :=
  ⟨fun hk => by rw [tick_state]; exact h.service (by rwa [tick_kind] at hk),
   fun hk => by rw [tick_state]; exact h.unwind (by rwa [tick_kind] at hk),
   fun hs => by
    have hw := h.watching (by rwa [tick_state] at hs)
    have ht : c.tick = c := by unfold Context.tick; rw [hw.2]
    rw [ht]; exact hw,
   fun hs => by rw [tick_dir]; exact h.moving (by rwa [tick_state] at hs)⟩

theorem tick_chain {chain : List Context} (h : ChainSound chain) : ChainSound (chain.map Context.tick) := by
  refine ⟨?_, ?_, ?_, ?_⟩
  · rw [List.pairwise_map]
    refine h.ordered.imp ?_
    intro a b hab; rw [tick_kind, tick_kind]; exact hab
  · intro c hc
    rw [← List.map_drop] at hc
    obtain ⟨x, hx, rfl⟩ := List.mem_map.mp hc
    rw [tick_state]; exact h.below x hx
  · intro c hc
    rw [List.head?_map] at hc
    obtain ⟨x, hx, rfl⟩ := Option.mem_map.mp hc
    rw [tick_state]; exact h.top x hx
  · intro c hc
    obtain ⟨x, hx, rfl⟩ := List.mem_map.mp hc
    exact tick_sound (h.contexts x hx)

/-- The clock keeps the yaw motion unit sound. -/
theorem tick_keeps_yaw {y : Yaw} (h : y.sound) : y.tick.sound := by
  have hw : y.tick.wants = y.wants := by
    unfold Yaw.wants
    rw [show y.tick.rate = y.rate from rfl]
    split
    · rfl
    · simp only [Yaw.tick]
      cases y.chain with
      | nil => rfl
      | cons c rest => simp only [List.map_cons, tick_state, tick_dir]
  have hb : y.tick.blockedDir = y.blockedDir := by
    unfold Yaw.blockedDir
    simp only [Yaw.tick]
    cases y.chain with
    | nil => rfl
    | cons c rest =>
      simp only [List.map_cons, tick_state, tick_dir, tick_kind]
      rfl
  refine ⟨tick_chain h.chain, ?_, ?_, ?_, h.drives, ?_, h.lowView⟩
  · intro c hc hs
    simp only [Yaw.tick, List.head?_map] at hc
    obtain ⟨x, hx, rfl⟩ := Option.mem_map.mp hc
    rw [tick_state] at hs
    rw [tick_kind]; exact h.free x hx hs
  · intro c hc hs
    simp only [Yaw.tick, List.head?_map] at hc
    obtain ⟨x, hx, rfl⟩ := Option.mem_map.mp hc
    rw [tick_state] at hs
    rw [tick_dir]; exact h.moving x hx hs
  · intro d hd
    rw [hw]
    exact h.run d hd
  · rw [hb]; exact h.blockedView

theorem advance_keeps_yaw {s : State} (h : s.ym.sound) : s.advance.ym.sound := by
  have : s.advance.ym = s.ym.tick := by unfold State.advance; dsimp only; split <;> rfl
  rw [this]; exact tick_keeps_yaw h

end Sys2Proof.Machine
end

