-- ==== Sys2Proof/Laws/Limits.lean ====
section
/-! SUPPORT. How each operation moves the table, and that every event keeps the codes distinct and the effective limits
those of the table. -/

namespace Sys2Proof.Machine

/-! ## Codes of a table -/

/-- No two records of a table share a code (R2). -/
def distinct (table : List Record) : Prop := table.Pairwise (fun a b => a.code ≠ b.code)

theorem distinct_iff (table : List Record) : distinct table ↔ (table.map (fun q => q.code)).Nodup := by
  simp [distinct, List.Nodup, List.pairwise_map]

theorem distinct_of_codes {t u : List Record} (h : u.map (fun q => q.code) = t.map (fun q => q.code)) (ht : distinct t) :
    distinct u := by
  rw [distinct_iff] at *; rw [h]; exact ht

theorem replaceRecord_codes (r : Record) (t : List Record) :
    (replaceRecord r t).map (fun q => q.code) = t.map (fun q => q.code) := by
  simp only [replaceRecord, List.map_map]
  refine List.map_congr_left fun q _ => ?_
  simp only [Function.comp]
  split
  · rename_i h; exact h.symm
  · rfl

theorem markRead_codes (l : Link) (found t : List Record) :
    (markRead l found t).map (fun q => q.code) = t.map (fun q => q.code) := by
  simp only [markRead, List.map_map]
  refine List.map_congr_left fun q _ => ?_
  simp only [Function.comp]
  split <;> rfl

theorem insertRecord_perm (r : Record) (t : List Record) : (insertRecord r t).Perm (r :: t) := by
  induction t with
  | nil => exact List.Perm.refl _
  | cons q rest ih =>
    simp only [insertRecord]
    split
    · exact List.Perm.refl _
    · exact (ih.cons q).trans (List.Perm.swap r q rest)

theorem mem_insertRecord {r x : Record} {t : List Record} : x ∈ insertRecord r t ↔ x = r ∨ x ∈ t := by
  rw [(insertRecord_perm r t).mem_iff, List.mem_cons]

theorem findCode_none {t : List Record} {c : Code} (h : findCode t c = none) : ∀ q ∈ t, q.code ≠ c := by
  intro q hq hc
  have := (List.find?_eq_none.mp h) q hq
  simp [hc] at this

theorem findCode_some {t : List Record} {c : Code} {q : Record} (h : findCode t c = some q) : q ∈ t ∧ q.code = c := by
  refine ⟨List.mem_of_find?_eq_some h, ?_⟩
  have := List.find?_some h
  simpa using this

theorem insert_distinct {r : Record} {t : List Record} (h : distinct t) (hr : ∀ q ∈ t, q.code ≠ r.code) :
    distinct (insertRecord r t) := by
  rw [distinct_iff] at *
  rw [((insertRecord_perm r t).map _).nodup_iff, List.map_cons, List.nodup_cons]
  refine ⟨?_, h⟩
  intro hm
  obtain ⟨q, hq, hc⟩ := List.mem_map.mp hm
  exact hr q hq hc

theorem remove_distinct {t : List Record} (h : distinct t) (c : Code) : distinct (removeCode c t) :=
  List.Pairwise.sublist List.filter_sublist h

theorem mem_removeCode {t : List Record} {c : Code} {q : Record} : q ∈ removeCode c t ↔ q ∈ t ∧ q.code ≠ c := by
  simp [removeCode]

/-! ## Limits that do not depend on marks, states and hold-offs (R33) -/

/-- What the limits read of a record. -/
def Record.seen (q : Record) : Code × Cls × Effects := (q.code, q.cls, q.eff)

theorem foldr_congr_map {β : Type} (f : Record → β → β) (b : β) {g : Record → Record} {t : List Record}
    (h : ∀ q ∈ t, ∀ acc, f (g q) acc = f q acc) : (t.map g).foldr f b = t.foldr f b := by
  induction t with
  | nil => rfl
  | cons q rest ih =>
    simp only [List.map_cons, List.foldr_cons]
    rw [ih fun x hx => h x (by simp [hx]), h q (by simp)]

/-- The limits depend on each record's code, class and effects alone. -/
theorem resolve_map {g : Record → Record} {t : List Record}
    (h : ∀ q ∈ t, (g q).code = q.code ∧ (g q).cls = q.cls ∧ (g q).eff = q.eff) : resolve (t.map g) = resolve t := by
  have hlow : lowestCap (t.map g) = lowestCap t := foldr_congr_map _ _ fun q hq acc => by rw [(h q hq).2.2]
  have hexc : excludedOf (t.map g) = excludedOf t := foldr_congr_map _ _ fun q hq acc => by rw [(h q hq).2.2]
  have hyaw : yawOf (t.map g) = yawOf t := foldr_congr_map _ _ fun q hq acc => by rw [(h q hq).2.2]
  have hboost : boostOf (t.map g) = boostOf t := foldr_congr_map _ _ fun q hq acc => by rw [(h q hq).2.2]
  have hhigh : highestOf (t.map g) = highestOf t := foldr_congr_map _ _ fun q hq acc => by rw [(h q hq).2.1]
  have htrip : tripPresent (t.map g) = tripPresent t := by
    simp only [tripPresent, List.any_map]
    rw [Bool.eq_iff_iff, List.any_eq_true, List.any_eq_true]
    constructor
    · rintro ⟨q, hq, hc⟩; exact ⟨q, hq, by simpa [(h q hq).2.1] using hc⟩
    · rintro ⟨q, hq, hc⟩; exact ⟨q, hq, by simpa [(h q hq).2.1] using hc⟩
  have hcap : capOf (t.map g) = capOf t := by simp only [capOf, hlow, htrip]
  have hfind : ∀ k : Option Nat, ((t.map g).find? (fun r => r.eff.cap == k)).map (fun r => r.code) =
      (t.find? (fun r => r.eff.cap == k)).map (fun r => r.code) := by
    intro k
    clear hlow hexc hyaw hboost hhigh htrip hcap
    induction t with
    | nil => rfl
    | cons q rest ih =>
      simp only [List.map_cons, List.find?_cons, (h q (by simp)).2.2]
      split
      · simp [(h q (by simp)).1]
      · exact ih fun x hx => h x (by simp [hx])
  simp only [resolve, hcap, hexc, hyaw, hboost, hhigh, capSourceOf, hfind]

theorem readBy_seen (l : Link) (q : Record) :
    (q.readBy l).code = q.code ∧ (q.readBy l).cls = q.cls ∧ (q.readBy l).eff = q.eff := ⟨rfl, rfl, rfl⟩

/-- Replacing a record by one that reads the same leaves the limits, where no other record has its code. -/
theorem resolve_replace {t : List Record} {q r : Record} (hd : distinct t) (hq : q ∈ t) (hc : r.code = q.code)
    (hk : r.cls = q.cls) (he : r.eff = q.eff) : resolve (replaceRecord r t) = resolve t := by
  refine resolve_map fun x hx => ?_
  split
  · rename_i hxc
    have : x = q := by
      by_contra hne
      have := (List.pairwise_iff_getElem.mp hd)
      obtain ⟨i, hi, rfl⟩ := List.getElem_of_mem hx
      obtain ⟨j, hj, rfl⟩ := List.getElem_of_mem hq
      rcases Nat.lt_trichotomy i j with h | h | h
      · exact this i j hi hj h (hxc.trans hc)
      · subst h; exact hne rfl
      · exact this j i hj hi h (hxc.trans hc).symm
    subst this
    exact ⟨hc, hk, he⟩
  · exact ⟨rfl, rfl, rfl⟩

/-! ## Every event keeps the limits those of the table -/

/-- A part of an event that keeps the codes distinct and the limits those of the table. -/
def LimitsMove (f : Act) : Prop := ∀ s, s.limitsAgree → (f s).1.limitsAgree

theorem limitsAgree_iff (s : State) : s.limitsAgree ↔ distinct s.table ∧ s.limits = resolve s.table := Iff.rfl

theorem LimitsMove.andThen {f g : Act} (hf : LimitsMove f) (hg : LimitsMove g) : LimitsMove (Act.andThen f g) :=
  fun s hs => hg _ (hf s hs)

theorem limitsMove_all {fs : List Act} (h : ∀ f ∈ fs, LimitsMove f) : LimitsMove (Act.all fs) := by
  induction fs with
  | nil => exact fun s hs => hs
  | cons f rest ih => exact (h f (by simp)).andThen (ih fun g hg => h g (by simp [hg]))

theorem limitsMove_same {f : Act} (h : ∀ s, (f s).1.table = s.table ∧ (f s).1.limits = s.limits) : LimitsMove f :=
  fun s hs => by rw [limitsAgree_iff] at *; rw [(h s).1, (h s).2]; exact hs

theorem emit_limits (evs : List Ev) : LimitsMove (Act.emit evs) := fun _ hs => hs

theorem withTable_limitsAgree {t : List Record} (ht : distinct t) (s : State) : (State.withTable t s).1.limitsAgree := ⟨ht, rfl⟩

theorem changeRecord_table (b a : Record) (s : State) :
    (changeRecord b a s).1.table = replaceRecord a s.table ∧
      (changeRecord b a s).1.limits = resolve (replaceRecord a s.table) := ⟨rfl, rfl⟩

theorem changeRecord_limits (b a : Record) : LimitsMove (changeRecord b a) := fun s hs =>
  ⟨distinct_of_codes (replaceRecord_codes a s.table) hs.1, rfl⟩

theorem cancelFor_limits (c : Code) : LimitsMove (cancelFor c) := limitsMove_same fun _ => ⟨rfl, rfl⟩

theorem setSlot_limitsMove (k : Fin 8) (v : Slot) : LimitsMove (setSlot k v) := limitsMove_same fun _ => ⟨rfl, rfl⟩

theorem noteFolded_table (c : Code) (s : State) :
    (noteFolded c s).table = s.table ∧ (noteFolded c s).limits = s.limits := by
  unfold noteFolded; split <;> exact ⟨rfl, rfl⟩

theorem takeRaise_limits (r : Raise) : LimitsMove (takeRaise r) := fun s hs => by
  unfold takeRaise
  split
  · exact ((changeRecord_limits _ _).andThen (emit_limits _)) s hs
  · rename_i hn
    have hn := findCode_none hn
    split
    · exact ⟨insert_distinct hs.1 hn, rfl⟩
    · split
      · refine ⟨insert_distinct (remove_distinct hs.1 _) fun q hq => hn q (mem_removeCode.mp hq).1, rfl⟩
      · split
        · exact hs
        · unfold foldRaise
          dsimp only
          have hf := noteFolded_table r.code s
          split
          · refine ((changeRecord_limits _ _).andThen (emit_limits _)) _ ?_
            rw [limitsAgree_iff, hf.1, hf.2]; exact hs
          · rename_i ho
            exact ⟨insert_distinct hs.1 (findCode_none ho), rfl⟩

theorem takePresent_limits (r : Raise) : LimitsMove (takePresent r) := fun s hs => by
  unfold takePresent
  split
  · exact takeRaise_limits r s hs
  · split
    · exact hs
    · exact takeRaise_limits r s hs

theorem takeAbsent_limits (c : Code) : LimitsMove (takeAbsent c) := fun s hs => by
  unfold takeAbsent
  split
  · exact hs
  · split
    · exact changeRecord_limits _ _ s hs
    · exact hs

theorem takeRefresh_limits (c : Code) (cap : Nat) : LimitsMove (takeRefresh c cap) := fun s hs => by
  unfold takeRefresh
  split
  · exact hs
  · split
    · exact hs
    · exact changeRecord_limits _ _ s hs

theorem takeEscalation_limits (c : Code) (f : Cls → Cls) (cap : Option Nat) : LimitsMove (takeEscalation c f cap) :=
  fun s hs => by
    unfold takeEscalation
    split
    · exact hs
    · dsimp only
      split
      · exact hs
      · exact changeRecord_limits _ _ s hs

theorem retireRecord_limits (c : Code) : LimitsMove (retireRecord c) := fun s hs => by
  unfold retireRecord
  exact ⟨remove_distinct hs.1 c, rfl⟩

theorem takeHoldoffEnd_limits (c : Code) : LimitsMove (takeHoldoffEnd c) := fun s hs => by
  unfold takeHoldoffEnd
  split
  · exact hs
  · split
    · exact retireRecord_limits c s hs
    · exact hs

theorem takeOffer_limits (c : Code) : LimitsMove (takeOffer c) := fun s hs => by
  unfold takeOffer
  split
  · exact hs
  · split
    · exact hs
    · unfold fire
      dsimp only
      split <;> exact hs

theorem takeAutoRetire_limits (k : Fin 8) : LimitsMove (takeAutoRetire k) := fun s hs => by
  unfold takeAutoRetire
  dsimp only
  split
  · split
    · exact retireRecord_limits _ _ hs
    · exact hs
  · exact hs

theorem takeBoostEnd_limits (k : Fin 8) : LimitsMove (takeBoostEnd k) := fun s hs => by
  unfold takeBoostEnd
  dsimp only
  split <;> exact hs

/-- Reading a record leaves the limits those of the table (R24, R26). -/
theorem lookup_limits {s : State} (hs : s.limitsAgree) (l : Link) {q : Record} (hq : q ∈ s.table) :
    State.limitsAgree { s with table := replaceRecord (q.readBy l) s.table } :=
  ⟨distinct_of_codes (replaceRecord_codes _ _) hs.1, hs.2.trans (resolve_replace (r := q.readBy l) hs.1 hq rfl rfl rfl).symm⟩

theorem scan_limits {s : State} (hs : s.limitsAgree) (l : Link) (found : List Record) :
    State.limitsAgree { s with table := markRead l found s.table } :=
  ⟨distinct_of_codes (markRead_codes l found _) hs.1, hs.2.trans (resolve_map fun q _ => by
    split
    · exact readBy_seen l q
    · exact ⟨rfl, rfl, rfl⟩).symm⟩

theorem serve_limits {s : State} (hs : s.limitsAgree) (l : Link) (r : Request) : (serve l r s).state.limitsAgree := by
  by_cases hr : r.part = .table
  case neg =>
    have ht := touched_table (serve_touches l r s) hr r.part_ne_everything
    rw [limitsAgree_iff, ht.1, ht.2.1]
    exact hs
  cases r with
  | lookup c =>
    simp only [serve, serveLookup]
    split
    · exact hs
    · rename_i q hq; exact lookup_limits hs l (findCode_some hq).1
  | scan a f =>
    simp only [serve, serveScan]
    split
    · exact hs
    · exact scan_limits hs l _
  | raise c cls d cap ls y lp =>
    simp only [serve, serveRaise]
    repeat' split
    all_goals first | exact hs | exact takeRaise_limits _ s hs
  | amend c cap ls y lp =>
    simp only [serve, serveAmend]
    repeat' split
    all_goals first | exact hs | exact changeRecord_limits _ _ s hs
  | ack c =>
    simp only [serve, serveAck]
    repeat' split
    all_goals first | exact hs | exact changeRecord_limits _ _ s hs
  | retire c =>
    simp only [serve, serveRetire]
    repeat' split
    all_goals first | exact hs | exact retireRecord_limits _ s hs
  | bind k c a lp d n => simp only [serve, serveBind]; repeat' split
                         all_goals exact hs
  | unbind k => simp only [serve, serveUnbind]; repeat' split
                all_goals exact hs
  | _ => exact nomatch hr

theorem retention_codes (u : Nat) (t : List Record) (h : distinct t) : distinct (retention u t) := by
  refine distinct_of_codes (t := t.filter keptAtReset) ?_ (List.Pairwise.sublist List.filter_sublist h)
  simp only [retention, List.map_map]
  rfl

theorem takeWarmStart_limits {s : State} (hs : s.limitsAgree) (d : Nat) (straps : Fin 4) :
    (takeWarmStart d straps s).1.limitsAgree := by
  simp only [takeWarmStart, State.warmValues]
  rw [askRetained_eq]
  exact ⟨retention_codes _ _ hs.1, rfl⟩

/-- Every event keeps the effective limits those of the table (R33, R40). -/
theorem handle_keeps_limits {s : State} (hs : s.limitsAgree) (e : Ev) : (handle e s).1.limitsAgree := by
  by_cases hp : e.part = .table
  · cases e with
    | ctRaise r => exact takeRaise_limits r s hs
    | ctPresent r => exact takePresent_limits r s hs
    | ctAbsent c => exact takeAbsent_limits c s hs
    | ctRefresh c cap => exact takeRefresh_limits c cap s hs
    | ctEscalateStep c => exact takeEscalation_limits c _ _ s hs
    | ctEscalateTo c cls cap => exact takeEscalation_limits c _ _ s hs
    | ctHoldoffEnd c => exact takeHoldoffEnd_limits c s hs
    | ruOffer c => exact takeOffer_limits c s hs
    | ruAutoRetire k => exact takeAutoRetire_limits k s hs
    | ruBoostEnd k => exact takeBoostEnd_limits k s hs
    | _ => exact nomatch hp
  · by_cases he : e.part = .everything
    · cases e with
      | lkServe l r =>
        simp only [handle, takeServe]
        split
        · exact takeWarmStart_limits hs (restartDetail l) _
        · exact serve_limits hs l r
      | coldStart straps => exact ⟨List.Pairwise.nil, rfl⟩
      | lineRelease straps =>
        exact takeWarmStart_limits (s := { s with lineAsserted := false }) hs 1 straps
      | _ => exact nomatch he
    · have ht := touched_table (handle_touches e s) hp he
      rw [limitsAgree_iff, ht.1, ht.2.1]; exact hs

/-- The clock keeps the effective limits those of the table. -/
theorem advance_keeps_limits {s : State} (hs : s.limitsAgree) : s.advance.limitsAgree := by
  unfold State.advance
  dsimp only
  split
  · refine ⟨distinct_of_codes (t := s.table) ?_ hs.1, hs.2.trans (resolve_map fun q _ => ?_).symm⟩
    · simp only [State.millisecond, List.map_map]
      refine List.map_congr_left fun q _ => ?_
      simp only [Function.comp, Record.second]
      split <;> rfl
    · simp only [Record.second]
      split <;> exact ⟨rfl, rfl, rfl⟩
  · exact hs

end Sys2Proof.Machine
end

