-- ==== Sys2Proof/Laws/Records.lean ====
section
/-! SUPPORT. The records of the table: what each change of a record leaves is sound, what every event hands on can be taken
by the table, and every event keeps the table sound. -/

namespace Sys2Proof.Machine

/-! ## Effects and classes (R4, R5) -/

theorem lowerCap_none_right (a : Option Nat) : lowerCap a none = a := by cases a <;> rfl

theorem higherCls_notice {a b : Cls} (h : higherCls a b = .notice) : a = .notice ∧ b = .notice := by
  cases a <;> cases b <;> simp_all [higherCls, clsIndex]

theorem higherCls_limit {a b : Cls} (h : higherCls a b = .limit) :
    (a = .notice ∨ a = .limit) ∧ (b = .notice ∨ b = .limit) := by
  cases a <;> cases b <;> simp_all [higherCls, clsIndex]

theorem forced_of_ne {c : Cls} (h : c ≠ .trip) (e : Effects) : forced c e = e := by simp [forced, h]

theorem forced_lanes (c : Cls) (e : Effects) : (forced c e).lanes = e.lanes := by
  unfold forced; split <;> rfl

/-- A merge of effects that fit their classes fits the merged class (R4, R5). -/
theorem merge_fits {a b : Cls} {e f : Effects} (he : effectsFit a e) (hf : effectsFit b (forced b f)) :
    effectsFit (higherCls a b) (forced (higherCls a b) (mergeEffects e f)) := by
  refine ⟨fun h => ?_, fun h => ?_, fun h => ?_⟩
  · obtain ⟨rfl, rfl⟩ := higherCls_notice h
    rw [h, forced_of_ne (by decide)]
    rw [forced_of_ne (by decide)] at hf
    rw [he.1 rfl, hf.1 rfl]; rfl
  · obtain ⟨ha, hb⟩ := higherCls_limit h
    rw [forced_lanes]
    have h1 : e.lanes = 0 := by
      rcases ha with rfl | rfl
      · rw [he.1 rfl]; rfl
      · exact he.2.1 rfl
    have h2 : f.lanes = 0 := by
      rw [← forced_lanes b f]
      rcases hb with rfl | rfl
      · rw [hf.1 rfl]; rfl
      · exact hf.2.1 rfl
    simp [mergeEffects, h1, h2]
  · simp [forced, h]

theorem effectsAllowed_fits {c : Cls} {e : Effects} (h : effectsAllowed c e = true) : effectsFit c (forced c e) := by
  refine ⟨fun hc => ?_, fun hc => ?_, fun hc => ?_⟩
  · subst hc; simpa [effectsAllowed, forced] using h
  · subst hc; simpa [effectsAllowed, forced] using h
  · simp [forced, hc]

theorem forced_fits {c : Cls} {e : Effects} (h : effectsFit c (forced c e)) (hc : c ≠ .trip) : effectsFit c e := by
  rwa [forced_of_ne hc] at h

/-! ## The raises of the catalogue (R32) -/

/-- An internal raise is sound where its effects fit its class and its code is neither OVERFLOW's nor a computed one
below LIMIT. -/
theorem internalRaise_sound {c : Code} {k : Cls} {m : RecMode} {d : Nat} {e : Effects} (he : effectsFit k (forced k e))
    (hc : c ≠ overflowCode) (hk : computedCode c → k ≠ .notice) : (internalRaise c k m d e).sound := ⟨he, hc, hk⟩

theorem not_computed_of_group {c : Code} (h : c.group ≠ 3) (h4 : c.group ≠ 4) : ¬computedCode c := by
  rintro (rfl | ⟨l, rfl⟩)
  · exact h rfl
  · exact h4 rfl

theorem fits_nothing (k : Cls) : effectsFit k (forced k Effects.nothing) := by
  cases k <;> simp [effectsFit, forced, Effects.nothing]

theorem fits_shed (e : Effects) : effectsFit .shed (forced .shed e) := by simp [effectsFit]

theorem fits_trip (e : Effects) : effectsFit .trip (forced .trip e) := by simp [effectsFit, forced]

theorem fits_limit {e : Effects} (h : e.lanes = 0) : effectsFit .limit (forced .limit e) := by
  simp [effectsFit, forced, h]

theorem spentRaise_sound (k : Fin 8) : (spentRaise k).sound :=
  internalRaise_sound (fits_nothing _) (by decide) fun h => absurd h (not_computed_of_group (by decide) (by decide))

theorem hostSilentRaise_sound (n : Nat) : (hostSilentRaise n).sound :=
  internalRaise_sound (fits_trip _) (by decide) fun _ => by decide

theorem serviceLockRaise_sound : serviceLockRaise.sound := internalRaise_sound (fits_shed _) (by decide) fun _ => by decide

theorem warmRestartRaise_sound (n : Nat) : (warmRestartRaise n).sound :=
  internalRaise_sound (fits_nothing _) (by decide) fun h => absurd h (not_computed_of_group (by decide) (by decide))

theorem gridLossRaise_sound (n : Nat) : (gridLossRaise n).sound :=
  internalRaise_sound (fits_limit rfl) (by decide) fun _ => by decide

theorem upsLowRaise_sound (n : Nat) : (upsLowRaise n).sound := internalRaise_sound (fits_shed _) (by decide) fun _ => by decide

theorem laneCode_ne (n : Fin 4) (xx : Nat) : laneCode n xx ≠ overflowCode := fun h => by
  have : (2 : Fin 16) = 0 := congrArg Code.group h
  exact absurd this (by decide)

theorem laneTripRaise_sound (n : Fin 4) (xx d : Nat) : (laneTripRaise n xx d).sound :=
  ⟨fits_shed _, laneCode_ne n xx, fun _ h => nomatch (show Cls.shed = .notice from h)⟩

theorem laneWarnRaise_sound (n : Fin 4) (xx d : Nat) : (laneWarnRaise n xx d).sound :=
  ⟨fits_nothing _, laneCode_ne n xx, fun h =>
    absurd h (not_computed_of_group (c := laneCode n xx) (show (2 : Fin 16) ≠ 3 by decide)
      (show (2 : Fin 16) ≠ 4 by decide))⟩

theorem code_group_ne {c d : Code} (h : c.group ≠ d.group) : c ≠ d := fun he => h (congrArg Code.group he)

theorem laneSilentRaise_sound (n : Fin 4) : (laneSilentRaise n).sound :=
  internalRaise_sound (fits_shed _) (code_group_ne (by decide +revert)) fun _ => by decide

theorem prechargeFailRaise_sound (n : Fin 4) (v : Nat) : (prechargeFailRaise n v).sound :=
  internalRaise_sound (fits_shed _) (code_group_ne (by decide +revert)) fun _ => by decide

theorem syncFailRaise_sound (n : Fin 4) : (syncFailRaise n).sound :=
  internalRaise_sound (fits_shed _) (code_group_ne (by decide +revert)) fun _ => by decide

theorem resetFailRaise_sound (n : Fin 4) : (resetFailRaise n).sound :=
  internalRaise_sound (fits_shed _) (code_group_ne (by decide +revert)) fun _ => by decide

theorem twistLimitRaise_sound (t : Int) : (twistLimitRaise t).sound :=
  internalRaise_sound (fits_limit rfl) (by decide) fun _ => by decide

theorem yawStallRaise_sound (h : Nat) : (yawStallRaise h).sound :=
  internalRaise_sound (fits_shed _) (by decide) fun _ => by decide

theorem drivesLowRaise_sound (n : Nat) : (drivesLowRaise n).sound :=
  internalRaise_sound (fits_limit rfl) (by decide) fun _ => by decide

theorem brakeFailRaise_sound (n : Nat) : (brakeFailRaise n).sound :=
  internalRaise_sound (fits_shed _) (by decide) fun _ => by decide

theorem stormRaise_sound (w : Int) : (stormRaise w).sound :=
  internalRaise_sound (fits_limit rfl) (by decide) fun _ => by decide

theorem misalignRaise_sound (f : Int) (n : Nat) : (misalignRaise f n).sound :=
  internalRaise_sound (fits_limit rfl) (by decide) fun _ => by decide

theorem trackBlockedRaise_sound (d : Dir) : (trackBlockedRaise d).sound :=
  internalRaise_sound (fits_nothing _) (by decide) fun h => absurd h (by
    rintro (h | ⟨l, h⟩)
    · exact absurd h (by decide)
    · exact absurd (show (3 : Fin 16) = 4 from congrArg Code.group h) (by decide))

theorem vaneFaultRaise_sound (f : Int) : (vaneFaultRaise f).sound :=
  internalRaise_sound (fits_limit rfl) (by decide) fun _ => by decide

theorem headingFaultRaise_sound (n : Nat) : (headingFaultRaise n).sound :=
  internalRaise_sound (fits_shed _) (by decide) fun _ => by decide

theorem driveFaultRaise_sound (n : Fin 8) : (driveFaultRaise n).sound :=
  internalRaise_sound (fits_nothing _) (code_group_ne (by decide +revert)) fun _ => by decide

theorem pumpFailRaise_sound (l : Fin 3) (d : Nat) : (pumpFailRaise l d).sound := by
  match l with
  | 0 => exact internalRaise_sound (fits_shed _) (by decide) fun _ => by decide
  | 1 => exact internalRaise_sound (fits_limit rfl) (by decide) fun _ => by decide
  | 2 => exact internalRaise_sound (fits_limit rfl) (by decide) fun _ => by decide

theorem loopHotRaise_sound (l : Fin 3) (t : Int) (n : Nat) : (loopHotRaise l t n).sound :=
  internalRaise_sound (fits_limit rfl) (code_group_ne (by decide +revert)) fun _ => by decide

theorem loopHotShed_sound (l : Fin 3) (t : Int) (n : Nat) : ({ loopHotRaise l t n with cls := .shed } : Raise).sound :=
  ⟨fits_shed _, code_group_ne (c := loopHotCode l) (d := overflowCode) (by decide +revert), fun _ h => nomatch (show Cls.shed = .notice from h)⟩

theorem sensorFaultRaise_sound (l : Fin 3) : (sensorFaultRaise l).sound :=
  internalRaise_sound (fits_limit rfl) (code_group_ne (by decide +revert)) fun _ => by decide

theorem linkRaise_sound {l : Link} {c : Code} {k : Cls} {d : Nat} {e : Effects} (hg : ¬c.group.val < 8)
    (he : ¬(!effectsAllowed k e) = true) : (linkRaise l c k d e).sound := by
  refine ⟨effectsAllowed_fits (show effectsAllowed k e = true by simpa using he), fun h => ?_, fun h => absurd h ?_⟩
  · have h : c = overflowCode := h
    subst h; exact hg (by decide)
  · refine not_computed_of_group (c := c) (fun h => ?_) (fun h => ?_)
    · rw [h] at hg; exact hg (by decide)
    · rw [h] at hg; exact hg (by decide)

/-! ## Records after a change -/

theorem freeSlot_some {t : List Record} {n : Nat} (h : freeSlot t = some n) : n < 47 ∧ ∀ q ∈ t, q.slot ≠ n := by
  have h1 := List.mem_of_find?_eq_some h
  have h2 := List.find?_some h
  refine ⟨by simpa using h1, fun q hq hs => ?_⟩
  simp only [slotTaken, Bool.not_eq_true', List.any_eq_false, beq_iff_eq] at h2
  exact h2 q hq hs

/-- A created record is sound in a general slot (R7). -/
theorem created_sound {u n : Nat} {r : Raise} (hr : r.sound) (hn : n < 47) : (createdRecord u n r).sound := by
  constructor
  · show n < 48; omega
  · show n = 47 ↔ r.code = overflowCode
    exact ⟨fun h => by omega, fun h => absurd h hr.code⟩
  · exact ⟨Nat.le_refl 1, by simp [createdRecord]⟩
  · exact hr.effects
  · intro h; simp only [createdRecord] at h ⊢; rw [h]; rfl
  · intro _ h; cases h
  · intro h; cases h
  · exact hr.computed

/-- OVERFLOW as a fold creates it is sound in slot 47 (R21). -/
theorem overflow_sound {u : Nat} {r : Raise} (hr : r.sound) : (createdRecord u 47 (overflowRaise r)).sound := by
  constructor
  · show 47 < 48; omega
  · exact ⟨fun _ => rfl, fun _ => rfl⟩
  · exact ⟨Nat.le_refl 1, by simp [createdRecord]⟩
  · exact hr.effects
  · intro _; rfl
  · intro _ h; cases h
  · intro h; cases h
  · intro h; exact absurd h (not_computed_of_group (c := overflowCode) (by decide) (by decide))

theorem higherCls_ne_notice_left {a b : Cls} (h : a ≠ .notice) : higherCls a b ≠ .notice := fun hc =>
  h (higherCls_notice hc).1

/-- A re-raised record is sound (R8, R10). -/
theorem reRaised_sound {u : Nat} {r : Raise} {q : Record} (hq : q.sound) (he : effectsFit r.cls (forced r.cls r.eff)) :
    (reRaised u r q).sound := by
  constructor
  · exact hq.slot
  · exact hq.overflow
  · have := hq.occurrences
    simp only [reRaised, saturate]
    split <;> omega
  · exact merge_fits hq.effects he
  · intro h
    simp only [reRaised] at h ⊢
    split
    · rfl
    · rename_i hm
      rw [if_neg hm] at h
      rw [h]; rfl
  · intro _ h; cases h
  · intro h; cases h
  · exact fun h => higherCls_ne_notice_left (hq.computed h)

theorem enterClearing_sound {s : State} {q : Record} (hs : q.slot < 48) (ho : q.slot = 47 ↔ q.code = overflowCode)
    (hc : 1 ≤ q.occurrences ∧ q.occurrences ≤ 255) (he : effectsFit q.cls q.eff) (hm : q.mode = .level)
    (hn : q.cause = false) (hk : computedCode q.code → q.cls ≠ .notice) : (enterClearing s q).sound := by
  constructor
  · exact hs
  · exact ho
  · exact hc
  · exact he
  · intro _; exact hn
  · intro _ h; cases h
  · intro _; exact ⟨hm, hn, rfl⟩
  · exact hk

/-- A record that loses its cause is sound (R12). -/
theorem causeLost_sound {s : State} {q : Record} (hq : q.sound) (hm : q.mode = .level) (hc : q.state ≠ .clearing) :
    (causeLost s q).sound := by
  simp only [causeLost]
  split
  · exact enterClearing_sound hq.slot hq.overflow hq.occurrences hq.effects hm rfl hq.computed
  · rename_i ha
    constructor
    · exact hq.slot
    · exact hq.overflow
    · exact hq.occurrences
    · exact hq.effects
    · intro _; rfl
    · intro _ h; exact absurd h ha
    · intro h; exact absurd h hc
    · exact hq.computed

/-- An acknowledged record is sound (R11). -/
theorem acked_sound {s : State} {l : Link} {q : Record} (hq : q.sound) : (acked s l q).sound := by
  simp only [acked]
  split
  · rename_i h
    exact enterClearing_sound hq.slot hq.overflow hq.occurrences hq.effects h.1 h.2 hq.computed
  · rename_i h
    constructor
    · exact hq.slot
    · exact hq.overflow
    · exact hq.occurrences
    · exact hq.effects
    · exact hq.edge
    · intro hm _
      simp only at hm ⊢
      by_contra hc
      exact h ⟨hm, by simpa using hc⟩
    · intro h; cases h
    · exact hq.computed

/-- A refreshed record of a computed code below TRIP is sound (R14). -/
theorem refreshed_sound {u cap : Nat} {q : Record} (hq : q.sound) (hc : computedCode q.code) (ht : q.cls ≠ .trip) :
    (refreshed u cap q).sound := by
  constructor
  · exact hq.slot
  · exact hq.overflow
  · exact hq.occurrences
  · exact ⟨fun h => absurd h (hq.computed hc), fun h => hq.effects.2.1 h, fun h => absurd h ht⟩
  · exact hq.edge
  · exact hq.acked
  · exact hq.clearing
  · exact hq.computed

/-- An escalated record is sound: one that carries a cap is taken to SHED or TRIP, and a step up carries none (R15). -/
theorem escalated_sound {u : Nat} {k : Cls} {cap : Option Nat} {q : Record} (hq : q.sound)
    (h : cap = none ∨ k = .shed ∨ k = .trip) : (escalated u k cap q).sound := by
  constructor
  · exact hq.slot
  · exact hq.overflow
  · exact hq.occurrences
  · simp only [escalated]
    refine ⟨fun hn => ?_, fun hl => ?_, fun ht => ?_⟩
    · obtain ⟨h1, h2⟩ := higherCls_notice hn
      have hcap : cap = none := by
        rcases h with h | h | h
        · exact h
        · rw [h] at h2; cases h2
        · rw [h] at h2; cases h2
      rw [hn, forced_of_ne (by decide), hq.effects.1 h1, hcap]; rfl
    · rw [forced_lanes]
      rcases (higherCls_limit hl).1 with h1 | h1
      · rw [hq.effects.1 h1]; rfl
      · exact hq.effects.2.1 h1
    · simp [forced, ht]
  · exact hq.edge
  · exact hq.acked
  · exact hq.clearing
  · exact fun hc => higherCls_ne_notice_left (hq.computed hc)

/-- An amended record is sound once R16's check has passed. -/
theorem amended_sound {u : Nat} {l : Link} {e : Effects} {q : Record} (hq : q.sound)
    (he : ¬(!effectsAllowed q.cls e) = true) : (amended u l e q).sound := by
  constructor
  · exact hq.slot
  · exact hq.overflow
  · exact hq.occurrences
  · exact effectsAllowed_fits (show effectsAllowed q.cls e = true by simpa using he)
  · exact hq.edge
  · exact hq.acked
  · exact hq.clearing
  · exact hq.computed

theorem readBy_sound {l : Link} {q : Record} (hq : q.sound) : (q.readBy l).sound :=
  ⟨hq.slot, hq.overflow, hq.occurrences, hq.effects, hq.edge, hq.acked, hq.clearing, hq.computed⟩

/-- A record kept over a warm reset is sound (R30). -/
theorem retained_sound {u : Nat} {q : Record} (hq : q.sound) : (retained u q).sound :=
  ⟨hq.slot, hq.overflow, hq.occurrences, hq.effects, hq.edge, (fun _ h => nomatch h), (fun h => nomatch h), hq.computed⟩

theorem second_sound {q : Record} (hq : q.sound) : q.second.sound := by
  unfold Record.second
  split
  · rename_i hc
    refine ⟨hq.slot, hq.overflow, hq.occurrences, hq.effects, hq.edge, hq.acked, fun _ => ?_, hq.computed⟩
    have := hq.clearing hc
    exact ⟨this.1, this.2.1, by simpa [down] using this.2.2⟩
  · exact hq

/-! ## Tables after a change -/

theorem tableSound_of_map {t : List Record} (h : TableSound t) {g : Record → Record}
    (hs : ∀ q ∈ t, (g q).slot = q.slot ∧ (g q).code = q.code) (hg : ∀ q ∈ t, (g q).sound) : TableSound (t.map g) := by
  constructor
  · rw [List.pairwise_map]
    exact h.slots.imp_of_mem fun ha hb hlt => by rw [(hs _ ha).1, (hs _ hb).1]; exact hlt
  · rw [List.pairwise_map]
    exact h.codes.imp_of_mem fun ha hb hne => by rw [(hs _ ha).2, (hs _ hb).2]; exact hne
  · intro q hq
    obtain ⟨x, hx, rfl⟩ := List.mem_map.mp hq
    exact hg x hx

theorem unique_of_code {t : List Record} (h : distinct t) {q x : Record} (hq : q ∈ t) (hx : x ∈ t)
    (hc : x.code = q.code) : x = q := by
  by_contra hne
  have hp := List.pairwise_iff_getElem.mp h
  obtain ⟨i, hi, rfl⟩ := List.getElem_of_mem hx
  obtain ⟨j, hj, rfl⟩ := List.getElem_of_mem hq
  rcases Nat.lt_trichotomy i j with h | h | h
  · exact hp i j hi hj h hc
  · subst h; exact hne rfl
  · exact hp j i hj hi h hc.symm

/-- Replacing a record by a sound one of its slot and code keeps the table sound. -/
theorem replace_tableSound {t : List Record} (h : TableSound t) {q r : Record} (hq : q ∈ t) (hs : r.slot = q.slot)
    (hc : r.code = q.code) (hr : r.sound) : TableSound (replaceRecord r t) := by
  refine tableSound_of_map h (fun x hx => ?_) (fun x hx => ?_)
  · split
    · rename_i hxc
      rw [unique_of_code h.codes hq hx (hxc.trans hc)]
      exact ⟨hs, hc⟩
    · exact ⟨rfl, rfl⟩
  · split
    · exact hr
    · exact h.records x hx

theorem insert_slots {r : Record} {t : List Record} (h : t.Pairwise (fun a b => a.slot < b.slot))
    (hr : ∀ q ∈ t, q.slot ≠ r.slot) : (insertRecord r t).Pairwise (fun a b => a.slot < b.slot) := by
  induction t with
  | nil => simp [insertRecord]
  | cons q rest ih =>
    simp only [insertRecord]
    obtain ⟨hq, hrest⟩ := List.pairwise_cons.mp h
    split
    · rename_i hlt
      refine List.pairwise_cons.mpr ⟨fun x hx => ?_, h⟩
      rcases List.mem_cons.mp hx with rfl | hx
      · exact hlt
      · exact Nat.lt_trans hlt (hq x hx)
    · rename_i hlt
      have hne := hr q (by simp)
      refine List.pairwise_cons.mpr ⟨fun x hx => ?_, ih hrest fun x hx => hr x (by simp [hx])⟩
      rcases mem_insertRecord.mp hx with rfl | hx
      · omega
      · exact hq x hx

/-- Placing a sound record of a new code in a free slot keeps the table sound (R2, R7). -/
theorem insert_tableSound {t : List Record} (h : TableSound t) {r : Record} (hr : r.sound)
    (hs : ∀ q ∈ t, q.slot ≠ r.slot) (hc : ∀ q ∈ t, q.code ≠ r.code) : TableSound (insertRecord r t) := by
  refine ⟨insert_slots h.slots hs, insert_distinct h.codes hc, fun q hq => ?_⟩
  rcases mem_insertRecord.mp hq with rfl | hq
  · exact hr
  · exact h.records q hq

theorem remove_tableSound {t : List Record} (h : TableSound t) (c : Code) : TableSound (removeCode c t) :=
  ⟨List.Pairwise.sublist List.filter_sublist h.slots, remove_distinct h.codes c,
   fun q hq => h.records q (mem_removeCode.mp hq).1⟩

theorem olderOf_mem {t : List Record} {q : Record} (h : t.foldr olderOf none = some q) : q ∈ t := by
  induction t generalizing q with
  | nil => cases h
  | cons r rest ih =>
    simp only [List.foldr_cons] at h
    cases hf : List.foldr olderOf none rest with
    | none => rw [hf] at h; simp only [olderOf] at h; cases h; simp
    | some x =>
      rw [hf] at h
      simp only [olderOf] at h
      split at h
      · cases h; simp
      · cases h; exact List.mem_cons_of_mem _ (ih hf)

theorem evictionCandidate_mem {t : List Record} {q : Record} (h : evictionCandidate t = some q) :
    q ∈ t ∧ q.cls = .notice ∧ q.slot < 47 := by
  have := olderOf_mem h
  simp only [List.mem_filter, Bool.and_eq_true, beq_iff_eq, decide_eq_true_eq] at this
  exact this

/-- The slot that a removed record leaves is free. -/
theorem slot_left {t : List Record} (h : TableSound t) {v : Record} (hv : v ∈ t) :
    ∀ q ∈ removeCode v.code t, q.slot ≠ v.slot := by
  intro q hq hs
  obtain ⟨hm, hne⟩ := mem_removeCode.mp hq
  have hp := List.pairwise_iff_getElem.mp h.slots
  obtain ⟨i, hi, rfl⟩ := List.getElem_of_mem hm
  obtain ⟨j, hj, rfl⟩ := List.getElem_of_mem hv
  rcases Nat.lt_trichotomy i j with hlt | he | hlt
  · have := hp i j hi hj hlt; omega
  · subst he; exact hne rfl
  · have := hp j i hj hi hlt; omega

/-- With OVERFLOW absent slot 47 is free (R2). -/
theorem slot47_free {t : List Record} (h : TableSound t) (ho : findCode t overflowCode = none) :
    ∀ q ∈ t, q.slot ≠ 47 := fun q hq hs => findCode_none ho q hq ((h.records q hq).overflow.mp hs)

/-- A raise keeps the table sound (R7, R8, R20 to R22). -/
theorem takeRaise_tableSound {s : State} (h : TableSound s.table) {r : Raise} (hr : r.sound) :
    TableSound (takeRaise r s).1.table := by
  unfold takeRaise
  split
  · rename_i q hq
    obtain ⟨hm, hc⟩ := findCode_some hq
    exact replace_tableSound h hm rfl rfl (reRaised_sound (h.records q hm) hr.effects)
  · rename_i hn
    have hn := findCode_none hn
    split
    · rename_i n hf
      obtain ⟨hlt, hfree⟩ := freeSlot_some hf
      exact insert_tableSound h (created_sound hr hlt) hfree hn
    · split
      · rename_i v hv
        obtain ⟨hm, _, hlt⟩ := evictionCandidate_mem hv
        exact insert_tableSound (remove_tableSound h v.code) (created_sound hr hlt) (slot_left h hm)
          fun q hq => hn q (mem_removeCode.mp hq).1
      · split
        · exact h
        · unfold foldRaise
          dsimp only
          split
          · rename_i q hq
            obtain ⟨hm, hc⟩ := findCode_some hq
            show TableSound (replaceRecord _ (noteFolded r.code s).table)
            rw [(noteFolded_table r.code s).1]
            exact replace_tableSound h hm rfl rfl (reRaised_sound (h.records q hm) hr.effects)
          · rename_i ho
            exact insert_tableSound h (overflow_sound hr) (slot47_free h ho) (findCode_none ho)

theorem takePresent_tableSound {s : State} (h : TableSound s.table) {r : Raise} (hr : r.sound) :
    TableSound (takePresent r s).1.table := by
  unfold takePresent
  split
  · exact takeRaise_tableSound h hr
  · split
    · exact h
    · exact takeRaise_tableSound h hr

theorem takeAbsent_tableSound {s : State} (h : TableSound s.table) (c : Code) : TableSound (takeAbsent c s).1.table := by
  unfold takeAbsent
  split
  · exact h
  · rename_i q hq
    obtain ⟨hm, hc⟩ := findCode_some hq
    split
    · rename_i hcond
      refine replace_tableSound h hm ?_ ?_ (causeLost_sound (h.records q hm) hcond.1 hcond.2.2)
      · simp only [causeLost]; split <;> rfl
      · simp only [causeLost]; split <;> rfl
    · exact h

theorem takeRefresh_tableSound {s : State} (h : TableSound s.table) {c : Code} (hc : computedCode c) (cap : Nat) :
    TableSound (takeRefresh c cap s).1.table := by
  unfold takeRefresh
  split
  · exact h
  · rename_i q hq
    obtain ⟨hm, hqc⟩ := findCode_some hq
    split
    · exact h
    · rename_i ht
      exact replace_tableSound h hm rfl rfl (refreshed_sound (h.records q hm) (by rw [hqc]; exact hc) ht)

theorem takeEscalation_tableSound {s : State} (h : TableSound s.table) (c : Code) (f : Cls → Cls) {cap : Option Nat}
    (hf : cap = none ∨ ∀ k, f k = .shed ∨ f k = .trip) : TableSound (takeEscalation c f cap s).1.table := by
  unfold takeEscalation
  split
  · exact h
  · rename_i q hq
    obtain ⟨hm, hqc⟩ := findCode_some hq
    dsimp only
    split
    · exact h
    · refine replace_tableSound h hm rfl rfl (escalated_sound (h.records q hm) ?_)
      rcases hf with hf | hf
      · exact .inl hf
      · exact .inr (hf q.cls)

theorem takeOffer_tableSound {s : State} (h : TableSound s.table) (c : Code) : TableSound (takeOffer c s).1.table := by
  unfold takeOffer
  split
  · exact h
  · split
    · exact h
    · unfold fire
      dsimp only
      split <;> exact h

theorem takeAutoRetire_tableSound {s : State} (h : TableSound s.table) (k : Fin 8) :
    TableSound (takeAutoRetire k s).1.table := by
  unfold takeAutoRetire
  dsimp only
  split
  · split
    · exact remove_tableSound h _
    · exact h
  · exact h

theorem takeBoostEnd_tableSound {s : State} (h : TableSound s.table) (k : Fin 8) :
    TableSound (takeBoostEnd k s).1.table := by
  unfold takeBoostEnd
  dsimp only
  split <;> exact h

theorem takeHoldoffEnd_tableSound {s : State} (h : TableSound s.table) (c : Code) :
    TableSound (takeHoldoffEnd c s).1.table := by
  unfold takeHoldoffEnd
  split
  · exact h
  · split
    · exact remove_tableSound h c
    · exact h

theorem serve_tableSound {s : State} (h : TableSound s.table) (l : Link) (r : Request) :
    TableSound (serve l r s).state.table := by
  by_cases hr : r.part = .table
  case neg => rw [(touched_table (serve_touches l r s) hr r.part_ne_everything).1]; exact h
  cases r with
  | lookup c =>
    simp only [serve, serveLookup]
    split
    · exact h
    · rename_i q hq
      obtain ⟨hm, hc⟩ := findCode_some hq
      exact replace_tableSound h hm rfl rfl (readBy_sound (h.records q hm))
  | scan a f =>
    simp only [serve, serveScan]
    split
    · exact h
    · refine tableSound_of_map h (fun q _ => ?_) (fun q hq => ?_)
      · split <;> exact ⟨rfl, rfl⟩
      · split
        · exact readBy_sound (h.records q hq)
        · exact h.records q hq
  | raise c cls d cap ls y lp =>
    simp only [serve, serveRaise]
    split
    · exact h
    · split
      · exact h
      · split
        · exact h
        · rename_i hg he _
          exact takeRaise_tableSound h (linkRaise_sound hg he)
  | amend c cap ls y lp =>
    simp only [serve, serveAmend]
    split
    · exact h
    · rename_i q hq
      obtain ⟨hm, hc⟩ := findCode_some hq
      split
      · exact h
      · split
        · exact h
        · rename_i he
          exact replace_tableSound h hm rfl rfl (amended_sound (h.records q hm) he)
  | ack c =>
    simp only [serve, serveAck]
    split
    · exact h
    · rename_i q hq
      obtain ⟨hm, hc⟩ := findCode_some hq
      split
      · refine replace_tableSound h hm ?_ ?_ (acked_sound (h.records q hm))
        · simp only [acked]; split <;> rfl
        · simp only [acked]; split <;> rfl
      · exact h
  | retire c =>
    simp only [serve, serveRetire]
    repeat' split
    all_goals first | exact h | exact remove_tableSound h c
  | bind k c a lp d n => simp only [serve, serveBind]; repeat' split
                         all_goals exact h
  | unbind k => simp only [serve, serveUnbind]; repeat' split
                all_goals exact h
  | _ => exact nomatch hr

theorem retention_tableSound {t : List Record} (h : TableSound t) (u : Nat) : TableSound (retention u t) := by
  have hf : TableSound (t.filter keptAtReset) :=
    ⟨List.Pairwise.sublist List.filter_sublist h.slots, List.Pairwise.sublist List.filter_sublist h.codes,
     fun q hq => h.records q (List.mem_filter.mp hq).1⟩
  exact tableSound_of_map hf (fun q _ => ⟨rfl, rfl⟩) fun q hq => retained_sound (hf.records q hq)

theorem takeWarmStart_tableSound {s : State} (h : TableSound s.table) (d : Nat) (straps : Fin 4) :
    TableSound (takeWarmStart d straps s).1.table := by
  simp only [takeWarmStart, State.warmValues]
  rw [askRetained_eq]
  exact retention_tableSound h _

/-- Every event that the table can take keeps it sound. -/
theorem handle_keeps_table {s : State} (h : TableSound s.table) {e : Ev} (hev : e.sound) :
    TableSound (handle e s).1.table := by
  by_cases hp : e.part = .table
  · cases e with
    | ctRaise r => exact takeRaise_tableSound h hev
    | ctPresent r => exact takePresent_tableSound h hev
    | ctAbsent c => exact takeAbsent_tableSound h c
    | ctRefresh c cap => exact takeRefresh_tableSound h hev cap
    | ctEscalateStep c => exact takeEscalation_tableSound h c _ (.inl rfl)
    | ctEscalateTo c cls cap => exact takeEscalation_tableSound h c _ (.inr fun _ => hev)
    | ctHoldoffEnd c => exact takeHoldoffEnd_tableSound h c
    | ruOffer c => exact takeOffer_tableSound h c
    | ruAutoRetire k => exact takeAutoRetire_tableSound h k
    | ruBoostEnd k => exact takeBoostEnd_tableSound h k
    | _ => exact nomatch hp
  · by_cases he : e.part = .everything
    · cases e with
      | lkServe l r =>
        simp only [handle, takeServe]
        split
        · exact takeWarmStart_tableSound h (restartDetail l) _
        · exact serve_tableSound h l r
      | coldStart straps => exact ⟨List.Pairwise.nil, List.Pairwise.nil, fun q hq => nomatch hq⟩
      | lineRelease straps => exact takeWarmStart_tableSound (s := { s with lineAsserted := false }) h 1 straps
      | _ => exact nomatch he
    · rw [(touched_table (handle_touches e s) hp he).1]; exact h

theorem advance_keeps_table {s : State} (h : TableSound s.table) : TableSound s.advance.table := by
  unfold State.advance
  dsimp only
  split
  · refine tableSound_of_map h (fun q _ => ?_) fun q hq => second_sound (h.records q hq)
    simp only [Record.second]
    split <;> exact ⟨rfl, rfl⟩
  · exact h

end Sys2Proof.Machine
end

