-- ==== Sys2Proof/Laws/Emitted.lean ====
section
/-! SUPPORT. What every event hands on can be taken by the table: raises that fit R4, refreshes of computed codes, and
escalations to SHED. -/

namespace Sys2Proof.Machine

/-- Every event of a list can be taken by the table. -/
def AllSound (evs : List Ev) : Prop := ∀ e ∈ evs, e.sound

@[simp] theorem allSound_nil : AllSound [] := fun _ h => nomatch h

@[simp] theorem allSound_cons {e : Ev} {evs : List Ev} : AllSound (e :: evs) ↔ e.sound ∧ AllSound evs := by
  simp [AllSound]

@[simp] theorem allSound_append {a b : List Ev} : AllSound (a ++ b) ↔ AllSound a ∧ AllSound b := by
  simp only [AllSound, List.mem_append]
  constructor
  · exact fun h => ⟨fun e he => h e (.inl he), fun e he => h e (.inr he)⟩
  · rintro ⟨h1, h2⟩ e (he | he)
    · exact h1 e he
    · exact h2 e he

theorem allSound_ite {p : Prop} [Decidable p] {a b : List Ev} (ha : AllSound a) (hb : AllSound b) :
    AllSound (if p then a else b) := by
  split
  · exact ha
  · exact hb

/-- Events that carry nothing to the table but causes that have gone. -/
def Ev.plain : Ev → Bool
  | .ctRaise _ => false
  | .ctPresent _ => false
  | .ctRefresh _ _ => false
  | .ctEscalateTo _ _ _ => false
  | _ => true

theorem sound_of_plain {e : Ev} (h : e.plain = true) : e.sound := by
  cases e <;> trivial

theorem allSound_of_plain {evs : List Ev} (h : evs.all Ev.plain = true) : AllSound evs := fun e he =>
  sound_of_plain (List.all_eq_true.mp h e he)

theorem deliveries_plain (a b : Limits) : (deliveries a b).all Ev.plain = true := by
  simp only [deliveries, List.all_append, Bool.and_eq_true]
  refine ⟨⟨⟨⟨?_, ?_⟩, ?_⟩, ?_⟩, ?_⟩ <;> split <;> rfl

theorem boostHandover_plain (a b : Eight Slot) : (boostHandover a b).all Ev.plain = true := by
  unfold boostHandover; split <;> rfl

theorem retirementOwner_plain (c : Code) : (retirementOwner c).all Ev.plain = true := by
  simp only [retirementOwner, List.all_append, List.all_map, Bool.and_eq_true, List.all_eq_true, Function.comp]
  exact ⟨fun _ _ => rfl, fun _ _ => rfl⟩

theorem spentRaises_sound (ks : List (Fin 8)) : AllSound (spentRaises ks) := by
  intro e he
  obtain ⟨k, _, rfl⟩ := List.mem_map.mp he
  exact spentRaise_sound k

theorem shareHandover_plain (a b : Four Nat) (n : Fin 4) : (shareHandover a b n).all Ev.plain = true := by
  unfold shareHandover; split <;> rfl

theorem envelopeHandover_plain (a b : Envelope) : (envelopeHandover a b).all Ev.plain = true := by
  simp only [envelopeHandover, List.all_append, Bool.and_eq_true]
  refine ⟨?_, by split <;> rfl⟩
  simp [fourIndices, shareHandover_plain]

theorem demandHandover_plain (a b : Nat) : (demandHandover a b).all Ev.plain = true := by
  unfold demandHandover; split <;> rfl

theorem exits_plain (a b : LaneManager) : (exits a b).all Ev.plain = true := by
  simp only [exits, List.all_map, List.all_eq_true, Function.comp]; exact fun _ _ => rfl

theorem entries_plain (a b : LaneManager) : (entries a b).all Ev.plain = true := by
  simp only [entries, List.all_map, List.all_eq_true, Function.comp]; exact fun _ _ => rfl

theorem viewReport_sound {r : Raise} (hr : r.sound) (a b : Bool) : AllSound (viewReport a b r) := by
  unfold viewReport
  split
  · exact allSound_nil
  · split <;> simp [Ev.sound, hr]

theorem setLanes_sound {m : LaneManager} {b a : List Ev} {s : State} (hb : AllSound b) (ha : AllSound a) :
    AllSound (setLanes m b a s).2 := by
  simp only [setLanes, allSound_append]
  refine ⟨⟨hb, ?_⟩, ha⟩
  split <;> simp [Ev.sound]

theorem setCooling_sound {u : Cooling} {a : List Ev} {s : State} (ha : AllSound a) : AllSound (setCooling u a s).2 := by
  simp only [setCooling, allSound_append]
  refine ⟨?_, ha⟩
  split <;> simp [Ev.sound]

theorem blockedReport_sound (a : Bool) (d : Option Dir) : AllSound (blockedReport a d) := by
  unfold blockedReport
  split <;> simp [Ev.sound, trackBlockedRaise_sound]

theorem viewLow_sound (y : Yaw) : AllSound y.viewLow.2 := viewReport_sound (drivesLowRaise_sound _) _ _

theorem setYaw_sound {r : List Ev} {w : YawWork} {s : State} (hr : AllSound r) (hw : w.2.all Ev.plain = true) :
    AllSound (setYaw r w s).2 := by
  simp only [setYaw, allSound_append]
  exact ⟨⟨⟨hr, viewLow_sound _⟩, blockedReport_sound _ _⟩, allSound_of_plain hw⟩

theorem setSupply_sound (m : Supply) (s : State) : AllSound (setSupply m s).2 := by
  simp only [setSupply]
  split
  · exact allSound_nil
  · simp only [allSound_append]
    exact ⟨⟨allSound_of_plain rfl, viewReport_sound (gridLossRaise_sound _) _ _⟩,
      viewReport_sound (upsLowRaise_sound _) _ _⟩

/-! ## Yaw work hands only plain events on -/

theorem evalChain_plain (st : List Int) (y : Yaw) (f : Bool) (chain : List Context) :
    (evalChain st y f chain).2.all Ev.plain = true := by
  induction chain generalizing f with
  | nil => rfl
  | cons c rest ih =>
    simp only [evalChain]
    split
    · rfl
    · split
      · simp [Ev.plain]
      · rfl
      · split
        · simp only [List.all_cons, Bool.and_eq_true]; exact ⟨rfl, ih false⟩
        · rfl
      · rfl

theorem evaluate_plain (st : List Int) (f : Bool) (y : Yaw) : (y.evaluate st f).2.all Ev.plain = true :=
  evalChain_plain st y f y.chain

theorem leaveEvents_plain (c : Context) : (leaveEvents c).all Ev.plain = true := by
  unfold leaveEvents; split <;> rfl

theorem goneEvents_plain (k : Kind) : (goneEvents k).all Ev.plain = true := by
  unfold goneEvents; split <;> rfl

theorem insert_plain (st : List Int) (c : Context) (y : Yaw) : (y.insert st c).2.all Ev.plain = true := by
  unfold Yaw.insert
  split
  · exact evaluate_plain _ _ _
  · split
    · simp only [List.all_append, Bool.and_eq_true]; exact ⟨leaveEvents_plain _, evaluate_plain _ _ _⟩
    · rfl

theorem remove_plain (st : List Int) (k : Kind) (y : Yaw) : (y.remove st k).2.all Ev.plain = true := by
  unfold Yaw.remove
  split
  · rfl
  · split
    · simp only [List.all_append, Bool.and_eq_true]
      exact ⟨⟨leaveEvents_plain _, goneEvents_plain _⟩, evaluate_plain _ _ _⟩
    · split
      · exact goneEvents_plain _
      · rfl

theorem rehold_plain (st : List Int) (y : Yaw) : (y.rehold st).2.all Ev.plain = true := by
  unfold Yaw.rehold
  split
  · rfl
  · dsimp only
    split
    · rfl
    · split
      · rfl
      · exact evaluate_plain _ _ _
    · split
      · split
        · exact remove_plain _ _ _
        · exact leaveEvents_plain _
      · rfl

theorem thenDo_plain {w : YawWork} {f : Yaw → YawWork} (hw : w.2.all Ev.plain = true)
    (hf : ∀ y, (f y).2.all Ev.plain = true) : (w.thenDo f).2.all Ev.plain = true := by
  simp only [YawWork.thenDo, List.all_append, Bool.and_eq_true]
  exact ⟨hw, hf _⟩

theorem followPark_plain (st : List Int) (y : Yaw) : (y.followPark st).2.all Ev.plain = true := by
  unfold Yaw.followPark
  split
  · exact insert_plain _ _ _
  · split
    · exact remove_plain _ _ _
    · rfl

theorem atFiltered_plain (st : List Int) (y : Yaw) : (y.atFiltered st).2.all Ev.plain = true := by
  unfold Yaw.atFiltered
  split
  · split
    · rfl
    · split
      · rfl
      · split
        · exact rehold_plain _ _
        · rfl
  · split
    · exact rehold_plain _ _
    · rfl
  · rfl

theorem atGoal_plain (st : List Int) (y : Yaw) : (y.atGoal st).2.all Ev.plain = true := by
  unfold Yaw.atGoal
  split
  · rfl
  · split
    · exact remove_plain _ _ _
    · rfl

theorem atArrival_plain (st : List Int) (y : Yaw) : (y.atArrival st).2.all Ev.plain = true := by
  unfold Yaw.atArrival
  split
  · split
    · split
      · split
        · rfl
        · rfl
        · exact remove_plain _ _ _
        · rfl
      · rfl
    · rfl
  · rfl

theorem watchStall_sound (y : Yaw) : AllSound y.watchStall.2 := by
  unfold Yaw.watchStall
  split
  · split
    · simp
    · split
      · simp
      · split <;> simp [Ev.sound, yawStallRaise_sound]
  · simp

theorem followTracking_sound (on : Bool) (s : State) : AllSound (followTracking on s).2 := by
  unfold followTracking
  split
  · exact setYaw_sound allSound_nil (insert_plain _ _ _)
  · split
    · exact setYaw_sound allSound_nil (remove_plain _ _ _)
    · exact allSound_nil

/-! ## The table's own events -/

theorem changeRecord_sound (b a : Record) (s : State) : AllSound (changeRecord b a s).2 :=
  allSound_of_plain (deliveries_plain _ _)

theorem placeRecord_sound (t : List Record) (r : Record) (s : State) : AllSound (placeRecord t r s).2 :=
  allSound_of_plain (deliveries_plain _ _)

theorem retireRecord_sound (c : Code) (s : State) : AllSound (retireRecord c s).2 := by
  simp only [retireRecord, Act.all, Act.andThen, Act.skip, Act.emit, State.withTable, cancelFor, List.append_nil,
    allSound_append]
  exact ⟨allSound_of_plain (deliveries_plain _ _), allSound_of_plain (boostHandover_plain _ _),
    allSound_of_plain (retirementOwner_plain _), spentRaises_sound _⟩

theorem takeRaise_sound (r : Raise) (s : State) : AllSound (takeRaise r s).2 := by
  unfold takeRaise
  split
  · simp only [reRaise, Act.andThen, offer, Act.emit, allSound_append, allSound_cons]
    exact ⟨changeRecord_sound _ _ _, trivial, allSound_nil⟩
  · split
    · simp only [createIn, Act.andThen, offer, Act.emit, allSound_append, allSound_cons]
      exact ⟨placeRecord_sound _ _ _, trivial, allSound_nil⟩
    · split
      · simp only [createByEviction, Act.all, Act.andThen, Act.skip, offer, Act.emit, cancelFor, List.append_nil,
          allSound_append, allSound_cons]
        exact ⟨placeRecord_sound _ _ _, allSound_of_plain (boostHandover_plain _ _), ⟨trivial, allSound_nil⟩,
          spentRaises_sound _⟩
      · split
        · exact allSound_nil
        · unfold foldRaise
          dsimp only
          split
          · simp only [Act.andThen, offer, Act.emit, allSound_append, allSound_cons]
            exact ⟨changeRecord_sound _ _ _, trivial, allSound_nil⟩
          · simp only [Act.andThen, offer, Act.emit, allSound_append, allSound_cons]
            exact ⟨placeRecord_sound _ _ _, trivial, allSound_nil⟩

theorem takePresent_sound (r : Raise) (s : State) : AllSound (takePresent r s).2 := by
  unfold takePresent
  split
  · exact takeRaise_sound r s
  · split
    · exact allSound_nil
    · exact takeRaise_sound r s

theorem takeAbsent_sound (c : Code) (s : State) : AllSound (takeAbsent c s).2 := by
  unfold takeAbsent
  split
  · exact allSound_nil
  · split
    · exact changeRecord_sound _ _ _
    · exact allSound_nil

theorem setSlot_events (k : Fin 8) (v : Slot) (s : State) : AllSound (setSlot k v s).2 :=
  allSound_of_plain (boostHandover_plain _ _)

theorem spentIf_events (k : Fin 8) (v : Slot) (s : State) : AllSound (spentIf k v s).2 := by
  simp only [spentIf, Act.emit]
  split
  · simp [Ev.sound, spentRaise_sound]
  · exact allSound_nil

theorem takeOffer_sound (c : Code) (s : State) : AllSound (takeOffer c s).2 := by
  unfold takeOffer
  split
  · exact allSound_nil
  · split
    · exact allSound_nil
    · unfold fire
      dsimp only
      split
      · exact allSound_nil
      · exact setSlot_events _ _ _
      · exact setSlot_events _ _ _
      · simp only [Act.all, Act.andThen, Act.skip, Act.emit, List.append_nil, allSound_append, allSound_cons]
        exact ⟨⟨trivial, allSound_nil⟩, setSlot_events _ _ _, spentIf_events _ _ _⟩

theorem takeAutoRetire_sound (k : Fin 8) (s : State) : AllSound (takeAutoRetire k s).2 := by
  unfold takeAutoRetire
  dsimp only
  split
  · split
    · simp only [Act.all, Act.andThen, Act.skip, List.append_nil, allSound_append]
      exact ⟨setSlot_events _ _ _, retireRecord_sound _ _, spentIf_events _ _ _⟩
    · simp only [Act.all, Act.andThen, Act.skip, List.append_nil, allSound_append]
      exact ⟨setSlot_events _ _ _, spentIf_events _ _ _⟩
  · exact allSound_nil

theorem takeBoostEnd_sound (k : Fin 8) (s : State) : AllSound (takeBoostEnd k s).2 := by
  unfold takeBoostEnd
  dsimp only
  split
  · simp only [Act.all, Act.andThen, Act.skip, List.append_nil, allSound_append]
    exact ⟨setSlot_events _ _ _, spentIf_events _ _ _⟩
  · exact allSound_nil

/-! ## Requests and resets -/

theorem windStartReports_sound (w : Wind) : AllSound (windStartReports w) := by
  simp only [windStartReports, allSound_cons]
  refine ⟨?_, trivial, trivial, allSound_nil⟩
  split
  · exact twistLimitRaise_sound _
  · trivial

theorem yawStartReports_sound (y : Yaw) : AllSound (yawStartReports y) := by
  simp only [yawStartReports, allSound_cons]
  refine ⟨?_, trivial, allSound_nil⟩
  split
  · exact drivesLowRaise_sound _
  · trivial

theorem supplyStartReports_sound (m : Supply) : AllSound (supplyStartReports m) := by
  simp only [supplyStartReports, allSound_cons]
  refine ⟨?_, ?_, allSound_nil⟩
  · split
    · exact gridLossRaise_sound _
    · trivial
  · split
    · exact upsLowRaise_sound _
    · trivial

theorem startReports_sound (s : State) : AllSound (startReports s) := by
  simp only [startReports, allSound_append, allSound_cons]
  exact ⟨⟨⟨windStartReports_sound _, yawStartReports_sound _⟩, trivial, allSound_nil⟩, supplyStartReports_sound _⟩

theorem startTracking_plain (s : State) : (startTracking s).2.all Ev.plain = true := by
  unfold startTracking
  split
  · exact insert_plain _ _ _
  · rfl

theorem takeWarmStart_sound (d : Nat) (straps : Fin 4) (s : State) : AllSound (takeWarmStart d straps s).2 := by
  simp only [takeWarmStart, allSound_append, allSound_cons]
  exact ⟨⟨⟨⟨allSound_of_plain (startTracking_plain _), allSound_of_plain rfl⟩, allSound_of_plain rfl⟩, trivial,
    warmRestartRaise_sound d, allSound_nil⟩, startReports_sound _⟩

theorem twistReport_sound (w : Wind) : AllSound (twistReport w) := viewReport_sound (twistLimitRaise_sound _) _ _

theorem takeUnwindEval_sound (s : State) : AllSound (takeUnwindEval s).2 := by
  unfold takeUnwindEval
  split <;> simp [Ev.sound]

theorem serve_sound (l : Link) (r : Request) (s : State) : AllSound (serve l r s).events := by
  cases r with
  | lookup c => simp only [serve, serveLookup]; split <;> exact allSound_nil
  | scan a f => simp only [serve, serveScan]; split <;> exact allSound_nil
  | raise c cls d cap ls y lp =>
    simp only [serve, serveRaise]
    repeat' split
    all_goals first | exact allSound_nil | exact takeRaise_sound _ _
  | amend c cap ls y lp =>
    simp only [serve, serveAmend]
    repeat' split
    all_goals first | exact allSound_nil | exact changeRecord_sound _ _ _
  | ack c =>
    simp only [serve, serveAck]
    repeat' split
    all_goals first | exact allSound_nil | exact changeRecord_sound _ _ _
  | retire c =>
    simp only [serve, serveRetire]
    repeat' split
    all_goals first | exact allSound_nil | exact retireRecord_sound _ _
  | bind k c a lp d n =>
    simp only [serve, serveBind]
    repeat' split
    all_goals first | exact allSound_nil | exact setSlot_events _ _ _
  | unbind k =>
    simp only [serve, serveUnbind]
    repeat' split
    all_goals first | exact allSound_nil | exact setSlot_events _ _ _
  | readSlot k => simp only [serve, serveReadSlot]; split <;> exact allSound_nil
  | setDemand d =>
    simp only [serve, serveSetDemand]
    repeat' split
    all_goals first
      | exact allSound_nil
      | (simp only [Served.did, Act.andThen, Act.emit, recomputeFrom, setEnvelope, allSound_append]
         exact ⟨allSound_of_plain (envelopeHandover_plain _ _), allSound_of_plain (demandHandover_plain _ _)⟩)
  | readEnvelope => exact allSound_nil
  | laneStart n =>
    simp only [serve, serveLaneStart]
    repeat' split
    all_goals first | exact allSound_nil | exact setLanes_sound allSound_nil allSound_nil
  | laneStop n =>
    simp only [serve, serveLaneStop]
    split
    · exact allSound_nil
    · exact setLanes_sound (allSound_of_plain (exits_plain _ _)) allSound_nil
  | readLane n => simp only [serve, serveReadLane]; split <;> exact allSound_nil
  | setTracking on =>
    simp only [serve, serveSetTracking]
    split
    · exact allSound_nil
    · exact followTracking_sound _ _
  | startUnwind =>
    simp only [serve, serveStartUnwind]
    repeat' split
    all_goals first
      | exact allSound_nil
      | exact setYaw_sound (s := s) allSound_nil (by
          simp only [List.all_append, Bool.and_eq_true]; exact ⟨insert_plain _ _ _, rfl⟩)
  | yawGoto g =>
    simp only [serve, serveYawGoto]
    repeat' split
    all_goals first | exact allSound_nil | exact setYaw_sound (s := s) allSound_nil (insert_plain _ _ _)
  | yawJog d n =>
    simp only [serve, serveYawJog]
    repeat' split
    all_goals first | exact allSound_nil | exact setYaw_sound (s := s) allSound_nil (insert_plain _ _ _)
  | serviceStop =>
    simp only [serve, serveServiceStop]
    repeat' split
    all_goals first | exact allSound_nil | exact setYaw_sound (s := s) allSound_nil (remove_plain _ _ _)
  | readYaw => exact allSound_nil
  | driveIsolate n =>
    simp only [serve, serveDriveIsolate]
    repeat' split
    all_goals first | exact allSound_nil | exact setYaw_sound (s := s) allSound_nil rfl
  | driveReturn n =>
    simp only [serve, serveDriveReturn]
    repeat' split
    all_goals first
      | exact allSound_nil
      | exact setYaw_sound (s := s) allSound_nil rfl
      | exact setYaw_sound (s := s) (by simp [Ev.sound, driveFaultRaise_sound]) rfl
  | setTwist t =>
    simp only [serve, serveSetTwist]
    repeat' split
    all_goals first
      | exact allSound_nil
      | (simp only [Served.did, allSound_append, allSound_cons]
         exact ⟨⟨twistReport_sound _, takeUnwindEval_sound _⟩, trivial, allSound_nil⟩)
  | readLoop n => simp only [serve, serveReadLoop]; split <;> exact allSound_nil
  | setSetting id v =>
    simp only [serve, serveSetSetting]
    split
    · exact allSound_nil
    · split
      · exact allSound_nil
      · split
        · exact allSound_nil
        · simp only [Served.did, settingActs]
          split
          · exact followTracking_sound _ _
          · exact allSound_nil
          · exact allSound_nil
  | getSetting id => simp only [serve, serveGetSetting]; split <;> exact allSound_nil
  | readSupply => exact allSound_nil
  | ident => exact allSound_nil
  | warmReset _ => exact allSound_nil
  | badEncoding => exact allSound_nil

/-! ## The other blocks' events -/

theorem warnReports_sound (n : Fin 4) (t : Option Nat) (r : Report) : AllSound (warnReports n t r) := by
  unfold warnReports
  dsimp only
  split
  · exact allSound_nil
  · simp only [allSound_append]
    constructor
    · split <;> simp [Ev.sound]
    · split <;> simp [Ev.sound, laneWarnRaise_sound]

theorem takeReport_sound (n : Fin 4) (bytes : List Byte) (s : State) : AllSound (takeReport n bytes s).2 := by
  unfold takeReport
  split
  · simp [Ev.sound]
  · refine setLanes_sound (allSound_of_plain (exits_plain _ _)) ?_
    simp only [allSound_append, allSound_cons]
    refine ⟨⟨?_, warnReports_sound _ _ _⟩, trivial, trivial, trivial, allSound_nil⟩
    unfold tripRaises
    split <;> simp [Ev.sound, laneTripRaise_sound]

theorem takeTimeout_sound (n : Fin 4) (k : TimerKind) (s : State) : AllSound (takeTimeout n k s).2 := by
  unfold takeTimeout
  dsimp only
  split
  · split
    · exact setLanes_sound allSound_nil (by simp [Ev.sound, prechargeFailRaise_sound])
    · exact setLanes_sound allSound_nil (by simp [Ev.sound, syncFailRaise_sound])
    · exact setLanes_sound allSound_nil allSound_nil
    · exact setLanes_sound allSound_nil (by simp [Ev.sound, resetFailRaise_sound])
  · exact allSound_nil

theorem takeHeading_sound (r : Option Nat) (s : State) : AllSound (takeHeading r s).2 := by
  unfold takeHeading
  split
  · simp only [allSound_append, allSound_cons]
    refine ⟨⟨?_, twistReport_sound _⟩, trivial, trivial, allSound_nil⟩
    split <;> simp [Ev.sound]
  · split <;> simp [Ev.sound, headingFaultRaise_sound]

theorem takeVane_sound (r : Option Int) (s : State) : AllSound (takeVane r s).2 := by
  unfold takeVane
  split
  · simp only [allSound_append, allSound_cons]
    refine ⟨?_, trivial, trivial, trivial, allSound_nil⟩
    split <;> simp [Ev.sound]
  · split <;> simp [Ev.sound, vaneFaultRaise_sound]

theorem takeMisalign_sound (s : State) : AllSound (takeMisalign s).2 := by
  simp only [takeMisalign, allSound_append]
  refine ⟨viewReport_sound (misalignRaise_sound _ _) _ _, ?_⟩
  split
  · simp [Ev.sound, computedCode]
  · exact allSound_nil

theorem takeAnemometer_sound (n : Nat) (s : State) : AllSound (takeAnemometer n s).2 := by
  simp only [takeAnemometer, allSound_append, allSound_cons]
  exact ⟨viewReport_sound (stormRaise_sound _) _ _, trivial, allSound_nil⟩

theorem trackMove_plain (w : Wind) : (trackMove w).all Ev.plain = true := by
  unfold trackMove; split <;> rfl

theorem takeFaultLines_sound (lines : BitVec 8) (s : State) : AllSound (takeFaultLines lines s).2 := by
  have key : ∀ (ks : List (Fin 8)) (w : YawWork), AllSound w.2 → AllSound (ks.foldl (Yaw.readLine lines) w).2 := by
    intro ks
    induction ks with
    | nil => exact fun w h => h
    | cons k rest ih =>
      intro w h
      refine ih _ ?_
      simp only [Yaw.readLine, allSound_append]
      refine ⟨⟨h, ?_⟩, viewLow_sound _⟩
      split <;> simp [Ev.sound, driveFaultRaise_sound]
  exact setYaw_sound (key _ _ allSound_nil) rfl

theorem hotReport_sound (l : Fin 3) (a b c : Bool) (t : Int) (n : Nat) : AllSound (hotReport l a b c t n) := by
  unfold hotReport
  split
  · split <;> simp [Ev.sound, loopHotRaise_sound]
  · split <;> simp [Ev.sound]

theorem hotRefresh_sound (l : Fin 3) (t : List Record) (a b c : Bool) (n : Nat) : AllSound (hotRefresh l t a b c n) := by
  unfold hotRefresh
  split
  · exact allSound_nil
  · split
    · simp only [allSound_cons]; exact ⟨.inr ⟨l, rfl⟩, allSound_nil⟩
    · exact allSound_nil

theorem takeDerate_sound (l : Fin 3) (v : Bool) (s : State) : AllSound (takeDerate l v s).2 := by
  unfold takeDerate
  dsimp only
  split
  · split
    · simp only [allSound_append]
      refine ⟨hotReport_sound _ _ _ _ _ _, ?_⟩
      split <;> simp [Ev.sound]
    · simp only [allSound_append]
      exact ⟨hotReport_sound _ _ _ _ _ _, hotRefresh_sound _ _ _ _ _ _⟩
  · split <;> simp [Ev.sound]

theorem takeHotEscalation_sound (l : Fin 3) (s : State) : AllSound (takeHotEscalation l s).2 := by
  simp only [takeHotEscalation]
  split
  · simp [Ev.sound]
  · simp only [allSound_cons]; exact ⟨loopHotShed_sound _ _ _, allSound_nil⟩

theorem takeSample_sound (l : Fin 3) (r : Option Int) (s : State) : AllSound (takeSample l r s).2 := by
  unfold takeSample
  dsimp only
  split
  · simp only [allSound_append, allSound_cons]
    refine ⟨?_, trivial, trivial, trivial, allSound_nil⟩
    split <;> simp [Ev.sound]
  · simp only [allSound_append, allSound_cons]
    refine ⟨?_, trivial, trivial, trivial, allSound_nil⟩
    split <;> simp [Ev.sound, sensorFaultRaise_sound]

theorem takeFlow_sound (l : Fin 3) (seen : Bool) (s : State) : AllSound (takeFlow l seen s).2 := by
  unfold takeFlow
  split
  · split <;> exact setCooling_sound allSound_nil
  · split
    · exact setCooling_sound allSound_nil
    · split
      · exact setCooling_sound (by simp [Ev.sound, pumpFailRaise_sound])
      · exact setCooling_sound allSound_nil
  · exact setCooling_sound allSound_nil
  · exact setCooling_sound allSound_nil

theorem expiryEvent_sound (i : Instr) : AllSound (expiryEvent i) := allSound_of_plain (by cases i <;> rfl)

/-- Everything that an event hands on can be taken by the table. -/
theorem handle_emits_sound (e : Ev) (s : State) : AllSound (handle e s).2 := by
  cases e with
  | ctRaise r => exact takeRaise_sound r s
  | ctPresent r => exact takePresent_sound r s
  | ctAbsent c => exact takeAbsent_sound c s
  | ctRefresh c cap =>
    simp only [handle, takeRefresh]
    repeat' split
    all_goals first | exact allSound_nil | exact changeRecord_sound _ _ _
  | ctEscalateStep c =>
    simp only [handle, takeEscalation]
    repeat' split
    all_goals first | exact allSound_nil | exact changeRecord_sound _ _ _
  | ctEscalateTo c cls cap =>
    simp only [handle, takeEscalation]
    repeat' split
    all_goals first | exact allSound_nil | exact changeRecord_sound _ _ _
  | ctHoldoffEnd c =>
    simp only [handle, takeHoldoffEnd]
    repeat' split
    all_goals first | exact allSound_nil | exact retireRecord_sound _ _
  | ruOffer c => exact takeOffer_sound c s
  | ruAutoRetire k => exact takeAutoRetire_sound k s
  | ruBoostEnd k => exact takeBoostEnd_sound k s
  | euLimits d =>
    simp only [handle, takeEnvelopeLimits]
    split
    · exact allSound_of_plain (envelopeHandover_plain _ _)
    · exact allSound_nil
  | euLane n r =>
    simp only [handle, takeLaneEvent]
    split
    · exact allSound_nil
    · exact allSound_of_plain (envelopeHandover_plain _ _)
  | euTemp n t =>
    simp only [handle, takeLaneTemperature]
    split
    · exact allSound_nil
    · exact allSound_of_plain (envelopeHandover_plain _ _)
  | euRampStep =>
    simp only [handle, takeRampStep]
    split
    · exact allSound_nil
    · exact allSound_of_plain (envelopeHandover_plain _ _)
  | lmExcluded set full => exact setLanes_sound (allSound_of_plain (exits_plain _ _)) allSound_nil
  | lmShare n kw => exact allSound_nil
  | lmSupply st =>
    simp only [handle, takeLaneSupply]
    split
    · exact allSound_nil
    · exact setLanes_sound (allSound_of_plain (exits_plain _ _)) allSound_nil
  | lmPump p =>
    simp only [handle, takeLanePump]
    split
    · exact allSound_nil
    · exact setLanes_sound allSound_nil allSound_nil
  | lmDemand p =>
    simp only [handle, takeLaneDemand]
    split
    · exact allSound_nil
    · exact setLanes_sound allSound_nil allSound_nil
  | lmReport n bytes => exact takeReport_sound n bytes s
  | lmAct n =>
    simp only [handle, takeAct]
    split
    · exact allSound_nil
    · exact setLanes_sound (allSound_of_plain (entries_plain _ _)) allSound_nil
  | lmReply n => exact allSound_nil
  | lmEvaluate n => exact setLanes_sound allSound_nil allSound_nil
  | lmSilence n =>
    simp only [handle, takeSilence]
    split
    · exact allSound_nil
    · simp only [allSound_cons]
      refine ⟨laneSilentRaise_sound n, ?_⟩
      split <;> simp [Ev.sound]
  | lmTimeout n k => exact takeTimeout_sound n k s
  | whPark on full =>
    simp only [handle, takePark]
    split
    · exact allSound_nil
    · exact takeUnwindEval_sound _
  | whWatch w =>
    cases w with
    | enterDwell => exact allSound_nil
    | enterNow =>
      simp only [handle, takeWatch]
      split
      · exact allSound_of_plain (trackMove_plain _)
      · exact allSound_nil
    | leave => exact allSound_nil
  | whUnwind b =>
    simp only [handle, takeUnwindEvent]
    split
    · exact allSound_nil
    · exact takeUnwindEval_sound _
  | whHeading r => exact takeHeading_sound r s
  | whVane r => exact takeVane_sound r s
  | whMisalign => exact takeMisalign_sound s
  | whDwell =>
    simp only [handle, takeDwell]
    split
    · split
      · exact allSound_of_plain (trackMove_plain _)
      · exact allSound_nil
    · exact allSound_nil
  | whAnemometer p => exact takeAnemometer_sound p s
  | whUnwindEval => exact takeUnwindEval_sound s
  | ymLimits f => exact setYaw_sound allSound_nil (thenDo_plain (followPark_plain _ _) (rehold_plain _))
  | ymSupply st => exact setYaw_sound allSound_nil (rehold_plain _ _)
  | ymHeading h t =>
    exact setYaw_sound (watchStall_sound _)
      (thenDo_plain (thenDo_plain (rehold_plain _ _) (atGoal_plain _)) (atArrival_plain _))
  | ymFiltered f => exact setYaw_sound allSound_nil (atFiltered_plain _ _)
  | ymMove t d =>
    simp only [handle, takeMove]
    split
    · exact allSound_nil
    · split
      · exact setYaw_sound allSound_nil (leaveEvents_plain _)
      · exact allSound_nil
  | ymUnwind g d =>
    simp only [handle, takeUnwind]
    split
    · exact allSound_nil
    · exact setYaw_sound allSound_nil (insert_plain _ _ _)
  | ymDriveRetired n => exact setYaw_sound allSound_nil rfl
  | ymJogEnd =>
    simp only [handle, takeJogEnd]
    split
    · exact setYaw_sound allSound_nil (remove_plain _ _ _)
    · exact allSound_nil
  | ymFaultLines lines => exact takeFaultLines_sound lines s
  | ymPressure bar => exact setYaw_sound allSound_nil rfl
  | ymBrakeTimer =>
    simp only [handle, takeBrakeTimer]
    split
    · exact allSound_nil
    · exact setYaw_sound (by simp [Ev.sound, brakeFailRaise_sound]) rfl
  | ymSettleEnd =>
    simp only [handle, takeSettleEnd]
    split
    · exact allSound_nil
    · exact setYaw_sound allSound_nil rfl
  | cuBoost set => exact setCooling_sound allSound_nil
  | cuCommanded kw => exact setCooling_sound allSound_nil
  | cuLaneDemand b => exact setCooling_sound allSound_nil
  | cuSupply st => exact setCooling_sound allSound_nil
  | cuReaction set => exact setCooling_sound allSound_nil
  | cuPumpRetired l => exact setCooling_sound allSound_nil
  | cuSample l r => exact takeSample_sound l r s
  | cuDerate l v => exact takeDerate_sound l v s
  | cuEscalate l => exact takeHotEscalation_sound l s
  | cuDemand l => exact setCooling_sound allSound_nil
  | cuFan l => exact allSound_nil
  | cuFlow l seen => exact takeFlow_sound l seen s
  | cuPrimeTimeout l =>
    simp only [handle, takePrimeTimeout]
    split
    · exact allSound_nil
    · exact setCooling_sound (by simp [Ev.sound, pumpFailRaise_sound])
  | smGrid p =>
    simp only [handle, takeGrid]
    split
    · exact setSupply_sound _ _
    · exact setSupply_sound _ _
    · exact allSound_nil
  | smSettled =>
    simp only [handle, takeSettled]
    split
    · exact allSound_nil
    · exact setSupply_sound _ _
  | smUps r =>
    simp only [handle, takeUps]
    split
    · exact allSound_nil
    · exact setSupply_sound _ _
  | lkKey on =>
    simp only [handle, takeKey]
    split
    · split
      · simp only [allSound_cons]; exact ⟨serviceLockRaise_sound, allSound_nil⟩
      · simp [Ev.sound]
    · exact allSound_nil
  | lkSilence =>
    simp only [handle, takeSilenceExpiry]
    split
    · exact allSound_nil
    · split
      · exact allSound_nil
      · simp only [allSound_cons]; exact ⟨hostSilentRaise_sound _, allSound_nil⟩
  | lkStart l a ok bytes =>
    refine allSound_of_plain ?_
    simp only [handle, takeStart]
    repeat' split
    all_goals rfl
  | lkOpen l a ok bytes => exact allSound_nil
  | lkByte l b ok => simp only [handle, takeByte, Act.guarded]; split <;> exact allSound_nil
  | lkStop l =>
    refine allSound_of_plain ?_
    simp only [handle, takeFrameStop, Act.guarded, takeStop]
    repeat' split
    all_goals rfl
  | lkPoisonStop l => simp only [handle, takePoisonStop, Act.guarded]; split <;> exact allSound_nil
  | lkRead l n =>
    refine allSound_of_plain ?_
    simp only [handle, takeRead]
    repeat' split
    all_goals rfl
  | lkSend l n => exact allSound_nil
  | lkReset l => exact allSound_nil
  | lkAttention l => simp only [handle, takeAttention]; split <;> exact allSound_nil
  | lkAttentionSlot l a => simp only [handle, takeAttentionSlot]; repeat' split
                           all_goals exact allSound_nil
  | lkPayloadDone l => simp only [handle, takePayloadDone]; split <;> exact allSound_nil
  | lkPayloadCut l => simp only [handle, takePayloadCut]; split <;> exact allSound_nil
  | lkRequest l r =>
    refine allSound_of_plain ?_
    simp only [handle, takeRequest]
    repeat' split
    all_goals rfl
  | lkBegin l r =>
    refine allSound_of_plain ?_
    cases l with
    | service => rfl
    | main => simp only [handle, takeBegin]; split <;> rfl
  | lkServe l r =>
    simp only [handle, takeServe]
    split
    · exact takeWarmStart_sound (restartDetail l) _ s
    · exact serve_sound l r s
  | coldStart straps =>
    simp only [handle, takeColdStart, allSound_append]
    exact ⟨⟨allSound_of_plain (startTracking_plain _), allSound_of_plain rfl⟩, startReports_sound _⟩
  | lineAssert => exact allSound_nil
  | lineRelease straps => exact takeWarmStart_sound 1 straps { s with lineAsserted := false }
  | due i =>
    simp only [handle, takeDue]
    split
    · exact expiryEvent_sound i
    · exact allSound_nil

end Sys2Proof.Machine
end

