-- ==== Sys2Proof/Laws/Envelope.lean ====
section
/-! SUPPORT. The envelope: a recomputation and a ramp step leave it sound, and every event keeps it so. -/

namespace Sys2Proof.Machine

theorem Four.get_ofFn {α : Type} (g : Fin 4 → α) (n : Fin 4) : (Four.ofFn g).get n = g n := by
  match n with
  | 0 => rfl
  | 1 => rfl
  | 2 => rfl
  | 3 => rfl

/-- A recomputation leaves a sound envelope, whatever it started from (R70 to R72, R75, R76). -/
theorem recompute_sound (e : Envelope) : e.recompute.sound := by
  constructor
  · rfl
  · intro n; exact Four.get_ofFn _ n
  · rfl
  · rfl
  · rfl
  · simp only [Envelope.recompute]; split <;> omega
  · simp only [Envelope.recompute]
    split
    · simp
    · simp; omega
  · rfl

/-- A ramp step leaves a sound envelope sound (R73). -/
theorem ramp_step_sound {e : Envelope} (h : e.sound) (r : Nat) : (e.step r).sound := by
  constructor
  · exact h.available
  · exact h.headroom
  · exact h.total
  · exact h.target
  · exact h.binding
  · simp only [Envelope.step]; omega
  · simp only [Envelope.step]
    split
    · simp; omega
    · simp; omega
  · rfl

/-- A delivery that names cap_source alone, or nothing, leaves a sound envelope sound (R68). -/
theorem deliver_source_sound {e : Envelope} (h : e.sound) {d : EnvelopeDelivery}
    (hd : ¬(d.capEff.isSome ∨ d.excluded.isSome)) : (e.deliver d).sound := by
  have h1 : d.capEff = none := by cases hc : d.capEff <;> simp_all
  have h2 : d.excluded = none := by cases hc : d.excluded <;> simp_all
  constructor
  · simpa [Envelope.deliver, h2] using h.available
  · simpa [Envelope.deliver] using h.headroom
  · exact h.total
  · simpa [Envelope.deliver, h1] using h.target
  · simpa [Envelope.deliver, h1] using h.binding
  · exact h.commanded
  · exact h.ramp
  · exact h.share

theorem envelope_initial_sound : Envelope.initial.sound := by
  constructor <;> decide

/-- The envelope of a warm reset is sound (R85). -/
theorem envelope_afterReset_sound (e : Envelope) : e.afterReset.sound := by
  constructor
  · show (0 : LaneSet) = 0 &&& ~~~e.excluded
    simp
  · intro n
    show (Envelope.initial.headroom).get n = headroomOf 0 Envelope.initial.factor n
    clear e
    revert n; decide
  · rfl
  · show 0 = min 0 _
    simp
  · simp [Envelope.afterReset, Envelope.initial, bindingOf]
  · exact Nat.le_refl 0
  · show Option.isSome (none : Option Nat) = true ↔ (0 < 0)
    simp
  · show Envelope.initial.share = sharesOf 0 Envelope.initial.headroom 0 0
    decide

/-! ## Every event keeps the envelope sound -/

theorem serveSetDemand_sound {s : State} (h : s.eu.sound) (l : Link) (d : Nat) :
    (serveSetDemand l d s).state.eu.sound := by
  simp only [serveSetDemand]
  repeat' split
  all_goals first | exact h | exact recompute_sound _

theorem serve_keeps_envelope {s : State} (h : s.eu.sound) (l : Link) (r : Request) : (serve l r s).state.eu.sound := by
  by_cases hr : r.part = .eu
  · cases r with
    | setDemand d => exact serveSetDemand_sound h l d
    | _ => exact nomatch hr
  · have ht := serve_touches l r s
    rw [touched_eu ht hr r.part_ne_everything]; exact h

/-- Every event keeps the envelope sound (R77). -/
theorem handle_keeps_envelope {s : State} (h : s.eu.sound) (e : Ev) : (handle e s).1.eu.sound := by
  by_cases hp : e.part = .eu
  · cases e with
    | euLimits d =>
      simp only [handle, takeEnvelopeLimits]
      split
      · exact recompute_sound _
      · rename_i hd; exact deliver_source_sound h hd
    | euLane n r => simp only [handle, takeLaneEvent]; split
                    · exact h
                    · exact recompute_sound _
    | euTemp n t => simp only [handle, takeLaneTemperature]; split
                    · exact h
                    · exact recompute_sound _
    | euRampStep => simp only [handle, takeRampStep]; split
                    · exact h
                    · exact ramp_step_sound h _
    | _ => exact nomatch hp
  · by_cases he : e.part = .everything
    · cases e with
      | lkServe l r =>
        simp only [handle, takeServe]
        split
        · simp only [takeWarmStart, State.warmValues]
          rw [askRetained_eq]
          exact envelope_afterReset_sound _
        · exact serve_keeps_envelope h l r
      | coldStart straps => exact envelope_initial_sound
      | lineRelease straps =>
        simp only [handle, takeLineRelease, takeWarmStart, State.warmValues]
        rw [askRetained_eq]
        exact envelope_afterReset_sound _
      | _ => exact nomatch he
    · rw [touched_eu (handle_touches e s) hp he]; exact h

/-- The clock keeps the envelope sound: the ramp timer counts and nothing else moves. -/
theorem advance_keeps_envelope {s : State} (h : s.eu.sound) : s.advance.eu.sound := by
  have hz : s.millisecond.eu.sound := by
    constructor
    · exact h.available
    · exact h.headroom
    · exact h.total
    · exact h.target
    · exact h.binding
    · exact h.commanded
    · simpa [State.millisecond, down] using h.ramp
    · exact h.share
  unfold State.advance
  dsimp only
  split <;> exact hz

end Sys2Proof.Machine
end

