-- ==== Sys2Proof/Laws/Lanes.lean ====
section
/-! SUPPORT. Every event keeps the lanes sound. -/

namespace Sys2Proof.Machine

theorem Four.get_set {α : Type} (v : Four α) (i j : Fin 4) (a : α) :
    (v.set i a).get j = if i = j then a else v.get j := by
  match i, j with
  | 0, 0 | 0, 1 | 0, 2 | 0, 3 => rfl
  | 1, 0 | 1, 1 | 1, 2 | 1, 3 => rfl
  | 2, 0 | 2, 1 | 2, 2 | 2, 3 => rfl
  | 3, 0 | 3, 1 | 3, 2 | 3, 3 => rfl

/-- The four lanes of a lane manager are sound. -/
def LaneManager.sound (m : LaneManager) : Prop := ∀ n : Fin 4, (m.lanes.get n).sound

theorem put_sound {m : LaneManager} (h : m.sound) (n : Fin 4) {x : Lane} (hx : x.sound) : (m.put n x).sound := by
  intro k
  simp only [LaneManager.put, Four.get_set]
  split
  · exact hx
  · exact h k

theorem mapLanes_sound {m : LaneManager} (h : m.sound) {f : Lane → Lane} (hf : ∀ x : Lane, x.sound → (f x).sound) :
    (m.mapLanes f).sound := by
  intro k
  match k with
  | 0 => exact hf _ (h 0)
  | 1 => exact hf _ (h 1)
  | 2 => exact hf _ (h 2)
  | 3 => exact hf _ (h 3)

theorem goes_sound {x : Lane} (h : x.sound) {st : LaneState} (ht : timerOf st = none) (hs : st ≠ .shedding) :
    (x.goes st).sound :=
  ⟨by simp [Lane.goes, ht], by simp [Lane.goes, hs], h.warned⟩

theorem withShare_sound {x : Lane} (h : x.sound) (n : Nat) : ({ x with share := n } : Lane).sound :=
  ⟨h.timer, h.shed, h.warned⟩

theorem leaveOffline_sound {x : Lane} (h : x.sound) (hs : x.state = .offline) : (leaveOffline x).sound := by
  have : x.shed = none := by
    have := h.shed; rw [hs] at this; simpa using this
  unfold leaveOffline
  split <;> exact ⟨rfl, by simp [this], h.warned⟩

theorem sheds_sound {x : Lane} (h : x.sound) (why : ShedReason) : (x.sheds why).sound :=
  ⟨rfl, by simp [Lane.sheds], h.warned⟩

theorem evaluateStart_sound {m : LaneManager} (h : m.sound) (auto : Bool) (n : Fin 4) :
    (evaluateStart auto n m).sound := by
  unfold evaluateStart
  split
  · rename_i hc; exact put_sound h n (leaveOffline_sound (h n) hc.1)
  · exact h

theorem evaluateAll_sound {m : LaneManager} (h : m.sound) (auto : Bool) : (evaluateAll auto m).sound :=
  evaluateStart_sound (evaluateStart_sound (evaluateStart_sound (evaluateStart_sound h auto 0) auto 1) auto 2) auto 3

theorem settleLane_sound {m : LaneManager} (h : m.sound) (auto : Bool) (n : Fin 4) : (settleLane auto n m).sound := by
  unfold settleLane
  split
  · exact put_sound h n (goes_sound (h n) rfl (by decide))
  · exact evaluateStart_sound (put_sound h n (goes_sound (h n) rfl (by decide))) auto n

theorem afterOnset_sound {x : Lane} (h : x.sound) : (afterOnset x).sound := by
  unfold afterOnset
  split
  all_goals first
    | exact h
    | exact goes_sound h rfl (by decide)
    | exact withShare_sound (goes_sound h rfl (by decide)) 0

theorem afterReport_sound {x : Lane} (h : x.sound) (r : Report) : (afterReport x r).sound := by
  have hy : ({ x with report := some r, silence := some 50, warned := warningOf r } : Lane).sound :=
    ⟨h.timer, h.shed, fun _ => rfl⟩
  unfold afterReport
  dsimp only
  split
  · exact afterOnset_sound hy
  · exact hy

theorem actOn_sound {m : LaneManager} (h : m.sound) (auto : Bool) (n : Fin 4) (r : Report) :
    (actOn auto n r m).sound := by
  have noShed : ∀ st : LaneState, (m.lanes.get n).state = st → st ≠ .shedding → (m.lanes.get n).shed = none := by
    intro st hs hne
    have := (h n).shed; rw [hs] at this; simpa [hne] using this
  unfold actOn
  dsimp only
  split
  · split
    · exact put_sound h n (goes_sound (h n) rfl (by decide))
    · exact evaluateStart_sound h auto n
  · rename_i hs
    split
    · exact put_sound h n ⟨rfl, by simp [noShed _ hs], (h n).warned⟩
    · exact h
  · split
    · exact put_sound h n (goes_sound (h n) rfl (by decide))
    · exact h
  · split
    · exact settleLane_sound h auto n
    · exact h
  · split
    · exact settleLane_sound h auto n
    · exact h
  all_goals exact h

theorem whenExcluded_sound {x : Lane} (h : x.sound) : (whenExcluded x).sound := by
  unfold whenExcluded
  split
  all_goals first
    | exact h
    | exact goes_sound h rfl (by decide)
    | exact sheds_sound h _
    | skip
  · split
    · exact goes_sound h rfl (by decide)
    · exact h
  · rename_i hs
    exact ⟨by simpa using h.timer, by simp [hs], h.warned⟩

theorem whenFree_sound {m : LaneManager} (h : m.sound) (auto : Bool) (n : Fin 4) : (whenFree auto n m).sound := by
  unfold whenFree
  dsimp only
  split
  · exact evaluateStart_sound h auto n
  · exact evaluateStart_sound (put_sound h n (goes_sound (h n) rfl (by decide))) auto n
  · rename_i hs
    refine put_sound h n ⟨rfl, ?_, (h n).warned⟩
    have := (h n).shed; rw [hs] at this
    simpa using this
  · exact h

theorem deliverLane_sound {m : LaneManager} (h : m.sound) (auto : Bool) (old : LaneSet) (full : Bool) (n : Fin 4) :
    (deliverLane auto old full m n).sound := by
  unfold deliverLane
  split
  · split
    · exact put_sound h n (whenExcluded_sound (h n))
    · exact whenFree_sound h auto n
  · exact h

theorem whenSupplyLost_sound {x : Lane} (h : x.sound) : (whenSupplyLost x).sound := by
  unfold whenSupplyLost
  split
  all_goals first
    | exact h
    | exact withShare_sound (goes_sound h rfl (by decide)) 0

theorem whenPumpLost_sound {x : Lane} (h : x.sound) : (whenPumpLost x).sound := by
  unfold whenPumpLost
  split
  all_goals first
    | exact h
    | exact goes_sound h rfl (by decide)

theorem stopLane_sound {m : LaneManager} (h : m.sound) (auto : Bool) (n : Fin 4) : (stopLane auto n m).sound := by
  have hx : ({ m.lanes.get n with startFlag := false } : Lane).sound := ⟨(h n).timer, (h n).shed, (h n).warned⟩
  unfold stopLane
  dsimp only
  split
  · exact put_sound h n (sheds_sound hx _)
  · exact evaluateStart_sound (put_sound h n (goes_sound hx rfl (by decide))) auto n
  · exact evaluateStart_sound (put_sound h n (goes_sound hx rfl (by decide))) auto n
  · rename_i hs
    exact put_sound h n ⟨hx.timer, by simp [hs], hx.warned⟩
  · exact put_sound h n hx

theorem lanes_setLanes_sound {m : LaneManager} (h : m.sound) (a b : List Ev) (s : State) : (setLanes m a b s).1.lm.sound := h

theorem withSupply_sound {m : LaneManager} (h : m.sound) (st : SupplyState) :
    ({ m with supply := st } : LaneManager).sound := h

theorem withPump_sound {m : LaneManager} (h : m.sound) (p : PumpState) :
    ({ m with pump := p } : LaneManager).sound := h

theorem takeTimeout_lanes {s : State} (h : s.lm.sound) (n : Fin 4) (k : TimerKind) :
    (takeTimeout n k s).1.lm.sound := by
  unfold takeTimeout
  dsimp only
  split
  · split
    · exact put_sound h n (goes_sound (h n) rfl (by decide))
    · exact put_sound h n (goes_sound (h n) rfl (by decide))
    · exact settleLane_sound h _ n
    · exact put_sound h n (goes_sound (h n) rfl (by decide))
  · exact h

theorem initial_lanes_sound : LaneManager.initial.sound := by
  intro n
  match n with
  | 0 | 1 | 2 | 3 => exact ⟨rfl, by decide, by decide⟩

theorem serve_keeps_lanes {s : State} (h : s.lm.sound) (l : Link) (r : Request) : (serve l r s).state.lm.sound := by
  by_cases hp : r.part = .lm
  · cases r with
    | laneStart n =>
      simp only [serve, serveLaneStart]
      split
      · exact h
      · rename_i k _
        split
        · exact h
        · split
          · exact h
          · have hx : ({ s.lm.lanes.get k with startFlag := true } : Lane).sound :=
              ⟨(h k).timer, (h k).shed, (h k).warned⟩
            exact evaluateStart_sound (put_sound h k hx) _ k
    | laneStop n =>
      simp only [serve, serveLaneStop]
      split
      · exact h
      · exact stopLane_sound h _ _
    | _ => exact nomatch hp
  · rw [touched_lm (serve_touches l r s) hp r.part_ne_everything]; exact h

theorem takeWarmStart_lm (d : Nat) (straps : Fin 4) (s : State) :
    (takeWarmStart d straps s).1.lm = LaneManager.initial := by
  simp only [takeWarmStart, State.warmValues]
  rw [askRetained_eq]

/-- Every event keeps the lanes sound (R86, R89, R92). -/
theorem handle_keeps_lanes {s : State} (h : s.lm.sound) (e : Ev) : (handle e s).1.lm.sound := by
  by_cases hp : e.part = .lm
  · cases e with
    | lmExcluded set full =>
      have h0 : ({ s.lm with excluded := set } : LaneManager).sound := h
      exact deliverLane_sound (deliverLane_sound (deliverLane_sound (deliverLane_sound h0 _ _ _ 0) _ _ _ 1) _ _ _ 2)
        _ _ _ 3
    | lmShare n kw => exact put_sound h n (withShare_sound (h n) kw)
    | lmSupply st =>
      simp only [handle, takeLaneSupply]
      split
      · exact h
      · have hm : (if s.lm.supply = .full then s.lm.mapLanes whenSupplyLost else s.lm).sound := by
          split
          · exact mapLanes_sound h (fun x hx => whenSupplyLost_sound hx)
          · exact h
        exact lanes_setLanes_sound (evaluateAll_sound (withSupply_sound hm st) _) _ _ s
    | lmPump p =>
      simp only [handle, takeLanePump]
      split
      · exact h
      · have hm : (if s.lm.pump = .running then s.lm.mapLanes whenPumpLost else s.lm).sound := by
          split
          · exact mapLanes_sound h (fun x hx => whenPumpLost_sound hx)
          · exact h
        exact lanes_setLanes_sound (evaluateAll_sound (withPump_sound hm p) _) _ _ s
    | lmDemand p =>
      simp only [handle, takeLaneDemand]
      split
      · exact h
      · exact lanes_setLanes_sound (evaluateAll_sound (m := { s.lm with demand := p }) h _) _ _ s
    | lmReport n bytes =>
      simp only [handle, takeReport]
      split
      · exact h
      · exact put_sound h n (afterReport_sound (h n) _)
    | lmAct n =>
      simp only [handle, takeAct]
      split
      · exact h
      · exact actOn_sound h _ n _
    | lmReply n => exact put_sound h n ⟨(h n).timer, (h n).shed, (h n).warned⟩
    | lmEvaluate n => exact evaluateStart_sound h _ n
    | lmSilence n =>
      simp only [handle, takeSilence]
      split
      · exact h
      · exact put_sound h n ⟨(h n).timer, (h n).shed, by simp⟩
    | lmTimeout n k => exact takeTimeout_lanes h n k
    | _ => exact nomatch hp
  · by_cases he : e.part = .everything
    · cases e with
      | lkServe l r =>
        simp only [handle, takeServe]
        split
        · simpa only [storeResponse, State.setLink, takeWarmStart_lm] using initial_lanes_sound
        · exact serve_keeps_lanes h l r
      | coldStart straps => exact initial_lanes_sound
      | lineRelease straps => simpa only [handle, takeLineRelease, takeWarmStart_lm] using initial_lanes_sound
      | _ => exact nomatch he
    · rw [touched_lm (handle_touches e s) hp he]; exact h

/-- The clock keeps the lanes sound. -/
theorem advance_keeps_lanes {s : State} (h : s.lm.sound) : s.advance.lm.sound := by
  have hz : s.millisecond.lm.sound := by
    refine mapLanes_sound h (fun x hx => ⟨?_, hx.shed, ?_⟩)
    · simpa [Lane.tick, Option.map_map, Function.comp_def] using hx.timer
    · simpa [Lane.tick, down] using hx.warned
  unfold State.advance
  dsimp only
  split <;> exact hz

end Sys2Proof.Machine
end

