-- ==== Sys2Proof/Laws/Links.lean ====
section
/-! SUPPORT. Every event keeps the link units sound. -/

namespace Sys2Proof.Machine

theorem PerLink.get_set {α : Type} (v : PerLink α) (i j : Link) (a : α) :
    (v.set i a).get j = if i = j then a else v.get j := by
  cases i <;> cases j <;> rfl

/-- Both units of a pair are sound. -/
def unitsSound (v : PerLink LinkUnit) : Prop := ∀ l : Link, (v.get l).sound

theorem setLink_sound {s : State} (h : unitsSound s.links) (l : Link) {u : LinkUnit} (hu : u.sound) :
    unitsSound (s.setLink l u).links := by
  intro k
  simp only [State.setLink, PerLink.get_set]
  split
  · exact hu
  · exact h k

/-- A unit that holds no bytes and no payload is sound. -/
theorem bare_sound {u : LinkUnit} (hr : u.received = []) (hp : u.payload = none) : u.sound :=
  ⟨fun _ => hr, by simp [hr], by simp [hp], by simp [hp]⟩

theorem ends_sound (u : LinkUnit) : u.ends.sound := bare_sound rfl rfl

theorem byte_sound {u : LinkUnit} (h : u.sound) (b : Byte) (ok : Bool) : (u.byte b ok).sound := by
  unfold LinkUnit.byte
  split
  · rename_i hf
    have hp : u.payload = none := by
      cases hq : u.payload with
      | none => rfl
      | some p => have := h.payload (by simp [hq]); rw [hf] at this; cases this
    split
    · rename_i hc
      refine ⟨fun hn => absurd hf hn, ?_, by simp [hp], by simp [hp]⟩
      simp only [List.length_append, List.length_singleton]; omega
    · exact bare_sound rfl hp
  · exact ⟨h.received, h.room, h.payload, h.length⟩
  · exact h

theorem opens_sound (address : Nat) (addr : Byte) (ok : Bool) (u : LinkUnit) : (u.opens address addr ok).sound := by
  unfold LinkUnit.opens
  dsimp only
  repeat' split
  all_goals exact bare_sound rfl rfl

theorem bytes_sound {u : LinkUnit} (h : u.sound) (bytes : List Byte) :
    (bytes.foldl (fun v b => v.byte b true) u).sound := by
  induction bytes generalizing u with
  | nil => exact h
  | cons b rest ih => exact ih (byte_sound h b true)

theorem link_afterReset_sound (u : LinkUnit) : u.afterReset.sound := bare_sound rfl rfl

theorem initial_links_sound : unitsSound ⟨LinkUnit.initial, LinkUnit.initial⟩ := by
  intro l; cases l <;> exact bare_sound rfl rfl

theorem payloadBytes_length (l : Link) (s : State) : (payloadBytes l s).length = 8 := by
  simp [payloadBytes, word]

theorem snapshot_length (l : Link) (s : State) : (snapshot l s).length = 8 ∨ (snapshot l s).length = 9 := by
  unfold snapshot
  split <;> simp [payloadBytes_length]

/-- Soundness does not look at the attention marks. -/
theorem unasked_sound {u v : LinkUnit} (h : u.unasked = v.unasked) (hv : v.sound) : u.sound := by
  have hf : u.frame = v.frame := by simpa [LinkUnit.unasked] using congrArg LinkUnit.frame h
  have hr : u.received = v.received := by simpa [LinkUnit.unasked] using congrArg LinkUnit.received h
  have hp : u.payload = v.payload := by simpa [LinkUnit.unasked] using congrArg LinkUnit.payload h
  exact ⟨by rw [hf, hr]; exact hv.received, by rw [hr]; exact hv.room, by rw [hf, hp]; exact hv.payload,
    by rw [hp]; exact hv.length⟩

theorem apart_links {s t : State} (h : t.apartFromTable = s.apartFromTable) (hs : unitsSound s.links) :
    unitsSound t.links := by
  have hl : (⟨t.links.main.unasked, t.links.service.unasked⟩ : PerLink LinkUnit) =
      ⟨s.links.main.unasked, s.links.service.unasked⟩ := congrArg State.links h
  intro l
  cases l with
  | main => exact unasked_sound (congrArg PerLink.main hl) (hs .main)
  | service => exact unasked_sound (congrArg PerLink.service hl) (hs .service)

theorem touched_links {p : Part} {s t : State} (h : touched p s t) (h1 : p ≠ .links) (h2 : p ≠ .everything)
    (hs : unitsSound s.links) : unitsSound t.links := by
  cases p with
  | table => exact apart_links h hs
  | links => exact absurd rfl h1
  | everything => exact absurd rfl h2
  | _ => simp only [touched] at h; rw [h]; exact hs

theorem askRetained_apart (kept : List Record) (s : State) :
    (askRetained kept s).apartFromTable = s.apartFromTable := by
  unfold askRetained
  induction kept generalizing s with
  | nil => rfl
  | cons q rest ih =>
    simp only [List.foldl_cons]
    rw [ih, ask_apart]

theorem takeWarmStart_links (d : Nat) (straps : Fin 4) (s : State) : unitsSound (takeWarmStart d straps s).1.links := by
  refine apart_links (s := { s with links := ⟨s.links.main.afterReset, s.links.service.afterReset⟩ }) (t := { s with
    links := (takeWarmStart d straps s).1.links }) ?_ ?_
  · have := askRetained_apart (retention s.uptime s.table)
      { s with
        straps := straps, address := strapAddress straps, table := retention s.uptime s.table
        limits := resolve (retention s.uptime s.table), slots := discardPending s.slots, eu := s.eu.afterReset
        lm := LaneManager.initial, wh := s.wh.afterReset, ym := s.ym.afterReset
        cu := Cooling.afterReset (retention s.uptime s.table)
        links := ⟨s.links.main.afterReset, s.links.service.afterReset⟩, silence := silenceStart s.settings
        silenceView := false, keyView := false, keyOwed := true }
    have hl := congrArg State.links this
    simp only [State.apartFromTable] at hl ⊢
    simp only [takeWarmStart, State.warmValues]
    rw [hl]
  · intro l; cases l <;> exact link_afterReset_sound _

theorem storeResponse_sound {s : State} (h : unitsSound s.links) (l : Link) (checked : Bool) (a : Answer) :
    unitsSound (storeResponse l checked a s).links :=
  setLink_sound h l ⟨(h l).received, (h l).room, (h l).payload, (h l).length⟩

theorem takeServe_links {s : State} (h : unitsSound s.links) (l : Link) (r : Request) :
    unitsSound (takeServe l r s).1.links := by
  unfold takeServe
  split
  · exact storeResponse_sound (takeWarmStart_links _ _ s) l _ _
  · exact storeResponse_sound
      (touched_links (serve_touches l r s) (by cases r <;> exact fun h => nomatch h) r.part_ne_everything h) l _ _

/-- Every event keeps the link units sound (R185, R186, R199 to R201). -/
theorem handle_keeps_links {s : State} (h : unitsSound s.links) (e : Ev) : unitsSound (handle e s).1.links := by
  by_cases hp : e.part = .links
  · cases e with
    | lkKey on => exact h
    | lkSilence => simp only [handle, takeSilenceExpiry]; split <;> exact h
    | lkStart l a ok bytes => simp only [handle, takeStart]; repeat' split
                              all_goals exact h
    | lkOpen l a ok bytes => exact setLink_sound h l (bytes_sound (opens_sound _ _ _ _) bytes)
    | lkByte l b ok =>
      simp only [handle, takeByte, Act.guarded]
      split
      · exact setLink_sound h l (byte_sound (h l) b ok)
      · exact h
    | lkStop l =>
      simp only [handle, takeFrameStop, Act.guarded, takeStop]
      split
      · split
        · split
          · exact storeResponse_sound (setLink_sound h l (ends_sound _)) l _ _
          · exact setLink_sound h l (ends_sound _)
        · exact h
        · exact h
        · exact setLink_sound h l (ends_sound _)
      · exact h
    | lkPoisonStop l =>
      simp only [handle, takePoisonStop, Act.guarded]
      split
      · exact setLink_sound h l (ends_sound _)
      · exact h
    | lkRead l n => simp only [handle, takeRead]; repeat' split
                    all_goals exact h
    | lkSend l n => exact setLink_sound h l (bare_sound rfl rfl)
    | lkReset l => exact setLink_sound h l (bare_sound rfl rfl)
    | lkAttention l =>
      simp only [handle, takeAttention]
      split
      · rename_i hc
        refine setLink_sound h l (bare_sound ?_ rfl)
        refine (h l).received ?_
        rcases hc.2.2 with hf | hf <;> rw [hf] <;> decide
      · exact h
    | lkAttentionSlot l a =>
      simp only [handle, takeAttentionSlot]
      split
      · rename_i hc
        split
        · refine setLink_sound h l ⟨(h l).received, (h l).room, fun _ => hc.2.1, ?_⟩
          intro p hp
          cases hp
          exact snapshot_length l s
        · exact setLink_sound h l (bare_sound rfl rfl)
      · exact h
    | lkPayloadDone l =>
      simp only [handle, takePayloadDone]
      split
      · exact setLink_sound h l (bare_sound rfl rfl)
      · exact h
    | lkPayloadCut l =>
      simp only [handle, takePayloadCut]
      split
      · exact setLink_sound h l (ends_sound _)
      · exact h
    | lkRequest l r =>
      simp only [handle, takeRequest]
      repeat' split
      · exact h
      · exact setLink_sound h l (bare_sound rfl rfl)
      · exact h
    | lkBegin l r => cases l <;> exact h
    | lineAssert =>
      intro k
      cases k
      · exact ⟨(h .main).received, (h .main).room, (h .main).payload, (h .main).length⟩
      · exact ⟨(h .service).received, (h .service).room, (h .service).payload, (h .service).length⟩
    | _ => exact nomatch hp
  · by_cases he : e.part = .everything
    · cases e with
      | lkServe l r => exact takeServe_links h l r
      | coldStart straps => exact initial_links_sound
      | lineRelease straps => exact takeWarmStart_links 1 straps { s with lineAsserted := false }
      | _ => exact nomatch he
    · exact touched_links (handle_touches e s) hp he h

/-- The clock leaves the link units alone. -/
theorem advance_links (s : State) : s.advance.links = s.links := by
  unfold State.advance; dsimp only; split <;> rfl

end Sys2Proof.Machine
end

