-- ==== Sys2Proof/Laws/State.lean ====
section
/-! SUPPORT. What each named update of the state leaves in each field: one lemma a field, each true by unfolding. -/

namespace Sys2Proof.Machine

/-! ## A link's unit -/

@[simp] theorem setLink_uptime (s : State) (l : Link) (u : LinkUnit) : (s.setLink l u).uptime = s.uptime := rfl

@[simp] theorem setLink_msec (s : State) (l : Link) (u : LinkUnit) : (s.setLink l u).msec = s.msec := rfl

@[simp] theorem setLink_address (s : State) (l : Link) (u : LinkUnit) : (s.setLink l u).address = s.address := rfl

@[simp] theorem setLink_straps (s : State) (l : Link) (u : LinkUnit) : (s.setLink l u).straps = s.straps := rfl

@[simp] theorem setLink_lineAsserted (s : State) (l : Link) (u : LinkUnit) :
    (s.setLink l u).lineAsserted = s.lineAsserted := rfl

@[simp] theorem setLink_table (s : State) (l : Link) (u : LinkUnit) : (s.setLink l u).table = s.table := rfl

@[simp] theorem setLink_limits (s : State) (l : Link) (u : LinkUnit) : (s.setLink l u).limits = s.limits := rfl

@[simp] theorem setLink_slots (s : State) (l : Link) (u : LinkUnit) : (s.setLink l u).slots = s.slots := rfl

@[simp] theorem setLink_eu (s : State) (l : Link) (u : LinkUnit) : (s.setLink l u).eu = s.eu := rfl

@[simp] theorem setLink_lm (s : State) (l : Link) (u : LinkUnit) : (s.setLink l u).lm = s.lm := rfl

@[simp] theorem setLink_wh (s : State) (l : Link) (u : LinkUnit) : (s.setLink l u).wh = s.wh := rfl

@[simp] theorem setLink_ym (s : State) (l : Link) (u : LinkUnit) : (s.setLink l u).ym = s.ym := rfl

@[simp] theorem setLink_cu (s : State) (l : Link) (u : LinkUnit) : (s.setLink l u).cu = s.cu := rfl

@[simp] theorem setLink_sm (s : State) (l : Link) (u : LinkUnit) : (s.setLink l u).sm = s.sm := rfl

@[simp] theorem setLink_links (s : State) (l : Link) (u : LinkUnit) : (s.setLink l u).links = s.links.set l u := rfl

@[simp] theorem setLink_silence (s : State) (l : Link) (u : LinkUnit) : (s.setLink l u).silence = s.silence := rfl

@[simp] theorem setLink_silenceView (s : State) (l : Link) (u : LinkUnit) :
    (s.setLink l u).silenceView = s.silenceView := rfl

@[simp] theorem setLink_keyView (s : State) (l : Link) (u : LinkUnit) : (s.setLink l u).keyView = s.keyView := rfl

@[simp] theorem setLink_keyOwed (s : State) (l : Link) (u : LinkUnit) : (s.setLink l u).keyOwed = s.keyOwed := rfl

@[simp] theorem setLink_settings (s : State) (l : Link) (u : LinkUnit) : (s.setLink l u).settings = s.settings := rfl

@[simp] theorem setLink_unsettled (s : State) (l : Link) (u : LinkUnit) :
    (s.setLink l u).unsettled = s.unsettled := rfl

@[simp] theorem setLink_arrivals (s : State) (l : Link) (u : LinkUnit) : (s.setLink l u).arrivals = s.arrivals := rfl

@[simp] theorem setLink_pending (s : State) (l : Link) (u : LinkUnit) : (s.setLink l u).pending = s.pending := rfl

/-! ## A stored response -/

@[simp] theorem answered_uptime (s : State) (l : Link) (c : Bool) (a : Status) (d : List Byte) :
    (s.answered l c a d).uptime = s.uptime := rfl

@[simp] theorem answered_msec (s : State) (l : Link) (c : Bool) (a : Status) (d : List Byte) :
    (s.answered l c a d).msec = s.msec := rfl

@[simp] theorem answered_address (s : State) (l : Link) (c : Bool) (a : Status) (d : List Byte) :
    (s.answered l c a d).address = s.address := rfl

@[simp] theorem answered_straps (s : State) (l : Link) (c : Bool) (a : Status) (d : List Byte) :
    (s.answered l c a d).straps = s.straps := rfl

@[simp] theorem answered_lineAsserted (s : State) (l : Link) (c : Bool) (a : Status) (d : List Byte) :
    (s.answered l c a d).lineAsserted = s.lineAsserted := rfl

@[simp] theorem answered_table (s : State) (l : Link) (c : Bool) (a : Status) (d : List Byte) :
    (s.answered l c a d).table = s.table := rfl

@[simp] theorem answered_limits (s : State) (l : Link) (c : Bool) (a : Status) (d : List Byte) :
    (s.answered l c a d).limits = s.limits := rfl

@[simp] theorem answered_slots (s : State) (l : Link) (c : Bool) (a : Status) (d : List Byte) :
    (s.answered l c a d).slots = s.slots := rfl

@[simp] theorem answered_eu (s : State) (l : Link) (c : Bool) (a : Status) (d : List Byte) :
    (s.answered l c a d).eu = s.eu := rfl

@[simp] theorem answered_lm (s : State) (l : Link) (c : Bool) (a : Status) (d : List Byte) :
    (s.answered l c a d).lm = s.lm := rfl

@[simp] theorem answered_wh (s : State) (l : Link) (c : Bool) (a : Status) (d : List Byte) :
    (s.answered l c a d).wh = s.wh := rfl

@[simp] theorem answered_ym (s : State) (l : Link) (c : Bool) (a : Status) (d : List Byte) :
    (s.answered l c a d).ym = s.ym := rfl

@[simp] theorem answered_cu (s : State) (l : Link) (c : Bool) (a : Status) (d : List Byte) :
    (s.answered l c a d).cu = s.cu := rfl

@[simp] theorem answered_sm (s : State) (l : Link) (c : Bool) (a : Status) (d : List Byte) :
    (s.answered l c a d).sm = s.sm := rfl

@[simp] theorem answered_links (s : State) (l : Link) (c : Bool) (a : Status) (d : List Byte) :
    (s.answered l c a d).links = s.links.set l { s.links.get l with response := some (formResponse s.address c a d) } := rfl

@[simp] theorem answered_silence (s : State) (l : Link) (c : Bool) (a : Status) (d : List Byte) :
    (s.answered l c a d).silence = s.silence := rfl

@[simp] theorem answered_silenceView (s : State) (l : Link) (c : Bool) (a : Status) (d : List Byte) :
    (s.answered l c a d).silenceView = s.silenceView := rfl

@[simp] theorem answered_keyView (s : State) (l : Link) (c : Bool) (a : Status) (d : List Byte) :
    (s.answered l c a d).keyView = s.keyView := rfl

@[simp] theorem answered_keyOwed (s : State) (l : Link) (c : Bool) (a : Status) (d : List Byte) :
    (s.answered l c a d).keyOwed = s.keyOwed := rfl

@[simp] theorem answered_settings (s : State) (l : Link) (c : Bool) (a : Status) (d : List Byte) :
    (s.answered l c a d).settings = s.settings := rfl

@[simp] theorem answered_unsettled (s : State) (l : Link) (c : Bool) (a : Status) (d : List Byte) :
    (s.answered l c a d).unsettled = s.unsettled := rfl

@[simp] theorem answered_arrivals (s : State) (l : Link) (c : Bool) (a : Status) (d : List Byte) :
    (s.answered l c a d).arrivals = s.arrivals := rfl

@[simp] theorem answered_pending (s : State) (l : Link) (c : Bool) (a : Status) (d : List Byte) :
    (s.answered l c a d).pending = s.pending := rfl

/-! ## The beginning of a request -/

@[simp] theorem begun_uptime (s : State) (l : Link) : (s.begun l).uptime = s.uptime := by
  cases l <;> rfl

@[simp] theorem begun_msec (s : State) (l : Link) : (s.begun l).msec = s.msec := by
  cases l <;> rfl

@[simp] theorem begun_address (s : State) (l : Link) : (s.begun l).address = s.address := by
  cases l <;> rfl

@[simp] theorem begun_straps (s : State) (l : Link) : (s.begun l).straps = s.straps := by
  cases l <;> rfl

@[simp] theorem begun_lineAsserted (s : State) (l : Link) : (s.begun l).lineAsserted = s.lineAsserted := by
  cases l <;> rfl

@[simp] theorem begun_table (s : State) (l : Link) : (s.begun l).table = s.table := by
  cases l <;> rfl

@[simp] theorem begun_limits (s : State) (l : Link) : (s.begun l).limits = s.limits := by
  cases l <;> rfl

@[simp] theorem begun_slots (s : State) (l : Link) : (s.begun l).slots = s.slots := by
  cases l <;> rfl

@[simp] theorem begun_eu (s : State) (l : Link) : (s.begun l).eu = s.eu := by
  cases l <;> rfl

@[simp] theorem begun_lm (s : State) (l : Link) : (s.begun l).lm = s.lm := by
  cases l <;> rfl

@[simp] theorem begun_wh (s : State) (l : Link) : (s.begun l).wh = s.wh := by
  cases l <;> rfl

@[simp] theorem begun_ym (s : State) (l : Link) : (s.begun l).ym = s.ym := by
  cases l <;> rfl

@[simp] theorem begun_cu (s : State) (l : Link) : (s.begun l).cu = s.cu := by
  cases l <;> rfl

@[simp] theorem begun_sm (s : State) (l : Link) : (s.begun l).sm = s.sm := by
  cases l <;> rfl

@[simp] theorem begun_links (s : State) (l : Link) : (s.begun l).links = s.links.set l
      { s.links.get l with frame := .idle, received := [], payload := none, ackSlot := .ack, driven := [] } := by
  cases l <;> rfl

@[simp] theorem begun_keyView (s : State) (l : Link) : (s.begun l).keyView = s.keyView := by
  cases l <;> rfl

@[simp] theorem begun_keyOwed (s : State) (l : Link) : (s.begun l).keyOwed = s.keyOwed := by
  cases l <;> rfl

@[simp] theorem begun_settings (s : State) (l : Link) : (s.begun l).settings = s.settings := by
  cases l <;> rfl

@[simp] theorem begun_unsettled (s : State) (l : Link) : (s.begun l).unsettled = s.unsettled := by
  cases l <;> rfl

@[simp] theorem begun_arrivals (s : State) (l : Link) : (s.begun l).arrivals = s.arrivals := by
  cases l <;> rfl

@[simp] theorem begun_pending (s : State) (l : Link) : (s.begun l).pending = s.pending := by
  cases l <;> rfl

@[simp] theorem begun_silence_service (s : State) : (s.begun .service).silence = s.silence := rfl

@[simp] theorem begun_silence_main (s : State) : (s.begun .main).silence = silenceStart s.settings := rfl

@[simp] theorem begun_silenceView_service (s : State) : (s.begun .service).silenceView = s.silenceView := rfl

@[simp] theorem begun_silenceView_main (s : State) : (s.begun .main).silenceView = false := rfl

/-! ## A request that answers and changes nothing else -/

@[simp] theorem replies_uptime (s : State) (l : Link) (a : Status) (d : List Byte) :
    (s.replies l a d).uptime = s.uptime := by
  cases l <;> rfl

@[simp] theorem replies_msec (s : State) (l : Link) (a : Status) (d : List Byte) :
    (s.replies l a d).msec = s.msec := by
  cases l <;> rfl

@[simp] theorem replies_address (s : State) (l : Link) (a : Status) (d : List Byte) :
    (s.replies l a d).address = s.address := by
  cases l <;> rfl

@[simp] theorem replies_straps (s : State) (l : Link) (a : Status) (d : List Byte) :
    (s.replies l a d).straps = s.straps := by
  cases l <;> rfl

@[simp] theorem replies_lineAsserted (s : State) (l : Link) (a : Status) (d : List Byte) :
    (s.replies l a d).lineAsserted = s.lineAsserted := by
  cases l <;> rfl

@[simp] theorem replies_table (s : State) (l : Link) (a : Status) (d : List Byte) :
    (s.replies l a d).table = s.table := by
  cases l <;> rfl

@[simp] theorem replies_limits (s : State) (l : Link) (a : Status) (d : List Byte) :
    (s.replies l a d).limits = s.limits := by
  cases l <;> rfl

@[simp] theorem replies_slots (s : State) (l : Link) (a : Status) (d : List Byte) :
    (s.replies l a d).slots = s.slots := by
  cases l <;> rfl

@[simp] theorem replies_eu (s : State) (l : Link) (a : Status) (d : List Byte) : (s.replies l a d).eu = s.eu := by
  cases l <;> rfl

@[simp] theorem replies_lm (s : State) (l : Link) (a : Status) (d : List Byte) : (s.replies l a d).lm = s.lm := by
  cases l <;> rfl

@[simp] theorem replies_wh (s : State) (l : Link) (a : Status) (d : List Byte) : (s.replies l a d).wh = s.wh := by
  cases l <;> rfl

@[simp] theorem replies_ym (s : State) (l : Link) (a : Status) (d : List Byte) : (s.replies l a d).ym = s.ym := by
  cases l <;> rfl

@[simp] theorem replies_cu (s : State) (l : Link) (a : Status) (d : List Byte) : (s.replies l a d).cu = s.cu := by
  cases l <;> rfl

@[simp] theorem replies_sm (s : State) (l : Link) (a : Status) (d : List Byte) : (s.replies l a d).sm = s.sm := by
  cases l <;> rfl

@[simp] theorem replies_keyView (s : State) (l : Link) (a : Status) (d : List Byte) :
    (s.replies l a d).keyView = s.keyView := by
  cases l <;> rfl

@[simp] theorem replies_keyOwed (s : State) (l : Link) (a : Status) (d : List Byte) :
    (s.replies l a d).keyOwed = s.keyOwed := by
  cases l <;> rfl

@[simp] theorem replies_settings (s : State) (l : Link) (a : Status) (d : List Byte) :
    (s.replies l a d).settings = s.settings := by
  cases l <;> rfl

@[simp] theorem replies_unsettled (s : State) (l : Link) (a : Status) (d : List Byte) :
    (s.replies l a d).unsettled = s.unsettled := by
  cases l <;> rfl

@[simp] theorem replies_arrivals (s : State) (l : Link) (a : Status) (d : List Byte) :
    (s.replies l a d).arrivals = s.arrivals := by
  cases l <;> rfl

@[simp] theorem replies_pending (s : State) (l : Link) (a : Status) (d : List Byte) :
    (s.replies l a d).pending = s.pending := by
  cases l <;> rfl

/-! ## The table -/

@[simp] theorem withTable_uptime (t : List Record) (s : State) : ((State.withTable t s).1).uptime = s.uptime := rfl

@[simp] theorem withTable_msec (t : List Record) (s : State) : ((State.withTable t s).1).msec = s.msec := rfl

@[simp] theorem withTable_address (t : List Record) (s : State) : ((State.withTable t s).1).address = s.address := rfl

@[simp] theorem withTable_straps (t : List Record) (s : State) : ((State.withTable t s).1).straps = s.straps := rfl

@[simp] theorem withTable_lineAsserted (t : List Record) (s : State) :
    ((State.withTable t s).1).lineAsserted = s.lineAsserted := rfl

@[simp] theorem withTable_table (t : List Record) (s : State) : ((State.withTable t s).1).table = t := rfl

@[simp] theorem withTable_limits (t : List Record) (s : State) : ((State.withTable t s).1).limits = resolve t := rfl

@[simp] theorem withTable_slots (t : List Record) (s : State) : ((State.withTable t s).1).slots = s.slots := rfl

@[simp] theorem withTable_eu (t : List Record) (s : State) : ((State.withTable t s).1).eu = s.eu := rfl

@[simp] theorem withTable_lm (t : List Record) (s : State) : ((State.withTable t s).1).lm = s.lm := rfl

@[simp] theorem withTable_wh (t : List Record) (s : State) : ((State.withTable t s).1).wh = s.wh := rfl

@[simp] theorem withTable_ym (t : List Record) (s : State) : ((State.withTable t s).1).ym = s.ym := rfl

@[simp] theorem withTable_cu (t : List Record) (s : State) : ((State.withTable t s).1).cu = s.cu := rfl

@[simp] theorem withTable_sm (t : List Record) (s : State) : ((State.withTable t s).1).sm = s.sm := rfl

@[simp] theorem withTable_links (t : List Record) (s : State) : ((State.withTable t s).1).links = s.links := rfl

@[simp] theorem withTable_silence (t : List Record) (s : State) : ((State.withTable t s).1).silence = s.silence := rfl

@[simp] theorem withTable_silenceView (t : List Record) (s : State) :
    ((State.withTable t s).1).silenceView = s.silenceView := rfl

@[simp] theorem withTable_keyView (t : List Record) (s : State) : ((State.withTable t s).1).keyView = s.keyView := rfl

@[simp] theorem withTable_keyOwed (t : List Record) (s : State) : ((State.withTable t s).1).keyOwed = s.keyOwed := rfl

@[simp] theorem withTable_settings (t : List Record) (s : State) :
    ((State.withTable t s).1).settings = s.settings := rfl

@[simp] theorem withTable_unsettled (t : List Record) (s : State) :
    ((State.withTable t s).1).unsettled = s.unsettled := rfl

@[simp] theorem withTable_arrivals (t : List Record) (s : State) :
    ((State.withTable t s).1).arrivals = s.arrivals := rfl

@[simp] theorem withTable_pending (t : List Record) (s : State) : ((State.withTable t s).1).pending = s.pending := rfl

/-! ## A reaction slot -/

@[simp] theorem setSlot_uptime (k : Fin 8) (v : Slot) (s : State) : ((setSlot k v s).1).uptime = s.uptime := rfl

@[simp] theorem setSlot_msec (k : Fin 8) (v : Slot) (s : State) : ((setSlot k v s).1).msec = s.msec := rfl

@[simp] theorem setSlot_address (k : Fin 8) (v : Slot) (s : State) : ((setSlot k v s).1).address = s.address := rfl

@[simp] theorem setSlot_straps (k : Fin 8) (v : Slot) (s : State) : ((setSlot k v s).1).straps = s.straps := rfl

@[simp] theorem setSlot_lineAsserted (k : Fin 8) (v : Slot) (s : State) :
    ((setSlot k v s).1).lineAsserted = s.lineAsserted := rfl

@[simp] theorem setSlot_table (k : Fin 8) (v : Slot) (s : State) : ((setSlot k v s).1).table = s.table := rfl

@[simp] theorem setSlot_limits (k : Fin 8) (v : Slot) (s : State) : ((setSlot k v s).1).limits = s.limits := rfl

@[simp] theorem setSlot_slots (k : Fin 8) (v : Slot) (s : State) : ((setSlot k v s).1).slots = s.slots.set k v := rfl

@[simp] theorem setSlot_eu (k : Fin 8) (v : Slot) (s : State) : ((setSlot k v s).1).eu = s.eu := rfl

@[simp] theorem setSlot_lm (k : Fin 8) (v : Slot) (s : State) : ((setSlot k v s).1).lm = s.lm := rfl

@[simp] theorem setSlot_wh (k : Fin 8) (v : Slot) (s : State) : ((setSlot k v s).1).wh = s.wh := rfl

@[simp] theorem setSlot_ym (k : Fin 8) (v : Slot) (s : State) : ((setSlot k v s).1).ym = s.ym := rfl

@[simp] theorem setSlot_cu (k : Fin 8) (v : Slot) (s : State) : ((setSlot k v s).1).cu = s.cu := rfl

@[simp] theorem setSlot_sm (k : Fin 8) (v : Slot) (s : State) : ((setSlot k v s).1).sm = s.sm := rfl

@[simp] theorem setSlot_links (k : Fin 8) (v : Slot) (s : State) : ((setSlot k v s).1).links = s.links := rfl

@[simp] theorem setSlot_silence (k : Fin 8) (v : Slot) (s : State) : ((setSlot k v s).1).silence = s.silence := rfl

@[simp] theorem setSlot_silenceView (k : Fin 8) (v : Slot) (s : State) :
    ((setSlot k v s).1).silenceView = s.silenceView := rfl

@[simp] theorem setSlot_keyView (k : Fin 8) (v : Slot) (s : State) : ((setSlot k v s).1).keyView = s.keyView := rfl

@[simp] theorem setSlot_keyOwed (k : Fin 8) (v : Slot) (s : State) : ((setSlot k v s).1).keyOwed = s.keyOwed := rfl

@[simp] theorem setSlot_settings (k : Fin 8) (v : Slot) (s : State) : ((setSlot k v s).1).settings = s.settings := rfl

@[simp] theorem setSlot_unsettled (k : Fin 8) (v : Slot) (s : State) :
    ((setSlot k v s).1).unsettled = s.unsettled := rfl

@[simp] theorem setSlot_arrivals (k : Fin 8) (v : Slot) (s : State) : ((setSlot k v s).1).arrivals = s.arrivals := rfl

@[simp] theorem setSlot_pending (k : Fin 8) (v : Slot) (s : State) : ((setSlot k v s).1).pending = s.pending := rfl

/-! ## The envelope -/

@[simp] theorem setEnvelope_uptime (e : Envelope) (s : State) : ((setEnvelope e s).1).uptime = s.uptime := rfl

@[simp] theorem setEnvelope_msec (e : Envelope) (s : State) : ((setEnvelope e s).1).msec = s.msec := rfl

@[simp] theorem setEnvelope_address (e : Envelope) (s : State) : ((setEnvelope e s).1).address = s.address := rfl

@[simp] theorem setEnvelope_straps (e : Envelope) (s : State) : ((setEnvelope e s).1).straps = s.straps := rfl

@[simp] theorem setEnvelope_lineAsserted (e : Envelope) (s : State) :
    ((setEnvelope e s).1).lineAsserted = s.lineAsserted := rfl

@[simp] theorem setEnvelope_table (e : Envelope) (s : State) : ((setEnvelope e s).1).table = s.table := rfl

@[simp] theorem setEnvelope_limits (e : Envelope) (s : State) : ((setEnvelope e s).1).limits = s.limits := rfl

@[simp] theorem setEnvelope_slots (e : Envelope) (s : State) : ((setEnvelope e s).1).slots = s.slots := rfl

@[simp] theorem setEnvelope_eu (e : Envelope) (s : State) : ((setEnvelope e s).1).eu = e := rfl

@[simp] theorem setEnvelope_lm (e : Envelope) (s : State) : ((setEnvelope e s).1).lm = s.lm := rfl

@[simp] theorem setEnvelope_wh (e : Envelope) (s : State) : ((setEnvelope e s).1).wh = s.wh := rfl

@[simp] theorem setEnvelope_ym (e : Envelope) (s : State) : ((setEnvelope e s).1).ym = s.ym := rfl

@[simp] theorem setEnvelope_cu (e : Envelope) (s : State) : ((setEnvelope e s).1).cu = s.cu := rfl

@[simp] theorem setEnvelope_sm (e : Envelope) (s : State) : ((setEnvelope e s).1).sm = s.sm := rfl

@[simp] theorem setEnvelope_links (e : Envelope) (s : State) : ((setEnvelope e s).1).links = s.links := rfl

@[simp] theorem setEnvelope_silence (e : Envelope) (s : State) : ((setEnvelope e s).1).silence = s.silence := rfl

@[simp] theorem setEnvelope_silenceView (e : Envelope) (s : State) :
    ((setEnvelope e s).1).silenceView = s.silenceView := rfl

@[simp] theorem setEnvelope_keyView (e : Envelope) (s : State) : ((setEnvelope e s).1).keyView = s.keyView := rfl

@[simp] theorem setEnvelope_keyOwed (e : Envelope) (s : State) : ((setEnvelope e s).1).keyOwed = s.keyOwed := rfl

@[simp] theorem setEnvelope_settings (e : Envelope) (s : State) : ((setEnvelope e s).1).settings = s.settings := rfl

@[simp] theorem setEnvelope_unsettled (e : Envelope) (s : State) :
    ((setEnvelope e s).1).unsettled = s.unsettled := rfl

@[simp] theorem setEnvelope_arrivals (e : Envelope) (s : State) : ((setEnvelope e s).1).arrivals = s.arrivals := rfl

@[simp] theorem setEnvelope_pending (e : Envelope) (s : State) : ((setEnvelope e s).1).pending = s.pending := rfl

/-! ## The lane manager -/

@[simp] theorem setLanes_uptime (m : LaneManager) (a b : List Ev) (s : State) :
    ((setLanes m a b s).1).uptime = s.uptime := rfl

@[simp] theorem setLanes_msec (m : LaneManager) (a b : List Ev) (s : State) :
    ((setLanes m a b s).1).msec = s.msec := rfl

@[simp] theorem setLanes_address (m : LaneManager) (a b : List Ev) (s : State) :
    ((setLanes m a b s).1).address = s.address := rfl

@[simp] theorem setLanes_straps (m : LaneManager) (a b : List Ev) (s : State) :
    ((setLanes m a b s).1).straps = s.straps := rfl

@[simp] theorem setLanes_lineAsserted (m : LaneManager) (a b : List Ev) (s : State) :
    ((setLanes m a b s).1).lineAsserted = s.lineAsserted := rfl

@[simp] theorem setLanes_table (m : LaneManager) (a b : List Ev) (s : State) :
    ((setLanes m a b s).1).table = s.table := rfl

@[simp] theorem setLanes_limits (m : LaneManager) (a b : List Ev) (s : State) :
    ((setLanes m a b s).1).limits = s.limits := rfl

@[simp] theorem setLanes_slots (m : LaneManager) (a b : List Ev) (s : State) :
    ((setLanes m a b s).1).slots = s.slots := rfl

@[simp] theorem setLanes_eu (m : LaneManager) (a b : List Ev) (s : State) : ((setLanes m a b s).1).eu = s.eu := rfl

@[simp] theorem setLanes_lm (m : LaneManager) (a b : List Ev) (s : State) :
    ((setLanes m a b s).1).lm = { m with coolingSent := coolingDemand (s.settingOn 2) m } := rfl

@[simp] theorem setLanes_wh (m : LaneManager) (a b : List Ev) (s : State) : ((setLanes m a b s).1).wh = s.wh := rfl

@[simp] theorem setLanes_ym (m : LaneManager) (a b : List Ev) (s : State) : ((setLanes m a b s).1).ym = s.ym := rfl

@[simp] theorem setLanes_cu (m : LaneManager) (a b : List Ev) (s : State) : ((setLanes m a b s).1).cu = s.cu := rfl

@[simp] theorem setLanes_sm (m : LaneManager) (a b : List Ev) (s : State) : ((setLanes m a b s).1).sm = s.sm := rfl

@[simp] theorem setLanes_links (m : LaneManager) (a b : List Ev) (s : State) :
    ((setLanes m a b s).1).links = s.links := rfl

@[simp] theorem setLanes_silence (m : LaneManager) (a b : List Ev) (s : State) :
    ((setLanes m a b s).1).silence = s.silence := rfl

@[simp] theorem setLanes_silenceView (m : LaneManager) (a b : List Ev) (s : State) :
    ((setLanes m a b s).1).silenceView = s.silenceView := rfl

@[simp] theorem setLanes_keyView (m : LaneManager) (a b : List Ev) (s : State) :
    ((setLanes m a b s).1).keyView = s.keyView := rfl

@[simp] theorem setLanes_keyOwed (m : LaneManager) (a b : List Ev) (s : State) :
    ((setLanes m a b s).1).keyOwed = s.keyOwed := rfl

@[simp] theorem setLanes_settings (m : LaneManager) (a b : List Ev) (s : State) :
    ((setLanes m a b s).1).settings = s.settings := rfl

@[simp] theorem setLanes_unsettled (m : LaneManager) (a b : List Ev) (s : State) :
    ((setLanes m a b s).1).unsettled = s.unsettled := rfl

@[simp] theorem setLanes_arrivals (m : LaneManager) (a b : List Ev) (s : State) :
    ((setLanes m a b s).1).arrivals = s.arrivals := rfl

@[simp] theorem setLanes_pending (m : LaneManager) (a b : List Ev) (s : State) :
    ((setLanes m a b s).1).pending = s.pending := rfl

/-! ## The yaw motion unit -/

@[simp] theorem setYaw_uptime (r : List Ev) (w : YawWork) (s : State) : ((setYaw r w s).1).uptime = s.uptime := rfl

@[simp] theorem setYaw_msec (r : List Ev) (w : YawWork) (s : State) : ((setYaw r w s).1).msec = s.msec := rfl

@[simp] theorem setYaw_address (r : List Ev) (w : YawWork) (s : State) : ((setYaw r w s).1).address = s.address := rfl

@[simp] theorem setYaw_straps (r : List Ev) (w : YawWork) (s : State) : ((setYaw r w s).1).straps = s.straps := rfl

@[simp] theorem setYaw_lineAsserted (r : List Ev) (w : YawWork) (s : State) :
    ((setYaw r w s).1).lineAsserted = s.lineAsserted := rfl

@[simp] theorem setYaw_table (r : List Ev) (w : YawWork) (s : State) : ((setYaw r w s).1).table = s.table := rfl

@[simp] theorem setYaw_limits (r : List Ev) (w : YawWork) (s : State) : ((setYaw r w s).1).limits = s.limits := rfl

@[simp] theorem setYaw_slots (r : List Ev) (w : YawWork) (s : State) : ((setYaw r w s).1).slots = s.slots := rfl

@[simp] theorem setYaw_eu (r : List Ev) (w : YawWork) (s : State) : ((setYaw r w s).1).eu = s.eu := rfl

@[simp] theorem setYaw_lm (r : List Ev) (w : YawWork) (s : State) : ((setYaw r w s).1).lm = s.lm := rfl

@[simp] theorem setYaw_wh (r : List Ev) (w : YawWork) (s : State) : ((setYaw r w s).1).wh = s.wh := rfl

@[simp] theorem setYaw_cu (r : List Ev) (w : YawWork) (s : State) : ((setYaw r w s).1).cu = s.cu := rfl

@[simp] theorem setYaw_sm (r : List Ev) (w : YawWork) (s : State) : ((setYaw r w s).1).sm = s.sm := rfl

@[simp] theorem setYaw_links (r : List Ev) (w : YawWork) (s : State) : ((setYaw r w s).1).links = s.links := rfl

@[simp] theorem setYaw_silence (r : List Ev) (w : YawWork) (s : State) : ((setYaw r w s).1).silence = s.silence := rfl

@[simp] theorem setYaw_silenceView (r : List Ev) (w : YawWork) (s : State) :
    ((setYaw r w s).1).silenceView = s.silenceView := rfl

@[simp] theorem setYaw_keyView (r : List Ev) (w : YawWork) (s : State) : ((setYaw r w s).1).keyView = s.keyView := rfl

@[simp] theorem setYaw_keyOwed (r : List Ev) (w : YawWork) (s : State) : ((setYaw r w s).1).keyOwed = s.keyOwed := rfl

@[simp] theorem setYaw_settings (r : List Ev) (w : YawWork) (s : State) :
    ((setYaw r w s).1).settings = s.settings := rfl

@[simp] theorem setYaw_unsettled (r : List Ev) (w : YawWork) (s : State) :
    ((setYaw r w s).1).unsettled = s.unsettled := rfl

@[simp] theorem setYaw_arrivals (r : List Ev) (w : YawWork) (s : State) :
    ((setYaw r w s).1).arrivals = s.arrivals := rfl

@[simp] theorem setYaw_pending (r : List Ev) (w : YawWork) (s : State) : ((setYaw r w s).1).pending = s.pending := rfl

/-! ## The cooling unit -/

@[simp] theorem setCooling_uptime (u : Cooling) (a : List Ev) (s : State) :
    ((setCooling u a s).1).uptime = s.uptime := rfl

@[simp] theorem setCooling_msec (u : Cooling) (a : List Ev) (s : State) : ((setCooling u a s).1).msec = s.msec := rfl

@[simp] theorem setCooling_address (u : Cooling) (a : List Ev) (s : State) :
    ((setCooling u a s).1).address = s.address := rfl

@[simp] theorem setCooling_straps (u : Cooling) (a : List Ev) (s : State) :
    ((setCooling u a s).1).straps = s.straps := rfl

@[simp] theorem setCooling_lineAsserted (u : Cooling) (a : List Ev) (s : State) :
    ((setCooling u a s).1).lineAsserted = s.lineAsserted := rfl

@[simp] theorem setCooling_table (u : Cooling) (a : List Ev) (s : State) :
    ((setCooling u a s).1).table = s.table := rfl

@[simp] theorem setCooling_limits (u : Cooling) (a : List Ev) (s : State) :
    ((setCooling u a s).1).limits = s.limits := rfl

@[simp] theorem setCooling_slots (u : Cooling) (a : List Ev) (s : State) :
    ((setCooling u a s).1).slots = s.slots := rfl

@[simp] theorem setCooling_eu (u : Cooling) (a : List Ev) (s : State) : ((setCooling u a s).1).eu = s.eu := rfl

@[simp] theorem setCooling_lm (u : Cooling) (a : List Ev) (s : State) : ((setCooling u a s).1).lm = s.lm := rfl

@[simp] theorem setCooling_wh (u : Cooling) (a : List Ev) (s : State) : ((setCooling u a s).1).wh = s.wh := rfl

@[simp] theorem setCooling_ym (u : Cooling) (a : List Ev) (s : State) : ((setCooling u a s).1).ym = s.ym := rfl

@[simp] theorem setCooling_cu (u : Cooling) (a : List Ev) (s : State) : ((setCooling u a s).1).cu = u := rfl

@[simp] theorem setCooling_sm (u : Cooling) (a : List Ev) (s : State) : ((setCooling u a s).1).sm = s.sm := rfl

@[simp] theorem setCooling_links (u : Cooling) (a : List Ev) (s : State) :
    ((setCooling u a s).1).links = s.links := rfl

@[simp] theorem setCooling_silence (u : Cooling) (a : List Ev) (s : State) :
    ((setCooling u a s).1).silence = s.silence := rfl

@[simp] theorem setCooling_silenceView (u : Cooling) (a : List Ev) (s : State) :
    ((setCooling u a s).1).silenceView = s.silenceView := rfl

@[simp] theorem setCooling_keyView (u : Cooling) (a : List Ev) (s : State) :
    ((setCooling u a s).1).keyView = s.keyView := rfl

@[simp] theorem setCooling_keyOwed (u : Cooling) (a : List Ev) (s : State) :
    ((setCooling u a s).1).keyOwed = s.keyOwed := rfl

@[simp] theorem setCooling_settings (u : Cooling) (a : List Ev) (s : State) :
    ((setCooling u a s).1).settings = s.settings := rfl

@[simp] theorem setCooling_unsettled (u : Cooling) (a : List Ev) (s : State) :
    ((setCooling u a s).1).unsettled = s.unsettled := rfl

@[simp] theorem setCooling_arrivals (u : Cooling) (a : List Ev) (s : State) :
    ((setCooling u a s).1).arrivals = s.arrivals := rfl

@[simp] theorem setCooling_pending (u : Cooling) (a : List Ev) (s : State) :
    ((setCooling u a s).1).pending = s.pending := rfl

/-! ## The supply monitor -/

@[simp] theorem setSupply_uptime (m : Supply) (s : State) : ((setSupply m s).1).uptime = s.uptime := rfl

@[simp] theorem setSupply_msec (m : Supply) (s : State) : ((setSupply m s).1).msec = s.msec := rfl

@[simp] theorem setSupply_address (m : Supply) (s : State) : ((setSupply m s).1).address = s.address := rfl

@[simp] theorem setSupply_straps (m : Supply) (s : State) : ((setSupply m s).1).straps = s.straps := rfl

@[simp] theorem setSupply_lineAsserted (m : Supply) (s : State) :
    ((setSupply m s).1).lineAsserted = s.lineAsserted := rfl

@[simp] theorem setSupply_table (m : Supply) (s : State) : ((setSupply m s).1).table = s.table := rfl

@[simp] theorem setSupply_limits (m : Supply) (s : State) : ((setSupply m s).1).limits = s.limits := rfl

@[simp] theorem setSupply_slots (m : Supply) (s : State) : ((setSupply m s).1).slots = s.slots := rfl

@[simp] theorem setSupply_eu (m : Supply) (s : State) : ((setSupply m s).1).eu = s.eu := rfl

@[simp] theorem setSupply_lm (m : Supply) (s : State) : ((setSupply m s).1).lm = s.lm := rfl

@[simp] theorem setSupply_wh (m : Supply) (s : State) : ((setSupply m s).1).wh = s.wh := rfl

@[simp] theorem setSupply_ym (m : Supply) (s : State) : ((setSupply m s).1).ym = s.ym := rfl

@[simp] theorem setSupply_cu (m : Supply) (s : State) : ((setSupply m s).1).cu = s.cu := rfl

@[simp] theorem setSupply_sm (m : Supply) (s : State) : ((setSupply m s).1).sm = m := rfl

@[simp] theorem setSupply_links (m : Supply) (s : State) : ((setSupply m s).1).links = s.links := rfl

@[simp] theorem setSupply_silence (m : Supply) (s : State) : ((setSupply m s).1).silence = s.silence := rfl

@[simp] theorem setSupply_silenceView (m : Supply) (s : State) :
    ((setSupply m s).1).silenceView = s.silenceView := rfl

@[simp] theorem setSupply_keyView (m : Supply) (s : State) : ((setSupply m s).1).keyView = s.keyView := rfl

@[simp] theorem setSupply_keyOwed (m : Supply) (s : State) : ((setSupply m s).1).keyOwed = s.keyOwed := rfl

@[simp] theorem setSupply_settings (m : Supply) (s : State) : ((setSupply m s).1).settings = s.settings := rfl

@[simp] theorem setSupply_unsettled (m : Supply) (s : State) : ((setSupply m s).1).unsettled = s.unsettled := rfl

@[simp] theorem setSupply_arrivals (m : Supply) (s : State) : ((setSupply m s).1).arrivals = s.arrivals := rfl

@[simp] theorem setSupply_pending (m : Supply) (s : State) : ((setSupply m s).1).pending = s.pending := rfl

/-! ## Settings after an update -/

/-- A request's beginning leaves the check modes as they are. -/
@[simp] theorem begun_checkMode (s : State) (l k : Link) : (s.begun l).checkMode k = s.checkMode k := by
  cases l <;> cases k <;> rfl

@[simp] theorem begun_setting (s : State) (l : Link) (id : Nat) : (s.begun l).setting id = s.setting id := by
  cases l <;> rfl

@[simp] theorem begun_settingOn (s : State) (l : Link) (id : Nat) : (s.begun l).settingOn id = s.settingOn id := by
  cases l <;> rfl

@[simp] theorem begun_keyRefuses (s : State) (l k : Link) : (s.begun l).keyRefuses k = s.keyRefuses k := by
  cases l <;> rfl

end Sys2Proof.Machine
end

