-- ==== Sys2Proof/Laws/Supply.lean ====
section
/-! SUPPORT. Every event keeps the supply monitor sound. -/

namespace Sys2Proof.Machine

theorem initial_supply_sound : Supply.initial.sound := by
  constructor <;> simp [Supply.initial]

/-- A grid read keeps the supply monitor sound (R174, R176). -/
theorem takeGrid_sound {s : State} (h : s.sm.sound) (p : Bool) : (takeGrid p s).1.sm.sound := by
  obtain ⟨h1, h2, h3, h4, h5⟩ := h
  unfold takeGrid
  dsimp only
  split
  · rename_i hg
    split
    · rename_i hf; rw [h1 hf] at hg; cases hg
    · rename_i hf
      constructor <;> simp_all [setSupply]
  · rename_i hg
    split
    · rename_i hf
      constructor
      · simp only [setSupply, stateOnLoss]
        cases hu : s.sm.ups with
        | none => simp
        | some p => simp only; split <;> simp
      · simp [setSupply, stateOnLoss] at *
        simp_all
      · intro ha p hp
        simp only [setSupply, stateOnLoss] at ha hp
        rw [hp] at ha
        simp only at ha
        split at ha
        · cases ha
        · omega
      · intro ha
        simp only [setSupply, stateOnLoss] at ha ⊢
        cases hu : s.sm.ups with
        | none => rw [hu] at ha; cases ha
        | some p =>
          rw [hu] at ha
          simp only at ha
          split at ha
          · exact ⟨p, rfl, by omega⟩
          · cases ha
      · exact h5
    · constructor <;> simp_all [setSupply]
  · exact ⟨h1, h2, h3, h4, h5⟩

/-- The end of a settle leaves FULL, with the grid present (R176). -/
theorem takeSettled_sound {s : State} (h : s.sm.sound) : (takeSettled s).1.sm.sound := by
  obtain ⟨h1, h2, h3, h4, h5⟩ := h
  unfold takeSettled
  split
  · exact ⟨h1, h2, h3, h4, h5⟩
  · constructor <;> simp_all [setSupply]

/-- A UPS sample keeps the supply monitor sound (R175, R177). -/
theorem takeUps_sound {s : State} (h : s.sm.sound) (r : Option Nat) : (takeUps r s).1.sm.sound := by
  obtain ⟨h1, h2, h3, h4, h5⟩ := h
  unfold takeUps
  split
  · exact ⟨h1, h2, h3, h4, h5⟩
  · rename_i p hp
    have hp : p ≤ 100 := by
      unfold validUps at hp
      split at hp
      · cases hp
      · split at hp
        · cases hp; assumption
        · cases hp
    constructor
    · intro hf
      simp only [setSupply] at hf ⊢
      cases hs : s.sm.state <;> simp only [hs, stateOnSample] at hf
      · exact h1 hs
      · split at hf <;> cases hf
      · split at hf <;> cases hf
    · simp only [setSupply]
      rw [h2]
      cases hs : s.sm.state <;> simp only [stateOnSample]
      · split <;> simp
      · split <;> simp
    · intro ha q hq
      simp only [setSupply, Option.some.injEq] at ha hq
      subst hq
      cases hs : s.sm.state <;> simp only [hs, stateOnSample] at ha
      · cases ha
      · split at ha
        · cases ha
        · omega
      · split at ha
        · omega
        · cases ha
    · intro ha
      refine ⟨p, rfl, ?_⟩
      simp only [setSupply] at ha
      cases hs : s.sm.state <;> simp only [hs, stateOnSample] at ha
      · cases ha
      · split at ha
        · omega
        · cases ha
      · split at ha
        · cases ha
        · omega
    · intro q hq
      simp only [setSupply, Option.some.injEq] at hq
      omega

theorem takeWarmStart_sm (d : Nat) (straps : Fin 4) (s : State) : (takeWarmStart d straps s).1.sm = s.sm := by
  simp only [takeWarmStart, State.warmValues]
  rw [askRetained_eq]

/-- Every event keeps the supply monitor sound (R173 to R177). -/
theorem handle_keeps_supply {s : State} (h : s.sm.sound) (e : Ev) : (handle e s).1.sm.sound := by
  by_cases hp : e.part = .sm
  · cases e with
    | smGrid p => exact takeGrid_sound h p
    | smSettled => exact takeSettled_sound h
    | smUps r => exact takeUps_sound h r
    | _ => exact nomatch hp
  · by_cases he : e.part = .everything
    · cases e with
      | lkServe l r =>
        simp only [handle, takeServe]
        split
        · simpa only [storeResponse, State.setLink, takeWarmStart_sm] using h
        · have := touched_sm (serve_touches l r s) (by cases r <;> exact fun h => nomatch h) r.part_ne_everything
          simpa only [storeResponse, State.setLink, this] using h
      | coldStart straps => exact initial_supply_sound
      | lineRelease straps => simpa only [handle, takeLineRelease, takeWarmStart_sm] using h
      | _ => exact nomatch he
    · rw [touched_sm (handle_touches e s) hp he]; exact h

/-- The clock keeps the supply monitor sound. -/
theorem advance_keeps_supply {s : State} (h : s.sm.sound) : s.advance.sm.sound := by
  have hz : s.millisecond.sm.sound :=
    ⟨h.full, by simpa [State.millisecond, down] using h.settle, h.aux, h.low, h.charge⟩
  unfold State.advance
  dsimp only
  split <;> exact hz

end Sys2Proof.Machine
end

