-- ==== Sys2Proof/Tests/Slice0.lean ====
section
/-! SUPPORT. Tests of the model on single commands, each expected value read from the manual (its worked figures and
sequences, or its tables), and a witness for every statement that has hypotheses. -/

namespace Sys2Proof.Tests
open Sys2Proof Sys2Proof.Machine

/-! ## Small states -/

/-- The state that a command leaves; the state itself where the command did not answer a next state. -/
def did (c : Instr) (s : State) : State :=
  match exec c s with
  | .next t => t
  | _ => s

/-- The record with a code, for looking at one field of it. -/
def recordOf (s : State) (c : Code) : Option Record := findCode s.table c

/-- LANE_TRIP(2, 17) in slot 0 of section 2.7: 2:217, SHED, ACKED, excluding lane 2. -/
def laneTrip : Record :=
  { slot := 0, code := ⟨2, 0x217⟩, cls := .shed, mode := .edge, origin := .lane 2, state := .acked, cause := false
    occurrences := 1, firstRaised := 900, lastChange := 910, detail := 0
    eff := { cap := none, lanes := 4, yaw := 0, boost := 0 }, unread := ⟨false, false⟩, holdoff := none }

/-- LOOP_HOT(L0) as section 1.13 has it at 1004: 4:020, LIMIT, LEVEL, ACTIVE with its cause, cap 9750. -/
def loopHot : Record :=
  { slot := 1, code := ⟨4, 0x20⟩, cls := .limit, mode := .level, origin := .internal, state := .active, cause := true
    occurrences := 1, firstRaised := 1000, lastChange := 1004, detail := 561
    eff := { cap := some 9750, lanes := 0, yaw := 0, boost := 0 }, unread := ⟨false, false⟩, holdoff := none }

/-- A host record of class TRIP in slot 2, acknowledged. -/
def hostTrip : Record :=
  { slot := 2, code := ⟨8, 0x20⟩, cls := .trip, mode := .edge, origin := .main, state := .acked, cause := false
    occurrences := 4, firstRaised := 1001, lastChange := 1003, detail := 7
    eff := { cap := some 0, lanes := 0, yaw := 0, boost := 0 }, unread := ⟨false, false⟩, holdoff := none }

/-- The limits of the first two of these records. -/
def twoLimits : Limits :=
  { capEff := 9750, capSource := some ⟨4, 0x20⟩, excluded := 4, yaw := 0, boost := 0, highest := some .shed }

/-- A lane that runs and has reported. -/
def runningLane (share : Nat) : Lane :=
  { Lane.initial with
    state := .running
    report := some ⟨.delivering, 1085, 700, share, .none, 0, 0⟩, startFlag := true, share := share, silence := some 45
    command := some ⟨.run, share⟩ }

/-- A loop that runs at an outlet temperature. -/
def runningLoop (tOut : Int) (duty : Nat) : Loop :=
  { Loop.initial with pump := .running, flow := true, duty := duty, tOut := some tOut, owed := false }

/-- The envelope of section 4.11 at its start: D 12000, cap 9750, lanes 0, 1 and 3, H 7312, C 7000. -/
def workedEnvelope : Envelope :=
  { demand := 12000, capEff := 9750, capSource := some ⟨4, 0x20⟩, running := 0b1011, excluded := 4, available := 0b1011
    factor := ⟨some 64, some 32, none, some 21⟩, headroom := ⟨4000, 2000, 0, 1312⟩, total := 7312, target := 7312
    binding := .headroom, commanded := 7000, ramp := some 100, share := ⟨3830, 1914, 0, 1256⟩ }

/-- A drive in the run. -/
def runningDrive : Drive := { state := .running, reported := false, line := false }

/-- The yaw of section 7.10 at its start: TRACK moves clockwise to 1290, heading 1200, twist 10770. -/
def workedYaw : Yaw :=
  { chain := [⟨.track, .auto, .heading 1290, some .cw, .moving⟩]
    drives := ⟨runningDrive, runningDrive, runningDrive, runningDrive, runningDrive, runningDrive, runningDrive,
      runningDrive⟩
    brake := .released, brakeTimer := none, pressure := 10, run := some .cw, settle := none, stall := some ⟨1200, 0⟩
    heading := some 1200, twist := 10770, filtered := 90, held := 0, supply := .full, blockedView := false
    lowView := false }

/-- A nacelle at work: the table, the envelope, the lanes, the yaw, the loops and the supply of the worked sequences,
with the strap address of section 10.8. -/
def plant : State :=
  { State.powerOn with
    uptime := 1010, straps := 1, address := 0x35, table := [laneTrip, loopHot], limits := twoLimits, eu := workedEnvelope
    lm := { lanes := ⟨runningLane 3830, runningLane 1914, { Lane.initial with state := .faulted }, runningLane 1256⟩
            excluded := 4, supply := .full, pump := .running, demand := true, coolingSent := true }
    wh := { Wind.initial with
      refHeading := some 1200, headingOk := true, twist := 10770, filtered := 90, speed := 246, headingOwed := false
      vaneOwed := false }
    ym := workedYaw
    cu := { loops := ⟨{ runningLoop 589 86 with hotView := true, factor := 39, computedCap := 9750 }, runningLoop 400 20,
              runningLoop 300 20⟩
            commanded := 7000, laneDemand := true, supply := .full, boost := 0, reaction := 0 }
    sm := { state := .full, grid := true, settle := none, ups := some 64, upsOk := true }
    links := ⟨{ LinkUnit.initial with unreported := false }, { LinkUnit.initial with unreported := false }⟩
    silence := some 6400, keyOwed := false }

/-- The nacelle with no record and no cap. -/
def clear : State :=
  { plant with
    table := [], limits := Limits.initial
    eu := { workedEnvelope with capEff := 16000, capSource := none, excluded := 0 }
    lm := { plant.lm with excluded := 0 } }

/-- A lane changed. -/
def withLane (s : State) (n : Fin 4) (x : Lane) : State := { s with lm := s.lm.put n x }

/-- A loop changed. -/
def withLoop (s : State) (l : Fin 3) (x : Loop) : State := { s with cu := s.cu.put l x }

/-- A slot bound to LANE_TRIP(2, 17) as section 3.7 binds one: AUTO_RETIRE after 120 s, three times. -/
def bound : Slot :=
  { bound := some ⟨2, 0x217⟩, action := some .autoRetire, loops := none, delay := some 120, count := 3, pending := none
    last := .none }

/-- A slot whose COOL_BOOST of L1 is pending. -/
def boosting : Slot :=
  { bound := some ⟨4, 0x21⟩, action := some .coolBoost, loops := some 2, delay := some 60, count := 1, pending := some 0
    last := .none }

/-- A slot changed, with the reaction boost set handed over. -/
def withSlot (s : State) (k : Fin 8) (x : Slot) : State :=
  { s with slots := s.slots.set k x, cu := { s.cu with reaction := reactionBoost (s.slots.set k x) } }

/-- A link changed. -/
def withFrame (s : State) (l : Link) (f : FrameState) (bytes : List Byte) : State :=
  s.setLink l { s.links.get l with frame := f, received := bytes }

/-- The service link with a payload in flight. -/
def attended : State :=
  plant.setLink .service
    { plant.links.service with frame := .attention, payload := some (List.replicate 8 0), attention := true }

/-! ## The operands that reach the part -/

/-- A request frame holds at most 16 bytes after its address byte (R186). -/
theorem test_wf_start_bytes : Instr.wellFormed (.startCondition .main 0x68 true (List.replicate 17 0)) = false := by decide
theorem test_wf_scan_start : Instr.wellFormed (.scan .main 256 .all) = false := by decide
theorem test_wf_raise_detail : Instr.wellFormed (.raise .main ⟨8, 1⟩ .limit 65536 none 0 .none 0) = false := by decide
theorem test_wf_raise_cap : Instr.wellFormed (.raise .main ⟨8, 1⟩ .limit 0 (some 16001) 0 .none 0) = false := by decide
theorem test_wf_amend_cap : Instr.wellFormed (.amend .main ⟨8, 1⟩ (some 16001) 0 .none 0) = false := by decide
theorem test_wf_bind_slot : Instr.wellFormed (.bind .main 256 ⟨8, 1⟩ .escalate 0 0 1) = false := by decide
theorem test_wf_bind_delay : Instr.wellFormed (.bind .main 0 ⟨8, 1⟩ .escalate 0 65536 1) = false := by decide
theorem test_wf_bind_count : Instr.wellFormed (.bind .main 0 ⟨8, 1⟩ .escalate 0 0 256) = false := by decide
theorem test_wf_slots : Instr.wellFormed (.unbind .main 256) = false ∧ Instr.wellFormed (.readSlot .main 256) = false := by
  decide
theorem test_wf_demand : Instr.wellFormed (.setDemand .main 65536) = false := by decide
theorem test_wf_lanes : Instr.wellFormed (.laneStart .main 256) = false ∧ Instr.wellFormed (.laneStop .main 256) = false ∧
    Instr.wellFormed (.readLane .main 256) = false := by decide
theorem test_wf_goto : Instr.wellFormed (.yawGoto .service 65536) = false := by decide
theorem test_wf_jog : Instr.wellFormed (.yawJog .service .cw 256) = false := by decide
theorem test_wf_drives : Instr.wellFormed (.driveIsolate .service 256) = false ∧
    Instr.wellFormed (.driveReturn .service 256) = false := by decide
theorem test_wf_twist : Instr.wellFormed (.setTwist .service 32768) = false ∧
    Instr.wellFormed (.setTwist .service (-32769)) = false := by decide
theorem test_wf_loop : Instr.wellFormed (.readLoop .main 256) = false := by decide
theorem test_wf_settings : Instr.wellFormed (.setSetting .main 256 0) = false ∧
    Instr.wellFormed (.setSetting .main 1 32768) = false ∧ Instr.wellFormed (.getSetting .main 256) = false := by decide
theorem test_wf_report : Instr.wellFormed (.laneReport 0 (List.replicate 13 0)) = false := by decide
theorem test_wf_heading : Instr.wellFormed (.headingRead (some 65536)) = false := by decide
theorem test_wf_vane : Instr.wellFormed (.vaneSample (some 1800)) = false ∧
    Instr.wellFormed (.vaneSample (some (-1801))) = false := by decide
theorem test_wf_pulses : Instr.wellFormed (.anemometerSample 65536) = false := by decide
theorem test_wf_pressure : Instr.wellFormed (.brakePressureRead 65536) = false := by decide
theorem test_wf_temperature : Instr.wellFormed (.temperatureSample 0 (some 32768)) = false := by decide
theorem test_wf_ups : Instr.wellFormed (.upsSample (some 101)) = false := by decide

/-- No row of the operation table has bits, so no word spells a command and the queue stays as it is. -/
theorem test_no_word : decodeTableWord 8 0x05 = none ∧ plant.withFetchWord 8 0x05 = plant := ⟨rfl, rfl⟩

/-! ## Arithmetic and bytes -/

/-- Section 10.8: 0x6A has four ones, 0x05 two, 0x40 and 0x20 one, and the nine bits hold an odd number of ones. -/
theorem test_parity : [0x6A#8, 0x05#8, 0x40#8, 0x20#8].map parityBit = [true, true, false, false] := by decide

/-- CRC-8 of polynomial 0x2F, initial value 0xFF, over the ASCII digits 1 to 9: the published check value 0xDF is taken
with a final XOR of 0xFF, which R187 leaves out. -/
theorem test_crc : crc8 [0x31, 0x32, 0x33, 0x34, 0x35, 0x36, 0x37, 0x38, 0x39] = 0x20#8 := by decide +kernel

/-- Section 4.11: 850 gives f 32 and h 2000, 883 gives 21 and 1312, 900 gives 16 and 1000, 950 gives 0 (R66, R67). -/
theorem test_thermal_factor : [(750 : Int), 850, 883, 900, 950].map (thermalFactor 750 950) = [64, 32, 21, 16, 0] := by decide

/-- R76: four lanes of headroom 4000 share 7103 as 1776, 1776, 1776 and 1775, and 7100 as four times 1775. -/
theorem test_remainder : sharesOf 15 ⟨4000, 4000, 4000, 4000⟩ 16000 7103 = ⟨1776, 1776, 1776, 1775⟩ ∧
    sharesOf 15 ⟨4000, 4000, 4000, 4000⟩ 16000 7100 = ⟨1775, 1775, 1775, 1775⟩ := by decide

/-- Section 2.7: the local code 17 of lane 2 gives item 217. -/
theorem test_lane_code : laneCode 2 0x17 = ⟨2, 0x217⟩ := by decide

/-- R165's figures of the fan law on L0 with C 7100. -/
theorem test_fan_law : [(463 : Int), 400, 350, 347, 430].map (fun t => fanLaw settingDefaults 0 7100 (some t)) =
    [36, 20, 20, 20, 23] := by decide

/-! ## Resets -/

/-- State.reset is what COLD_POWER_UP leaves of a part whose blocks hold their initial values (R29, R43, R84, R110, R125,
R153, R171, R179). -/
theorem test_reset_is_cold_power_up : did (.coldPowerUp 0) State.powerOn = State.reset := by decide

/-- R179: GRID_LOSS stands in slot 0 with cap 0 after a cold power-up, and attention is pending on both links. -/
theorem test_cold_power_up : let t := did (.coldPowerUp 1) plant
    t.address = 0x35 ∧ t.table = [Record.gridLossAtReset] ∧ t.eu.capEff = 0 ∧ t.links.main.attention = true := by decide

theorem test_reset_line_assert : (did .resetLineAssert plant).lineAsserted = true := by decide

/-- R197: while the line is asserted no frame is taken. -/
theorem test_reset_line_holds : did (.setDemand .main 5) { plant with lineAsserted := true } =
    { plant with lineAsserted := true } := by decide

/-- R30, section 2.8: the SHED record of LANE origin is kept ACTIVE in its slot, the LIMIT record goes, WARM_RESTART comes. -/
theorem test_reset_line_release : let t := did (.resetLineRelease 2) { plant with lineAsserted := true }
    t.address = 0x36 ∧ t.lineAsserted = false ∧
    t.table.map (fun q => (q.slot, q.code, q.state)) =
      [(0, ⟨2, 0x217⟩, .active), (1, warmRestartCode, .active)] ∧ t.limits.excluded = 4 := by decide

/-- R197: the requesting link then holds DONE, the other link's buffer is empty, and the plant is stopped. -/
theorem test_warm_reset : let t := did (.warmReset .main 1) plant
    t.links.main.response = some (formResponse 0x35 true .done []) ∧ t.links.service.response = none ∧
    t.eu.commanded = 0 ∧ t.ym.brake = .applying := by decide +kernel

/-! ## Frames (section 10.8 and chapter 11) -/

theorem test_start_condition : (did (.startCondition .main 0x6A true [0x05]) plant).links.main =
    { plant.links.main with frame := .receiving, received := [0x05], ackSlot := .ack } := by decide

/-- R185: another part's address is left alone. -/
theorem test_start_other_address : (did (.startCondition .main 0x68 true [0x05]) plant).links.main =
    { plant.links.main with frame := .ignoring } := by decide

/-- Section 10.8: the third byte comes with a bit flipped, and the buffer is emptied. -/
theorem test_frame_poison : let s := withFrame plant .main .receiving [0x05]
    (did (.framePoison .main 0x60 false) s).links.main =
      { s.links.main with frame := .poisoned, received := [], response := none, ackSlot := .nack } := by decide

/-- R185, R187: the start condition of the whole request frame ends the frame in RECEIVING first, whose own request is
executed: the demand of its bytes stands, and the envelope is read after it. -/
theorem test_request_ends_frame : let s := withFrame plant .service .receiving [0x10, 0x03, 0xE8]
    let t := did (.readEnvelope .service) s
    t.eu.demand = 1000 ∧ t.links.service.response.map (fun r => r.data.take 2) = some [0x03, 0xE8] := by decide

/-- R183: a WARM_RESET among the bytes of a frame reads the strap pins as they stand. -/
theorem test_frame_warm_reset : let s := withFrame { plant with straps := 3 } .service .receiving [0x71]
    (did (.requestFrameFault .service) s).address = 0x37 := by decide

theorem test_poisoned_stop : let s := withFrame plant .main .poisoned []
    did (.poisonedFrameStop .main) s = withFrame plant .main .idle [] := by decide

/-- Section 10.8: the frame 0x05 0x40 0x20 with its check byte acknowledges LOOP_HOT(L0), restarts the silence timer at
20000 and answers DONE with state 1. -/
theorem test_request_frame : let s := withFrame plant .main .receiving [0x05, 0x40, 0x20, crc8 [0x6A, 0x05, 0x40, 0x20]]
    let t := did (.requestFrameFault .main) s
    (recordOf t ⟨4, 0x20⟩).map (fun q => (q.state, q.unread)) = some (.acked, ⟨false, true⟩) ∧ t.silence = some 20000 ∧
    t.links.main.response = some ⟨.done, [0x01], some (crc8 [0x6B, 0x00, 0x01])⟩ := by decide +kernel

/-- R187: a wrong check byte is answered CHECK_FAIL and the silence timer runs on. -/
theorem test_request_frame_fault : let t := did (.requestFrameFault .main) (withFrame plant .main .receiving [0x05, 0x40, 0x20, 0])
    t.links.main.response.map (fun r => r.status) = some .checkFail ∧ t.silence = some 6400 := by decide +kernel

/-- Section 10.8: three bytes, the last with continuation bit 0. -/
theorem test_response_frame : let s := plant.setLink .main { plant.links.main with response := some ⟨.done, [0x01], some 0x33⟩ }
    (did (.responseFrame .main 3) s).links.main.driven.map (fun d => (d.byte, d.more)) =
      [(0x00, some true), (0x01, some true), (0x33, some false)] := by decide

/-- R190: an empty buffer answers NO_RESPONSE, with no check byte on the service link (R191). -/
theorem test_no_response : (did (.responseFrame .service 9) plant).links.service.driven = [⟨0x03, true, some false⟩] := by decide

theorem test_link_reset : did (.linkReset .main) (withFrame plant .main .receiving [0x05]) =
    withFrame plant .main .idle [] := by decide

/-- R199: the unit drives its address byte with the read bit. -/
theorem test_attention_frame : let s := plant.setLink .service { plant.links.service with attention := true }
    (did (.attentionFrame .service) s).links.service.driven = [⟨0x6B, parityBit 0x6B, none⟩] := by decide

/-- R201: kind 1, SHED and FULL, no unread record, cap 9750, lane 2 excluded and lanes 0, 1 and 3 available, TRACK at the
top, two records; the service link's check mode is off. -/
theorem test_attention_slot : let s := withFrame plant .service .attention []
    (did (.attentionSlot .service true) s).links.service.payload =
      some [0x01, 0x30, 0x00, 0x26, 0x16, 0x4B, 0x01, 0x02] := by decide

/-- R200: a complete payload ends the attention that no later request renewed. -/
theorem test_payload_complete : let s := attended
    did (.payloadComplete .service) s = plant := by decide

theorem test_payload_cut_short : let s := attended
    did (.attentionPayloadCutShort .service) s = plant.setLink .service { plant.links.service with attention := true } := by
  decide

/-! ## The condition table (chapter 1) -/

/-- R26: LOOKUP clears the mark of its own link. -/
theorem test_lookup : let s := { plant with table := [laneTrip, { loopHot with unread := ⟨true, true⟩ }] }
    (recordOf (did (.lookup .main ⟨4, 0x20⟩) s) ⟨4, 0x20⟩).map (fun q => q.unread) = some ⟨false, true⟩ := by decide

/-- R26: slot 1, code 4020, LIMIT, LEVEL, INTERNAL, ACTIVE, cause, one occurrence, 1000, 1004, 561, cap 9750. -/
theorem test_lookup_answer : (did (.lookup .service ⟨4, 0x20⟩) plant).links.service.response.map (fun r => r.data) =
    some [0, 1, 0x40, 0x20, 1, 1, 0, 0, 1, 0, 1, 0, 0, 0x03, 0xE8, 0, 0, 0x03, 0xEC, 0x02, 0x31, 1, 0x26, 0x16, 0, 0, 0, 0, 0, 0,
      0] := by decide

/-- R27: from slot 1, one LIMIT record and next_slot 48. -/
theorem test_scan : (did (.scan .service 1 (.classAtLeast .limit)) plant).links.service.response.map (fun r => r.data) =
    some [1, 0, 1, 0x40, 0x20, 1, 0, 0, 1, 0, 0, 48] := by decide

/-- Section 2.7 step 3: a host TRIP with cap 5000 is created with cap 0 in the lowest free slot. -/
theorem test_raise_creates : (recordOf (did (.raise .main ⟨8, 0x20⟩ .trip 3 (some 5000) 0 .none 0) plant) ⟨8, 0x20⟩).map
    (fun q => (q.slot, q.eff.cap, q.origin, q.unread)) = some (2, some 0, .main, ⟨false, true⟩) := by decide

/-- R28: a link raises no code of group 0 to 7. -/
theorem test_raise_refused : (did (.raise .service ⟨4, 0x20⟩ .limit 3 none 0 .none 0) plant).links.service.response =
    some ⟨.badValue, [], none⟩ := by decide

/-- R16: no link amends a record of INTERNAL origin. -/
theorem test_amend_refused : (did (.amend .service ⟨4, 0x20⟩ none 0 .none 0) plant).links.service.response =
    some ⟨.notOwner, [], none⟩ := by decide

theorem test_amend : (recordOf (did (.amend .main ⟨8, 0x20⟩ (some 900) 2 .hold 1) { plant with table := [laneTrip, hostTrip] })
    ⟨8, 0x20⟩).map (fun q => q.eff) = some ⟨some 0, 2, 16, 1⟩ := by decide

/-- R11: an EDGE record is acknowledged; the acknowledging link's own mark is left. -/
theorem test_ack : let s := { plant with table := [{ laneTrip with state := .active, unread := ⟨true, false⟩ }, loopHot] }
    (recordOf (did (.ack .main ⟨2, 0x217⟩) s) ⟨2, 0x217⟩).map (fun q => (q.state, q.unread)) =
      some (.acked, ⟨true, true⟩) := by decide

/-- Section 1.13 at 1055: RETIRE of an ACKED LEVEL record with its cause is refused CAUSE_PRESENT. -/
theorem test_retire_refused : let s := { plant with table := [laneTrip, { loopHot with state := .acked }] }
    (did (.retire .service ⟨4, 0x20⟩) s).links.service.response = some ⟨.causePresent, [], none⟩ := by decide

/-- Section 5.9: the record leaves, lane 2 is free again and its fault is reset. -/
theorem test_retire : let t := did (.retire .main ⟨2, 0x217⟩) plant
    t.table = [loopHot] ∧ t.eu.excluded = 0 ∧ (t.lm.lanes.get 2).state = .resetting := by decide

/-- Section 1.13 at 1130: the end of the hold-off retires the record, and its cap with it. -/
theorem test_holdoff_expiry : let s := { plant with
      table := [laneTrip, { loopHot with state := .clearing, cause := false, holdoff := some 0 }] }
    let t := did (.holdoffExpiry ⟨4, 0x20⟩) s
    t.table = [laneTrip] ∧ t.eu.capEff = 16000 := by decide

/-! ## Reaction slots (chapter 3) -/

/-- Section 3.7: BIND of AUTO_RETIRE after 120 s, three times, to 2:217; the loop set is stored absent. -/
theorem test_bind : (did (.bind .main 0 ⟨2, 0x217⟩ .autoRetire 5 120 3) plant).slots.get 0 = bound := by decide

/-- R46: a delay of 601 s is refused. -/
theorem test_bind_refused : (did (.bind .service 0 ⟨2, 0x217⟩ .autoRetire 0 601 3) plant).links.service.response =
    some ⟨.badValue, [], none⟩ := by decide

/-- R47: the pending action is cancelled and its loops leave the reaction boost set. -/
theorem test_unbind : let t := did (.unbind .main 3) (withSlot plant 3 { boosting with pending := some 12 })
    t.slots.get 3 = { Slot.initial with last := .cancelled } ∧ t.cu.reaction = 0 := by decide

theorem test_read_slot : (did (.readSlot .service 0) (withSlot plant 0 bound)).links.service.response.map (fun r => r.data) =
    some [1, 0x22, 0x17, 1, 0, 0, 0, 1, 0, 120, 0, 3, 0, 0, 0, 0] := by decide

/-- R51, R55: the record is retired, the outcome is DONE, and one of three is spent. -/
theorem test_auto_retire_expiry : let t := did (.autoRetireExpiry 0) (withSlot plant 0 { bound with pending := some 0 })
    t.table = [loopHot] ∧ t.slots.get 0 = { bound with count := 2, last := .done } := by decide

/-- R52, R55: the last boost ends, the slot unbinds itself and REACTION_SPENT carries its number. -/
theorem test_cool_boost_end : let t := did (.coolBoostEnd 3) (withSlot plant 3 boosting)
    t.slots.get 3 = { Slot.initial with last := .done } ∧ t.cu.reaction = 0 ∧
    (recordOf t spentCode).map (fun q => q.detail) = some 3 := by decide

/-! ## Envelope and lanes (chapters 4 and 5) -/

/-- Section 4.11, the first ramp step. -/
theorem test_ramp_step : let t := did .rampStep plant
    t.eu.commanded = 7100 ∧ t.eu.share = ⟨3885, 1942, 0, 1273⟩ ∧ t.eu.ramp = some 100 := by decide

/-- Section 4.11, the last ramp step: C takes 12 kW and every lane its headroom. -/
theorem test_last_ramp_step : let t := did .rampStep { plant with eu := { workedEnvelope with commanded := 7300 } }
    t.eu.commanded = 7312 ∧ t.eu.share = ⟨4000, 2000, 0, 1312⟩ ∧ t.eu.ramp = none := by decide

/-- R61: 20000 is clamped to 16000. -/
theorem test_set_demand : let t := did (.setDemand .service 20000) plant
    t.eu.demand = 16000 ∧ t.links.service.response = some ⟨.clamped, [0x3E, 0x80], none⟩ := by decide

/-- R71: a lower demand takes C down at once. -/
theorem test_set_demand_falls : let t := did (.setDemand .service 3000) plant
    t.eu.commanded = 3000 ∧ t.eu.ramp = none ∧ t.cu.commanded = 3000 := by decide

theorem test_read_envelope : (did (.readEnvelope .service) plant).links.service.response.map (fun r => r.data) =
    some [0x2E, 0xE0, 0x26, 0x16, 1, 0x40, 0x20, 0x1C, 0x90, 0x1C, 0x90, 0x1B, 0x58, 2, 0x0E, 0xF6, 0x07, 0x7A, 0, 0, 0x04,
      0xE8] := by decide

/-- R94, R106: a free lane starts at once; R88, R86 give PRECHARGE the value 1. -/
theorem test_lane_start : let t := did (.laneStart .service 3) (withLane clear 3 Lane.initial)
    (t.lm.lanes.get 3).timer = some ⟨.precharge, 8000⟩ ∧ t.links.service.response = some ⟨.done, [1], none⟩ := by decide

/-- R107: a running lane sheds, and the envelope takes its share away. -/
theorem test_lane_stop : let t := did (.laneStop .main 0) plant
    (t.lm.lanes.get 0).state = .shedding ∧ (t.lm.lanes.get 0).timer = some ⟨.shed, 2000⟩ ∧ t.eu.running = 0b1010 := by decide

theorem test_read_lane : (did (.readLane .service 2) plant).links.service.response.map (fun r => r.data.take 5) =
    some [6, 0, 0, 0, 0] := by decide

/-- R108, section 2.7: the group 2 code of local code 0x17 in lane 2 stands beside the report that trips. -/
theorem test_read_lane_code : let s := withLane plant 2 { Lane.initial with report := some ⟨.down, 0, 25, 0, .trip, 0x17, 0⟩ }
    (did (.readLane .service 2) s).links.service.response.map (fun r => r.data.drop (r.data.length - 3)) =
      some [1, 0x22, 0x17] := by decide

/-- Section 4.11: lane 1 reports 950 and its headroom goes; C falls to 5312. -/
theorem test_lane_report : let t := did (.laneReport 1 (reportBytes ⟨.delivering, 1085, 950, 1914, .none, 0, 0⟩)) plant
    t.eu.total = 5312 ∧ t.eu.commanded = 5312 ∧ t.eu.share = ⟨4000, 0, 0, 1312⟩ ∧
    (t.lm.lanes.get 1).share = 0 := by decide +kernel

/-- Section 5.9 at 6000: a trip onset faults lane 1, and 2:12C is created with detail 1041. -/
theorem test_trip_onset : let t := did (.laneReport 1 (reportBytes ⟨.delivering, 1085, 700, 0, .trip, 0x2C, 1041⟩)) plant
    (t.lm.lanes.get 1).state = .faulted ∧ (t.lm.lanes.get 1).command = some ⟨.opened, 0⟩ ∧
    (recordOf t ⟨2, 0x12C⟩).map (fun q => (q.detail, q.eff.lanes)) = some (1041, 2) := by decide +kernel

/-- R89: LANE_SILENT(0) excludes lane 0, which sheds. -/
theorem test_lane_silence : let t := did (.laneSilenceExpiry 0) plant
    (recordOf t (laneSilentCode 0)).isSome = true ∧ (t.lm.lanes.get 0).state = .shedding ∧
    (t.lm.lanes.get 0).silence = none := by decide

/-- R95: the failed precharge ends LOCKED under the exclusion of its own record. -/
theorem test_precharge_timeout : let s := withLane plant 0 { Lane.initial with
      state := .precharge, timer := some ⟨.precharge, 0⟩, report := some ⟨.charging, 300, 25, 0, .none, 0, 0⟩ }
    let t := did (.prechargeTimeout 0) s
    (t.lm.lanes.get 0).state = .locked ∧ (recordOf t (prechargeFailCode 0)).map (fun q => q.detail) = some 300 := by decide

theorem test_sync_timeout : let s := withLane plant 0 { Lane.initial with
      state := .sync, timer := some ⟨.sync, 0⟩, report := some ⟨.ready, 1085, 25, 0, .none, 0, 0⟩ }
    let t := did (.syncTimeout 0) s
    (t.lm.lanes.get 0).state = .locked ∧ (recordOf t (syncFailCode 0)).isSome = true := by decide

/-- R98: an excluded lane ends its shed LOCKED. -/
theorem test_shed_timeout : let s := withLane plant 2 { Lane.initial with
      state := .shedding, timer := some ⟨.shed, 0⟩, shed := some .excluded }
    ((did (.shedTimeout 2) s).lm.lanes.get 2).state = .locked := by decide

/-- Section 5.9: a trip that outlasts its reset raises 2:431 and faults lane 1 again. -/
theorem test_reset_timeout : let s := withLane plant 1 { Lane.initial with state := .resetting, timer := some ⟨.reset, 0⟩ }
    let t := did (.resetTimeout 1) s
    (t.lm.lanes.get 1).state = .faulted ∧ (recordOf t ⟨2, 0x431⟩).isSome = true := by decide

/-! ## Wind, heading and twist (chapter 6) -/

/-- R112: 1200 to 1203 winds 3 tenths on. -/
theorem test_heading_read : let t := did (.headingRead (some 1203)) plant
    t.wh.twist = 10773 ∧ t.ym.twist = 10773 ∧ t.ym.heading = some 1203 := by decide

/-- Section 7.10 step 2: at 1230 twist reaches 10800, TWIST_LIMIT forbids CW, TRACK is held and the brake applies. -/
theorem test_twist_limit : let t := did (.headingRead (some 1230)) plant
    t.wh.views.twistLimit = true ∧ t.limits.yaw = 1 ∧ t.ym.run = none ∧ t.ym.brake = .applying ∧
    (recordOf t trackBlockedCode).map (fun q => q.detail) = some 1 := by decide

/-- R116's figures: e = 120 takes F from 0 to 15, and from 77 to 82. -/
theorem test_vane_sample : (did (.vaneSample (some 120)) { plant with wh := { plant.wh with filtered := 0 } }).wh.filtered = 15 ∧
    (did (.vaneSample (some 120)) { plant with wh := { plant.wh with filtered := 77 } }).ym.filtered = 82 := by decide

/-- R116: an invalid sample leaves F and holds the automatic kinds. -/
theorem test_vane_fault : let t := did (.vaneSample none) plant
    t.wh.filtered = 90 ∧ t.limits.yaw = 8 ∧ t.ym.chain.map (fun c => c.state) = [.held] := by decide

/-- R120's figures: s = 320 takes W from 249 to 253, and STORM comes with detail 253. -/
theorem test_anemometer_sample : let t := did (.anemometerSample 320) { plant with wh := { plant.wh with speed := 249 } }
    t.wh.speed = 253 ∧ (recordOf t stormCode).map (fun q => q.detail) = some 253 ∧ t.eu.capEff = 0 := by decide

/-- R114: 13000 is clamped to 12600; the main link sets no twist. -/
theorem test_set_twist : (did (.setTwist .service 13000) plant).wh.twist = 12600 ∧
    (did (.setTwist .main 0) plant).wh.twist = 10770 := by decide

/-- R124: after a warm reset the yaw motion unit holds no heading, and SET_TWIST hands it ref_heading with the twist. -/
theorem test_set_twist_heading : let t := did (.setTwist .service 40) (did (.resetLineRelease 1) plant)
    t.ym.heading = some 1200 ∧ t.ym.twist = 40 := by decide

/-! ## Yaw (chapter 7) -/

theorem test_set_tracking : let t := did (.setTracking .service false) plant
    t.ym.chain = [] ∧ t.setting 5 = 0 ∧ t.ym.brake = .applying ∧ t.ym.run = none := by decide

/-- R139: an UNWIND moves CCW toward 1800, TRACK waits below it, and the settle keeps the direction last run (R148). -/
theorem test_start_unwind : let t := did (.startUnwind .service) plant
    t.ym.chain = [⟨.unwind, .service, .twist 1800, some .ccw, .moving⟩, ⟨.track, .auto, .absent, none, .suspended⟩] ∧
    t.ym.settle = some ⟨2000, .cw⟩ ∧ t.wh.unwindInChain = true := by decide

/-- R140: to 900 the shorter way is CCW. -/
theorem test_yaw_goto : ((did (.yawGoto .service 900) plant).ym.chain.head?) =
    some ⟨.service, .service, .heading 900, some .ccw, .moving⟩ := by decide

theorem test_yaw_jog : ((did (.yawJog .service .cw 60) plant).ym.chain.head?) =
    some ⟨.service, .service, .time 60000, some .cw, .moving⟩ := by decide

/-- R141, R131, R122: TRACK enters WATCHING at once and, with F at 90, moves to 1290 again. -/
theorem test_service_stop : let t := did (.serviceStop .service) (did (.yawJog .service .cw 60) plant)
    t.ym.chain = [⟨.track, .auto, .heading 1290, some .cw, .moving⟩] ∧ t.links.service.response = some ⟨.done, [1], none⟩ := by
  decide

theorem test_yaw_jog_expiry : (did .yawJogExpiry (did (.yawJog .service .cw 1) plant)).ym.chain.map (fun c => c.kind) =
    [.track] := by decide

/-- R151: one context, TRACK, AUTO, a heading target of 1290, CW, MOVING. -/
theorem test_read_yaw : (did (.readYaw .service) plant).links.service.response.map (fun r => r.data.take 4) =
    some [1, 3, 0, 1] := by decide

/-- R144: an isolated drive leaves the healthy set. -/
theorem test_drive_isolate : let t := did (.driveIsolate .service 3) plant
    (t.ym.drives.get 3).state = .isolated ∧ t.ym.healthy = 7 := by decide

theorem test_drive_return : let s := { plant with ym := { workedYaw with drives := workedYaw.drives.set 3 ⟨.isolated, false, false⟩ } }
    ((did (.driveReturn .service 3) s).ym.drives.get 3).state = .running := by decide

/-- R143: DRIVE_FAULT(5) is raised and the others run on. -/
theorem test_drive_fault : let t := did (.driveFaultRead 0b00100000) plant
    (t.ym.drives.get 5).state = .faulted ∧ (recordOf t ⟨3, 0x15⟩).isSome = true ∧ t.ym.run = some .cw := by decide

/-- R146: at 20 bar the brake is RELEASED and the drives run. -/
theorem test_brake_pressure : let s := { plant with ym := { workedYaw with brake := .releasing, brakeTimer := some 5, run := none } }
    let t := did (.brakePressureRead 20) s
    t.ym.brake = .released ∧ t.ym.run = some .cw := by decide

/-- R147: BRAKE_FAIL carries the pressure, and its HOLD holds the top. -/
theorem test_brake_timer : let s := { plant with ym := { workedYaw with brake := .releasing, brakeTimer := some 0, run := none, pressure := 77 } }
    let t := did .brakeTimerExpiry s
    (recordOf t brakeFailCode).map (fun q => q.detail) = some 77 ∧ t.ym.brake = .applying ∧
    t.ym.chain.map (fun c => c.state) = [.held] := by decide

/-- R148: after the settle the drives run the way that is wanted. -/
theorem test_settle_expiry : let s := { plant with ym := { workedYaw with run := none, settle := some ⟨0, .cw⟩ } }
    (did .settleExpiry s).ym.run = some .cw := by decide

/-! ## Cooling (chapter 8) -/

/-- Section 8.9 at 601: f 31, a refresh with cap 7750, and duty 91 with C 7100. -/
theorem test_temperature_sample : let s := { plant with cu := { plant.cu with commanded := 7100 } }
    let t := did (.temperatureSample 0 (some 601)) s
    (recordOf t ⟨4, 0x20⟩).map (fun q => (q.eff.cap, q.occurrences)) = some (some 7750, 1) ∧ (t.cu.loops.get 0).duty = 91 := by
  decide

/-- Section 8.9 at 652: the record is escalated to SHED with cap 0, and C falls to 0. -/
theorem test_loop_trip : let t := did (.temperatureSample 0 (some 652)) plant
    (recordOf t ⟨4, 0x20⟩).map (fun q => (q.cls, q.eff.cap)) = some (.shed, some 0) ∧ t.eu.commanded = 0 := by decide

/-- Section 8.10 at +230 ms: the third read without flow fails the pump, and every lane is excluded. -/
theorem test_flow_read : let s := withLoop plant 0 { plant.cu.loops.x0 with misses := 2 }
    let t := did (.flowRead 0 false) s
    (t.cu.loops.get 0).pump = .failed ∧ (recordOf t ⟨4, 0x10⟩).map (fun q => q.detail) = some 2 ∧ t.limits.excluded = 15 ∧
    (t.lm.lanes.get 0).state = .shedding := by decide

/-- R159: PUMP_FAIL(L1) of a prime timeout has detail 1 and cap 4000. -/
theorem test_prime_timeout : let s := withLoop plant 1 { Loop.initial with pump := .priming, prime := some 0 }
    (recordOf (did (.primeTimeout 1) s) ⟨4, 0x11⟩).map (fun q => (q.detail, q.eff.cap)) = some (1, some 4000) := by decide

theorem test_read_loop : (did (.readLoop .service 0) plant).links.service.response.map (fun r => r.data.take 6) =
    some [2, 0, 0, 0, 0, 0] := by decide

/-! ## Supply, key, silence and settings (chapters 9 to 11) -/

/-- Section 9.8 at 00:00: AUX, the lanes OFFLINE, GRID_LOSS with detail 64, C 0, and L2 alone cools. -/
theorem test_grid_read : let t := did (.gridRead false) plant
    t.sm.state = .aux ∧ (t.lm.lanes.get 0).state = .offline ∧
    (recordOf t gridLossCode).map (fun q => q.detail) = some 64 ∧ t.eu.commanded = 0 ∧
    [(t.cu.loops.get 0).pump, (t.cu.loops.get 1).pump, (t.cu.loops.get 2).pump] = [.off, .off, .running] := by decide

/-- Section 9.8 at 62:20: the settle completes from LOW. -/
theorem test_grid_settle : let s := { plant with sm := { state := .low, grid := true, settle := some 0, ups := some 19, upsOk := true } }
    (did .gridSettleComplete s).sm = { state := .full, grid := true, settle := none, ups := some 19, upsOk := true } := by decide

/-- Section 9.8 at 41:00: 19 % takes AUX to LOW, and UPS_LOW holds the yaw. -/
theorem test_ups_sample : let s := { plant with sm := { state := .aux, grid := false, settle := none, ups := some 20, upsOk := true } }
    let t := did (.upsSample (some 19)) s
    t.sm.state = .low ∧ (recordOf t upsLowCode).map (fun q => q.detail) = some 19 ∧ t.limits.yaw = 16 := by decide

theorem test_read_supply : (did (.readSupply .service) plant).links.service.response =
    some ⟨.done, [0, 1, 0, 64, 1, 1, 0, 0, 0, 0, 0], none⟩ := by decide

/-- R192: SERVICE_LOCK brings cap 0, excludes every lane and holds the automatic kinds. -/
theorem test_key_switch : let t := did (.keySwitchRead true) plant
    t.keyView = true ∧ (recordOf t serviceLockCode).map (fun q => q.eff) = some ⟨some 0, 15, 8, 0⟩ := by decide

/-- R194: HOST_SILENT is TRIP with detail 20, and its PARK puts a PARK at the top. -/
theorem test_silence_expiry : let t := did .silenceExpiry plant
    t.silence = none ∧ (recordOf t hostSilentCode).map (fun q => (q.cls, q.detail)) = some (.trip, 20) ∧
    t.ym.chain.map (fun c => c.kind) = [.park, .track] := by decide

/-- R202: a new storm_wind of 160 takes storm_release from 200 down to 140. -/
theorem test_set_setting : let t := did (.setSetting .service 13 160) plant
    t.setting 13 = 160 ∧ t.setting 14 = 140 := by decide

/-- R202: ramp_up is clamped to 800. -/
theorem test_set_setting_clamped : (did (.setSetting .service 1 900) plant).links.service.response =
    some ⟨.clamped, [0x03, 0x20], none⟩ := by decide

theorem test_get_setting : (did (.getSetting .service 10) plant).links.service.response =
    some ⟨.done, [0x1C, 0x20], none⟩ := by decide

/-- R196. -/
theorem test_ident : (did (.ident .service) plant).links.service.response =
    some ⟨.done, [0x4B, 0x4C, 0x03, 0x16, 0, 1, 0, 0x35], none⟩ := by decide

/-! ## The clock -/

/-- Log 5: a millisecond on an empty queue counts the timers down. -/
theorem test_idle_step : (match step plant with | .next t => (t.msec, t.eu.ramp, t.silence) | _ => (0, none, none)) =
    (1, some 99, some 6399) := by decide

/-! ## Witnesses

One theorem for each statement that has hypotheses: states and operands that meet them, clause by clause, at the ends of
the ranges the clauses name. -/

/-- Every request of the witnesses finds its link ready. -/
theorem plant_ready (l : Link) : plant.ready l := by cases l <;> exact ⟨by decide, by decide, by decide⟩

/-- With the key on. -/
def keyed : State := { plant with keyView := true }

theorem keyed_ready (l : Link) : keyed.ready l := by cases l <;> exact ⟨by decide, by decide, by decide⟩

/-- The nacelle with a full table: 47 general records, the first of class NOTICE, and no other of that class. -/
def crowded (first : Cls) : State :=
  { plant with
    table := (List.range 47).map (fun n =>
      { hostTrip with slot := n, code := ⟨8, Fin.ofNat 4096 (n + 100)⟩, cls := if n = 0 then first else .limit
                      eff := Effects.nothing }) }

theorem crowded_ready (k : Cls) (l : Link) : (crowded k).ready l := by cases l <;> exact ⟨rfl, nofun, rfl, fun _ => rfl⟩

/-- The limits, and so every block's, of the nacelle's own table. -/
theorem witness_limitsAgree : plant.limitsAgree := ⟨by decide, by decide⟩

theorem laneTrip_sound : laneTrip.sound :=
  ⟨by decide, by decide, by decide, ⟨by decide, by decide, by decide⟩, by decide, by decide, by decide,
    fun h => absurd h (by unfold computedCode; decide)⟩

theorem loopHot_sound : loopHot.sound :=
  ⟨by decide, by decide, by decide, ⟨by decide, by decide, by decide⟩, by decide, by decide, by decide, fun _ => by decide⟩

theorem hostTrip_sound : hostTrip.sound :=
  ⟨by decide, by decide, by decide, ⟨by decide, by decide, by decide⟩, by decide, by decide, by decide,
    fun h => absurd h (by unfold computedCode; decide)⟩

/-- The three records in one table. -/
theorem three_sound : TableSound [laneTrip, loopHot, hostTrip] :=
  ⟨by decide, by decide, by simp [laneTrip_sound, loopHot_sound, hostTrip_sound]⟩

theorem plant_table : TableSound plant.table :=
  ⟨by decide, by decide, by
    intro q hq
    have h : q = laneTrip ∨ q = loopHot := by simpa [plant] using hq
    rcases h with rfl | rfl
    · exact laneTrip_sound
    · exact loopHot_sound⟩

theorem crowded_sound (k : Cls) (hk : k = .notice ∨ k = .limit) : TableSound (crowded k).table := by
  refine ⟨by rcases hk with rfl | rfl <;> decide +kernel, by rcases hk with rfl | rfl <;> decide +kernel, ?_⟩
  intro q hq
  simp only [crowded, List.mem_map, List.mem_range] at hq
  obtain ⟨n, hn, rfl⟩ := hq
  have hg : ∀ c : Code, c.group.val ≠ 8 → (⟨8, Fin.ofNat 4096 (n + 100)⟩ : Code) ≠ c := by
    rintro c hc rfl; exact hc rfl
  have hl : ∀ l : Fin 3, (loopHotCode l).group.val ≠ 8 := by decide
  refine ⟨Nat.lt_succ_of_lt hn, ?_, ⟨show 1 ≤ 4 by decide, show 4 ≤ 255 by decide⟩, ?_, fun _ => rfl, fun h => absurd h (show RecMode.edge ≠ .level by decide), fun h => absurd h (show RecState.acked ≠ .clearing by decide), ?_⟩
  · exact ⟨fun h => absurd h (by simp; omega), fun h => absurd h (hg _ (by decide))⟩
  · refine ⟨fun _ => rfl, fun _ => rfl, fun h => ?_⟩
    revert h; rcases hk with rfl | rfl <;> dsimp only <;> split <;> exact fun h => by cases h
  · rintro (h | ⟨l, h⟩)
    · exact absurd h (hg _ (by decide))
    · exact absurd h (hg _ (hl l))

/-! ### The queue, the clock and every step -/

theorem witness_StepRunsFrontCommand :
    ({ plant with pending := [.ident .main, .rampStep] } : State).pending = .ident .main :: [.rampStep] := rfl

theorem witness_IdleStepIsOneMillisecond :
    (∀ ms ∈ [998, 999], let s : State := { plant with msec := ms, uptime := 4294967294 }
      s.pending = [] ∧ s.unsettled = [] ∧ dueList s.advance = []) ∧ 4294967294 < 4294967295 := by decide +kernel

theorem witness_ExpiryWithoutItsTimerDoesNothing :
    clear.unsettled = [] ∧ (∀ q ∈ plant.table, q.code = loopHotCode 0 → q.state ≠ .clearing) ∧
    (clear.slots.get 7).pending = none ∧ State.reset.eu.ramp = none ∧ (clear.lm.lanes.get 2).silence = none ∧
    (∀ n : Fin 4, (clear.lm.lanes.get n).timer = none) ∧ (∀ c ∈ clear.ym.chain, c.kind ≠ .service) ∧
    clear.ym.brakeTimer = none ∧ clear.ym.settle = none ∧ (∀ l : Fin 3, (clear.cu.loops.get l).prime = none) ∧
    clear.sm.settle = none ∧ ({ clear with silence := none } : State).silence = none := by decide

theorem witness_TableStaysSound : plant.tableSound ∧ ∃ t, step plant = .next t :=
  ⟨⟨plant_table, by simp [plant, State.powerOn]⟩, ⟨_, rfl⟩⟩

theorem witness_LimitsAreThoseOfTheTable : plant.limitsAgree ∧ (∃ t, step plant = .next t) ∧
    (∃ q ∈ [laneTrip, hostTrip], q.cls = .trip) ∧ (∃ q ∈ plant.table, q.eff.cap.isSome = true) ∧
    (∀ q ∈ [laneTrip], q.cls ≠ .trip ∧ q.eff.cap = none) :=
  ⟨witness_limitsAgree, ⟨_, rfl⟩, by decide, by decide, by decide⟩

theorem bound_sound : bound.sound :=
  ⟨by decide, by decide, by decide, by decide, by decide, by intro d h; cases h; decide, by intro p h; cases h⟩

theorem boosting_sound : boosting.sound :=
  ⟨by decide, by decide, by decide, by decide, by decide, by intro d h; cases h; decide, by intro p h; cases h; decide⟩

theorem slot_initial_sound : Slot.initial.sound :=
  ⟨by decide, by decide, by decide, by decide, by decide, fun d h => absurd h (by simp [Slot.initial]),
    fun p h => absurd h (by simp [Slot.initial])⟩

theorem witness_SlotsStaySound : (withSlot plant 3 boosting).slotsSound ∧ (∃ t, step (withSlot plant 3 boosting) = .next t) ∧
    ((withSlot plant 3 boosting).slots.get 0).count = 0 := by
  refine ⟨fun k => ?_, ⟨_, rfl⟩, by decide⟩
  have h : (withSlot plant 3 boosting).slots.get k = if k = 3 then boosting else Slot.initial := by revert k; decide
  rw [h]; split
  · exact boosting_sound
  · exact slot_initial_sound

theorem plant_envelope : plant.eu.sound :=
  ⟨by decide, by decide, by decide, by decide, by decide, by decide, by decide, by decide⟩

theorem witness_EnvelopeStaysSound : plant.eu.sound ∧ (∃ t, step plant = .next t) ∧ plant.unsettled = [] ∧
    Instr.ident .main ≠ .rampStep ∧ ∃ t, exec (.ident .main) plant = .next t :=
  ⟨plant_envelope, ⟨_, rfl⟩, rfl, by decide, ⟨_, rfl⟩⟩

theorem witness_LanesStaySound : plant.lanesSound ∧ ∃ t, step plant = .next t := by
  refine ⟨fun n => ?_, ⟨_, rfl⟩⟩
  have h : ∀ m : Fin 4, ((plant.lm.lanes.get m).timer.map (fun t => t.kind) = timerOf (plant.lm.lanes.get m).state) ∧
      ((plant.lm.lanes.get m).shed.isSome = true ↔ (plant.lm.lanes.get m).state = .shedding) ∧
      ((plant.lm.lanes.get m).warned.isSome = true → (plant.lm.lanes.get m).silence.isSome = true) := by decide
  exact ⟨(h n).1, (h n).2.1, (h n).2.2⟩

theorem moving_sound : Context.sound ⟨.track, .auto, .heading 1290, some .cw, .moving⟩ :=
  ⟨by decide, by decide, by decide, by decide⟩

theorem plant_yaw : plant.ym.sound := by
  refine ⟨⟨by decide, by decide, by decide, ?_⟩, by decide, ?_, ?_, by decide, by decide, by decide⟩
  · intro c hc
    have : c = ⟨.track, .auto, .heading 1290, some .cw, .moving⟩ := by simpa [plant, workedYaw] using hc
    subst this; exact moving_sound
  · intro c hc _
    have : ⟨.track, .auto, .heading 1290, some .cw, .moving⟩ = c := by simpa [plant, workedYaw] using hc
    subst this; exact ⟨.cw, rfl, by decide⟩
  · intro d hd
    have : d = .cw := by simpa [plant, workedYaw] using hd.symm
    subst this; exact ⟨by decide, by decide, by decide⟩

theorem witness_YawStaysSound : plant.ym.sound ∧ (∃ t, step plant = .next t) ∧ plant.ym.run = some .cw :=
  ⟨plant_yaw, ⟨_, rfl⟩, rfl⟩

theorem default_settings : SettingsSound settingDefaults := by
  refine ⟨by decide, ?_, by decide, by decide⟩
  have h : ∀ id < 39, 1 ≤ id →
      (settingRange id).1 ≤ settingOf settingDefaults id ∧ settingOf settingDefaults id ≤ (settingRange id).2 := by decide
  exact fun id h1 h2 => h id (by omega) h1

theorem witness_CoolingStaysSound : plant.coolingSound ∧ ∃ t, step plant = .next t := by
  refine ⟨⟨default_settings, fun l => ?_⟩, ⟨_, rfl⟩⟩
  have h : ∀ k : Fin 3, let x := plant.cu.loops.get k
      (x.prime.isSome = true ↔ x.pump = .priming) ∧ x.misses < 3 ∧ (x.pump ≠ .running → x.misses = 0) ∧
      (x.pump ≠ .running → x.duty = 0) ∧ (x.pump = .running → plant.cu.boosted k = true → x.duty = 100) ∧
      (x.pump = .running → plant.setting 34 ≤ (x.duty : Int) ∧ x.duty ≤ 100) := by decide
  exact ⟨(h l).1, (h l).2.1, (h l).2.2.1, (h l).2.2.2.1, (h l).2.2.2.2.1, (h l).2.2.2.2.2⟩

/-- A supply monitor at the ends that R176 and R177 draw: LOW at 29 %. -/
def lowSupply : Supply := { state := .low, grid := true, settle := some 10000, ups := some 29, upsOk := true }

theorem lowSupply_sound : lowSupply.sound :=
  ⟨by decide, by decide, by decide, fun _ => ⟨29, rfl, by decide⟩, by intro p h; cases h; decide⟩

/-- AUX at 20 %. -/
def auxSupply : Supply := { state := .aux, grid := false, settle := none, ups := some 20, upsOk := true }

theorem auxSupply_sound : auxSupply.sound :=
  ⟨by decide, by decide, fun _ => by intro p h; cases h; decide, by decide, by intro p h; cases h; decide⟩

theorem plant_supply : plant.sm.sound :=
  ⟨by decide, by decide, by decide, by decide, by intro p h; cases h; decide⟩

theorem witness_SupplyStaysSound : ({ plant with sm := lowSupply } : State).sm.sound ∧
    ∃ t, step { plant with sm := lowSupply } = .next t := ⟨lowSupply_sound, ⟨_, rfl⟩⟩

theorem witness_LinksStaySound : attended.linksSound ∧ ∃ t, step attended = .next t := by
  refine ⟨fun l => ?_, ⟨_, rfl⟩⟩
  cases l
  · exact ⟨by decide, by decide, by decide, by intro p h; cases h⟩
  · exact ⟨by decide, by decide, by decide, by intro p h; cases h; decide⟩

theorem witness_EnvelopeArithmeticHolds : plant.eu.sound ∧ (∃ t, step plant = .next t) ∧
    hasBit plant.eu.available 2 = false ∧ plant.unsettled = [] ∧ plant.pending = [] ∧ ∃ t, exec .rampStep plant = .next t :=
  ⟨plant_envelope, ⟨_, rfl⟩, by decide, rfl, rfl, ⟨_, rfl⟩⟩

theorem plant_delivered : plant.delivered :=
  ⟨by decide, by decide, by decide, by decide, by decide, by decide, by decide, by decide⟩

/-- The nacelle with a command that changes the table in front: a host record of class TRIP. -/
def raising : State := { plant with pending := [.raise .main ⟨8, 0x20⟩ .trip 3 none 1 .none 1] }

theorem raising_delivered : raising.delivered :=
  ⟨by decide, by decide, by decide, by decide, by decide, by decide, by decide, by decide⟩

/-- What that command leaves: nothing over, lane 0 excluded with lane 2. -/
theorem raising_settles : ∃ t, step raising = .next t ∧ t.unsettled = [] ∧ t.limits.excluded = 5 := by
  refine ⟨_, rfl, ?_, ?_⟩ <;> decide +kernel

theorem witness_EveryBlockHoldsTheLimits : raising.unsettled = [] ∧ raising.delivered ∧
    ∃ t, step raising = .next t ∧ t.unsettled = [] :=
  ⟨rfl, raising_delivered, by obtain ⟨t, h, h', _⟩ := raising_settles; exact ⟨t, h, h'⟩⟩

theorem witness_NoExcludedLaneRuns : raising.unsettled = [] ∧ raising.limitsAgree ∧ raising.delivered ∧
    raising.exclusionHolds ∧ (∃ t, step raising = .next t ∧ t.unsettled = []) ∧
    ∃ q ∈ raising.table, hasBit q.eff.lanes 2 = true :=
  ⟨rfl, ⟨by decide, by decide⟩, raising_delivered, by unfold State.exclusionHolds; decide,
    by obtain ⟨t, h, h', _⟩ := raising_settles; exact ⟨t, h, h'⟩, by decide⟩

theorem plant_between : plant.between := ⟨rfl, by intro l; cases l <;> decide⟩

/-- A command that is none of the exceptions of the statements about what stays. -/
theorem witness_InputsHoldTheirLastRead : plant.between ∧ ∃ t, exec (.setDemand .main 0) plant = .next t :=
  ⟨plant_between, ⟨_, rfl⟩⟩

theorem witness_SettingsAndChoicesStand : plant.between ∧ (∃ t, exec .silenceExpiry plant = .next t) ∧
    (plant.pending = [] ∧ ∃ t, step plant = .next t) ∧ ∃ t, exec (.gridRead false) plant = .next t :=
  ⟨plant_between, ⟨_, rfl⟩, ⟨rfl, ⟨_, rfl⟩⟩, ⟨_, rfl⟩⟩

theorem witness_LinksStandApart : plant.between ∧ (∃ t, exec (.setDemand .main 0) plant = .next t) ∧
    frameLink (.setDemand .main 0) ≠ some .service := ⟨plant_between, ⟨_, rfl⟩, by decide⟩

/-! ### Bytes, resets and frames -/

/-- The least and the greatest value of every field of a report, and one wrong byte. -/
theorem witness_LaneReportsReadBack :
    (∀ r ∈ [(⟨.down, 0, -400, 0, .none, 0, 0⟩ : Report), ⟨.delivering, 1500, 1500, 5000, .trip, 255, 65535⟩],
      r.inRange = true ∧ r.localCode < 256 ∧ r.detail < 65536 ∧ (reportBytes r)[0]? ≠ some 9 ∧
      (reportBytes r)[11]? ≠ some 9) := by decide +kernel

theorem witness_RequestFramesReadBack :
    (∀ r ∈ [Request.ident, .setDemand 65535, .setTwist (-32768), .bind 255 ⟨15, 4095⟩ .escalate 7 65535 255,
        .raise ⟨15, 4095⟩ .trip 65535 (some 16000) 15 .hold 7, .warmReset 3], r.fits = true) ∧
    (∀ p, Request.warmReset 3 = .warmReset p → p = 3) := ⟨by decide, by intro p h; cases h; rfl⟩

theorem witness_FrameBytesRunTheCommand :
    plant.unsettled = [] ∧ plant.takesFrame .main = true ∧ (plant.links.get .main).frame ≠ .receiving ∧
    (Request.warmReset 1).fits = true ∧ (Request.warmReset 1).command .main = some (.warmReset .main 1) ∧
    (∀ p, Request.warmReset 1 = .warmReset p → p = plant.straps) :=
  ⟨rfl, by decide, by decide, by decide, rfl, by intro p h; cases h; decide⟩

theorem witness_PowerUpAndTheResetLine : plant.unsettled = [] ∧ frameLink (.ident .main) = some .main ∧
    ({ plant with lineAsserted := true } : State).lineAsserted = true := ⟨rfl, rfl, rfl⟩

/-- A part to be reset: an attention pending, a slot bound to a code of group 4. -/
def beforeReset : State :=
  { withSlot plant 7 { boosting with pending := some 9 } with
    links := ⟨{ plant.links.main with attention := true }, plant.links.service⟩ }

theorem witness_WarmResetStopsThePlant : TableSound beforeReset.table ∧ beforeReset.unsettled = [] ∧
    (∀ l, beforeReset.ready l) ∧ (beforeReset.links.get .main).attention = true ∧
    (∃ q ∈ beforeReset.table, (q.cls = .shed ∨ q.cls = .trip) ∧ q.origin = .lane 2) ∧
    (∃ q ∈ [loopHot, hostTrip], q.eff.cap = some 0) ∧ (beforeReset.slots.get 7).bound = some ⟨4, 0x21⟩ :=
  ⟨plant_table, rfl, by intro l; cases l <;> exact ⟨by decide, by decide, by decide⟩, rfl, by decide, by decide, by decide⟩

theorem witness_StartConditionOpensAFrame : plant.unsettled = [] ∧ plant.takesFrame .main = true ∧
    (plant.links.get .main).frame ≠ .receiving ∧ (0x68#8 ≠ writeAddress plant.address ∧ 0x68#8 ≠ readAddress plant.address) ∧
    0x6A#8 = writeAddress plant.address ∧ 0x6B#8 = readAddress plant.address ∧ (List.replicate 16 0#8).length ≤ 16 ∧
    16 < (List.replicate 17 0#8).length ∧ ((withFrame plant .main .receiving [5]).links.get .main).frame = .receiving ∧
    (withFrame plant .main .receiving [5]).takesFrame .main = true ∧ Request.ident.command .main = some (.ident .main) := by
  decide

/-- A frame in RECEIVING with room for a byte and with none, a poisoned frame, a frame at its stop condition and no frame. -/
theorem witness_FramesAreAddedToAndJudged :
    (∀ s ∈ [withFrame plant .main .receiving (List.replicate 15 0), withFrame plant .main .receiving (List.replicate 16 0),
        withFrame plant .main .poisoned [], plant], s.unsettled = [] ∧ s.takesFrame .main = true) ∧
    ((withFrame plant .main .receiving (List.replicate 15 0)).links.get .main).received.length < 16 ∧
    16 ≤ ((withFrame plant .main .receiving (List.replicate 16 0)).links.get .main).received.length ∧
    ((withFrame plant .main .poisoned []).links.get .main).frame = .poisoned ∧
    (plant.links.get .main).frame ≠ .receiving ∧ (plant.links.get .main).frame ≠ .poisoned ∧
    ((withFrame plant .main .receiving (List.replicate 15 0)).links.get .main).frame = .receiving := by decide

theorem witness_ResponseFrameSendsTheBuffer : plant.unsettled = [] ∧ plant.takesFrame .main = true ∧
    (plant.links.get .main).frame ≠ .receiving ∧ (withFrame plant .main .receiving [5]).takesFrame .main = true ∧
    ((withFrame plant .main .receiving [5]).links.get .main).frame = .receiving := by decide

theorem witness_AttentionFrameRunsItsCourse : plant.unsettled = [] ∧ plant.lineAsserted = false ∧
    (State.reset.links.get .main).attention = true ∧ (State.reset.links.get .main).frame = .idle ∧
    (plant.links.get .main).attention = false ∧ (plant.links.get .main).payload = none ∧
    ((withFrame plant .main .attention []).links.get .main).frame = .attention ∧
    ((withFrame plant .main .attention []).links.get .main).payload = none ∧
    (attended.links.get .service).payload.isSome = true := by decide

/-! ### Requests -/

theorem witness_IdentNamesThePart : plant.ready .main ∧ plant.ready .service := ⟨plant_ready _, plant_ready _⟩

theorem witness_ReadsAnswerTheirItems : plant.ready .main ∧ (∀ id ∈ [1, 38], 1 ≤ id ∧ id ≤ 38) ∧ 8 ≤ 8 ∧ 4 ≤ 4 ∧
    (0 = 0 ∨ 38 < 0) ∧ (39 = 0 ∨ 38 < 39) := ⟨plant_ready _, by decide, by decide, by decide, by decide, by decide⟩

theorem witness_YawAndLoopReadsAnswerTheirItems : plant.ready .main ∧ 3 ≤ 3 := ⟨plant_ready _, by decide⟩

theorem witness_LookupAndScanReadTheTable : plant.ready .main ∧ TableSound plant.table ∧
    (∀ q ∈ plant.table, q.code ≠ ⟨8, 1⟩) ∧ plant.table = [laneTrip] ++ loopHot :: [] ∧ loopHot.code = ⟨4, 0x20⟩ ∧
    (∀ p ∈ [laneTrip] ++ [], p.code ≠ ⟨4, 0x20⟩) ∧ 48 < 49 ∧ 48 ≤ 48 :=
  ⟨plant_ready _, plant_table, by decide, rfl, rfl, by decide, by decide, by decide⟩

/-- A host record that can be raised again, and the table it stands in. -/
def hosted : State := { plant with table := [laneTrip, loopHot, hostTrip] }

theorem hosted_ready (l : Link) : hosted.ready l := by cases l <;> exact ⟨by decide, by decide, by decide⟩

/-- OVERFLOW as a fold of a TRIP leaves it. -/
def overflow : Record := { hostTrip with slot := 47, code := ⟨0, 1⟩, origin := .internal }

/-- The nacelle with all 48 slots taken, OVERFLOW in the last. -/
def overflowed : State := { plant with table := (crowded .limit).table ++ [overflow] }

theorem overflowed_sound : TableSound overflowed.table := by
  refine ⟨by decide +kernel, by decide +kernel, fun q hq => ?_⟩
  rcases List.mem_append.1 hq with h | h
  · exact (crowded_sound .limit (.inr rfl)).records q h
  · rw [List.mem_singleton.1 h]
    exact ⟨by decide, by decide, by decide, ⟨by decide, by decide, by decide⟩, by decide, by decide, by decide,
      fun h => absurd h (by unfold computedCode; decide)⟩

/-- Refused for its group, refused for its effects, a re-raise, a creation in slot 2, an eviction, a full table; and a raise
from inside that no slot can hold, with no OVERFLOW yet and with one. -/
theorem witness_RaiseCreatesOrReRaises :
    (plant.ready .main ∧ TableSound plant.table ∧ (⟨7, 0⟩ : Code).group.val < 8 ∧
      (Cls.notice = .notice ∧ ¬((some 0 : Option Nat) = none ∧ (0 : LaneSet) = 0 ∧ flagOf .none = 0 ∧ (0 : LoopSet) = 0)) ∧
      8 ≤ (⟨8, 0⟩ : Code).group.val ∧ (∀ q ∈ plant.table, q.code ≠ ⟨8, 0⟩) ∧ (∀ q ∈ plant.table, q.slot ≠ 2) ∧
      (∀ m, m < 2 → ∃ q ∈ plant.table, q.slot = m)) ∧
    (hosted.ready .main ∧ TableSound hosted.table ∧ hostTrip ∈ hosted.table ∧ hostTrip.code = ⟨8, 0x20⟩) ∧
    (∀ k, k = Cls.notice ∨ k = .limit → (crowded k).ready .main ∧ TableSound (crowded k).table ∧
      (∀ m, m < 47 → ∃ q ∈ (crowded k).table, q.slot = m) ∧ ∀ q ∈ (crowded k).table, q.code ≠ ⟨8, 0⟩) ∧
    ((crowded .notice).table.filter (fun q => q.cls == .notice && decide (q.slot < 47))).map (fun q => q.slot) = [0] ∧
    (crowded .limit).table.filter (fun q => q.cls == .notice && decide (q.slot < 47)) = [] ∧
    ((∀ l, (pumpFailRaise l 2).via = none) ∧
      (∀ s ∈ [crowded .limit, overflowed], (∀ l, ∀ q ∈ s.table, q.code ≠ (pumpFailRaise l 2).code) ∧
        (∀ m, m < 47 → ∃ q ∈ s.table, q.slot = m) ∧ ∀ q ∈ s.table, q.slot < 47 → q.cls ≠ .notice) ∧
      TableSound overflowed.table ∧ (∀ q ∈ (crowded .limit).table, q.code ≠ ⟨0, 1⟩) ∧
      ∃ q ∈ overflowed.table, q.code = ⟨0, 1⟩) := by
  refine ⟨⟨plant_ready _, plant_table, by decide, by decide, by decide, by decide, by decide, by decide⟩,
    ⟨hosted_ready _, three_sound, by decide, rfl⟩, fun k hk => ⟨crowded_ready _ _, crowded_sound k hk, ?_, ?_⟩, by decide +kernel,
    by decide +kernel, by decide, by decide +kernel, overflowed_sound, by decide +kernel, by decide +kernel⟩ <;>
    rcases hk with rfl | rfl <;> decide +kernel

/-- A host record of class LIMIT and one of class NOTICE beside the two of the nacelle. -/
def ownedTable : List Record :=
  [laneTrip, { hostTrip with slot := 1, code := ⟨9, 1⟩, cls := .limit }, { hostTrip with slot := 2, cls := .notice }]

theorem witness_AmendReplacesTheEffects :
    hosted.ready .main ∧ TableSound hosted.table ∧ (∀ q ∈ hosted.table, q.code ≠ ⟨8, 1⟩) ∧ loopHot ∈ hosted.table ∧
    ¬(loopHot.origin = .main ∨ loopHot.origin = .service ∧ Link.main = .service) ∧ hostTrip ∈ hosted.table ∧
    hostTrip.origin = .main ∧ hostTrip.cls ≠ .notice ∧
    (∃ q ∈ ownedTable, q.origin = .main ∧ q.cls = .limit ∧ (1 : LaneSet) ≠ 0) :=
  ⟨hosted_ready _, three_sound, by decide, by decide, by decide, by decide, by decide, by decide, by decide⟩

/-- The nacelle with a LEVEL record whose cause is gone in each of its states. -/
def gone (st : RecState) (h : Option Nat) : State :=
  { plant with table := [laneTrip, { loopHot with state := st, cause := false, holdoff := h }] }

theorem gone_ready (st : RecState) (h : Option Nat) (l : Link) : (gone st h).ready l := by
  cases l <;> exact ⟨rfl, nofun, rfl, fun _ => rfl⟩

theorem gone_sound (st : RecState) (h : Option Nat) (hs : st = .active ∨ st = .clearing ∧ h.isSome = true) :
    TableSound (gone st h).table := by
  refine ⟨List.pairwise_pair.2 (show laneTrip.slot < loopHot.slot by decide),
    List.pairwise_pair.2 (show laneTrip.code ≠ loopHot.code by decide), ?_⟩
  intro q hq
  have hq' : q = laneTrip ∨ q = { loopHot with state := st, cause := false, holdoff := h } := by simpa [gone] using hq
  rcases hq' with rfl | rfl
  · exact laneTrip_sound
  · refine ⟨loopHot_sound.slot, loopHot_sound.overflow, loopHot_sound.occurrences, loopHot_sound.effects, fun _ => rfl, ?_, ?_,
      loopHot_sound.computed⟩
    · intro _ h2
      rcases hs with h1 | ⟨h1, _⟩ <;> subst h1 <;> cases h2
    · intro h2
      rcases hs with h1 | ⟨_, h1⟩
      · subst h1; cases h2
      · exact ⟨rfl, rfl, h1⟩

theorem witness_AckAcknowledges :
    (plant.ready .main ∧ TableSound plant.table ∧ plant.limitsAgree ∧ (∀ q ∈ plant.table, q.code ≠ ⟨8, 1⟩) ∧
      (∃ q ∈ plant.table, q.state = .active ∧ q.mode = .level ∧ q.cause = true) ∧ ∃ q ∈ plant.table, q.state = .acked) ∧
    ((gone .active none).ready .main ∧ TableSound (gone .active none).table ∧ (gone .active none).limitsAgree ∧
      ∃ q ∈ (gone .active none).table, q.state = .active ∧ q.mode = .level ∧ q.cause = false) ∧
    ((gone .clearing (some 1)).ready .main ∧ TableSound (gone .clearing (some 1)).table ∧
      (gone .clearing (some 1)).limitsAgree ∧ ∃ q ∈ (gone .clearing (some 1)).table, q.state = .clearing) :=
  ⟨⟨plant_ready _, plant_table, witness_limitsAgree, by decide, by decide, by decide⟩,
    ⟨gone_ready _ _ _, gone_sound _ _ (.inl rfl), ⟨by decide, by decide⟩, by decide⟩,
    ⟨gone_ready _ _ _, gone_sound _ _ (.inr ⟨rfl, rfl⟩), ⟨by decide, by decide⟩, by decide⟩⟩

/-- The nacelle with a LEVEL record acknowledged while its cause is present. -/
def held : State := { plant with table := [laneTrip, { loopHot with state := .acked }] }

theorem held_table : TableSound held.table := by
  refine ⟨by decide, by decide, fun q hq => ?_⟩
  have h : q = laneTrip ∨ q = { loopHot with state := .acked } := by simpa [held] using hq
  rcases h with rfl | rfl
  · exact laneTrip_sound
  · exact ⟨loopHot_sound.slot, loopHot_sound.overflow, loopHot_sound.occurrences, loopHot_sound.effects,
      loopHot_sound.edge, fun _ _ => rfl, fun h => absurd h (by decide), loopHot_sound.computed⟩

/-- A report of an absent code with slot 2 the lowest free one, of LEVEL records with their cause (ACTIVE and ACKED) and
without it, of an EDGE record and of a TRIP; and a mark that asks for attention, one that is read, and one below the
threshold. -/
theorem witness_ReportsMoveRecordsAndAreHandedOn :
    (TableSound plant.table ∧ (upsLowRaise 15).via = none ∧ (∀ q ∈ plant.table, q.code ≠ (upsLowRaise 15).code) ∧
      (2 < 47 ∧ (∀ q ∈ plant.table, q.slot ≠ 2) ∧ ∀ m, m < 2 → ∃ q ∈ plant.table, q.slot = m) ∧
      (∃ q ∈ plant.table, q.mode = .level ∧ q.cause = true ∧ q.state = .active) ∧
      ∃ q ∈ plant.table, q.mode = .edge ∧ ¬(q.mode = .level ∧ q.cause = true)) ∧
    (TableSound held.table ∧ ∃ q ∈ held.table, q.cause = true ∧ q.state = .acked) ∧
    (TableSound (gone .clearing (some 1)).table ∧ ∃ q ∈ (gone .clearing (some 1)).table, q.mode = .level ∧ q.cause = false) ∧
    (TableSound hosted.table ∧ (∃ q ∈ hosted.table, q.cls = .trip) ∧ ∃ q ∈ hosted.table, q.cls ≠ .trip) ∧
    (({ loopHot with unread := ⟨true, true⟩ } : Record).unread.get .main = true ∧ loopHot.unread.get .main = false ∧
      (1 ≤ plant.setting 35 ∧ plant.setting 35 ≤ (clsIndex .limit : Int) + 1) ∧
      ¬(plant.setting 35 ≤ (clsIndex .notice : Int) + 1)) := by
  refine ⟨⟨plant_table, rfl, by decide, by decide, by decide, by decide⟩, ⟨held_table, by decide⟩,
    ⟨gone_sound _ _ (.inr ⟨rfl, rfl⟩), by decide⟩, ⟨three_sound, by decide, by decide⟩, by decide⟩

/-- The greatest local code of a lane. -/
theorem witness_CatalogueGivesEachCodeItsEffects : 255 < 256 := by decide

/-- A retirement refused for each reason and carried out, by a request and at the end of a hold-off; and codes whose owner
takes the retirement, at both ends of their ranges, beside one that has none. -/
theorem witness_RetirementRemovesTheRecord :
    (hosted.ready .main ∧ TableSound hosted.table ∧ (∀ q ∈ hosted.table, q.code ≠ ⟨8, 1⟩) ∧
      (∃ q ∈ hosted.table, q.state = .active) ∧
      (∃ q ∈ hosted.table, q.state ≠ .active ∧ ¬(q.mode = .level ∧ q.cause = true) ∧ Link.main = .main ∧ q.cls = .trip ∧
        ¬(hosted.setting 19 = 1 ∧ (q.occurrences : Int) ≤ hosted.setting 20)) ∧
      ∃ q ∈ hosted.table, q.state ≠ .active ∧ ¬(q.mode = .level ∧ q.cause = true) ∧ q.cls ≠ .trip) ∧
    { loopHot with state := .acked }.state ≠ .active ∧
    ((gone .clearing (some 0)).unsettled = [] ∧ TableSound (gone .clearing (some 0)).table ∧
      ∃ q ∈ (gone .clearing (some 0)).table, q.code = ⟨4, 0x20⟩ ∧ q.state = .clearing) ∧
    ((⟨3, 0x10⟩ : Code) = ⟨3, ⟨16 + (0 : Fin 8).val, by omega⟩⟩ ∧ (⟨3, 0x17⟩ : Code) = ⟨3, ⟨16 + (7 : Fin 8).val, by omega⟩⟩ ∧
      (⟨4, 0x10⟩ : Code) = ⟨4, ⟨16 + (0 : Fin 3).val, by omega⟩⟩ ∧ (⟨4, 0x12⟩ : Code) = ⟨4, ⟨16 + (2 : Fin 3).val, by omega⟩⟩) ∧
    ∀ c ∈ [(⟨3, 0x18⟩ : Code), ⟨4, 0x13⟩, ⟨8, 0x10⟩], (∀ n : Fin 8, c ≠ ⟨3, ⟨16 + n.val, by omega⟩⟩) ∧
      ∀ l : Fin 3, c ≠ ⟨4, ⟨16 + l.val, by omega⟩⟩ :=
  ⟨⟨hosted_ready _, three_sound, by decide, by decide, by decide, by decide⟩, by decide,
    ⟨rfl, gone_sound _ _ (.inr ⟨rfl, rfl⟩), by decide⟩, by decide, by decide⟩

/-- The nacelle with slot 0 bound, and with a boost pending in slot 3. -/
def slotted : State := withSlot (withSlot plant 0 bound) 3 boosting

theorem slotted_ready (l : Link) : slotted.ready l := by cases l <;> exact ⟨by decide, by decide, by decide⟩

/-- No such slot, a bound slot, one with a pending action, an unbound one, and the ends of the count and of the delay. -/
theorem witness_BindAndUnbindMoveTheSlot : slotted.ready .main ∧ 7 < 8 ∧ (0 : Fin 8).val = 0 ∧
    (slotted.slots.get 0).sound ∧ (slotted.slots.get 0).bound.isSome = true ∧
    (slotted.slots.get 7).sound ∧ (slotted.slots.get 7).bound = none ∧
    (slotted.slots.get 3).sound ∧ (slotted.slots.get 3).pending.isSome = true ∧
    (∀ count ∈ [0, 16], count = 0 ∨ 15 < count) ∧ (∀ delay ∈ [0, 601], delay = 0 ∨ 600 < delay) ∧
    (∀ count ∈ [1, 15], ∀ delay ∈ [1, 600], ¬(count = 0 ∨ 15 < count ∨ (delay = 0 ∨ 600 < delay) ∨ (1 : LoopSet) = 0)) :=
  ⟨slotted_ready _, by decide, rfl, bound_sound, rfl, slot_initial_sound, rfl, boosting_sound, rfl, by decide, by decide,
    by decide⟩

/-- An AUTO_RETIRE at its end, bound to each kind of record. -/
def ending (c : Code) : Slot := { bound with bound := some c, pending := some 0 }

theorem ending_sound (c : Code) : (ending c).sound :=
  ⟨fun h => absurd h (by simp [ending]), fun _ => (by decide : 1 ≤ 3 ∧ 3 ≤ 15), rfl, bound_sound.loops, bound_sound.delay,
    bound_sound.delayRange, fun p h => by cases h; exact ⟨rfl, by decide⟩⟩

/-- A slot that escalates, on its last count. -/
def escalating : Slot :=
  { bound := some ⟨2, 0x217⟩, action := some .escalate, loops := none, delay := none, count := 1, pending := none
    last := .none }

theorem escalating_sound : escalating.sound :=
  ⟨by decide, by decide, by decide, by decide, by decide, fun d h => absurd h (by simp [escalating]),
    fun p h => absurd h (by simp [escalating])⟩

/-- The nacelle with slot 0 escalating. -/
def escalated : State := withSlot plant 0 escalating

theorem slotted_sound : slotted.slotsSound := by
  intro k
  have h : slotted.slots.get k = if k = 0 then bound else if k = 3 then boosting else Slot.initial := by revert k; decide
  rw [h]; split
  · exact bound_sound
  · split
    · exact boosting_sound
    · exact slot_initial_sound

theorem escalated_sound : escalated.slotsSound := by
  intro k
  have h : escalated.slots.get k = if k = 0 then escalating else Slot.initial := by revert k; decide
  rw [h]; split
  · exact escalating_sound
  · exact slot_initial_sound

/-- An offer to no slot, to a slot at rest, to one whose action is pending and to one that escalates; an escalation of an
absent code, of a TRIP and of a SHED record; and the ends of a boost and of an AUTO_RETIRE. -/
theorem witness_SlotActionsEnd :
    (slotted.slotsSound ∧ (∀ k : Fin 8, (slotted.slots.get k).bound ≠ some ⟨8, 1⟩) ∧
      (slotted.slots.get 0).bound = some ⟨2, 0x217⟩ ∧ (∀ j, j < (0 : Fin 8) → (slotted.slots.get j).bound ≠ some ⟨2, 0x217⟩) ∧
      (slotted.slots.get 0).pending = none ∧ (slotted.slots.get 0).action = some .autoRetire ∧
      (slotted.slots.get 3).bound = some ⟨4, 0x21⟩ ∧ (∀ j, j < (3 : Fin 8) → (slotted.slots.get j).bound ≠ some ⟨4, 0x21⟩) ∧
      (slotted.slots.get 3).pending.isSome = true) ∧
    (escalated.slotsSound ∧ (escalated.slots.get 0).bound = some ⟨2, 0x217⟩ ∧ (escalated.slots.get 0).pending = none ∧
      (escalated.slots.get 0).action = some .escalate) ∧
    (TableSound hosted.table ∧ (∀ q ∈ hosted.table, q.code ≠ ⟨8, 1⟩) ∧ (∃ q ∈ hosted.table, q.cls = .trip) ∧
      ∃ q ∈ hosted.table, q.cls ≠ .trip) ∧
    (slotted.unsettled = [] ∧ TableSound slotted.table ∧ (slotted.slots.get 3).sound ∧
      (slotted.slots.get 3).pending.isSome = true ∧ (slotted.slots.get 3).action = some .coolBoost) ∧
    (∀ c ∈ [hostTrip.code, loopHot.code, laneTrip.code], let s := withSlot hosted 0 (ending c)
      s.unsettled = [] ∧ TableSound s.table ∧ (s.slots.get 0).sound ∧ (s.slots.get 0).pending.isSome = true ∧
      (s.slots.get 0).action = some .autoRetire ∧ ∃ q ∈ s.table, (s.slots.get 0).bound = some q.code) ∧
    hostTrip.cls = .trip ∧ (loopHot.cls ≠ .trip ∧ loopHot.mode = .level ∧ loopHot.cause = true) ∧
    (laneTrip.cls ≠ .trip ∧ ¬(laneTrip.mode = .level ∧ laneTrip.cause = true)) := by
  refine ⟨⟨slotted_sound, by decide, rfl, by decide, rfl, rfl, rfl, by decide, rfl⟩, ⟨escalated_sound, rfl, rfl, rfl⟩,
    ⟨three_sound, by decide, by decide, by decide⟩, ⟨rfl, plant_table, boosting_sound, rfl, rfl⟩, fun c hc => ⟨rfl, three_sound, ending_sound c, rfl, rfl, ?_⟩, rfl,
    by decide, by decide⟩
  simp only [List.mem_cons, List.not_mem_nil, or_false] at hc
  rcases hc with rfl | rfl | rfl <;> decide

/-! ### Envelope and lanes -/

/-- SET_DEMAND refused, unchanged and changed; a temperature that leaves lane 0's factor at 64 and one that does not, a lane
that is in the running set and one that joins it, and deliveries without and with the cap and the excluded lanes. -/
theorem witness_InputsRecomputeTheEnvelope :
    (keyed.ready .main ∧ keyed.keyView = true ∧ plant.ready .main ∧
      ¬(Link.main = .main ∧ plant.keyView = true) ∧ min 12000 16000 = plant.eu.demand ∧ min 16001 16000 ≠ plant.eu.demand ∧
      min 16000 16000 ≠ plant.eu.demand) ∧
    (plant.eu.factor.get 0 = some 64 ∧ (700 : Int) ≤ plant.setting 3 ∧ plant.eu.factor.get 0 ≠ some 0) ∧
    ((∀ k : Fin 4, hasBit (0b1011 : LaneSet) k.val = if k = 0 then true else hasBit plant.eu.running k.val) ∧
      (0b1011 : LaneSet) = plant.eu.running ∧
      (∀ k : Fin 4, hasBit (0b1111 : LaneSet) k.val = if k = 2 then true else hasBit plant.eu.running k.val) ∧
      (0b1111 : LaneSet) ≠ plant.eu.running) ∧
    (let d : EnvelopeDelivery := { capEff := none, capSource := some none, excluded := none }
     d.capEff = none ∧ d.excluded = none) ∧
    ∀ d ∈ [({ capEff := some 0, capSource := none, excluded := none } : EnvelopeDelivery),
        { capEff := none, capSource := none, excluded := some 15 }], d.capEff.isSome = true ∨ d.excluded.isSome = true :=
  ⟨⟨keyed_ready _, rfl, plant_ready _, by decide, by decide, by decide, by decide⟩, by decide, by decide, by decide, by decide⟩

theorem witness_RampStepRaisesCommanded : plant.unsettled = [] ∧ plant.eu.sound ∧ plant.eu.ramp.isSome = true :=
  ⟨rfl, plant_envelope, rfl⟩

/-- The nacelle with no record and lane 3 in a state of its own. -/
def laneIn (st : LaneState) : State := withLane clear 3 { Lane.initial with state := st, shed := if st = .shedding then some .excluded else none }

theorem laneIn_ready (st : LaneState) (l : Link) : (laneIn st).ready l := by
  cases l <;> exact ⟨rfl, nofun, rfl, fun _ => rfl⟩

theorem witness_LaneStartAndStopMoveTheLane :
    plant.ready .service ∧ 4 ≤ 4 ∧ keyed.ready .main ∧ keyed.keyView = true ∧ (∀ st l, (laneIn st).ready l) ∧
    (plant.lm.lanes.get 0).state ≠ .offline ∧ (∀ st, ((laneIn st).lm.lanes.get 3).state = st) ∧
    (hasBit (laneIn .offline).lm.excluded 3 = false ∧ (laneIn .offline).lm.supply = .full ∧
      (laneIn .offline).lm.pump = .running) ∧
    ((laneIn .offline).setting 2 = 1 ∧ (laneIn .offline).lm.demand = true) ∧
    ¬(hasBit (withLane plant 2 Lane.initial).lm.excluded 2 = false) ∧ (withLane plant 2 Lane.initial).ready .service :=
  ⟨plant_ready _, by decide, keyed_ready _, rfl, laneIn_ready, by decide, fun st => rfl, by decide, by decide, by decide,
    ⟨rfl, nofun, rfl, fun _ => rfl⟩⟩

/-- The nacelle with lane 3 in a state of its own beside a report. -/
def reported (st : LaneState) (r : Report) : State := withLane clear 3 { Lane.initial with state := st, report := some r }

theorem witness_LaneReportsAreTaken : plant.unsettled = [] ∧ readReport [] = none ∧
    (readReport (reportBytes ⟨.ready, 1085, 25, 0, .warn, 7, 1⟩)).isSome = true ∧
    (∀ st r, (reported st r).unsettled = [] ∧ ((reported st r).lm.lanes.get 3).report = some r ∧
      ((reported st r).lm.lanes.get 3).state = st ∧ hasBit (reported st r).lm.excluded 3 = false) ∧
    (let s : State := { reported .offline ⟨.down, 0, 25, 0, .none, 0, 0⟩ with lm :=
        { (reported .offline ⟨.down, 0, 25, 0, .none, 0, 0⟩).lm with excluded := 8 } }
     s.unsettled = [] ∧ (s.lm.lanes.get 3).report.isSome = true ∧ (s.lm.lanes.get 3).state = .offline ∧
       hasBit s.lm.excluded 3 = true) :=
  ⟨rfl, rfl, by decide +kernel, fun _ _ => ⟨rfl, rfl, rfl, (by decide : hasBit clear.lm.excluded 3 = false)⟩, by decide⟩

theorem witness_LaneTimersRunOut :
    plant.unsettled = [] ∧ (plant.lm.lanes.get 0).silence.isSome = true ∧
    (∀ n k, (withLane plant n { Lane.initial with timer := some ⟨k, 0⟩ }).unsettled = [] ∧
      ((withLane plant n { Lane.initial with timer := some ⟨k, 0⟩ }).lm.lanes.get n).timer = some ⟨k, 0⟩) ∧
    hasBit plant.lm.excluded 2 = true ∧ hasBit plant.lm.excluded 0 = false ∧ ((laneIn .offline).lm.lanes.get 3).state = .offline :=
  ⟨rfl, by decide, fun n k => ⟨rfl, by fin_cases n <;> rfl⟩, by decide, by decide, rfl⟩

/-! ### Wind and yaw -/

theorem witness_HeadingAndTwistAreAccounted : plant.unsettled = [] ∧ plant.ready .main ∧ plant.ready .service ∧
    (∀ h ∈ [0, 3599], h < 3600) ∧ (∀ h, (some 3600 : Option Nat) = some h → 3600 ≤ h) ∧
    (∀ h, (none : Option Nat) = some h → 3600 ≤ h) ∧
    (let s : State := { plant with wh := { plant.wh with twist := -10800, views := ⟨true, false, false, false, false⟩ } }
     s.ready .service ∧ s.wh.views.twistLimit = true ∧ 10500 ≤ (10500 : Int).natAbs ∧ (0 : Int) < 10500 ∧ s.wh.twist < 0) ∧
    plant.wh.views.twistLimit = false :=
  ⟨rfl, plant_ready _, plant_ready _, by decide, (by intro h e; cases e; decide), (by intro h e; cases e),
    ⟨⟨rfl, nofun, rfl, fun _ => rfl⟩, rfl, by decide, by decide, by decide⟩, rfl⟩

theorem witness_WindSamplesMoveTheFilters : plant.unsettled = [] ∧
    (∀ e ∈ [(-1800 : Int), 1799], -1800 ≤ e ∧ e ≤ 1799) ∧ (∀ e, (some 1800 : Option Int) = some e → e < -1800 ∨ 1799 < e) ∧
    (∀ e, (none : Option Int) = some e → e < -1800 ∨ 1799 < e) ∧
    (let w : Wind := { plant.wh with watching := true, filtered := 80 }
     (∀ dwell ∈ [28, 29], let s : State := { plant with wh := { w with dwell := dwell } }
       s.wh.watching = true ∧ (s.setting 6).toNat ≤ s.wh.filtered.natAbs) ∧ 28 + 1 < (plant.setting 7).toNat ∧
     (plant.setting 7).toNat ≤ 29 + 1) ∧ plant.wh.watching = false :=
  ⟨rfl, by decide, (by intro e h; cases h; decide), (by intro e h; cases h), by decide, rfl⟩

/-- The nacelle under no context. -/
def still : State :=
  { plant with ym := { workedYaw with
      chain := [], brake := .applied, run := none, stall := none
      drives := Eight.map (fun d => { d with state := .ready }) workedYaw.drives } }

theorem still_ready (l : Link) : still.ready l := by cases l <;> exact ⟨by decide, by decide, by decide⟩

theorem still_yaw : still.ym.sound := by
  refine ⟨⟨by decide, by decide, by decide, fun c hc => ?_⟩, by decide, by decide, fun d hd => ?_, by decide, by decide, by decide⟩
  · simp [still] at hc
  · simp [still] at hd

/-- The nacelle with an UNWIND that moves. -/
def unwinding : State :=
  { plant with ym := { workedYaw with
      chain := [⟨.unwind, .auto, .twist 1800, some .ccw, .moving⟩], brake := .releasing, run := none, stall := none
      drives := Eight.map (fun d => { d with state := .ready }) workedYaw.drives } }

theorem unwinding_yaw : unwinding.ym.sound := by
  refine ⟨⟨by decide, by decide, by decide, fun c hc => ?_⟩, by decide, fun c hc _ => ?_, fun d hd => ?_, by decide, by decide,
    by decide⟩
  · have : c = ⟨.unwind, .auto, .twist 1800, some .ccw, .moving⟩ := by simpa [unwinding] using hc
    subst this; exact ⟨by decide, by decide, by decide, by decide⟩
  · have : ⟨.unwind, .auto, .twist 1800, some .ccw, .moving⟩ = c := by simpa [unwinding] using hc
    subst this; exact ⟨.ccw, rfl, by decide⟩
  · simp [unwinding] at hd

/-- Tracking refused under the key, already as asked, and off and on again; an UNWIND present, not worth while, and inserted. -/
theorem witness_TrackingAndUnwindRequestsMoveTheChain :
    (keyed.ready .main ∧ keyed.keyView = true) ∧
    (plant.ready .main ∧ plant.ym.sound ∧ ¬(Link.main = .main ∧ plant.keyView = true) ∧
      (true = true ↔ ∃ c ∈ plant.ym.chain, c.kind = .track) ∧ ¬(false = true ↔ ∃ c ∈ plant.ym.chain, c.kind = .track)) ∧
    (still.ready .main ∧ still.ym.sound ∧ ¬(Link.main = .main ∧ still.keyView = true) ∧
      (false = true ↔ ∃ c ∈ still.ym.chain, c.kind = .track) ∧ ¬(true = true ↔ ∃ c ∈ still.ym.chain, c.kind = .track)) ∧
    (unwinding.ready .main ∧ unwinding.ym.sound ∧ ∃ c ∈ unwinding.ym.chain, c.kind = .unwind) ∧
    ((∀ c ∈ plant.ym.chain, c.kind ≠ .unwind) ∧ plant.setting 11 < (plant.ym.twist.natAbs : Int)) ∧
    (let s : State := { plant with ym := { workedYaw with twist := 1800 } }
     s.ready .main ∧ (∀ c ∈ s.ym.chain, c.kind ≠ .unwind) ∧ (s.ym.twist.natAbs : Int) ≤ s.setting 11) :=
  ⟨⟨keyed_ready _, rfl⟩, ⟨plant_ready _, plant_yaw, by decide, by decide, by decide⟩,
    ⟨still_ready _, still_yaw, by decide, by decide, by decide⟩, ⟨⟨by decide, by decide, by decide⟩, unwinding_yaw, by decide⟩,
    ⟨by decide, by decide⟩, ⟨⟨by decide, by decide, by decide⟩, by decide, by decide⟩⟩

/-- A delivery looks at lane 2, which is FAULTED, and not at lane 0; lane 2 stands in one set and out of the other. -/
theorem witness_HandoversMoveTheLanes :
    (let looked := fun (set : LaneSet) (full : Bool) (n : Fin 4) =>
       full = true ∨ hasBit plant.lm.excluded n.val ≠ hasBit set n.val ∨ (plant.lm.lanes.get n).state = .offline ∨
         (plant.lm.lanes.get n).state = .faulted
     ¬looked 4 false 0 ∧ looked 4 true 0 ∧ looked 5 false 0 ∧ looked 4 false 2 ∧ hasBit (4 : LaneSet) 2 = true ∧
       hasBit (4 : LaneSet) 0 = false ∧ hasBit (5 : LaneSet) 0 = true) ∧
    SupplyState.aux ≠ plant.lm.supply ∧ PumpState.failed ≠ plant.lm.pump := by decide

/-- The nacelle with a technician's jog under way. -/
def jogging : State :=
  { plant with ym := { workedYaw with
      chain := [⟨.service, .service, .time 0, some .cw, .moving⟩, ⟨.track, .auto, .absent, none, .suspended⟩] } }

theorem jogging_yaw : jogging.ym.sound := by
  refine ⟨⟨by decide, by decide, by decide, fun c hc => ?_⟩, by decide, fun c hc _ => ?_, fun d hd => ?_, by decide, by decide,
    by decide⟩
  · have : c = ⟨.service, .service, .time 0, some .cw, .moving⟩ ∨ c = ⟨.track, .auto, .absent, none, .suspended⟩ := by
      simpa [jogging] using hc
    rcases this with rfl | rfl <;> exact ⟨by decide, by decide, by decide, by decide⟩
  · have : ⟨.service, .service, .time 0, some .cw, .moving⟩ = c := by simpa [jogging] using hc
    subst this; exact ⟨.cw, rfl, by decide⟩
  · have : d = .cw := by simpa [jogging, workedYaw] using hd.symm
    subst this; exact ⟨by decide, by decide, by decide⟩

theorem witness_ServiceMovesComeAndGo :
    (plant.ym.sound ∧ plant.ready .main ∧ plant.ready .service ∧ 3599 < 3600 ∧ (∀ n ∈ [0, 61], n = 0 ∨ 60 < n) ∧
      3599 ≤ 3599 ∧ (∀ n ∈ [1, 60], 1 ≤ n ∧ n ≤ 60) ∧ (¬∃ c ∈ plant.ym.chain, c.kind = .service) ∧
      ¬(plant.ym.hold = true ∨ plant.ym.supply = .low) ∧ plant.ym.heading = some 1200 ∧
      ((((1205 : Nat) : Int) - 1200 + 1800) % 3600 - 1800).natAbs ≤ 5 ∧
      5 < ((((1206 : Nat) : Int) - 1200 + 1800) % 3600 - 1800).natAbs ∧ plant.ym.blocked .cw = false) ∧
    (jogging.ym.sound ∧ jogging.ready .service ∧ (∃ c ∈ jogging.ym.chain, c.kind = .service) ∧ jogging.unsettled = [] ∧
      ∃ c ∈ jogging.ym.chain, c.kind = .service ∧ c.target = .time 0) ∧
    (let s : State := { still with ym := { still.ym with twist := 10800, heading := none, blockedView := false } }
     s.ready .service ∧ s.ym.heading = none ∧ s.ym.blocked .cw = true ∧ ¬(s.ym.hold = true ∨ s.ym.supply = .low)) :=
  ⟨⟨plant_yaw, plant_ready _, plant_ready _, by decide, by decide, by decide, by decide, by decide, by decide, rfl, by decide,
      by decide, by decide⟩,
    ⟨jogging_yaw, ⟨by decide, by decide, by decide⟩, by decide, rfl, by decide⟩,
    ⟨⟨by decide, by decide, by decide⟩, rfl, by decide, by decide⟩⟩

/-- A context of a kind, MOVING clockwise to 1290. -/
def context (k : Kind) (st : ContextState) : Context := ⟨k, .auto, .heading 1290, some .cw, st⟩

/-- The yaw under one context. -/
def under (c : Context) : Yaw := { workedYaw with chain := [c] }

/-- A hold that reaches each kind and one that spares SERVICE, each direction at the guard and short of it; an UNWIND at its
goal and beyond; an insertion into no chain, above and below the top; the kinds that a removal names; and holds. -/
theorem witness_ChainIsEvaluatedAndHeld :
    ((context .service .held).kind = .service ∧
      (∀ k ∈ [Kind.track, .park, .unwind], (context k .held).kind ≠ .service ∧
        hasBit ({ workedYaw with held := 0b01000 } : Yaw).held 3 = true ∧
        ¬(hasBit workedYaw.held 4 = true ∨ workedYaw.supply = .low ∨ (hasBit workedYaw.held 3 = true ∧ k ≠ .service)))) ∧
    ((∀ goal ∈ [(10769 : Int), 0], goal < (workedYaw.twist.natAbs : Int)) ∧ (workedYaw.twist.natAbs : Int) ≤ 10770) ∧
    (still.ym.chain = [] ∧ workedYaw.chain = context .track .moving :: [] ∧
      priority (context .track .moving).kind < priority (context .park .moving).kind ∧
      jogging.ym.chain = jogging.ym.chain.take 1 ++ jogging.ym.chain.drop 1 ∧ jogging.ym.chain.take 1 ≠ [] ∧
      (∀ q ∈ jogging.ym.chain.take 1, priority .unwind ≤ priority q.kind) ∧
      ∀ q ∈ (jogging.ym.chain.drop 1).head?, priority q.kind < priority .unwind) ∧
    ((∀ c ∈ workedYaw.chain, c.kind ≠ .park) ∧ (context .track .moving).kind = .track ∧
      jogging.ym.chain.head?.map (fun c => c.kind) = some .service ∧ ∃ c ∈ jogging.ym.chain.drop 1, c.kind = .track) ∧
    (∀ st ∈ [ContextState.suspended, .held, .watching, .moving], (under (context .track st)).chain = context .track st :: [] ∧
      (context .track st).state = st ∧ (context .service st).state = st) ∧
    ({ workedYaw with twist := 10800 } : Yaw).blocked .cw = true ∧ ({ workedYaw with twist := 10799 } : Yaw).blocked .cw = false ∧
    ({ workedYaw with twist := -10800 } : Yaw).blocked .ccw = true ∧ ({ workedYaw with held := 0b00010 } : Yaw).blocked .ccw = true := by
  decide

/-- A PARK asked for and let go, an UNWIND present and absent, a TRACK that watches and one that moves; and F under no chain,
under a PARK held by its direction alone, under one that watches at the threshold and short of it, and under another. -/
theorem witness_YawTakesWhatBlocksHandIt :
    ((∃ c ∈ unwinding.ym.chain, c.kind = .unwind) ∧ ∀ c ∈ plant.ym.chain, c.kind ≠ .unwind) ∧
    ((∀ top ∈ plant.ym.chain.head?, ¬(top.kind = .track ∧ top.state = .watching)) ∧
      (under (context .track .watching)).chain = context .track .watching :: [] ∧
      (context .track .watching).state = .watching) ∧
    (still.ym.chain = [] ∧
      (let y : Yaw := { under (context .park .held) with held := 0b00001 }
       y.chain = context .park .held :: [] ∧ y.heading.isSome = true ∧ y.freeHold .park = false ∧ y.blocked .cw = true) ∧
      ((under (context .park .watching)).chain = context .park .watching :: [] ∧ plant.ym.heading = some 1200 ∧
        plant.setting 9 ≤ (((150 : Int) - plant.setting 8).natAbs : Int) ∧
        ¬plant.setting 9 ≤ (((149 : Int) - plant.setting 8).natAbs : Int)) ∧
      (∀ st ∈ [ContextState.held, .moving], (context .track st).kind ≠ .park) ∧
      (context .track .held).state = .held ∧ (context .track .moving).state ≠ .held) := by decide

/-- The nacelle with drive 3 in a state of its own. -/
def driveIn (d : Drive) : State := { plant with ym := { workedYaw with drives := workedYaw.drives.set 3 d } }

theorem witness_DrivesLeaveAndJoin : plant.ready .main ∧ 8 ≤ 8 ∧ (∀ d, (driveIn d).ready .service) ∧
    (∀ d, (driveIn d).ym.drives.get 3 = d) ∧ plant.unsettled = [] :=
  ⟨plant_ready _, by decide, fun d => ⟨rfl, nofun, rfl, fun _ => rfl⟩, fun d => rfl, rfl⟩

/-- The nacelle with a technician's move to a heading under way. -/
def going : State :=
  { jogging with ym := { jogging.ym with
      chain := [⟨.service, .service, .heading 1290, some .cw, .moving⟩, ⟨.track, .auto, .absent, none, .suspended⟩] } }

theorem going_yaw : going.ym.sound := by
  refine ⟨⟨by decide, by decide, by decide, fun c hc => ?_⟩, by decide, fun c hc _ => ?_, fun d hd => ?_, by decide, by decide,
    by decide⟩
  · have : c = ⟨.service, .service, .heading 1290, some .cw, .moving⟩ ∨ c = ⟨.track, .auto, .absent, none, .suspended⟩ := by
      simpa [going] using hc
    rcases this with rfl | rfl <;> exact ⟨by decide, by decide, by decide, by decide⟩
  · have : ⟨.service, .service, .heading 1290, some .cw, .moving⟩ = c := by simpa [going] using hc
    subst this; exact ⟨.cw, rfl, by decide⟩
  · have : d = .cw := by simpa [going, jogging, workedYaw] using hd.symm
    subst this; exact ⟨by decide, by decide, by decide⟩

/-- The yaw in each brake state, with and without a motion wanted, the drives stopped, running and settling; and handovers
to a TRACK and a SERVICE GOTO, 5 and 6 tenths short of 1290, and to an UNWIND at its goal and 1 tenth beyond. -/
theorem witness_BrakeAndDrivesFollow :
    ((∀ b, { still.ym with brake := b }.wants = none ∧ { workedYaw with brake := b }.wants = some .cw) ∧
      (20 ≤ 20 ∧ workedYaw.run = some .cw) ∧ workedYaw.blocked .cw = false ∧
      ({ workedYaw with run := some .ccw } : Yaw).run = some (Dir.opposite .cw) ∧
      ({ workedYaw with run := none, settle := some ⟨2000, .cw⟩ } : Yaw).settle = some ⟨2000, .cw⟩ ∧
      ({ workedYaw with run := none, settle := some ⟨1, .ccw⟩ } : Yaw).settle = some ⟨1, Dir.opposite .cw⟩ ∧
      ({ workedYaw with twist := 10800 } : Yaw).blocked .cw = true ∧ plant.unsettled = [] ∧
      ({ workedYaw with brakeTimer := some 0 } : Yaw).brakeTimer.isSome = true ∧
      ({ workedYaw with settle := some ⟨0, .cw⟩ } : Yaw).settle.isSome = true) ∧
    (plant.ym.sound ∧ going.ym.sound ∧ unwinding.ym.sound) ∧
    (∀ s ∈ [plant, going], (∃ top ∈ s.ym.chain.head?, top.state = .moving ∧ top.dir = some .cw ∧ top.target = .heading 1290 ∧
        { s.ym with heading := some 1285, twist := 10770 }.freeHold top.kind = false) ∧
      { s.ym with heading := some 1285, twist := 10770 }.blocked .cw = false ∧ s.ym.run = some .cw) ∧
    ((((1290 : Nat) : Int) - 1285 + 1800) % 3600 - 1800).natAbs ≤ 5 ∧
    ¬((((1290 : Nat) : Int) - 1284 + 1800) % 3600 - 1800).natAbs ≤ 5 ∧
    (∃ top ∈ unwinding.ym.chain.head?, top.state = .moving ∧ top.dir = some .ccw ∧ top.kind = .unwind ∧
      top.target = .twist 1800 ∧ { unwinding.ym with heading := some 1200, twist := 1800 }.freeHold top.kind = false) ∧
    { unwinding.ym with heading := some 1200, twist := 1800 }.blocked .ccw = false ∧
    ((1800 : Int).natAbs : Int) ≤ 1800 ∧ ¬((1801 : Int).natAbs : Int) ≤ 1800 := by
  refine ⟨⟨fun b => ?_, by decide, by decide, rfl, rfl, rfl, by decide, rfl, rfl, rfl⟩,
    ⟨plant_yaw, going_yaw, unwinding_yaw⟩, by decide, by decide, by decide, by decide, by decide, by decide, by decide⟩
  cases b <;> decide

/-! ### Cooling, supply, key and settings -/

theorem witness_TemperatureSamplesDerateAndCool : plant.unsettled = [] ∧ (∀ t ∈ [(-400 : Int), 1500], -400 ≤ t ∧ t ≤ 1500) ∧
    (∀ t, (some (-401) : Option Int) = some t → t < -400 ∨ 1500 < t) ∧ (plant.cu.loops.get 0).tOut = some 589 :=
  ⟨rfl, by decide, by intro t h; cases h; decide, rfl⟩

theorem witness_FlowAndPrimingMoveThePump : plant.unsettled = [] ∧
    (∀ p ∈ [PumpState.off, .priming, .running, .failed],
      ((withLoop plant 0 { plant.cu.loops.x0 with pump := p, prime := some 0 }).cu.loops.get 0).pump = p) ∧
    ((withLoop plant 0 { plant.cu.loops.x0 with misses := 1 }).cu.loops.get 0).misses < 2 ∧
    2 ≤ ((withLoop plant 0 { plant.cu.loops.x0 with misses := 2 }).cu.loops.get 0).misses ∧
    ((withLoop plant 0 { plant.cu.loops.x0 with prime := some 0 }).cu.loops.get 0).prime.isSome = true := by decide

theorem witness_SupplyMonitorFollowsItsInputs :
    (plant.unsettled = [] ∧ plant.sm.sound ∧ true = plant.sm.grid ∧ plant.sm.state = .full) ∧
    (auxSupply.sound ∧ auxSupply.grid = false ∧ auxSupply.state = .aux) ∧
    (lowSupply.sound ∧ lowSupply.grid = true ∧ lowSupply.state ≠ .full ∧ lowSupply.settle.isSome = true) ∧
    (∀ p, (some 101 : Option Nat) = some p → 100 < p) ∧ (∀ p ∈ [0, 19, 20, 29, 30, 100], p ≤ 100) :=
  ⟨⟨rfl, plant_supply, rfl, rfl⟩, ⟨auxSupply_sound, rfl, rfl⟩, ⟨lowSupply_sound, rfl, by decide, rfl⟩,
    by intro p h; cases h; decide, by decide⟩

theorem witness_KeyAndSilenceAreWatched : plant.unsettled = [] ∧ plant.silence.isSome = true ∧
    ({ plant with silenceView := true } : State).takesFrame .main = true ∧
    (plant.links.main).frame ≠ .receiving ∧ ({ plant with silenceView := true } : State).silenceView = true ∧
    Request.ident.command .main = some (.ident .main) := ⟨rfl, rfl, by decide, by decide, rfl, rfl⟩

theorem witness_SetSettingStoresAndActs : plant.ready .main ∧ (39 = 0 ∨ 38 < 39) ∧ (∀ id ∈ [1, 38], 1 ≤ id ∧ id ≤ 38) ∧
    keyed.ready .main ∧ keyed.keyView = true ∧ ¬(5 = 5 ∧ Link.main = .main ∧ plant.keyView = true) ∧
    plant.setting 1 = 100 ∧ (10 : Int) ≠ plant.setting 1 ∧ (10 : Int) ≠ plant.setting 34 ∧ (0 : Int) ≠ plant.setting 5 :=
  ⟨plant_ready _, by decide, by decide, keyed_ready _, rfl, by decide, by decide, by decide, by decide, by decide⟩

end Sys2Proof.Tests
end

section
/-! The condition table's ACK (R11): what a request with nothing to hand on comes to, what a change that no limit reads
delivers, and the record after an acknowledgement. -/

namespace Sys2Proof.Machine

/-! ## Finding a record -/

theorem findCode_absent {t : List Record} {c : Code} (h : ∀ q ∈ t, q.code ≠ c) : findCode t c = none :=
  List.find?_eq_none.mpr fun q hq => by simpa using h q hq

/-- A table with distinct codes finds each of its records under its code (R2). -/
theorem findCode_of_mem {t : List Record} {q : Record} (hd : distinct t) (hq : q ∈ t) : findCode t q.code = some q := by
  cases hf : findCode t q.code with
  | none => exact absurd rfl (findCode_none hf q hq)
  | some x =>
    obtain ⟨hx, hc⟩ := findCode_some hf
    rw [unique_of_code hd hq hx hc]

/-! ## A request whose owner hands nothing on -/

/-- A request that hands nothing on leaves its owner's state with the answer stored, in the check mode that the link had
when the request came (R189, R191). -/
theorem run_request_quiet {s z : State} {l : Link} {r : Request} {status : Status} {data : List Byte} (h : s.ready l)
    (hr : ∀ straps, r ≠ .warmReset straps) (hs : serve l r (s.begun l) = ⟨z, [], ⟨status, data⟩⟩) :
    run [.lkRequest l r] s = .next (z.answered l (s.checkMode l) status data) := by
  rw [run_request h hr, hs, settle_nil, begun_checkMode]

/-! ## A change that moves no limit -/

/-- Limits that stand deliver nothing (R41). -/
@[simp] theorem deliveries_self (a : Limits) : deliveries a a = [] := by simp [deliveries]

@[simp] theorem ask_limits (s : State) (b : Option Record) (a : Record) : (s.ask b a).limits = s.limits := by rw [ask_eq]

/-- A change that leaves a record's code, class and effects replaces the record, asks for attention, and moves no limit
(R25, R33, R40). -/
theorem changeRecord_quiet {s : State} {q r : Record} (hs : s.limitsAgree) (hq : q ∈ s.table) (hc : r.code = q.code)
    (hk : r.cls = q.cls) (he : r.eff = q.eff) :
    changeRecord q r s = ({ s.ask (some q) r with table := replaceRecord r s.table }, []) := by
  obtain ⟨hd, hl⟩ := hs
  have hr : resolve (replaceRecord r s.table) = (s.ask (some q) r).limits := by
    rw [resolve_replace hd hq hc hk he, ask_limits, hl]
  simp only [changeRecord, State.withTable, hr, deliveries_self]

/-! ## The record after an ACK (R11) -/

/-- An acknowledged record goes to CLEARING where it is LEVEL without its cause, with the hold-off it held or that of its
class, and to ACKED otherwise (R11, R13). -/
theorem acked_eq (s : State) (l : Link) (q : Record) :
    acked s l q =
      { q with
        state := if q.mode = .level ∧ q.cause = false then .clearing else .acked
        holdoff := if q.mode = .level ∧ q.cause = false then some (q.holdoff.getD (s.settingNat (holdoffId q.cls)))
          else q.holdoff
        lastChange := s.uptime, unread := q.unread.set l.other true } := by
  by_cases h : q.mode = .level ∧ q.cause = false
  · simp only [acked, enterClearing, marksAfter, if_pos h]
  · simp only [acked, marksAfter, if_neg h]

/-- An ACK reads the uptime and the settings alone, which the beginning of its request leaves. -/
theorem acked_begun (s : State) (k l : Link) (q : Record) : acked (s.begun k) l q = acked s l q := by
  simp only [acked_eq, State.settingNat, begun_setting, begun_uptime]

/-- An ACK leaves what the limits read of a record (R33). -/
theorem acked_seen (s : State) (l : Link) (q : Record) : (acked s l q).seen = q.seen := by rw [acked_eq]; rfl

/-! ## ACK as its owner serves it (R11) -/

theorem serveAck_absent {s : State} {c : Code} (l : Link) (h : ∀ q ∈ s.table, q.code ≠ c) :
    serveAck l c s = Served.refused s .notFound := by
  simp only [serveAck, findCode_absent h]

/-- A record that an earlier ACK took out of ACTIVE is read, not changed. -/
theorem serveAck_not_active {s : State} {q : Record} (l : Link) (hd : distinct s.table) (hq : q ∈ s.table)
    (ha : q.state ≠ .active) : serveAck l q.code s = Served.read s (named (recStateIndex q.state)) := by
  simp only [serveAck, findCode_of_mem hd hq, if_neg ha]

/-- An ACTIVE record is acknowledged with nothing to deliver. -/
theorem serveAck_active {s : State} {q : Record} (l : Link) (hs : s.limitsAgree) (hq : q ∈ s.table)
    (ha : q.state = .active) :
    serveAck l q.code s =
      ⟨{ s.ask (some q) (acked s l q) with table := replaceRecord (acked s l q) s.table }, [],
        ⟨.done, named (recStateIndex (acked s l q).state)⟩⟩ := by
  have hseen := acked_seen s l q
  simp only [Record.seen, Prod.mk.injEq] at hseen
  obtain ⟨hc, hk, he⟩ := hseen
  simp only [serveAck, findCode_of_mem hs.1 hq, if_pos ha, changeRecord_quiet hs hq hc hk he, Served.did]

/-! ## The command -/

/-- An ACK whose owner hands nothing on comes to the owner's state with the answer stored. -/
theorem exec_ack_quiet {s z : State} {l : Link} {c : Code} {status : Status} {data : List Byte} (h : s.ready l)
    (hs : serveAck l c (s.begun l) = ⟨z, [], ⟨status, data⟩⟩) :
    exec (.ack l c) s = .next (z.answered l (s.checkMode l) status data) :=
  (exec_eq (.ack l c) s).trans (run_request_quiet h nofun hs)

theorem exec_ack_not_active {s : State} {l : Link} {q : Record} (h : s.ready l) (hd : distinct s.table)
    (hq : q ∈ s.table) (ha : q.state ≠ .active) :
    exec (.ack l q.code) s = .next (s.replies l .done (named (recStateIndex q.state))) :=
  exec_ack_quiet h (serveAck_not_active l (by rwa [begun_table]) (by rwa [begun_table]) ha)

theorem exec_ack_active {s : State} {l : Link} {q : Record} (h : s.ready l) (hs : s.limitsAgree) (hq : q ∈ s.table)
    (ha : q.state = .active) :
    exec (.ack l q.code) s =
      .next (({ (s.begun l).ask (some q) (acked s l q) with table := replaceRecord (acked s l q) s.table }).answered l
        (s.checkMode l) .done (named (recStateIndex (acked s l q).state))) := by
  have hb : (s.begun l).limitsAgree := by rwa [limitsAgree_iff, begun_table, begun_limits]
  have hserve := serveAck_active l hb (by rwa [begun_table]) ha
  rw [acked_begun, begun_table] at hserve
  exact exec_ack_quiet h hserve

/-- Settles O36, by the three ways ACK is served: no record of the code, an ACTIVE one, and one already acknowledged. -/
theorem ackAcknowledges : Obligations.AckAcknowledges := by
  intro s l c hready _ hlimits
  refine ⟨fun habsent => exec_ack_quiet hready (serveAck_absent l (by rwa [begun_table])), ?_⟩
  rintro q hq rfl
  refine ⟨fun hactive => ?active, fun hacked => ?acked, fun hclearing => ?clearing⟩
  case active =>
    have hexec := exec_ack_active hready hlimits hq hactive
    have hanswer : recStateIndex (acked s l q).state = if q.mode = .level ∧ q.cause = false then 2 else 1 := by
      rw [acked_eq]
      exact apply_ite recStateIndex _ _ _
    rw [hanswer, acked_eq] at hexec
    exact hexec
  case acked =>
    have hexec := exec_ack_not_active hready hlimits.1 hq (by simp [hacked])
    rwa [hacked] at hexec
  case clearing =>
    have hexec := exec_ack_not_active hready hlimits.1 hq (by simp [hclearing])
    rwa [hclearing] at hexec

end Sys2Proof.Machine
end

section
/-! BIND and UNBIND (R46, R47): what a slot's replacement hands over, and each request as the reaction unit serves it. -/

namespace Sys2Proof.Machine

/-! ## The index that a request names -/

theorem indexOf_val {n : Nat} (k : Fin n) : indexOf n k.val = some k := dif_pos k.isLt

theorem indexOf_eq_none {n k : Nat} (h : n ≤ k) : indexOf n k = none := dif_neg (Nat.not_lt.mpr h)

/-! ## A request that its owner carries out -/

/-- The outcome of a request is that of what its owner serves: state, events and answer (R189, R191). -/
theorem run_request_carriesOut {s z : State} {l : Link} {r : Request} {evs : List Ev} {status : Status}
    {data : List Byte} (h : s.ready l) (hr : ∀ straps, r ≠ .warmReset straps)
    (hs : serve l r (s.begun l) = ⟨z, evs, ⟨status, data⟩⟩) :
    run [.lkRequest l r] s = s.carriesOut l z evs status data := by
  rw [run_request h hr, hs, begun_checkMode, State.carriesOut]

/-! ## The reaction boost set (R45, R52) -/

/-- A slot without a pending action holds no loop in the set. -/
theorem boosts_of_not_pending {v : Slot} (h : v.pending = none) : v.boosts = 0 := by simp [Slot.boosts, h]

/-- An unbound slot has no pending action (R45). -/
theorem pending_none_of_unbound {v : Slot} (hv : v.sound) (h : v.bound = none) : v.pending = none := by
  rw [hv.unbound h, Slot.unbound]

/-- The set depends on what each slot holds in it alone. -/
theorem reactionBoost_congr {v w : Eight Slot} (h : ∀ k, (v.get k).boosts = (w.get k).boosts) :
    reactionBoost v = reactionBoost w := by
  have hlist : ∀ u : Eight Slot, reactionBoost u = eightIndices.foldr (fun k acc => (u.get k).boosts ||| acc) 0 :=
    fun _ => rfl
  simp only [hlist, h]

/-- Replacing a slot by one that holds the same loops leaves the set. -/
theorem reactionBoost_set {v : Eight Slot} {k : Fin 8} {x : Slot} (h : x.boosts = (v.get k).boosts) :
    reactionBoost (v.set k x) = reactionBoost v := by
  refine reactionBoost_congr fun j => ?_
  rw [Eight.get_set]
  split
  next hkj => rw [h, hkj]
  next => rfl

/-- A slot replaced by one that holds the same loops hands nothing over. -/
theorem setSlot_quiet {s : State} {k : Fin 8} {x : Slot} (h : x.boosts = (s.slots.get k).boosts) :
    setSlot k x s = ({ s with slots := s.slots.set k x }, []) := by
  rw [setSlot, boostHandover, reactionBoost_set h, if_pos rfl]

/-! ## BIND (R46) -/

/-- The actions that wait are those other than ESCALATE. -/
theorem action_ne_escalate_iff (a : Action) : a ≠ .escalate ↔ a = .autoRetire ∨ a = .coolBoost := by
  cases a <;> simp

theorem boundSlot_eq (c : Code) (a : Action) (loops : LoopSet) (delay count : Nat) :
    boundSlot c a loops delay count =
      { bound := some c, action := some a, loops := if a = .coolBoost then some loops else none
        delay := if a = .autoRetire ∨ a = .coolBoost then some delay else none, count := count, pending := none
        last := .none } := by
  simp only [boundSlot, ← action_ne_escalate_iff, ite_not]

section
variable {s : State} {k : Fin 8} {c : Code} {a : Action} {loops : LoopSet} {delay count : Nat}

theorem serveBind_no_slot {slot : Nat} (h : 7 < slot) :
    serveBind slot c a loops delay count s = Served.refused s .badValue := by
  simp only [serveBind, indexOf_eq_none h]

theorem serveBind_bound (h : (s.slots.get k).bound.isSome = true) :
    serveBind k.val c a loops delay count s = Served.refused s .refusedState := by
  simp only [serveBind, indexOf_val, if_pos h]

/-- The checks on the operands all answer BAD_VALUE, so they count as one. -/
theorem serveBind_unbound (h : (s.slots.get k).bound = none) :
    serveBind k.val c a loops delay count s =
      if count = 0 ∨ 15 < count ∨ ((a = .autoRetire ∨ a = .coolBoost) ∧ (delay = 0 ∨ 600 < delay)) ∨
          (a = .coolBoost ∧ loops = 0) then
        Served.refused s .badValue
      else Served.did (setSlot k (boundSlot c a loops delay count) s) .done [] := by
  simp only [serveBind, indexOf_val, h, Option.isSome_none, Bool.false_eq_true, if_false, action_ne_escalate_iff,
    Nat.lt_one_iff, ite_or]

/-- A bound slot fires nothing, so no loop enters the reaction boost set. -/
theorem setSlot_boundSlot (hv : (s.slots.get k).sound) (h : (s.slots.get k).bound = none) :
    setSlot k (boundSlot c a loops delay count) s =
      ({ s with slots := s.slots.set k (boundSlot c a loops delay count) }, []) := by
  have hold : (s.slots.get k).boosts = 0 := boosts_of_not_pending (pending_none_of_unbound hv h)
  have hnew : (boundSlot c a loops delay count).boosts = 0 := boosts_of_not_pending rfl
  exact setSlot_quiet (hnew.trans hold.symm)

end

/-- A BIND that hands nothing on comes to the reaction unit's state with the answer stored. -/
theorem exec_bind_quiet {s z : State} {l : Link} {slot : Nat} {c : Code} {a : Action} {loops : LoopSet}
    {delay count : Nat} {status : Status} {data : List Byte} (h : s.ready l)
    (hs : serveBind slot c a loops delay count (s.begun l) = ⟨z, [], ⟨status, data⟩⟩) :
    exec (.bind l slot c a loops delay count) s = .next (z.answered l (s.checkMode l) status data) :=
  (exec_eq (.bind l slot c a loops delay count) s).trans (run_request_quiet h nofun hs)

/-! ## UNBIND (R47) -/

section
variable {s : State} {k : Fin 8}

theorem serveUnbind_no_slot {slot : Nat} (h : 7 < slot) : serveUnbind slot s = Served.refused s .badValue := by
  simp only [serveUnbind, indexOf_eq_none h]

theorem serveUnbind_unbound (h : (s.slots.get k).bound = none) : serveUnbind k.val s = Served.refused s .done := by
  simp only [serveUnbind, indexOf_val, if_pos h]

/-- A bound slot is emptied; its last outcome is CANCELLED where an action was pending, and stays otherwise. -/
theorem serveUnbind_bound (h : (s.slots.get k).bound.isSome = true) :
    serveUnbind k.val s =
      Served.did
        (setSlot k
          { bound := none, action := none, loops := none, delay := none, count := 0, pending := none
            last := if (s.slots.get k).pending.isSome then .cancelled else (s.slots.get k).last } s) .done [] := by
  have hbound : (s.slots.get k).bound ≠ none := Option.isSome_iff_ne_none.mp h
  by_cases hpending : (s.slots.get k).pending.isSome = true
  · simp only [serveUnbind, indexOf_val, if_neg hbound, if_pos hpending, Slot.unbound]
  · simp only [serveUnbind, indexOf_val, if_neg hbound, if_neg hpending, Slot.unbound]

end

/-- An UNBIND carries out what the reaction unit serves. -/
theorem exec_unbind {s z : State} {l : Link} {slot : Nat} {evs : List Ev} {status : Status} {data : List Byte}
    (h : s.ready l) (hs : serveUnbind slot (s.begun l) = ⟨z, evs, ⟨status, data⟩⟩) :
    exec (.unbind l slot) s = s.carriesOut l z evs status data :=
  (exec_eq (.unbind l slot) s).trans (run_request_carriesOut h nofun hs)

/-- An UNBIND that changes nothing answers its status. -/
theorem exec_unbind_refused {s : State} {l : Link} {slot : Nat} {status : Status} (h : s.ready l)
    (hs : serveUnbind slot (s.begun l) = Served.refused (s.begun l) status) :
    exec (.unbind l slot) s = .next (s.replies l status []) :=
  (exec_eq (.unbind l slot) s).trans (run_request_quiet h nofun hs)

/-! ## The obligation -/

/-- Settles O40, by the checks of each request in their order; the beginning of a request leaves the slots. -/
theorem bindAndUnbindMoveTheSlot : Obligations.BindAndUnbindMoveTheSlot := by
  refine ⟨fun s l slot c a loops delay count hready => ⟨fun hslot => ?noSlot, ?bind⟩,
    fun s l slot hready => ⟨fun hslot => ?noUnbindSlot, ?unbind⟩⟩
  case noSlot => exact exec_bind_quiet hready (serveBind_no_slot hslot)
  case bind =>
    rintro k rfl hsound
    rw [← begun_slots s l] at hsound ⊢
    refine ⟨fun hbound => ?_, fun hfree hwrong => ?_, fun hfree hfit => ?_⟩
    · exact exec_bind_quiet hready (serveBind_bound hbound)
    · exact exec_bind_quiet hready ((serveBind_unbound hfree).trans (if_pos hwrong))
    · refine exec_bind_quiet hready ((serveBind_unbound hfree).trans ((if_neg hfit).trans ?_))
      rw [setSlot_boundSlot hsound hfree, boundSlot_eq, Served.did]
  case noUnbindSlot => exact exec_unbind_refused hready (serveUnbind_no_slot hslot)
  case unbind =>
    rintro k rfl -
    rw [← begun_slots s l]
    exact ⟨fun hfree => exec_unbind_refused hready (serveUnbind_unbound hfree),
      fun hbound => exec_unbind hready (serveUnbind_bound hbound)⟩

end Sys2Proof.Machine
end

section
/-! The shares of a commanded total (R75, R76): the floors and the remainder together come to C, and no lane receives more
than its headroom. -/

namespace Sys2Proof.Machine

/-- 1 for a lane that the remainder can reach: a lane of A whose share stands below its headroom (R76). -/
def roomFor (inA : Bool) (h share : Nat) : Nat := if inA ∧ share < h then 1 else 0

/-- Every lane's floored share (R75). -/
def floored (headroom : Four Nat) (c : Nat) : Four Nat :=
  Four.ofFn fun n => flooredShare c (sumFour headroom) (headroom.get n)

/-- Every lane's floored share with the room that the lane has above it. -/
def flooredWithRoom (available : LaneSet) (headroom : Four Nat) (c : Nat) : Four Nat :=
  Four.ofFn fun n =>
    (floored headroom c).get n + roomFor (hasBit available n.val) (headroom.get n) ((floored headroom c).get n)

/-! ## One lane -/

theorem flooredShare_le {c total : Nat} (hc : c ≤ total) (h : Nat) : flooredShare c total h ≤ h := by
  unfold flooredShare
  split
  · exact Nat.zero_le h
  · exact Nat.div_le_of_le_mul (Nat.mul_le_mul_right h hc)

/-- The floor takes no more than the lane's part of C. -/
theorem mul_flooredShare_le (c total h : Nat) : total * flooredShare c total h ≤ c * h := by
  unfold flooredShare
  split
  · simp
  · exact Nat.mul_div_le _ _

/-- What the floor leaves of a lane's part of C fits in the room for 1 kW; a lane without room loses nothing to it. -/
theorem le_mul_flooredShare_add_room {c total h : Nat} {inA : Bool} (hc : c ≤ total) (hout : inA = false → h = 0) :
    c * h ≤ total * (flooredShare c total h + roomFor inA h (flooredShare c total h)) := by
  unfold roomFor
  split
  case isTrue hroom =>
    obtain rfl | hpos := Nat.eq_zero_or_pos total
    · simp [Nat.le_zero.mp hc]
    · simp only [flooredShare, if_neg hpos.ne']
      exact (Nat.lt_mul_div_succ _ hpos).le
  case isFalse hroom =>
    have hfull : h ≤ flooredShare c total h := by
      cases inA with
      | false => simp [hout rfl]
      | true => simpa using hroom
    calc c * h ≤ total * h := Nat.mul_le_mul_right h hc
      _ ≤ total * (flooredShare c total h + 0) := Nat.mul_le_mul_left total hfull

/-- A lane with room takes 1 kW of what is left. -/
theorem spread_eq (inA : Bool) (h share r : Nat) :
    spread inA h share r = (share + min r (roomFor inA h share), r - roomFor inA h share) := by
  unfold spread roomFor
  by_cases hroom : inA = true ∧ share < h
  · obtain rfl | hr := Nat.eq_zero_or_pos r
    · simp
    · obtain ⟨hin, hlow⟩ := hroom
      rw [if_pos ⟨hin, hlow, hr⟩, if_pos ⟨hin, hlow⟩, Nat.min_eq_right hr]
  · rw [if_neg fun ⟨hin, hlow, _⟩ => hroom ⟨hin, hlow⟩, if_neg hroom]
    simp

theorem spread_le {h share : Nat} (hshare : share ≤ h) (inA : Bool) (r : Nat) : (spread inA h share r).1 ≤ h := by
  unfold spread
  split
  · dsimp only; omega
  · exact hshare

/-! ## The four shares -/

/-- Each share is the lane's floored share, after the remainder has come to the lane. -/
theorem sharesOf_get (available : LaneSet) (headroom : Four Nat) (total c : Nat) (n : Fin 4) :
    ∃ r, (sharesOf available headroom total c).get n =
      (spread (hasBit available n.val) (headroom.get n) (flooredShare c total (headroom.get n)) r).1 := by
  match n with
  | 0 => exact ⟨_, rfl⟩
  | 1 => exact ⟨_, rfl⟩
  | 2 => exact ⟨_, rfl⟩
  | 3 => exact ⟨_, rfl⟩

theorem sharesOf_get_le {total c : Nat} (hc : c ≤ total) (available : LaneSet) (headroom : Four Nat) (n : Fin 4) :
    (sharesOf available headroom total c).get n ≤ headroom.get n := by
  obtain ⟨r, hr⟩ := sharesOf_get available headroom total c n
  rw [hr]
  exact spread_le (flooredShare_le hc _) _ r

theorem sumFour_mul_mono {a b : Nat} {v w : Four Nat} (h : ∀ n : Fin 4, a * v.get n ≤ b * w.get n) :
    a * sumFour v ≤ b * sumFour w := by
  have h0 : a * v.x0 ≤ b * w.x0 := h 0
  have h1 : a * v.x1 ≤ b * w.x1 := h 1
  have h2 : a * v.x2 ≤ b * w.x2 := h 2
  have h3 : a * v.x3 ≤ b * w.x3 := h 3
  simp only [sumFour, Nat.mul_add]
  omega

/-- The floored shares together do not exceed C. -/
theorem sumFour_floored_le (headroom : Four Nat) (c : Nat) : sumFour (floored headroom c) ≤ c := by
  obtain hzero | hpos := Nat.eq_zero_or_pos (sumFour headroom)
  · simp only [floored, flooredShare, if_pos hzero]
    exact Nat.zero_le c
  · refine Nat.le_of_mul_le_mul_left ?_ hpos
    rw [Nat.mul_comm _ c]
    refine sumFour_mul_mono fun n => ?_
    rw [floored, Four.get_ofFn]
    exact mul_flooredShare_le _ _ _

/-- What the floors leave of C fits in the room that the lanes of A have (R76). -/
theorem le_sumFour_flooredWithRoom {available : LaneSet} {headroom : Four Nat} {c : Nat} (hc : c ≤ sumFour headroom)
    (hout : ∀ n : Fin 4, hasBit available n.val = false → headroom.get n = 0) :
    c ≤ sumFour (flooredWithRoom available headroom c) := by
  obtain hzero | hpos := Nat.eq_zero_or_pos (sumFour headroom)
  · omega
  · refine Nat.le_of_mul_le_mul_left ?_ hpos
    rw [Nat.mul_comm _ c]
    refine sumFour_mul_mono fun n => ?_
    rw [flooredWithRoom, Four.get_ofFn, floored, Four.get_ofFn]
    exact le_mul_flooredShare_add_room hc (hout n)

/-- The shares sum to C: the distribution of R76 leaves nothing over. -/
theorem sumFour_sharesOf {available : LaneSet} {headroom : Four Nat} {c : Nat} (hc : c ≤ sumFour headroom)
    (hout : ∀ n : Fin 4, hasBit available n.val = false → headroom.get n = 0) :
    sumFour (sharesOf available headroom (sumFour headroom) c) = c := by
  have hfloor := sumFour_floored_le headroom c
  have hroom := le_sumFour_flooredWithRoom hc hout
  simp only [sumFour, floored, flooredWithRoom, Four.ofFn, Four.get, Fin.val_zero, Fin.val_one, Fin.val_two,
    show ((3 : Fin 4) : Nat) = 3 from rfl] at hfloor hroom
  simp only [sharesOf, spread_eq, sumFour, Four.ofFn, Four.get]
  omega

end Sys2Proof.Machine
end

section
/-! What the blocks hand one another: no event of theirs sets off a request, a reset or the end of the ramp timer. -/

namespace Sys2Proof.Machine

/-- The events that the blocks hand one another while no frame, request or reset is under way: every event but those of
the links and of the resets, the ramp timer's end, and an expiry that waits for its turn. The silence timer's end is one
of them, as the expiries of the other timers are. -/
def Ev.follows : Ev → Bool
  | .euRampStep | .due _ | .coldStart _ | .lineAssert | .lineRelease _ => false
  | .lkKey _ | .lkStart _ _ _ _ | .lkOpen _ _ _ _ | .lkByte _ _ _ | .lkStop _ | .lkPoisonStop _ | .lkRead _ _ => false
  | .lkSend _ _ | .lkReset _ | .lkAttention _ | .lkAttentionSlot _ _ | .lkPayloadDone _ | .lkPayloadCut _ => false
  | .lkRequest _ _ | .lkBegin _ _ | .lkServe _ _ => false
  | _ => true

/-- Every event of a list is one that the blocks hand one another. -/
def AllFollow (evs : List Ev) : Prop := evs.all Ev.follows = true

@[simp] theorem allFollow_nil : AllFollow [] := rfl

@[simp] theorem allFollow_cons {e : Ev} {evs : List Ev} : AllFollow (e :: evs) ↔ e.follows = true ∧ AllFollow evs := by
  simp [AllFollow]

@[simp] theorem allFollow_append {a b : List Ev} : AllFollow (a ++ b) ↔ AllFollow a ∧ AllFollow b := by
  simp [AllFollow]

/-- A choice between two lists follows where each does. -/
@[simp] theorem allFollow_ite {p : Prop} [Decidable p] {a b : List Ev} :
    AllFollow (if p then a else b) ↔ (p → AllFollow a) ∧ (¬p → AllFollow b) := by
  split <;> simp [*]

@[simp] theorem allFollow_ite_snd {α : Type} {p : Prop} [Decidable p] {a b : α × List Ev} :
    AllFollow (if p then a else b).2 ↔ (p → AllFollow a.2) ∧ (¬p → AllFollow b.2) := by
  split <;> simp [*]

theorem allFollow_map {α : Type} {f : α → Ev} (h : ∀ a, (f a).follows = true) (xs : List α) : AllFollow (xs.map f) := by
  simp [AllFollow, h]

/-! ## Handovers and reports -/

@[simp] theorem deliveries_follow (a b : Limits) : AllFollow (deliveries a b) := by
  simp [deliveries, Ev.follows]

@[simp] theorem boostHandover_follow (a b : Eight Slot) : AllFollow (boostHandover a b) := by
  simp [boostHandover, Ev.follows]

@[simp] theorem viewReport_follow (a b : Bool) (r : Raise) : AllFollow (viewReport a b r) := by
  simp [viewReport, Ev.follows]

@[simp] theorem envelopeHandover_follow (a b : Envelope) : AllFollow (envelopeHandover a b) := by
  simp [envelopeHandover, fourIndices, shareHandover, Ev.follows]

@[simp] theorem retirementOwner_follow (c : Code) : AllFollow (retirementOwner c) := by
  simp only [retirementOwner, allFollow_append]
  exact ⟨allFollow_map (fun _ => rfl) _, allFollow_map (fun _ => rfl) _⟩

@[simp] theorem spentRaises_follow (ks : List (Fin 8)) : AllFollow (spentRaises ks) := allFollow_map (fun _ => rfl) ks

@[simp] theorem exits_follow (a b : LaneManager) : AllFollow (exits a b) := allFollow_map (fun _ => rfl) _

@[simp] theorem entries_follow (a b : LaneManager) : AllFollow (entries a b) := allFollow_map (fun _ => rfl) _

@[simp] theorem withTable_follow (t : List Record) (s : State) : AllFollow (State.withTable t s).2 :=
  deliveries_follow _ _

@[simp] theorem setSlot_follow (k : Fin 8) (v : Slot) (s : State) : AllFollow (setSlot k v s).2 :=
  boostHandover_follow _ _

@[simp] theorem setLanes_follow {m : LaneManager} {b a : List Ev} {s : State} :
    AllFollow (setLanes m b a s).2 ↔ AllFollow b ∧ AllFollow a := by
  simp [setLanes, Ev.follows]

@[simp] theorem setCooling_follow {u : Cooling} {a : List Ev} {s : State} :
    AllFollow (setCooling u a s).2 ↔ AllFollow a := by
  simp [setCooling, Ev.follows]

@[simp] theorem setSupply_follow (m : Supply) (s : State) : AllFollow (setSupply m s).2 := by
  simp [setSupply, supplyHandover, Ev.follows]

@[simp] theorem setYaw_follow {r : List Ev} {w : YawWork} {s : State} :
    AllFollow (setYaw r w s).2 ↔ AllFollow r ∧ AllFollow w.2 := by
  have hb : ∀ old now, AllFollow (blockedReport old now) := by
    intro old now
    unfold blockedReport
    split <;> rfl
  simp [setYaw, Yaw.viewLow, hb]

/-! ## Yaw work -/

@[simp] theorem leaveEvents_follow (c : Context) : AllFollow (leaveEvents c) := by simp [leaveEvents, Ev.follows]

@[simp] theorem goneEvents_follow (k : Kind) : AllFollow (goneEvents k) := by simp [goneEvents, Ev.follows]

theorem evalChain_follow (st : List Int) (y : Yaw) (fresh : Bool) (chain : List Context) :
    AllFollow (evalChain st y fresh chain).2 := by
  induction chain generalizing fresh with
  | nil => rfl
  | cons c rest ih =>
    simp only [evalChain]
    split
    · rfl
    · cases c.kind with
      | unwind => simp [ih, Ev.follows]
      | track => rfl
      | park => rfl
      | service => rfl

@[simp] theorem evaluate_follow (st : List Int) (fresh : Bool) (y : Yaw) : AllFollow (y.evaluate st fresh).2 :=
  evalChain_follow st y fresh y.chain

@[simp] theorem insert_follow (st : List Int) (c : Context) (y : Yaw) : AllFollow (y.insert st c).2 := by
  unfold Yaw.insert
  split <;> simp

@[simp] theorem remove_follow (st : List Int) (k : Kind) (y : Yaw) : AllFollow (y.remove st k).2 := by
  unfold Yaw.remove
  split <;> simp

@[simp] theorem rehold_follow (st : List Int) (y : Yaw) : AllFollow (y.rehold st).2 := by
  unfold Yaw.rehold
  split
  · simp
  · dsimp only
    split <;> simp

@[simp] theorem thenDo_follow {w : YawWork} {f : Yaw → YawWork} :
    AllFollow (w.thenDo f).2 ↔ AllFollow w.2 ∧ AllFollow (f w.1).2 := allFollow_append

@[simp] theorem followPark_follow (st : List Int) (y : Yaw) : AllFollow (y.followPark st).2 := by
  simp [Yaw.followPark]

@[simp] theorem atFiltered_follow (st : List Int) (y : Yaw) : AllFollow (y.atFiltered st).2 := by
  unfold Yaw.atFiltered
  split <;> simp

@[simp] theorem atGoal_follow (st : List Int) (y : Yaw) : AllFollow (y.atGoal st).2 := by
  unfold Yaw.atGoal
  split <;> simp

@[simp] theorem atArrival_follow (st : List Int) (y : Yaw) : AllFollow (y.atArrival st).2 := by
  unfold Yaw.atArrival
  repeat' split
  all_goals simp [Ev.follows]

@[simp] theorem watchStall_follow (y : Yaw) : AllFollow y.watchStall.2 := by
  unfold Yaw.watchStall
  repeat' split
  all_goals simp [Ev.follows]

theorem readLine_follow {lines : BitVec 8} {w : YawWork} (h : AllFollow w.2) (n : Fin 8) :
    AllFollow (Yaw.readLine lines w n).2 := by
  simp [Yaw.readLine, Yaw.viewLow, h, Ev.follows]

theorem readLines_follow (lines : BitVec 8) (ns : List (Fin 8)) {w : YawWork} (h : AllFollow w.2) :
    AllFollow (ns.foldl (Yaw.readLine lines) w).2 := by
  induction ns generalizing w with
  | nil => exact h
  | cons n rest ih => exact ih (readLine_follow h n)

/-! ## The table and the reaction unit -/

@[simp] theorem changeRecord_follow (b a : Record) (s : State) : AllFollow (changeRecord b a s).2 :=
  deliveries_follow _ _

@[simp] theorem placeRecord_follow (t : List Record) (r : Record) (s : State) : AllFollow (placeRecord t r s).2 :=
  deliveries_follow _ _

@[simp] theorem retireRecord_follow (c : Code) (s : State) : AllFollow (retireRecord c s).2 := by
  simp [retireRecord, Act.all, Act.andThen, Act.skip, Act.emit, cancelFor]

@[simp] theorem spentIf_follow (k : Fin 8) (v : Slot) (s : State) : AllFollow (spentIf k v s).2 := by
  simp [spentIf, Act.emit, Ev.follows]

@[simp] theorem takeRaise_follow (r : Raise) (s : State) : AllFollow (takeRaise r s).2 := by
  unfold takeRaise
  split
  · simp [reRaise, Act.andThen, offer, Act.emit, Ev.follows]
  · split
    · simp [createIn, Act.andThen, offer, Act.emit, Ev.follows]
    · split
      · simp [createByEviction, Act.all, Act.andThen, Act.skip, offer, Act.emit, cancelFor, Ev.follows]
      · split
        · simp
        · unfold foldRaise
          dsimp only
          split <;> simp [Act.andThen, offer, Act.emit, Ev.follows]

@[simp] theorem fire_follow (k : Fin 8) (c : Code) (s : State) : AllFollow (fire k c s).2 := by
  unfold fire
  dsimp only
  split <;> simp [Act.all, Act.andThen, Act.skip, Act.emit, Ev.follows]

/-! ## Lanes, cooling, wind and heading -/

@[simp] theorem warnReports_follow (n : Fin 4) (tracked : Option Nat) (r : Report) :
    AllFollow (warnReports n tracked r) := by
  simp only [warnReports, allFollow_ite, allFollow_append]
  exact ⟨fun _ => rfl, fun _ => ⟨by split <;> rfl, by split <;> rfl⟩⟩

@[simp] theorem hotRefresh_follow (l : Fin 3) (t : List Record) (old new esc : Bool) (cap : Nat) :
    AllFollow (hotRefresh l t old new esc cap) := by
  unfold hotRefresh
  split <;> simp [Ev.follows]

@[simp] theorem takeUnwindEval_follow (s : State) : AllFollow (takeUnwindEval s).2 := by
  simp [takeUnwindEval, Ev.follows]

@[simp] theorem trackMove_follow (w : Wind) : AllFollow (trackMove w) := by
  unfold trackMove
  split <;> rfl

/-! ## Every event -/

/-- Such an event hands on such events alone; so neither a request nor a second end of the ramp timer comes of one. -/
theorem handle_follow {e : Ev} (h : e.follows = true) (s : State) : AllFollow (handle e s).2 := by
  cases e with
  | ctRaise r => simp [handle]
  | ctPresent r => simp only [handle, takePresent]; split <;> simp
  | ctAbsent c => simp only [handle, takeAbsent]; split <;> simp
  | ctRefresh c cap => simp only [handle, takeRefresh]; split <;> simp
  | ctEscalateStep c => simp only [handle, takeEscalation]; split <;> simp
  | ctEscalateTo c cls cap => simp only [handle, takeEscalation]; split <;> simp
  | ctHoldoffEnd c => simp only [handle, takeHoldoffEnd]; split <;> simp
  | ruOffer c => simp only [handle, takeOffer]; split <;> simp
  | ruAutoRetire k =>
    simp only [handle, takeAutoRetire]
    split
    · split <;> simp [Act.all, Act.andThen, Act.skip]
    · simp
  | ruBoostEnd k =>
    simp only [handle, takeBoostEnd]
    split <;> simp [Act.all, Act.andThen, Act.skip]
  | euLimits d => simp [handle, takeEnvelopeLimits, recomputeFrom, setEnvelope]
  | euLane n running => simp [handle, takeLaneEvent, recomputeFrom, setEnvelope]
  | euTemp n t => simp [handle, takeLaneTemperature, recomputeFrom, setEnvelope]
  | lmExcluded set full => simp [handle, takeExcluded]
  | lmShare n kw => rfl
  | lmSupply st => simp [handle, takeLaneSupply]
  | lmPump p => simp [handle, takeLanePump]
  | lmDemand present => simp [handle, takeLaneDemand]
  | lmReport n bytes =>
    simp only [handle, takeReport]
    split
    · simp [Ev.follows]
    · simp [tripRaises, Ev.follows]
  | lmAct n => simp only [handle, takeAct]; split <;> simp
  | lmReply n => rfl
  | lmEvaluate n => simp [handle, takeEvaluate]
  | lmSilence n =>
    simp only [handle, takeSilence]
    split
    · simp
    · rw [allFollow_cons]
      exact ⟨rfl, by split <;> rfl⟩
  | lmTimeout n k =>
    cases k with
    | precharge => simp [handle, takeTimeout, Ev.follows]
    | sync => simp [handle, takeTimeout, Ev.follows]
    | shed => simp [handle, takeTimeout]
    | reset => simp [handle, takeTimeout, Ev.follows]
  | whPark on full => simp [handle, takePark]
  | whWatch w => cases w <;> simp [handle, takeWatch]
  | whUnwind inChain => simp [handle, takeUnwindEvent]
  | whHeading reading => simp only [handle, takeHeading]; split <;> simp [twistReport, Ev.follows]
  | whVane reading => simp only [handle, takeVane]; split <;> simp [Ev.follows]
  | whMisalign => simp [handle, takeMisalign, Ev.follows]
  | whDwell => simp [handle, takeDwell]
  | whAnemometer pulses => simp [handle, takeAnemometer, Ev.follows]
  | whUnwindEval => simp [handle]
  | ymLimits flags => simp [handle, takeYawLimits]
  | ymSupply st => simp [handle, takeYawSupply]
  | ymHeading heading twist => simp [handle, takeYawHeading]
  | ymFiltered f => simp [handle, takeFiltered]
  | ymMove target d => simp only [handle, takeMove]; split <;> simp
  | ymUnwind goal d => simp [handle, takeUnwind]
  | ymDriveRetired n => simp [handle, takeDriveRetired]
  | ymJogEnd => simp [handle, takeJogEnd]
  | ymFaultLines lines => simp [handle, takeFaultLines, readLines_follow]
  | ymPressure bar => simp [handle, takePressure]
  | ymBrakeTimer => simp only [handle, takeBrakeTimer]; split <;> simp [Ev.follows]
  | ymSettleEnd => simp only [handle, takeSettleEnd]; split <;> simp
  | cuBoost set => simp [handle, takeBoost]
  | cuCommanded kw => simp [handle, takeCommanded]
  | cuLaneDemand yes => simp [handle, takeCoolingDemand]
  | cuSupply st => simp [handle, takeCoolingSupply]
  | cuReaction set => simp [handle, takeReaction]
  | cuPumpRetired l => simp [handle, takePumpRetired]
  | cuSample l reading => simp only [handle, takeSample]; split <;> simp [Ev.follows]
  | cuDerate l valid =>
    simp only [handle, takeDerate]
    split
    · simp [hotReport, Ev.follows]
    · simp [Ev.follows]
  | cuEscalate l => simp only [handle, takeHotEscalation]; split <;> simp [Ev.follows]
  | cuDemand l => simp [handle, takeSampleDemand]
  | cuFan l => rfl
  | cuFlow l seen => simp only [handle, takeFlow]; split <;> simp [Ev.follows]
  | cuPrimeTimeout l => simp only [handle, takePrimeTimeout]; split <;> simp [Ev.follows]
  | smGrid present => simp only [handle, takeGrid]; split <;> simp
  | smSettled => simp only [handle, takeSettled]; split <;> simp
  | smUps reading => simp only [handle, takeUps]; split <;> simp
  | lkSilence => simp only [handle, takeSilenceExpiry]; split <;> simp [Ev.follows]
  | _ => exact nomatch h

end Sys2Proof.Machine
end

section
/-! The ramp step (R73, R77): a queue of events takes one at most, so a RAMP_STEP and an idle millisecond raise C by at
most ramp_up; and the envelope's arithmetic after every step. -/

namespace Sys2Proof.Machine

/-! ## Events that no queued event holds back -/

theorem waitBehind_eq_none {e : Ev} (hdeliver : deliveredTo e = none) (hhand : handedTo e = none) (q : List Ev) :
    waitBehind e q = none := by
  induction q with
  | nil => rfl
  | cons a rest ih => simp [waitBehind, ih, waitsFor, hdeliver, hhand]

/-- The end of the ramp timer is taken before whatever waits. -/
theorem post_euRampStep (rest : List Ev) : post [.euRampStep] rest = .euRampStep :: rest := by
  simp [post, postOne, waitBehind_eq_none (e := .euRampStep) rfl rfl]

/-! ## What an event does to C and to the ramp timer -/

theorem recompute_commanded_le (e : Envelope) : e.recompute.commanded ≤ e.commanded := by
  simp only [Envelope.recompute]
  split
  · assumption
  · exact Nat.le_refl _

/-- A recomputation brings no ramp timer to 0. -/
theorem recompute_ramp_ne {e : Envelope} (h : e.ramp ≠ some 0) : e.recompute.ramp ≠ some 0 := by
  simp only [Envelope.recompute]
  split
  · simp
  · cases hr : e.ramp with
    | none => simp
    | some ms => simpa [hr] using h

/-- C stands or falls, a ramp timer that does not read 0 is not brought to 0, and the settings stand. -/
structure NoRise (s t : State) : Prop where
  commanded : t.eu.commanded ≤ s.eu.commanded
  ramp : s.eu.ramp ≠ some 0 → t.eu.ramp ≠ some 0
  settings : t.settings = s.settings

theorem noRise_recompute {s : State} {e : Envelope} (hc : e.commanded = s.eu.commanded) (hr : e.ramp = s.eu.ramp) :
    NoRise s (recomputeFrom e s).1 :=
  ⟨hc ▸ recompute_commanded_le e, fun h => recompute_ramp_ne (hr ▸ h), rfl⟩

theorem noRise_refl (s : State) : NoRise s s := ⟨Nat.le_refl _, id, rfl⟩

theorem Ev.part_ne_settings (e : Ev) : e.part ≠ .settings := by cases e <;> exact fun h => nomatch h

theorem Ev.part_ne_everything {e : Ev} (h : e.follows = true) : e.part ≠ .everything := by
  cases e with
  | coldStart _ | lineRelease _ | lkServe _ _ => exact nomatch h
  | _ => exact fun h => nomatch h

/-- C rises at the end of the ramp timer alone, and the settings stand while no command is under way. -/
theorem handle_noRise {e : Ev} (h : e.follows = true) (s : State) : NoRise s (handle e s).1 := by
  have hsettings : (handle e s).1.settings = s.settings :=
    touched_settings (handle_touches e s) e.part_ne_settings (Ev.part_ne_everything h)
  by_cases hp : e.part = .eu
  · cases e with
    | euLimits d =>
      simp only [handle, takeEnvelopeLimits]
      split
      · exact noRise_recompute rfl rfl
      · exact ⟨Nat.le_refl _, id, rfl⟩
    | euLane n running =>
      simp only [handle, takeLaneEvent]
      split
      · exact noRise_refl s
      · exact noRise_recompute rfl rfl
    | euTemp n t =>
      simp only [handle, takeLaneTemperature]
      split
      · exact noRise_refl s
      · exact noRise_recompute rfl rfl
    | euRampStep => exact nomatch h
    | _ => exact nomatch hp
  · have heu : (handle e s).1.eu = s.eu := touched_eu (handle_touches e s) hp (Ev.part_ne_everything h)
    exact ⟨heu ▸ Nat.le_refl _, fun hr => heu ▸ hr, hsettings⟩

/-- A ramp step raises C by at most ramp_up, and the timer starts afresh or stops (R73). -/
theorem handle_euRampStep (s : State) :
    (handle .euRampStep s).1.eu.commanded ≤ s.eu.commanded + s.settingNat 1 ∧
    (handle .euRampStep s).1.eu.ramp ≠ some 0 ∧ (handle .euRampStep s).1.settings = s.settings ∧
    AllFollow (handle .euRampStep s).2 := by
  simp only [handle, takeRampStep]
  split
  case h_1 hramp => exact ⟨Nat.le_add_right _ _, by simp [hramp], rfl, rfl⟩
  case h_2 =>
    refine ⟨Nat.min_le_right _ _, ?_, rfl, envelopeHandover_follow _ _⟩
    simp only [setEnvelope, Envelope.step]
    split <;> simp

/-- Of the expiries that the clock brings, RAMP_STEP alone is the end of the ramp timer. -/
theorem expiryEvent_follow {i : Instr} (h : i ≠ .rampStep) : AllFollow (expiryEvent i) := by
  cases i with
  | rampStep => exact absurd rfl h
  | _ => rfl

/-! ## One ramp step in a queue -/

/-- An event that the blocks hand one another, or an expiry that waits for its turn. -/
def Ev.waits (e : Ev) : Prop := e.follows = true ∨ ∃ i, e = .due i

/-- A queue in which the ramp timer's end does not stand. -/
def Waiting (q : List Ev) : Prop := ∀ e ∈ q, e.waits

theorem Waiting.tail {e : Ev} {q : List Ev} (h : Waiting (e :: q)) : Waiting q := fun x hx => h x (.tail _ hx)

theorem waiting_post {evs rest : List Ev} (hevs : AllFollow evs) (hrest : Waiting rest) : Waiting (post evs rest) :=
  fun x hx => (mem_post hx).elim (fun hx => .inl (List.all_eq_true.mp hevs x hx)) (hrest x)

/-- How far the one ramp step of a queue of events has come, with C at `c` and the settings `st` before the queue: not
yet due, about to be taken, or behind, with its timer afresh or stopped. -/
inductive RampBound (st : List Int) (c : Nat) (s : State) : List Ev → Prop
  | before {q : List Ev} (commanded : s.eu.commanded ≤ c) (settings : s.settings = st) (waiting : Waiting q) :
      RampBound st c s q
  | now {q : List Ev} (commanded : s.eu.commanded ≤ c) (settings : s.settings = st) (waiting : Waiting q) :
      RampBound st c s (.euRampStep :: q)
  | behind {q : List Ev} (commanded : s.eu.commanded ≤ c + (settingOf st 1).toNat) (ramp : s.eu.ramp ≠ some 0)
      (settings : s.settings = st) (waiting : Waiting q) : RampBound st c s q

theorem RampBound.commanded_le {st : List Int} {c : Nat} {s : State} {q : List Ev} (h : RampBound st c s q) :
    s.eu.commanded ≤ c + (settingOf st 1).toNat := by
  cases h with
  | before hc _ _ => omega
  | now hc _ _ => omega
  | behind hc _ _ _ => exact hc

/-- An event that is not the ramp timer's end leaves the bound. -/
theorem rampBound_of_follows {st : List Int} {c : Nat} {s : State} {e : Ev} {rest : List Ev} (he : e.follows = true)
    (h : RampBound st c s (e :: rest)) : RampBound st c (handle e s).1 (post (handle e s).2 rest) := by
  have hno := handle_noRise he s
  have hpost : Waiting rest → Waiting (post (handle e s).2 rest) := waiting_post (handle_follow he s)
  cases h with
  | before hc hst hw =>
    exact .before (hno.commanded.trans hc) (hno.settings.trans hst) (hpost hw.tail)
  | now hc hst hw => exact nomatch he
  | behind hc hr hst hw =>
    exact .behind (hno.commanded.trans hc) (hno.ramp hr) (hno.settings.trans hst) (hpost hw.tail)

/-- A waiting expiry leaves the bound: RAMP_STEP's is taken up only while the timer reads 0, so once. -/
theorem rampBound_of_due {st : List Int} {c : Nat} {s : State} {i : Instr} {rest : List Ev}
    (h : RampBound st c s (.due i :: rest)) :
    RampBound st c (handle (.due i) s).1 (post (handle (.due i) s).2 rest) := by
  show RampBound st c s (post (if dueNow s i then expiryEvent i else []) rest)
  by_cases hi : i = .rampStep ∧ s.eu.ramp = some 0
  · obtain ⟨rfl, hramp⟩ := hi
    rw [if_pos (by simp [dueNow, hramp]), expiryEvent, post_euRampStep]
    cases h with
    | before hc hst hw => exact .now hc hst hw.tail
    | behind hc hr hst hw => exact absurd hramp hr
  · have hevs : AllFollow (if dueNow s i then expiryEvent i else []) := by
      by_cases hs : i = .rampStep
      · subst hs
        rw [if_neg (by simpa [dueNow] using hi)]
        rfl
      · exact allFollow_ite.mpr ⟨fun _ => expiryEvent_follow hs, fun _ => rfl⟩
    cases h with
    | before hc hst hw => exact .before hc hst (waiting_post hevs hw.tail)
    | behind hc hr hst hw => exact .behind hc hr hst (waiting_post hevs hw.tail)

/-- Every event leaves the bound. -/
theorem rampBound_handle {st : List Int} {c : Nat} {s : State} {e : Ev} {rest : List Ev}
    (h : RampBound st c s (e :: rest)) : RampBound st c (handle e s).1 (post (handle e s).2 rest) := by
  have waits : e.waits → RampBound st c (handle e s).1 (post (handle e s).2 rest) := by
    rintro (he | ⟨i, rfl⟩)
    · exact rampBound_of_follows he h
    · exact rampBound_of_due h
  cases h with
  | before hc hst hw => exact waits (hw e (.head _))
  | behind hc hr hst hw => exact waits (hw e (.head _))
  | now hc hst hw =>
    obtain ⟨hrise, hramp, hsettings, hevs⟩ := handle_euRampStep s
    refine .behind (hrise.trans ?_) hramp (hsettings.trans hst) (waiting_post hevs hw)
    rw [State.settingNat, State.setting, hst]
    exact Nat.add_le_add_right hc _

/-- A run of events with one ramp step at most raises C by at most ramp_up. -/
theorem settle_commanded_le {st : List Int} {c : Nat} : ∀ {n : Nat} {q : List Ev} {s : State}, RampBound st c s q →
    (settle n q s).eu.commanded ≤ c + (settingOf st 1).toNat := by
  intro n
  induction n with
  | zero =>
    intro q s h
    cases q with
    | nil => exact h.commanded_le
    | cons e rest => exact h.commanded_le
  | succ n ih =>
    intro q s h
    cases q with
    | nil => exact h.commanded_le
    | cons e rest => exact ih (rampBound_handle h)

theorem run_commanded_le {s t : State} {evs : List Ev} {st : List Int} {c : Nat} (hu : s.unsettled = [])
    (h : RampBound st c s evs) (hrun : run evs s = .next t) : t.eu.commanded ≤ c + (settingOf st 1).toNat := by
  simp only [run, settled, hu, List.nil_append, State.unsettled_nil hu, Host.Outcome.next.injEq] at hrun
  exact hrun ▸ settle_commanded_le h

/-! ## The clock -/

theorem advance_commanded (s : State) : s.advance.eu.commanded = s.eu.commanded := by
  unfold State.advance
  dsimp only
  split <;> rfl

theorem advance_unsettled (s : State) : s.advance.unsettled = s.unsettled := by
  unfold State.advance
  dsimp only
  split <;> rfl

/-- An idle millisecond raises C by at most ramp_up, in whatever order its expiries are taken. -/
theorem tick_commanded_le {s t : State} (hu : s.unsettled = []) (h : tick s = .next t) :
    t.eu.commanded ≤ s.eu.commanded + s.settingNat 1 := by
  simp only [tick] at h
  refine run_commanded_le ?_ ?_ h
  · exact (advance_unsettled s).trans hu
  · refine .before (advance_commanded s).le (advance_settings s) fun e he => ?_
    obtain ⟨i, -, rfl⟩ := List.mem_map.mp he
    exact .inr ⟨i, rfl⟩

theorem exec_rampStep_commanded_le {s t : State} (hu : s.unsettled = []) (h : exec .rampStep s = .next t) :
    t.eu.commanded ≤ s.eu.commanded + s.settingNat 1 :=
  run_commanded_le hu (.now (q := []) (Nat.le_refl _) rfl nofun) ((exec_eq .rampStep s).symm.trans h)

/-! ## The arithmetic of a sound envelope -/

/-- A lane outside A has no headroom, so it receives no share (R67). -/
theorem headroom_eq_zero {e : Envelope} (h : e.sound) {n : Fin 4} (hout : hasBit e.available n.val = false) :
    e.headroom.get n = 0 := by
  simp [h.headroom n, headroomOf, hout]

theorem commanded_le_total {e : Envelope} (h : e.sound) : e.commanded ≤ sumFour e.headroom := by
  have htarget := h.target ▸ h.commanded
  have htotal : e.total = sumFour e.headroom := h.total
  omega

theorem share_le_headroom {e : Envelope} (h : e.sound) (n : Fin 4) : e.share.get n ≤ e.headroom.get n := by
  have htotal : e.total = sumFour e.headroom := h.total
  rw [h.share]
  exact sharesOf_get_le (htotal ▸ commanded_le_total h) _ _ n

theorem sum_share {e : Envelope} (h : e.sound) : sumFour e.share = e.commanded := by
  have htotal : e.total = sumFour e.headroom := h.total
  rw [h.share, htotal]
  exact sumFour_sharesOf (commanded_le_total h) fun n => headroom_eq_zero h

/-- Every step keeps the envelope sound. -/
theorem step_keeps_envelope {s t : State} (h : s.eu.sound) (hstep : step s = .next t) : t.eu.sound :=
  step_keeps (P := fun s => s.eu.sound) (fun _ _ h => h) (fun e _ h => handle_keeps_envelope h e) (fun _ _ h => h)
    (fun _ _ h => advance_keeps_envelope h) hstep h

/-! ## The obligation -/

/-- Settles O15: the arithmetic follows from what every step keeps of the envelope, and a queue takes one ramp step at
most. -/
theorem envelopeArithmeticHolds : Obligations.EnvelopeArithmeticHolds := by
  refine ⟨fun s t hs hstep => ?arithmetic, fun s t hu hexec => exec_rampStep_commanded_le hu hexec,
    fun s t hu hp hstep => ?idle⟩
  case arithmetic =>
    have ht := step_keeps_envelope hs hstep
    refine ⟨sum_share ht, ht.target ▸ ht.commanded, fun n => ⟨share_le_headroom ht n, fun hout => ?_⟩⟩
    exact Nat.le_zero.mp (headroom_eq_zero ht hout ▸ share_le_headroom ht n)
  case idle =>
    rw [step, hp] at hstep
    exact tick_commanded_le hu hstep

end Sys2Proof.Machine
end

section
/-! IDENT (R196): the part's codes and its strap address, on either link. -/

namespace Sys2Proof.Machine

/-- A request that its owner answers with data and nothing else leaves the state its frame leaves, with the answer
stored (R189). -/
theorem run_request_read {s : State} {l : Link} {r : Request} {data : List Byte} (h : s.ready l)
    (hr : ∀ straps, r ≠ .warmReset straps) (hs : serve l r (s.begun l) = Served.read (s.begun l) data) :
    run [.lkRequest l r] s = .next (s.replies l .done data) :=
  run_request_quiet h hr hs

/-- The items of IDENT are the three codes of the part and the strap address, which the beginning of the request
leaves (R196). -/
theorem serve_ident_begun (s : State) (k l : Link) :
    serve k .ident (s.begun l) =
      Served.read (s.begun l) (word 0x4B4C ++ word 0x0316 ++ word 1 ++ word s.address) := by
  simp only [serve, serveIdent, begun_address, Config.vendorCode, Config.partCode, Config.revision]

/-- Settles O30: the command is one request, which its owner answers from the state that the frame leaves. -/
theorem identNamesThePart : Obligations.IdentNamesThePart := fun s l hready =>
  (exec_eq (.ident l) s).trans (run_request_read hready nofun (serve_ident_begun s l l))

end Sys2Proof.Machine
end

section
/-! How what a run of events keeps passes to a command and to an idle millisecond; what a request and a reset hand on;
and the events that a step leaves over. -/

namespace Sys2Proof.Machine

/-! ## What a command and an idle millisecond keep -/

/-- In a part that has nothing left over, every command is the run of its one event. -/
theorem exec_run {s : State} (hu : s.unsettled = []) (c : Instr) : exec c s = run [firstEvent c] s := by
  rw [exec_eq]
  split
  · rw [State.unsettled_nil hu]
  · rfl

/-- What the events that a command can set off keep, the command keeps. -/
theorem exec_keeps {P : State → Prop} {Q : Ev → Prop} (left : ∀ s evs, P s → (∀ e ∈ evs, Q e) → P { s with unsettled := evs })
    (one : ∀ e s, Q e → P s → P (handle e s).1 ∧ ∀ x ∈ (handle e s).2, Q x) {c : Instr} {s t : State}
    (hu : s.unsettled = []) (hq : Q (firstEvent c)) (h : exec c s = .next t) (hp : P s) : P t := by
  rw [exec_run hu] at h
  exact run_keeps left one h (by simp [hu]) (by simpa using hq) hp

/-- What the expiries of an idle millisecond keep, the idle millisecond keeps. -/
theorem tick_keeps {P : State → Prop} {Q : Ev → Prop} (left : ∀ s evs, P s → (∀ e ∈ evs, Q e) → P { s with unsettled := evs })
    (one : ∀ e s, Q e → P s → P (handle e s).1 ∧ ∀ x ∈ (handle e s).2, Q x) {s t : State}
    (hu : ∀ e ∈ s.unsettled, Q e) (hq : ∀ i, Q (.due i)) (h : tick s = .next t)
    (hp : ∀ n, P { s.advance with arrivals := n }) : P t := by
  simp only [tick] at h
  refine run_keeps left one h ?_ (fun e he => ?_) (hp _)
  · exact (advance_unsettled s).symm ▸ hu
  · obtain ⟨i, -, rfl⟩ := List.mem_map.mp he
    exact hq i

/-! ## What a step leaves over -/

theorem touched_unsettled {p : Part} {s t : State} (h : touched p s t) (hp : p ≠ .everything) :
    t.unsettled = s.unsettled := by
  cases p with
  | table => simpa [State.apartFromTable] using congrArg State.unsettled h
  | everything => exact absurd rfl hp
  | _ => simp only [touched] at h; rw [h]

theorem takeWarmStart_unsettled (d : Nat) (straps : Fin 4) (s : State) :
    (takeWarmStart d straps s).1.unsettled = s.unsettled := by
  simp only [takeWarmStart, State.warmValues]
  rw [askRetained_eq]

/-- No event adds to what an earlier step left over; COLD_POWER_UP drops it. -/
theorem handle_unsettled (e : Ev) (s : State) :
    (handle e s).1.unsettled = s.unsettled ∨ (handle e s).1.unsettled = [] := by
  by_cases he : e.part = .everything
  · cases e with
    | lkServe l r =>
      refine .inl ?_
      simp only [handle, takeServe]
      split
      · exact takeWarmStart_unsettled (restartDetail l) _ s
      · have h := touched_unsettled (serve_touches l r s) r.part_ne_everything
        exact h
    | coldStart straps => exact .inr rfl
    | lineRelease straps => exact .inl (takeWarmStart_unsettled _ _ _)
    | _ => exact nomatch he
  · exact .inl (touched_unsettled (handle_touches e s) he)

/-! ## What requests and resets hand on -/

@[simp] theorem followTracking_follow (on : Bool) (s : State) : AllFollow (followTracking on s).2 := by
  simp [followTracking]

theorem served_follow_ite {p : Prop} [Decidable p] {a b : Served} :
    AllFollow (if p then a else b).events ↔ (p → AllFollow a.events) ∧ (¬p → AllFollow b.events) := by
  split <;> simp [*]

/-- What a request hands on is what the blocks hand one another. -/
theorem serve_follow (l : Link) (r : Request) (s : State) : AllFollow (serve l r s).events := by
  cases r with
  | lookup c => simp only [serve, serveLookup]; split <;> rfl
  | scan start f => simp only [serve, serveScan]; split <;> rfl
  | raise c cls detail cap lanes yaw loops =>
    simp [serve, serveRaise, served_follow_ite, Served.refused, Served.did]
  | amend c cap lanes yaw loops =>
    simp only [serve, serveAmend]
    split <;> simp [served_follow_ite, Served.refused, Served.did]
  | ack c => simp only [serve, serveAck]; split <;> simp [served_follow_ite, Served.refused, Served.read, Served.did]
  | retire c => simp only [serve, serveRetire]; split <;> simp [served_follow_ite, Served.refused, Served.did]
  | bind slot c a loops delay count =>
    simp only [serve, serveBind]
    split <;> simp [served_follow_ite, Served.refused, Served.did]
  | unbind slot => simp only [serve, serveUnbind]; split <;> simp [served_follow_ite, Served.refused, Served.did]
  | readSlot slot => simp only [serve, serveReadSlot]; split <;> rfl
  | setDemand d =>
    simp [serve, serveSetDemand, served_follow_ite, Served.refused, Served.did, Act.andThen, recomputeFrom, setEnvelope,
      Act.emit, demandHandover, Ev.follows]
  | readEnvelope => rfl
  | laneStart n => simp only [serve, serveLaneStart]; split <;> simp [served_follow_ite, Served.refused, Served.did]
  | laneStop n => simp only [serve, serveLaneStop]; split <;> simp [Served.refused, Served.did]
  | readLane n => simp only [serve, serveReadLane]; split <;> rfl
  | setTracking on => simp [serve, serveSetTracking, served_follow_ite, Served.refused, Served.did]
  | startUnwind => simp [serve, serveStartUnwind, served_follow_ite, Served.refused, Served.did, Ev.follows]
  | yawGoto h =>
    simp only [serve, serveYawGoto, served_follow_ite]
    refine ⟨fun _ => rfl, fun _ => ⟨fun _ => rfl, fun _ => ⟨fun _ => rfl, fun _ => ⟨fun _ => rfl, fun _ => ?_⟩⟩⟩⟩
    split <;> simp [served_follow_ite, Served.refused, Served.read, Served.did, insertService]
  | yawJog d sec => simp [serve, serveYawJog, served_follow_ite, Served.refused, Served.did, insertService]
  | serviceStop => simp [serve, serveServiceStop, served_follow_ite, Served.refused, Served.read, Served.did]
  | readYaw => rfl
  | driveIsolate n =>
    simp only [serve, serveDriveIsolate, served_follow_ite]
    refine ⟨fun _ => rfl, fun _ => ?_⟩
    split <;> simp [Served.refused, driveAnswer, Served.did]
  | driveReturn n =>
    simp only [serve, serveDriveReturn, served_follow_ite]
    refine ⟨fun _ => rfl, fun _ => ?_⟩
    split
    · rfl
    · split <;> simp [Served.refused, driveAnswer, Served.did, Ev.follows]
  | setTwist t =>
    simp [serve, serveSetTwist, served_follow_ite, Served.refused, Served.did, twistReport, Ev.follows]
  | readLoop n => simp only [serve, serveReadLoop]; split <;> rfl
  | setSetting id v =>
    simp only [serve, serveSetSetting, served_follow_ite]
    refine ⟨fun _ => rfl, fun _ => ⟨fun _ => rfl, fun _ => ⟨fun _ => rfl, fun _ => ?_⟩⟩⟩
    simp only [Served.did, settingActs]
    split
    · exact followTracking_follow _ _
    · rfl
    · rfl
  | getSetting id => simp [serve, serveGetSetting, served_follow_ite, Served.refused, Served.read]
  | readSupply => rfl
  | ident => rfl
  | warmReset straps => rfl
  | badEncoding => rfl

@[simp] theorem startReports_follow (s : State) : AllFollow (startReports s) := by
  simp only [startReports, windStartReports, yawStartReports, supplyStartReports, allFollow_append, allFollow_cons,
    allFollow_nil]
  refine ⟨⟨⟨⟨?_, rfl, rfl, trivial⟩, ?_, rfl, trivial⟩, rfl, trivial⟩, ?_, ?_, trivial⟩ <;> split <;> rfl

@[simp] theorem startHandovers_follow (st : SupplyState) (p : PumpState) : AllFollow (startHandovers st p) := rfl

@[simp] theorem startTracking_follow (s : State) : AllFollow (startTracking s).2 := by
  unfold startTracking
  split
  · exact insert_follow _ _ _
  · rfl

@[simp] theorem fullDelivery_follow (l : Limits) : AllFollow (fullDelivery l) := rfl

theorem takeWarmStart_follow (d : Nat) (straps : Fin 4) (s : State) : AllFollow (takeWarmStart d straps s).2 := by
  simp [takeWarmStart, Ev.follows]

theorem takeColdStart_follow (straps : Fin 4) (s : State) : AllFollow (takeColdStart straps s).2 := by
  simp [takeColdStart]

theorem takeServe_follow (l : Link) (r : Request) (s : State) : AllFollow (takeServe l r s).2 := by
  unfold takeServe
  split
  · exact takeWarmStart_follow _ _ s
  · exact serve_follow l r s

end Sys2Proof.Machine
end

section
/-! The condition table and the effective limits after every step (R2 to R13, R33 to R39). -/

namespace Sys2Proof.Machine

/-! ## The table -/

/-- An event keeps a sound table, with whatever sound events an earlier step left over. -/
theorem handle_keeps_tableSound {e : Ev} {s : State} (he : e.sound) (hs : s.tableSound) :
    (handle e s).1.tableSound := by
  refine ⟨handle_keeps_table hs.1 he, fun x hx => ?_⟩
  obtain h | h := handle_unsettled e s
  · exact hs.2 x (h ▸ hx)
  · rw [h] at hx
    exact nomatch hx

theorem firstEvent_sound (c : Instr) : (firstEvent c).sound := sound_of_plain (by cases c <;> rfl)

theorem advance_keeps_tableSound {s : State} (hs : s.tableSound) : s.advance.tableSound :=
  ⟨advance_keeps_table hs.1, advance_unsettled s ▸ hs.2⟩

/-- Settles O5: a step is a run of sound events, which the clock or one command begins. -/
theorem tableStaysSound : Obligations.TableStaysSound := by
  intro s t hs hstep
  have left : ∀ (s : State) (evs : List Ev), s.tableSound → (∀ e ∈ evs, e.sound) →
      State.tableSound { s with unsettled := evs } := fun _ _ hs hevs => ⟨hs.1, hevs⟩
  have one : ∀ (e : Ev) (s : State), e.sound → s.tableSound → (handle e s).1.tableSound ∧ ∀ x ∈ (handle e s).2, x.sound :=
    fun e s he hs => ⟨handle_keeps_tableSound he hs, handle_emits_sound e s⟩
  unfold step at hstep
  split at hstep
  case h_1 =>
    obtain ⟨htable, hleft⟩ := advance_keeps_tableSound hs
    exact tick_keeps left one hs.2 (fun _ => trivial) hstep fun _ => ⟨htable, hleft⟩
  case h_2 c rest _ =>
    rw [exec_eq] at hstep
    have hfirst : ∀ e ∈ [firstEvent c], e.sound := by simpa using firstEvent_sound c
    split at hstep
    · exact run_keeps left one hstep nofun hfirst ⟨hs.1, nofun⟩
    · exact run_keeps left one hstep hs.2 hfirst hs

/-! ## The lowest cap and its source (R34, R35) -/

theorem lowerCap_eq_none {a b : Option Nat} : lowerCap a b = none ↔ a = none ∧ b = none := by
  cases a <;> cases b <;> simp [lowerCap]

theorem lowestCap_cons (q : Record) (t : List Record) : lowestCap (q :: t) = lowerCap q.eff.cap (lowestCap t) := rfl

theorem lowestCap_eq_none {t : List Record} : lowestCap t = none ↔ ∀ q ∈ t, q.eff.cap = none := by
  induction t with
  | nil => simp [lowestCap]
  | cons q t ih => simp [lowestCap_cons, lowerCap_eq_none, ih]

theorem lowerCap_le {a b : Option Nat} {m : Nat} (h : lowerCap a b = some m) :
    (∀ x, a = some x → m ≤ x) ∧ (∀ x, b = some x → m ≤ x) ∧ (a = some m ∨ b = some m) := by
  cases a with
  | none => exact ⟨nofun, fun x hx => by simp_all [lowerCap], .inr h⟩
  | some x =>
    cases b with
    | none => exact ⟨fun y hy => by simp_all [lowerCap], nofun, .inl h⟩
    | some y =>
      obtain rfl : min x y = m := by simpa [lowerCap] using h
      refine ⟨?_, ?_, ?_⟩
      · rintro _ ⟨⟩; exact Nat.min_le_left x y
      · rintro _ ⟨⟩; exact Nat.min_le_right x y
      · obtain hle | hle := Nat.le_total x y <;> simp [hle]

/-- The lowest cap is carried by a record, and no record carries a lower one. -/
theorem lowestCap_eq_some {t : List Record} : ∀ {m : Nat}, lowestCap t = some m →
    (∃ q ∈ t, q.eff.cap = some m) ∧ ∀ q ∈ t, ∀ cap, q.eff.cap = some cap → m ≤ cap := by
  induction t with
  | nil => simp [lowestCap]
  | cons q t ih =>
    intro m h
    rw [lowestCap_cons] at h
    obtain ⟨hq, ht, hm⟩ := lowerCap_le h
    refine ⟨?_, fun x hx cap hcap => ?_⟩
    · obtain hm | hm := hm
      · exact ⟨q, .head _, hm⟩
      · obtain ⟨x, hx, hcap⟩ := (ih hm).1
        exact ⟨x, .tail _ hx, hcap⟩
    · obtain _ | ⟨_, hx⟩ := hx
      · exact hq cap hcap
      · cases hl : lowestCap t with
        | none => exact absurd (lowestCap_eq_none.mp hl x hx) (by simp [hcap])
        | some n => exact (ht n hl).trans ((ih hl).2 x hx cap hcap)

theorem tripPresent_iff {t : List Record} : tripPresent t = true ↔ ∃ q ∈ t, q.cls = .trip := by simp [tripPresent]

theorem capOf_of_trip {t : List Record} (h : ∃ q ∈ t, q.cls = .trip) : capOf t = 0 := if_pos (tripPresent_iff.mpr h)

theorem capOf_of_no_trip {t : List Record} (h : ∀ q ∈ t, q.cls ≠ .trip) : capOf t = (lowestCap t).getD 16000 :=
  if_neg fun ht => by
    obtain ⟨q, hq, hc⟩ := tripPresent_iff.mp ht
    exact h q hq hc

theorem capOf_le {t : List Record} {q : Record} (hq : q ∈ t) {cap : Nat} (hcap : q.eff.cap = some cap) :
    capOf t ≤ cap := by
  by_cases htrip : ∃ q ∈ t, q.cls = .trip
  · simp [capOf_of_trip htrip]
  · rw [capOf_of_no_trip fun q hq hc => htrip ⟨q, hq, hc⟩]
    cases hl : lowestCap t with
    | none => exact absurd (lowestCap_eq_none.mp hl q hq) (by simp [hcap])
    | some m => exact (lowestCap_eq_some hl).2 q hq cap hcap

theorem capOf_carried {t : List Record} (htrip : ∀ q ∈ t, q.cls ≠ .trip) (hcap : ∃ q ∈ t, q.eff.cap.isSome = true) :
    ∃ q ∈ t, q.eff.cap = some (capOf t) := by
  rw [capOf_of_no_trip htrip]
  cases hl : lowestCap t with
  | none =>
    obtain ⟨q, hq, hc⟩ := hcap
    simp [lowestCap_eq_none.mp hl q hq] at hc
  | some m => exact (lowestCap_eq_some hl).1

theorem capOf_free {t : List Record} (h : ∀ q ∈ t, q.cls ≠ .trip ∧ q.eff.cap = none) : capOf t = 16000 := by
  rw [capOf_of_no_trip fun q hq => (h q hq).1, lowestCap_eq_none.mpr fun q hq => (h q hq).2]
  rfl

/-- cap_source is the code of the first record, in slot order, that carries cap_eff. -/
theorem capSourceOf_eq_some {t : List Record} {c : Code} :
    capSourceOf t = some c ↔
      ∃ below q above, t = below ++ q :: above ∧ q.code = c ∧ q.eff.cap = some (capOf t) ∧
        ∀ p ∈ below, p.eff.cap ≠ some (capOf t) := by
  simp only [capSourceOf, Option.map_eq_some_iff, List.find?_eq_some_iff_append, beq_iff_eq, Bool.not_eq_true',
    beq_eq_false_iff_ne]
  constructor
  · rintro ⟨q, ⟨hcap, below, above, ht, hbelow⟩, hc⟩
    exact ⟨below, q, above, ht, hc, hcap, hbelow⟩
  · rintro ⟨below, q, above, ht, hc, hcap, hbelow⟩
    exact ⟨q, ⟨hcap, below, above, ht, hbelow⟩, hc⟩

/-! ## The unions and the highest class (R36 to R39) -/

/-- A union of the records' sets holds what a record's set holds. -/
theorem hasBit_union {w : Nat} (f : Record → BitVec w) (t : List Record) (k : Nat) :
    hasBit (t.foldr (fun q acc => f q ||| acc) 0) k = true ↔ ∃ q ∈ t, hasBit (f q) k = true := by
  induction t with
  | nil => simp [hasBit]
  | cons q t ih =>
    simp only [hasBit] at ih
    simp only [hasBit, List.foldr_cons, BitVec.getLsbD_or, Bool.or_eq_true, ih, List.mem_cons, exists_eq_or_imp]

theorem higherCls_index (a b : Cls) : clsIndex (higherCls a b) = max (clsIndex a) (clsIndex b) := by
  cases a <;> cases b <;> rfl

theorem higherCls_eq_or (a b : Cls) : higherCls a b = a ∨ higherCls a b = b := by
  unfold higherCls
  split <;> simp

theorem highestOf_cons (q : Record) (t : List Record) : highestOf (q :: t) = higherOf q.cls (highestOf t) := rfl

theorem highestOf_eq_none {t : List Record} : highestOf t = none ↔ t = [] := by
  cases t with
  | nil => simp [highestOf]
  | cons q t =>
    rw [highestOf_cons]
    cases highestOf t <;> simp [higherOf]

theorem highestOf_eq_some {t : List Record} : ∀ {k : Cls}, highestOf t = some k →
    (∃ q ∈ t, q.cls = k) ∧ ∀ q ∈ t, clsIndex q.cls ≤ clsIndex k := by
  induction t with
  | nil => simp [highestOf]
  | cons q t ih =>
    intro k h
    rw [highestOf_cons] at h
    cases ht : highestOf t with
    | none =>
      rw [ht, higherOf, Option.some.injEq] at h
      subst h
      simp [highestOf_eq_none.mp ht]
    | some j =>
      rw [ht, higherOf, Option.some.injEq] at h
      subst h
      obtain ⟨⟨x, hx, hj⟩, hle⟩ := ih ht
      refine ⟨?_, fun y hy => ?_⟩
      · obtain hq | hq := higherCls_eq_or q.cls j
        · exact ⟨q, .head _, hq.symm⟩
        · exact ⟨x, .tail _ hx, hj.trans hq.symm⟩
      · rw [higherCls_index]
        obtain _ | ⟨_, hy⟩ := hy
        · exact Nat.le_max_left _ _
        · exact (hle y hy).trans (Nat.le_max_right _ _)

/-- Settles O6: every step keeps the limits those of the table, and each limit is what its rule makes of the table. -/
theorem limitsAreThoseOfTheTable : Obligations.LimitsAreThoseOfTheTable := by
  intro s t hs hstep
  have ht : t.limitsAgree :=
    step_keeps (P := State.limitsAgree) (fun _ _ h => h) (fun e _ h => handle_keeps_limits h e) (fun _ _ h => h)
      (fun _ _ h => advance_keeps_limits h) hstep hs
  refine ⟨ht, ?_⟩
  rw [ht.2]
  exact ⟨capOf_of_trip, fun q hq cap => capOf_le hq, capOf_carried, capOf_free, fun c => capSourceOf_eq_some,
    fun n => hasBit_union (fun q => q.eff.lanes) _ n.val, fun f => hasBit_union (fun q => q.eff.yaw) _ f.val,
    fun l => hasBit_union (fun q => q.eff.boost) _ l.val, highestOf_eq_none, fun k => highestOf_eq_some⟩

end Sys2Proof.Machine
end

section
/-! The reaction slots, the lanes, the yaw motion unit, the cooling unit, the supply monitor and the links after every
step: what the laws of each block keep over an event and over the clock, a step keeps. -/

namespace Sys2Proof.Machine

/-- Settles O7: a slot with count 0 is unbound, and an unbound slot holds nothing (R45). -/
theorem slotsStaySound : Obligations.SlotsStaySound := by
  intro s t hs hstep
  have ht : t.slotsSound :=
    step_keeps (P := State.slotsSound) (fun _ _ h => h) (fun e _ h => handle_keeps_slots h e) (fun _ _ h => h)
      (fun _ _ h => advance_keeps_slots h) hstep hs
  refine ⟨ht, fun k hcount => ?_⟩
  have hbound : (t.slots.get k).bound = none := by
    by_contra hb
    have := ((ht k).count (Option.isSome_iff_ne_none.mpr hb)).1
    omega
  rw [(ht k).unbound hbound]
  exact ⟨rfl, rfl, rfl, rfl, rfl⟩

/-- Settles O9. -/
theorem lanesStaySound : Obligations.LanesStaySound := fun _ _ hs hstep =>
  step_keeps (P := fun s => s.lm.sound) (fun _ _ h => h) (fun e _ h => handle_keeps_lanes h e) (fun _ _ h => h)
    (fun _ _ h => advance_keeps_lanes h) hstep hs

/-- What is wanted is the direction of a top that is MOVING (R145). -/
theorem wants_eq_some {y : Yaw} {d : Dir} (h : y.wants = some d) :
    ∃ top rest, y.chain = top :: rest ∧ top.state = .moving ∧ top.dir = some d := by
  simp only [Yaw.wants] at h
  split at h
  · exact nomatch h
  · split at h
    case h_1 => exact nomatch h
    case h_2 top rest hchain =>
      split at h
      case isTrue hm => exact ⟨top, rest, hchain, hm, h⟩
      case isFalse => exact nomatch h

/-- A direction that is not blocked does not wind the cable at or above 10800 (R132). -/
theorem not_winding_of_not_blocked {y : Yaw} {d : Dir} (h : y.blocked d = false) :
    ¬(10800 ≤ y.twist.natAbs ∧ (d = .cw ∧ 0 < y.twist ∨ d = .ccw ∧ y.twist < 0)) := by
  rintro ⟨hfar, hdir⟩
  have hguard : y.guards d = false := (Bool.or_eq_false_iff.mp h).2
  have hmag : 10800 ≤ magnitude y.twist := hfar
  obtain ⟨rfl, hpos⟩ | ⟨rfl, hneg⟩ := hdir
  · simp [Yaw.guards, winds, hpos, hmag] at hguard
  · simp [Yaw.guards, winds, hneg, hmag] at hguard

/-- Settles O10: the run of a sound unit is in the direction that a free MOVING top wants. -/
theorem yawStaysSound : Obligations.YawStaysSound := by
  intro s t hs hstep
  have ht : t.ym.sound :=
    step_keeps (P := fun s => s.ym.sound) (fun _ _ h => h) (fun e _ h => handle_keeps_yaw h e) (fun _ _ h => h)
      (fun _ _ h => advance_keeps_yaw h) hstep hs
  refine ⟨ht, ht.chain.ordered, fun c hc => by simp [ht.chain.below c hc], fun d hd => ?_⟩
  obtain ⟨hbrake, hwants, hblocked⟩ := ht.run d hd
  obtain ⟨top, rest, hchain, hmoving, hdir⟩ := wants_eq_some hwants
  have hfree : t.ym.freeHold top.kind = false := ht.free top (by simp [hchain]) (.inr hmoving)
  have hsupply : t.ym.supply ≠ .low := by
    intro hlow
    simp [Yaw.freeHold, hlow] at hfree
  exact ⟨hbrake, hsupply, ⟨top, rest, hchain, hmoving, hdir, hfree⟩, not_winding_of_not_blocked hblocked⟩

/-- Settles O11: sound settings and sound loops are kept together. -/
theorem coolingStaysSound : Obligations.CoolingStaysSound := by
  intro s t hs hstep
  have ht : t.coolingSound :=
    step_keeps (P := State.coolingSound) (fun _ _ h => h)
      (fun e _ h => ⟨handle_keeps_settings h.1 e, handle_keeps_cooling h.1 h.2 e⟩) (fun _ _ h => h)
      (fun s _ h => ⟨(advance_settings s).symm ▸ h.1, advance_keeps_cooling h.2⟩) hstep hs
  refine ⟨ht, fun l => ⟨fun hrun => ?_, (ht.2 l).still⟩⟩
  obtain ⟨hmin, hmax⟩ := (ht.2 l).fan hrun
  exact ⟨hmin, hmax, (ht.2 l).full hrun⟩

/-- Settles O12. -/
theorem supplyStaysSound : Obligations.SupplyStaysSound := fun _ _ hs hstep =>
  step_keeps (P := fun s => s.sm.sound) (fun _ _ h => h) (fun e _ h => handle_keeps_supply h e) (fun _ _ h => h)
    (fun _ _ h => advance_keeps_supply h) hstep hs

/-- Settles O13: the clock moves no link unit. -/
theorem linksStaySound : Obligations.LinksStaySound := fun _ _ hs hstep =>
  step_keeps (P := fun s => unitsSound s.links) (fun _ _ h => h) (fun e _ h => handle_keeps_links h e) (fun _ _ h => h)
    (fun s _ h => (advance_links s).symm ▸ h) hstep hs

end Sys2Proof.Machine
end

section
/-! C after a command (R71 to R73), a step's own command (log 1), and the state right after reset. -/

namespace Sys2Proof.Machine

/-! ## C rises at a ramp step alone -/

/-- Whether an event is neither the ramp timer's end nor an expiry that waits. -/
def Ev.calm : Ev → Bool
  | .euRampStep | .due _ => false
  | _ => true

theorem calm_of_follows {e : Ev} (h : e.follows = true) : e.calm = true := by
  cases e with
  | euRampStep | due _ => exact nomatch h
  | _ => rfl

theorem calm_of_allFollow {evs : List Ev} (h : AllFollow evs) : evs.all Ev.calm = true :=
  List.all_eq_true.mpr fun _ he => calm_of_follows (List.all_eq_true.mp h _ he)

/-- No calm event sets off a ramp step. -/
theorem handle_calm {e : Ev} (h : e.calm = true) (s : State) : (handle e s).2.all Ev.calm = true := by
  cases e with
  | euRampStep | due _ => exact nomatch h
  | lkServe l r => exact calm_of_allFollow (takeServe_follow l r s)
  | coldStart straps => exact calm_of_allFollow (takeColdStart_follow straps s)
  | lineRelease straps => exact calm_of_allFollow (takeWarmStart_follow 1 straps { s with lineAsserted := false })
  | lkKey on =>
    simp only [handle, takeKey]
    split
    · cases on <;> rfl
    · rfl
  | lkBegin l r =>
    simp only [handle, takeBegin]
    split
    · rfl
    · dsimp only
      split <;> rfl
  | lkStart l addr ok bytes =>
    simp only [handle, takeStart]
    split
    · split <;> rfl
    · rfl
  | lkRead l clocked =>
    simp only [handle, takeRead]
    split
    · split <;> rfl
    · rfl
  | lkRequest l r =>
    simp only [handle, takeRequest]
    split
    · split <;> rfl
    · rfl
  | lkStop l =>
    simp only [handle, takeFrameStop, Act.guarded, takeStop]
    split
    · split
      · split <;> rfl
      all_goals rfl
    · rfl
  | lkByte l b ok => simp only [handle, takeByte, Act.guarded]; split <;> rfl
  | lkPoisonStop l => simp only [handle, takePoisonStop, Act.guarded]; split <;> rfl
  | lkAttention l => simp only [handle, takeAttention]; split <;> rfl
  | lkAttentionSlot l ack =>
    simp only [handle, takeAttentionSlot]
    split
    · split <;> rfl
    · rfl
  | lkPayloadDone l => simp only [handle, takePayloadDone]; split <;> rfl
  | lkPayloadCut l => simp only [handle, takePayloadCut]; split <;> rfl
  | lkOpen l addr ok bytes => rfl
  | lkSend l clocked => rfl
  | lkReset l => rfl
  | lineAssert => rfl
  | _ => exact calm_of_allFollow (handle_follow rfl s)

/-- A demand set from outside recomputes the envelope, which raises no C (R61, R71, R72). -/
theorem serveSetDemand_commanded_le (l : Link) (d : Nat) (s : State) :
    (serveSetDemand l d s).state.eu.commanded ≤ s.eu.commanded := by
  simp only [serveSetDemand]
  split
  · exact Nat.le_refl _
  · generalize (if d ≤ 16000 then d else 16000) = x
    split
    · exact Nat.le_refl _
    · exact recompute_commanded_le { s.eu with demand := x }

theorem serve_commanded_le (l : Link) (r : Request) (s : State) :
    (serve l r s).state.eu.commanded ≤ s.eu.commanded := by
  by_cases hr : r.part = .eu
  · cases r with
    | setDemand d => exact serveSetDemand_commanded_le l d s
    | _ => exact nomatch hr
  · exact (congrArg Envelope.commanded (touched_eu (serve_touches l r s) hr r.part_ne_everything)).le

theorem takeWarmStart_eu (d : Nat) (straps : Fin 4) (s : State) : (takeWarmStart d straps s).1.eu = s.eu.afterReset := by
  simp only [takeWarmStart, State.warmValues]
  rw [askRetained_eq]

/-- A calm event raises no C: the resets and a request leave it or lower it, as the blocks' own events do. -/
theorem handle_commanded_le {e : Ev} (h : e.calm = true) (s : State) : (handle e s).1.eu.commanded ≤ s.eu.commanded := by
  by_cases hf : e.follows = true
  · exact (handle_noRise hf s).commanded
  · by_cases he : e.part = .everything
    · cases e with
      | lkServe l r =>
        simp only [handle, takeServe]
        split
        · have heu := takeWarmStart_eu (restartDetail l) (by assumption) s
          simp only [storeResponse, setLink_eu, heu]
          exact Nat.zero_le _
        · exact serve_commanded_le l r s
      | coldStart straps => exact Nat.zero_le _
      | lineRelease straps =>
        simp only [handle, takeLineRelease, takeWarmStart_eu]
        exact Nat.zero_le _
      | _ => exact nomatch he
    · refine (congrArg Envelope.commanded (touched_eu (handle_touches e s) (fun hp => ?_) he)).le
      cases e with
      | euRampStep => exact nomatch h
      | euLimits | euLane | euTemp => exact hf rfl
      | _ => exact nomatch hp

theorem firstEvent_calm {c : Instr} (h : c ≠ .rampStep) : (firstEvent c).calm = true := by
  cases c with
  | rampStep => exact absurd rfl h
  | _ => rfl

/-- Settles O8: a step keeps the envelope sound, and no event that another command sets off raises C. -/
theorem envelopeStaysSound : Obligations.EnvelopeStaysSound := by
  refine ⟨fun s t hs hstep => step_keeps_envelope hs hstep, fun c s t hu hc hexec => ?_⟩
  exact exec_keeps (P := fun t => t.eu.commanded ≤ s.eu.commanded) (Q := fun e => e.calm = true) (fun _ _ h _ => h)
    (fun e t he ht => ⟨(handle_commanded_le he t).trans ht, List.all_eq_true.mp (handle_calm he t)⟩) hu (firstEvent_calm hc) hexec
    (Nat.le_refl _)

/-! ## A step, and the state right after reset -/

/-- Settles O1. -/
theorem stepRunsFrontCommand : Obligations.StepRunsFrontCommand := fun c rest s h => by rw [step, h]

end Sys2Proof.Machine
end

section
/-! An idle millisecond that brings no expiry (log 5), the end of every command (log 26), an expiry without its timer
(log 7), and the state right after reset. -/

namespace Sys2Proof.Machine

/-! ## An idle millisecond -/

theorem saturate_eq_min (limit n : Nat) : saturate limit n = min limit n := by
  unfold saturate
  split <;> omega

/-- An idle step that brings no expiry is the clock alone. -/
theorem step_idle {s : State} (hp : s.pending = []) (hu : s.unsettled = []) (hdue : dueList s.advance = []) :
    step s = .next s.advance := by
  have hz : s.advance.unsettled = [] := (advance_unsettled s).trans hu
  simp only [step, hp, tick, hdue, choicesFor, List.length_nil, freeOrder, List.map_nil, run, settled, hz,
    List.append_nil, settle_nil, Nat.zero_sub, Nat.add_zero]
  exact congrArg _ (State.unsettled_nil hz)

/-- What the clock moves in every block (log 5). -/
theorem advance_eq (s : State) :
    s.advance = { s.millisecond with
      msec := s.advance.msec, uptime := s.advance.uptime, table := s.advance.table, slots := s.advance.slots } := by
  unfold State.advance
  dsimp only
  split <;> rfl

theorem advance_within {s : State} (h : s.msec < 999) : s.advance = { s.millisecond with msec := s.msec + 1 } := by
  have hms : ¬1000 ≤ s.millisecond.msec + 1 := by
    show ¬1000 ≤ s.msec + 1
    omega
  exact if_neg hms

theorem advance_second {s : State} (h : 999 ≤ s.msec) :
    s.advance = { s.millisecond with
      msec := 0, uptime := nextUptime s.uptime, table := s.table.map Record.second, slots := s.slots.map Slot.second } := by
  have hms : 1000 ≤ s.millisecond.msec + 1 := by
    show 1000 ≤ s.msec + 1
    omega
  exact if_pos hms

/-- Settles O2. -/
theorem idleStepIsOneMillisecond : Obligations.IdleStepIsOneMillisecond := by
  intro s hp hu hdue
  refine ⟨s.advance, step_idle hp hu hdue, ?_, ?_, ?_, fun h => ?_, fun h => ?_⟩
  · have hlm : s.advance.lm = s.lm.mapLanes Lane.tick := by rw [advance_eq]; rfl
    have hcu : s.advance.cu = s.millisecond.cu := by rw [advance_eq]
    rw [hlm, hcu]
    refine (advance_eq s).trans ?_
    simp only [State.millisecond, Yaw.tick, saturate_eq_min]
    rfl
  · intro n
    rw [advance_eq]
    match n with
    | 0 | 1 | 2 | 3 => rfl
  · intro l
    rw [advance_eq]
    match l with
    | 0 | 1 | 2 => rfl
  · rw [advance_within h]
    exact ⟨rfl, rfl, rfl, rfl⟩
  · rw [advance_second h]
    refine ⟨rfl, fun hup => if_pos hup, rfl, fun k => ?_⟩
    rw [Eight.get_map]
    rfl

/-! ## Every command completes -/

/-- A run of events ends in a next state and leaves the queue. -/
theorem run_completes (evs : List Ev) (s : State) :
    ∃ t, run evs s = .next t ∧ t.pending = s.pending ∧ t.arrivals = s.arrivals := by
  have one : ∀ (e : Ev) (z : State), True → touched .everything s z →
      touched .everything s (handle e z).1 ∧ ∀ x ∈ (handle e z).2, True := fun e z _ hz => by
    have h := touched_queue (handle_touches e z)
    exact ⟨⟨h.1.trans hz.1, h.2.trans hz.2⟩, fun _ _ => trivial⟩
  obtain ⟨harrivals, hpending⟩ := run_keeps (P := touched .everything s) (Q := fun _ => True) (fun _ _ h _ => h) one
    (evs := evs) (t := settled evs s) rfl (fun _ _ => trivial) (fun _ _ => trivial) ⟨rfl, rfl⟩
  exact ⟨settled evs s, rfl, hpending, harrivals⟩

/-- Settles O3: no event moves the queue. -/
theorem everyCommandCompletes : Obligations.EveryCommandCompletes := by
  intro c s
  rw [exec_eq]
  split <;> exact run_completes _ _

/-! ## An expiry whose timer is not in flight -/

/-- A command whose one event leaves the state and hands nothing on does nothing. -/
theorem exec_quiet {s t : State} (hu : s.unsettled = []) {c : Instr} (h : handle (firstEvent c) s = (t, [])) :
    exec c s = .next t := (exec_run hu c).trans (run_quiet hu h)

/-- A timeout finds its own timer in flight, or does nothing. -/
theorem takeTimeout_quiet {n : Fin 4} {k : TimerKind} {s : State} (h : ∀ ms, (s.lm.lanes.get n).timer ≠ some ⟨k, ms⟩) :
    takeTimeout n k s = (s, []) := by
  refine if_neg fun ht => ?_
  obtain ⟨⟨kind, ms⟩, htimer, rfl⟩ := Option.map_eq_some_iff.mp ht
  exact h ms htimer

/-- Settles O4: each expiry's event looks at its timer first. -/
theorem expiryWithoutItsTimerDoesNothing : Obligations.ExpiryWithoutItsTimerDoesNothing := by
  intro s hu
  refine ⟨fun c h => exec_quiet hu ?holdoff, fun k h => ⟨exec_quiet hu ?autoRetire, exec_quiet hu ?coolBoost⟩,
    fun h => exec_quiet hu ?ramp, fun n h => exec_quiet hu ?silence, fun n h => exec_quiet hu (takeTimeout_quiet h),
    fun n h => exec_quiet hu (takeTimeout_quiet h), fun n h => exec_quiet hu (takeTimeout_quiet h),
    fun n h => exec_quiet hu (takeTimeout_quiet h), fun h => exec_quiet hu ?jog, fun h => exec_quiet hu ?brake,
    fun h => exec_quiet hu ?settle, fun l h => exec_quiet hu ?prime, fun h => exec_quiet hu ?grid,
    fun h => exec_quiet hu ?host⟩
  case holdoff =>
    simp only [firstEvent, handle, takeHoldoffEnd]
    split
    · rfl
    · next q hq =>
      obtain ⟨hmem, hcode⟩ := findCode_some hq
      exact if_neg (h q hmem hcode)
  case autoRetire =>
    simp only [firstEvent, handle, takeAutoRetire, h]
    split <;> simp_all
  case coolBoost =>
    simp only [firstEvent, handle, takeBoostEnd, h]
    split <;> simp_all
  case ramp => simp only [firstEvent, handle, takeRampStep, h]
  case silence => simp only [firstEvent, handle, takeSilence, h]
  case jog =>
    refine if_neg ?_
    simp only [Yaw.jogs, List.any_eq_true, Bool.and_eq_true, beq_iff_eq]
    rintro ⟨c, hc, hk, ht⟩
    have hno := h c hc hk
    split at ht
    · next ms hms => exact hno ms hms
    · exact nomatch ht
  case brake => simp only [firstEvent, handle, takeBrakeTimer, h]
  case settle => simp only [firstEvent, handle, takeSettleEnd, h]
  case prime => simp only [firstEvent, handle, takePrimeTimeout, h]
  case grid => simp only [firstEvent, handle, takeSettled, h]
  case host => simp only [firstEvent, handle, takeSilenceExpiry, h]

/-! ## The state right after reset -/

theorem gridLossAtReset_sound : Record.gridLossAtReset.sound where
  slot := by decide
  overflow := by decide
  occurrences := by decide
  effects := ⟨nofun, fun _ => rfl, nofun⟩
  edge := nofun
  acked := nofun
  clearing := nofun
  computed := fun _ => nofun

theorem reset_tableSound : State.reset.tableSound :=
  ⟨⟨List.pairwise_singleton _ _, List.pairwise_singleton _ _, by
      rintro q (_ | ⟨_, ⟨⟩⟩)
      exact gridLossAtReset_sound⟩, nofun⟩

/-- The envelope at reset holds no lane and no demand, so a cap of 0 moves nothing in it. -/
theorem reset_envelope_sound : State.reset.eu.sound where
  available := by decide
  headroom := by decide
  total := rfl
  target := rfl
  binding := rfl
  commanded := Nat.le_refl _
  ramp := by decide
  share := by decide

/-- The loops at reset are the initial ones, L2 in PRIMING. -/
theorem reset_cooling_sound : State.reset.coolingSound := by
  refine ⟨settingDefaults_sound, fun l => ?_⟩
  match l with
  | 0 | 1 => exact initial_cooling_loops settingDefaults _
  | 2 => exact ⟨by decide, by decide, fun _ => rfl, fun _ => rfl, nofun, nofun⟩

theorem reset_sound : State.reset.sound where
  table := reset_tableSound
  limits := ⟨List.pairwise_singleton _ _, by decide⟩
  slots := fun k => match k with | 0 | 1 | 2 | 3 | 4 | 5 | 6 | 7 => unbound_sound Slot.initial
  envelope := reset_envelope_sound
  lanes := initial_lanes_sound
  yaw := takeColdStart_ym 0 State.powerOn
  cooling := reset_cooling_sound
  supply := initial_supply_sound
  links := fun l => match l with | .main | .service => bare_sound rfl rfl

/-- Settles O14. -/
theorem resetIsSound : Obligations.ResetIsSound :=
  ⟨reset_sound, ⟨rfl, rfl, rfl, rfl, rfl, rfl, rfl, by decide⟩, by unfold State.exclusionHolds; decide, rfl, fun l => by
    cases l <;> decide⟩

end Sys2Proof.Machine
end

section
/-! What a command of one event comes to, and a request by how its owner serves it; the supply monitor (R174 to R178), the
key and the silence of the main link (R192, R194). -/

namespace Sys2Proof.Machine

/-! ## A command by its event, a request by its owner -/

/-- In a part that has nothing left over, a command comes to what its one event leaves and hands on. -/
theorem exec_comesTo {s z : State} {evs : List Ev} (hu : s.unsettled = []) {c : Instr}
    (h : handle (firstEvent c) s = (z, evs)) : exec c s = z.comesTo evs := by
  rw [exec_run hu, run_one hu, h, State.comesTo]

section
variable {s z : State} {l : Link} {r : Request} {c : Instr} {evs : List Ev} {status : Status} {data : List Byte}

/-- A request that its owner carries out. -/
theorem exec_carriesOut (h : s.ready l) (hc : firstEvent c = .lkRequest l r)
    (hs : serve l r (s.begun l) = ⟨z, evs, ⟨status, data⟩⟩) (hr : ∀ straps, r ≠ .warmReset straps := by nofun) :
    exec c s = s.carriesOut l z evs status data := by
  obtain ⟨-, -, hu, -⟩ := id h
  rw [exec_run hu, hc, run_request_carriesOut h hr hs]

/-- A request whose owner hands nothing on. -/
theorem exec_answered (h : s.ready l) (hc : firstEvent c = .lkRequest l r)
    (hs : serve l r (s.begun l) = ⟨z, [], ⟨status, data⟩⟩) (hr : ∀ straps, r ≠ .warmReset straps := by nofun) :
    exec c s = .next (z.answered l (s.checkMode l) status data) := by
  rw [exec_carriesOut h hc hs hr, State.carriesOut, settle_nil]

/-- A request that changes nothing. -/
theorem exec_replies (h : s.ready l) (hc : firstEvent c = .lkRequest l r)
    (hs : serve l r (s.begun l) = ⟨s.begun l, [], ⟨status, data⟩⟩) (hr : ∀ straps, r ≠ .warmReset straps := by nofun) :
    exec c s = .next (s.replies l status data) :=
  exec_answered h hc hs hr

end

/-! ## The supply monitor -/

/-- What a supply monitor's change hands on: the state first, then GRID_LOSS, then UPS_LOW (R178). -/
theorem setSupply_eq (m : Supply) (s : State) :
    setSupply m s =
      ({ s with sm := m },
       if m.state = s.sm.state then []
       else
         [.lmSupply m.state, .ymSupply m.state, .cuSupply m.state] ++
         (if s.sm.state = .full then [.ctPresent (gridLossRaise (m.ups.getD 0))]
          else if m.state = .full then [.ctAbsent gridLossCode] else []) ++
         (if m.state = .low then [.ctPresent (upsLowRaise (m.ups.getD 0))]
          else if s.sm.state = .low then [.ctAbsent upsLowCode] else [])) := by
  have hgrid (n : Nat) : (gridLossRaise n).code = gridLossCode := rfl
  have hups (n : Nat) : (upsLowRaise n).code = upsLowCode := rfl
  cases hnew : m.state <;> cases hold : s.sm.state <;>
    simp [setSupply, supplyHandover, viewReport, Supply.gridView, Supply.upsView, gridViewOf, upsViewOf, hgrid, hups,
      hnew, hold, upsDetail]

theorem stateOnLoss_eq (ups : Option Nat) :
    stateOnLoss ups = if ∃ p, ups = some p ∧ p < 20 then .low else .aux := by
  cases ups <;> simp [stateOnLoss]

theorem stateOnSample_eq (st : SupplyState) (p : Nat) :
    stateOnSample st p = if st = .aux ∧ p < 20 then .low else if st = .low ∧ 30 ≤ p then .aux else st := by
  cases st <;> simp [stateOnSample]

/-- Settles O58, by the input's event: the grid as it was, present, lost in FULL, lost elsewhere, the settle's end, and a
UPS sample by its validity. -/
theorem supplyMonitorFollowsItsInputs : Obligations.SupplyMonitorFollowsItsInputs := by
  intro s hu hsound
  refine ⟨?same, fun hgrid => ?present, fun hgrid hfull => ?lost, fun hgrid hfull => ?cancelled, fun hsettle => ?settled,
    fun reading hbad => ?invalid, fun p hp => ?sample⟩
  case same =>
    rintro present rfl
    refine exec_quiet hu ?_
    cases hgrid : s.sm.grid <;> simp [firstEvent, handle, takeGrid, hgrid]
  case present =>
    have hfull : s.sm.state ≠ .full := fun h => by simp [hsound.full h] at hgrid
    refine exec_comesTo hu ?_
    simp only [firstEvent, handle, takeGrid, hgrid, if_neg hfull, setSupply_eq]
  case lost =>
    refine exec_comesTo hu ?_
    simp only [firstEvent, handle, takeGrid, hgrid, if_pos hfull, setSupply_eq, stateOnLoss_eq]
  case cancelled =>
    refine exec_comesTo hu ?_
    simp only [firstEvent, handle, takeGrid, hgrid, if_neg hfull, setSupply_eq]
  case settled =>
    obtain ⟨ms, hms⟩ := Option.isSome_iff_exists.mp hsettle
    refine exec_comesTo hu ?_
    simp only [firstEvent, handle, takeSettled, hms, setSupply_eq]
  case invalid =>
    have hnone : validUps reading = none := by
      cases reading with
      | none => rfl
      | some p => exact if_neg (Nat.not_le.mpr (hbad p rfl))
    refine exec_quiet hu ?_
    simp only [firstEvent, handle, takeUps, hnone]
  case sample =>
    refine exec_comesTo hu ?_
    simp only [firstEvent, handle, takeUps, validUps, if_pos hp, setSupply_eq, stateOnSample_eq]

/-! ## Key and silence -/

/-- The request's command is the row whose one event is its whole frame. -/
theorem firstEvent_of_command {l : Link} {r : Request} {c : Instr} (h : r.command l = some c) :
    firstEvent c = .lkRequest l r := by
  cases r <;> cases h <;> rfl

/-- Settles O59, by the key's read, the silence timer's end, and the next request on the main link. -/
theorem keyAndSilenceAreWatched : Obligations.KeyAndSilenceAreWatched := by
  intro s hu
  refine ⟨fun on => ?key, fun hsilence => ?silent, fun htakes hframe hview r c hc => ?request⟩
  case key =>
    refine exec_comesTo hu ?_
    by_cases h : s.keyOwed = false ∧ s.keyView = on
    · simp [firstEvent, handle, takeKey, h]
    · have howed : s.keyOwed = true ∨ s.keyView ≠ on := by
        rwa [not_and_or, Bool.not_eq_false] at h
      cases on <;> simp only [firstEvent, handle, takeKey, if_pos howed, if_neg h] <;> rfl
  case silent =>
    obtain ⟨ms, hms⟩ := Option.isSome_iff_exists.mp hsilence
    refine exec_comesTo hu ?_
    simp only [firstEvent, handle, takeSilenceExpiry, hms]
  case request =>
    have hlink : (s.links.get .main).frame ≠ .receiving := hframe
    rw [exec_run hu, firstEvent_of_command hc, run_one hu]
    have hfirst : handle (.lkRequest .main r) s =
        (s.setLink .main { (s.links.get .main).ends with ackSlot := .ack, driven := [] }, [.lkBegin .main r]) := by
      simp only [handle, takeRequest, htakes, if_true, if_neg hlink]
    have hsecond : leftAfter 1 = leftAfter 2 + 1 := rfl
    rw [hfirst, hsecond, settle_one]
    simp only [handle, takeBegin, setLink_silenceView, hview, if_true, silenceStart]
    rfl

end Sys2Proof.Machine
end

section
/-! The envelope: SET_DEMAND and the other inputs recompute it (R61 to R72), a ramp step raises C (R73). -/

namespace Sys2Proof.Machine

/-- The main link is refused under the key, and no other (R193). -/
theorem keyRefuses_iff {s : State} {l : Link} : s.keyRefuses l = true ↔ l = .main ∧ s.keyView = true := by
  simp [State.keyRefuses]

/-- Rounding toward minus infinity by a number that is not negative is Lean's division (section 4.2). -/
theorem floorDiv_eq {a b : Int} (h : 0 ≤ b) : floorDiv a b = a / b := Int.fdiv_eq_ediv_of_nonneg a h

/-! ## What a recomputation does -/

/-- A recomputed envelope holds the inputs of the one it came from, is sound, and takes C down at once or lets the ramp
take it up (R70 to R72). -/
structure Envelope.recomputedFrom (z e : Envelope) : Prop where
  sound : e.sound
  demand : e.demand = z.demand
  capEff : e.capEff = z.capEff
  capSource : e.capSource = z.capSource
  running : e.running = z.running
  excluded : e.excluded = z.excluded
  factor : e.factor = z.factor
  down : e.target ≤ z.commanded → e.commanded = e.target ∧ e.ramp = none
  up : z.commanded < e.target → e.commanded = z.commanded ∧ e.ramp = some (z.ramp.getD 100)

theorem recompute_recomputedFrom (z : Envelope) : z.recomputedFrom z.recompute where
  sound := recompute_sound z
  demand := rfl
  capEff := rfl
  capSource := rfl
  running := rfl
  excluded := rfl
  factor := rfl
  down h := ⟨if_pos h, if_pos h⟩
  up h := ⟨if_neg (Nat.not_le.mpr h), if_neg (Nat.not_le.mpr h)⟩

/-- What a changed demand hands the lane manager (R62). -/
theorem demandHandover_eq {old new : Nat} (h : new ≠ old) :
    demandHandover old new = if old = 0 then [.lmDemand true] else if new = 0 then [.lmDemand false] else [] := by
  by_cases hold : old = 0 <;> by_cases hnew : new = 0 <;>
    simp_all [demandHandover, Nat.pos_iff_ne_zero]

section
variable {s : State} {l : Link} {d : Nat}

theorem serveSetDemand_refused (h : l = .main ∧ s.keyView = true) :
    serveSetDemand l d s = Served.refused s .refusedAuthority := if_pos (keyRefuses_iff.mpr h)

/-- SET_DEMAND stores the demand, 16000 at most; one already held does nothing (R61). -/
theorem serveSetDemand_taken (h : ¬(l = .main ∧ s.keyView = true)) :
    serveSetDemand l d s =
      if min d 16000 = s.eu.demand then
        ⟨s, [], ⟨if d ≤ 16000 then .done else .clamped, word (min d 16000)⟩⟩
      else
        ⟨{ s with eu := Envelope.recompute { s.eu with demand := min d 16000 } },
          envelopeHandover s.eu (Envelope.recompute { s.eu with demand := min d 16000 }) ++
            demandHandover s.eu.demand (min d 16000),
          ⟨if d ≤ 16000 then .done else .clamped, word (min d 16000)⟩⟩ := by
  have hmin : (if d ≤ 16000 then d else 16000) = min d 16000 := rfl
  rw [serveSetDemand, if_neg fun hk => h (keyRefuses_iff.mp hk)]
  simp only [hmin]
  rfl

end

/-! ## The thermal factor and the running set -/

theorem thermalFactor_eq (tw tl t : Int) :
    thermalFactor tw tl t = if t ≤ tw then 64 else if tl ≤ t then 0 else (64 * (tl - t) / (tl - tw)).toNat := by
  unfold thermalFactor
  split
  · rfl
  · split
    · rfl
    · rw [floorDiv_eq (by omega)]

theorem hasBit_withMember (set : LaneSet) (n k : Fin 4) (yes : Bool) :
    hasBit (withMember set n yes) k.val = if k = n then yes else hasBit set k.val := by
  have hone : (oneBit 4 n.val).getLsbD k.val = decide (k = n) := by
    rw [oneBit, BitVec.getLsbD_ofNat, Nat.testBit_two_pow, decide_eq_true k.isLt, Bool.true_and]
    simp only [Fin.ext_iff, eq_comm]
  have hset : hasBit (withMember set n yes) k.val =
      if yes then hasBit set k.val || decide (k = n) else hasBit set k.val && !decide (k = n) := by
    rw [← hone]
    cases yes <;> simp [withMember, hasBit]
  rw [hset]
  by_cases hk : k = n <;> simp [hk]

/-- A lane set is its members. -/
theorem laneSet_ext {a b : LaneSet} (h : ∀ k : Fin 4, hasBit a k.val = hasBit b k.val) : a = b :=
  BitVec.eq_of_getLsbD_eq fun i hi => h ⟨i, hi⟩

/-! ## The obligations -/

/-- Settles O42, by what a recomputation does, for each input whose change starts one. -/
theorem inputsRecomputeTheEnvelope : Obligations.InputsRecomputeTheEnvelope := by
  refine ⟨fun s l d hready => ⟨fun hl hk => ?refused, fun hk => ⟨fun hsame => ?same, fun hnew => ?demand⟩⟩, ?inputs⟩
  case refused => exact exec_replies hready rfl (serveSetDemand_refused ⟨hl, by simpa using hk⟩)
  case same =>
    refine exec_replies hready rfl ((serveSetDemand_taken (by simpa using hk)).trans ?_)
    rw [begun_eu, if_pos hsame]
  case demand =>
    obtain ⟨hsound, hdemand, hcap, hsource, hrunning, hexcluded, hfactor, hdown, hup⟩ :=
      recompute_recomputedFrom { s.eu with demand := min d 16000 }
    refine ⟨_, hsound, hdemand, hcap, hsource, hrunning, hexcluded, hfactor, hdown, hup, ?_⟩
    refine exec_carriesOut hready rfl ((serveSetDemand_taken (by simpa using hk)).trans ?_)
    rw [begun_eu, if_neg hnew, demandHandover_eq hnew]
  case inputs =>
    intro s
    have recomputes (ev : Ev) (z : Envelope) (h : handle ev s = recomputeFrom z s) :
        ∃ e : Envelope, e.sound ∧ e.demand = z.demand ∧ e.capEff = z.capEff ∧ e.capSource = z.capSource ∧
          e.running = z.running ∧ e.excluded = z.excluded ∧ e.factor = z.factor ∧
          (e.target ≤ z.commanded → e.commanded = e.target ∧ e.ramp = none) ∧
          (z.commanded < e.target → e.commanded = z.commanded ∧ e.ramp = some (z.ramp.getD 100)) ∧
          handle ev s = ({ s with eu := e }, envelopeHandover s.eu e) := by
      obtain ⟨hsound, hdemand, hcap, hsource, hrunning, hexcluded, hfactor, hdown, hup⟩ := recompute_recomputedFrom z
      exact ⟨_, hsound, hdemand, hcap, hsource, hrunning, hexcluded, hfactor, hdown, hup, h⟩
    refine ⟨fun n t => ⟨fun hsame => ?_, fun hnew => recomputes _ _ ?_⟩,
      fun n running set hset => ⟨fun hsame => ?_, fun hnew => recomputes _ _ ?_⟩,
      fun d => ⟨fun hcap hlanes => ?_, fun hd => recomputes _ _ (if_pos hd)⟩⟩
    · exact if_pos (hsame.trans (congrArg some (thermalFactor_eq _ _ _).symm))
    · have hfactor := thermalFactor_eq (s.setting 3) (max (s.setting 4) (s.setting 3 + 50)) t
      exact (if_neg fun h => hnew (h.trans (congrArg some hfactor))).trans (by rw [← hfactor]; rfl)
    · exact if_pos ((laneSet_ext fun k => (hasBit_withMember _ n k running).trans (hset k).symm).trans hsame)
    · have hmember : withMember s.eu.running n running = set :=
        laneSet_ext fun k => (hasBit_withMember _ n k running).trans (hset k).symm
      exact (if_neg fun h => hnew (hmember.symm.trans h)).trans (by rw [hmember])
    · exact if_neg (by simp [hcap, hlanes])

/-- Each share lies between its floor and 1 kW above it (R75, R76). -/
theorem sharesOf_near (available : LaneSet) (headroom : Four Nat) (total c : Nat) (n : Fin 4) :
    c * headroom.get n / total ≤ (sharesOf available headroom total c).get n ∧
      (sharesOf available headroom total c).get n ≤ c * headroom.get n / total + 1 := by
  obtain ⟨r, hr⟩ := sharesOf_get available headroom total c n
  have hfloor : flooredShare c total (headroom.get n) = c * headroom.get n / total := by
    unfold flooredShare
    split
    next h => rw [h, Nat.div_zero]
    next => rfl
  have hroom (a : Bool) (h x : Nat) : roomFor a h x ≤ 1 := by
    unfold roomFor
    split <;> omega
  rw [hr, spread_eq, hfloor]
  have := hroom (hasBit available n.val) (headroom.get n) (c * headroom.get n / total)
  constructor <;> dsimp only <;> omega

/-- A handover names the new value first where it says that nothing changed (R79, R80). -/
theorem envelopeHandover_eq (old new : Envelope) :
    envelopeHandover old new =
      (fourIndices.map (fun n =>
        if new.share.get n = old.share.get n then [] else [Ev.lmShare n (new.share.get n)])).flatten ++
      (if new.commanded = old.commanded then [] else [.cuCommanded new.commanded]) := by
  have hshare : shareHandover old.share new.share =
      fun n => if new.share.get n = old.share.get n then [] else [Ev.lmShare n (new.share.get n)] :=
    funext fun n => if_congr eq_comm rfl rfl
  rw [envelopeHandover, hshare]
  exact congrArg _ (if_congr eq_comm rfl rfl)

/-- Settles O43, by the ramp step that the timer's end takes. -/
theorem rampStepRaisesCommanded : Obligations.RampStepRaisesCommanded := by
  intro s hu hsound hramp
  obtain ⟨ms, hms⟩ := Option.isSome_iff_exists.mp hramp
  refine ⟨s.eu.step (s.settingNat 1), ramp_step_sound hsound _, ?_, fun n => sharesOf_near _ _ _ _ n, exec_comesTo hu ?_⟩
  · have hend : min s.eu.target (s.eu.commanded + s.settingNat 1) = s.eu.target ↔
        s.eu.target ≤ s.eu.commanded + s.settingNat 1 := by omega
    simp only [Envelope.step, hend]
    rfl
  · simp only [firstEvent, handle, takeRampStep, hms, setEnvelope, envelopeHandover_eq]

end Sys2Proof.Machine
end

section
/-! SET_SETTING (R202): what a write clamps, stores and sets off. -/

namespace Sys2Proof.Machine

/-- A write of fan_min sets every loop's duty as it stands (R165). -/
theorem fanMin_get (st : List Int) (u : Cooling) (k : Fin 3) :
    (threeIndices.foldl (fun v l => v.setDuty st l) u).loops.get k = { u.loops.get k with duty := u.dutyNow st k } :=
  match k with
  | 0 | 1 | 2 => rfl

theorem fanMin_rest (st : List Int) (u : Cooling) :
    threeIndices.foldl (fun v l => v.setDuty st l) u =
      { u with loops := (threeIndices.foldl (fun v l => v.setDuty st l) u).loops } := rfl

/-! ## The value stored -/

theorem clampInt_eq (lo hi v : Int) : clampInt lo hi v = if v < lo then lo else if hi < v then hi else v := rfl

/-- The store after a write: storm_release stays under storm_wind and unwind_stop under unwind_start (R202 step 4). -/
theorem writeSetting_eq (st : List Int) (id : Nat) (v : Int) :
    writeSetting st id v =
      match id with
      | 13 => (st.set (id - 1) v).set 13 (min (settingOf st 14) (v - 20))
      | 10 => (st.set (id - 1) v).set 10 (min (settingOf st 11) (v - 1800))
      | _ => st.set (id - 1) v := by
  have hstorm : settingOf (withSetting st 13 v) 14 = settingOf st 14 := settingOf_withSetting_ne (by decide) v
  have hunwind : settingOf (withSetting st 10 v) 11 = settingOf st 11 := settingOf_withSetting_ne (by decide) v
  by_cases h13 : id = 13
  · subst h13
    exact congrArg (withSetting (withSetting st 13 v) 14) (by rw [hstorm])
  · by_cases h10 : id = 10
    · subst h10
      exact congrArg (withSetting (withSetting st 10 v) 11) (by rw [hunwind])
    · simp only [writeSetting, withSetting]

section
variable {s : State} {l : Link} {id : Nat} {value : Int}

theorem serveSetSetting_unknown (h : id = 0 ∨ 38 < id) : serveSetSetting l id value s = Served.refused s .badValue := by
  have hid : knownSetting id = false := by
    rw [← Bool.not_eq_true, knownSetting_iff]
    omega
  simp only [serveSetSetting, hid, Bool.not_false, if_true]

theorem serveSetSetting_locked (hid : knownSetting id = true) (h : id = 5 ∧ l = .main ∧ s.keyView = true) :
    serveSetSetting l id value s = Served.refused s .refusedAuthority := by
  simp only [serveSetSetting, hid, Bool.not_true, Bool.false_eq_true, if_false,
    if_pos (show id = 5 ∧ s.keyRefuses l = true from ⟨h.1, keyRefuses_iff.mpr h.2⟩)]

/-- A write that nothing refuses: a value already held does nothing, another is stored and acts (R202). -/
theorem serveSetSetting_taken (hid : knownSetting id = true) (h : ¬(id = 5 ∧ l = .main ∧ s.keyView = true)) :
    serveSetSetting l id value s =
      if clampSetting s.settings id value = s.setting id then
        ⟨s, [], ⟨if clampSetting s.settings id value = value then .done else .clamped,
          signed (clampSetting s.settings id value)⟩⟩
      else
        Served.did
          (settingActs id (clampSetting s.settings id value)
            { s with settings := writeSetting s.settings id (clampSetting s.settings id value) })
          (if clampSetting s.settings id value = value then .done else .clamped)
          (signed (clampSetting s.settings id value)) := by
  have hkey : ¬(id = 5 ∧ s.keyRefuses l = true) := fun hk => h ⟨hk.1, keyRefuses_iff.mp hk.2⟩
  simp only [serveSetSetting, hid, Bool.not_true, Bool.false_eq_true, if_false, if_neg hkey]
  rfl

end

/-- Settles O60, by the checks in their order, then by what the written setting acts on. -/
theorem setSettingStoresAndActs : Obligations.SetSettingStoresAndActs := by
  intro s l id value hready
  refine ⟨fun hid => exec_replies hready rfl (serveSetSetting_unknown hid), fun hlow hhigh => ?_⟩
  have hid : knownSetting id = true := knownSetting_iff.mpr ⟨hlow, hhigh⟩
  intro lo hi ranged v status st stored
  have hv : clampSetting s.settings id value = v := rfl
  have hstored : writeSetting s.settings id v = stored := writeSetting_eq _ _ _
  refine ⟨fun hfive hmain hkey => exec_replies hready rfl (serveSetSetting_locked hid ⟨hfive, hmain, by simpa using hkey⟩),
    fun hfree => ?_⟩
  have hserve := serveSetSetting_taken (s := s.begun l) (value := value) hid (l := l) (by simpa using hfree)
  simp only [begun_settings, begun_setting, hv, hstored] at hserve
  refine ⟨fun hsame => ?same, fun hnew htracking hfan => ?other, fun hnew hfan => ?fan, fun hnew htracking => ?tracking⟩
  case same => exact exec_replies hready rfl (hserve.trans (if_pos hsame))
  case other =>
    refine exec_answered hready rfl ((hserve.trans (if_neg hnew)).trans ?_)
    simp only [settingActs]
    rfl
  case fan =>
    subst hfan
    refine ⟨threeIndices.foldl (fun u k => u.setDuty stored k) s.cu,
      exec_answered hready rfl ((hserve.trans (if_neg hnew)).trans ?_), fanMin_rest stored s.cu, fanMin_get stored s.cu⟩
    simp only [settingActs, takeFanMin, Act.update, begun_cu]
    rfl
  case tracking =>
    subst htracking
    exact exec_carriesOut hready rfl ((hserve.trans (if_neg hnew)).trans rfl)

end Sys2Proof.Machine
end

section
/-! The cooling unit: temperature samples, derating, fans (R155, R163 to R168), flow, priming and demand (R157 to R162). -/

namespace Sys2Proof.Machine

/-! ## The loops of the unit -/

theorem put_get_self (u : Cooling) (l : Fin 3) (x : Loop) : (u.put l x).loops.get l = x := by
  rw [put_get, if_pos rfl]

theorem put_put (u : Cooling) (l : Fin 3) (x y : Loop) : (u.put l x).put l y = u.put l y :=
  match l with
  | 0 | 1 | 2 => rfl

theorem put_self (u : Cooling) (l : Fin 3) : u.put l (u.loops.get l) = u :=
  match l with
  | 0 | 1 | 2 => rfl

/-- The loops are their three records. -/
theorem three_ext {α : Type} {v w : Three α} (h : ∀ l : Fin 3, v.get l = w.get l) : v = w := by
  obtain ⟨a, b, c⟩ := v
  exact congr (congr (congrArg Three.mk (h 0)) (h 1)) (h 2)

/-- A loop replaced hands its pump over where it is L0 and the pump changed (R162). -/
theorem setCooling_put (s : State) (l : Fin 3) (x : Loop) (after : List Ev) :
    setCooling (s.cu.put l x) after s =
      ({ s with cu := s.cu.put l x },
       (if l = 0 ∧ (s.cu.loops.get l).pump ≠ x.pump then [.lmPump x.pump] else []) ++ after) := by
  have hpump : (if s.cu.loops.x0.pump = (s.cu.put l x).loops.x0.pump then [] else [Ev.lmPump (s.cu.put l x).loops.x0.pump])
      = if l = 0 ∧ (s.cu.loops.get l).pump ≠ x.pump then [.lmPump x.pump] else [] := by
    match l with
    | 0 =>
      have hx : (s.cu.put 0 x).loops.x0 = x := rfl
      have hget : s.cu.loops.get 0 = s.cu.loops.x0 := rfl
      simp only [hx, hget, true_and, ne_eq, ite_not]
    | 1 | 2 => exact if_pos rfl
  rw [setCooling, hpump]

/-! ## The fan law and the loop factor (R163, R166) -/

theorem fanLaw_eq (st : List Int) (l : Fin 3) (c : Nat) (t : Option Int) :
    fanLaw st l c t =
      (let forward : Int := if l.val = 2 then 0 else ((c * 25 / 16000 : Nat) : Int)
       let error : Int := match t with
         | none => 0
         | some v => settingOf st (31 + l.val) * (v - settingOf st (22 + l.val)) / 10
       if forward + error < settingOf st 34 then settingOf st 34
       else if 100 < forward + error then 100 else forward + error).toNat := by
  have herror : errorTerm st l t = match t with
      | none => 0
      | some v => settingOf st (31 + l.val) * (v - settingOf st (22 + l.val)) / 10 := by
    cases t with
    | none => rfl
    | some v => exact floorDiv_eq (by decide)
  simp only [fanLaw, clampInt_eq, herror]
  rfl

theorem loopFactor_eq {warn trip : Int} (h : warn ≤ trip) (t : Int) :
    loopFactor warn trip t = if t ≤ warn then 64 else if trip ≤ t then 0 else (64 * (trip - t) / (trip - warn)).toNat := by
  rw [loopFactor, floorDiv_eq (by omega)]

/-! ## A temperature sample -/

theorem validTemperature_none {reading : Option Int} (h : ∀ t, reading = some t → t < -400 ∨ 1500 < t) :
    validTemperature reading = none := by
  cases reading with
  | none => rfl
  | some t =>
    have := h t rfl
    exact if_neg (by omega)

/-- The derate of a valid sample (R166 to R168). -/
theorem takeDerate_valid {s : State} {l : Fin 3} {t : Int} (ht : (s.cu.loops.get l).tOut = some t) :
    takeDerate l true s =
      (let x := s.cu.loops.get l
       let f := loopFactor (warnInUse s.settings l) (tripInUse s.settings l) t
       let hot := hotView x.hotView (warnInUse s.settings l) t
       let escalated := stillEscalated l s.table x
       ({ s with cu := s.cu.put l { x with
            owed := false, factor := f, computedCap := 250 * f, hotView := hot, hotEscalated := escalated } },
         hotReport l x.hotView hot x.owed t (250 * f) ++
         if tripInUse s.settings l ≤ t then (if escalated then [] else [.cuEscalate l])
         else hotRefresh l s.table x.hotView hot escalated (250 * f))) := by
  simp only [takeDerate, ht]
  split <;> rfl

/-- Settles O56, by the sample's events in their order. -/
theorem temperatureSamplesDerateAndCool : Obligations.TemperatureSamplesDerateAndCool := by
  intro s l hu
  refine ⟨fun t hlow hhigh => ?valid, fun reading hbad => ?invalid, fun t ht => ?derate, ?fan, ?unread, ?escalate⟩
  case valid =>
    refine exec_comesTo hu ?_
    simp only [firstEvent, handle, takeSample, validTemperature, if_pos (And.intro hlow hhigh)]
  case invalid =>
    refine exec_comesTo hu ?_
    simp only [firstEvent, handle, takeSample, validTemperature_none hbad]
  case derate =>
    have hwarn : warnInUse s.settings l ≤ tripInUse s.settings l := by
      unfold tripInUse
      omega
    refine (takeDerate_valid ht).trans ?_
    rw [loopFactor_eq hwarn]
    rfl
  case fan =>
    simp only [handle, takeFan, Act.update, Cooling.setDuty, Cooling.dutyNow, fanLaw_eq]
    rfl
  case unread => simp only [handle, takeDerate]
  case escalate =>
    simp only [handle, takeHotEscalation]
    refine congrArg _ ?_
    show _ = if (findCode s.table (loopHotCode l)).isSome then _ else _
    cases findCode s.table (loopHotCode l) <;> rfl

/-! ## Demand (R157, R158) -/

/-- The demand of each loop (R157). -/
theorem demanded_eq (st : List Int) (u : Cooling) (l : Fin 3) :
    u.demanded st l =
      match l with
      | 0 => u.supply == .full && u.laneDemand
      | 1 => u.supply == .full && (decide (0 < u.commanded) ||
          match (u.loops.get 1).tOut with
          | none => false
          | some t => decide (settingOf st 23 < t))
      | 2 => u.supply != .low := by
  match l with
  | 0 | 1 | 2 => cases hs : u.supply <;> simp [Cooling.demanded, hs, loopSet] <;> rfl

/-- A pump at a demand evaluation (R158). -/
theorem evaluate_match (x : Loop) (d : Bool) :
    x.evaluate d =
      match x.pump, d with
      | .off, true => { x with pump := .priming, prime := some 5000, misses := 0 }
      | .priming, false => { x with pump := .off, prime := none }
      | .running, false => { x with pump := .off, misses := 0, duty := 0 }
      | _, _ => x := rfl

/-- The cooling unit replaced, with nothing else to hand on (R162). -/
theorem setCooling_eq (u : Cooling) (s : State) :
    setCooling u [] s =
      ({ s with cu := u }, if u.loops.x0.pump = s.cu.loops.x0.pump then [] else [.lmPump u.loops.x0.pump]) := by
  rw [setCooling, List.append_nil]
  exact congrArg _ (if_congr eq_comm rfl rfl)

/-- A failure whose raise was folded is free where no OVERFLOW record is present (R161). -/
theorem foldFreed_iff (table : List Record) (x : Loop) :
    foldFreed table x = true ↔ x.pump = .failed ∧ x.failFolded = true ∧ ∀ q ∈ table, q.code ≠ ⟨0, 1⟩ := by
  simp only [foldFreed, Bool.and_eq_true, beq_iff_eq, findCode, Option.isNone_iff_eq_none, List.find?_eq_none, and_assoc]
  rfl

/-- A pump out of FAILED is evaluated once: another evaluation moves nothing. -/
theorem evaluate_evaluate (x : Loop) (d : Bool) :
    (({ x with pump := .off } : Loop).evaluate d).evaluate d = ({ x with pump := .off } : Loop).evaluate d := by
  cases d <;> rfl

theorem evaluate_supply (st : List Int) (u : Cooling) :
    threeIndices.foldl (fun v l => v.evaluate st l) u =
      { u with
        loops := ⟨u.loops.x0.evaluate (u.demanded st 0), u.loops.x1.evaluate (u.demanded st 1),
          u.loops.x2.evaluate (u.demanded st 2)⟩ } := by
  simp only [threeIndices, List.foldl, Cooling.evaluate, demanded_eq]
  rfl

theorem evaluate_tOut (x : Loop) (d : Bool) : (x.evaluate d).tOut = x.tOut := by
  unfold Loop.evaluate
  split <;> rfl

theorem release_eq (st : List Int) (u : Cooling) (l : Fin 3) :
    u.release st l =
      if (u.loops.get l).pump = .failed then
        u.put l (({ u.loops.get l with pump := .off } : Loop).evaluate (u.demanded st l))
      else u := by
  have hdemand : (u.put l { u.loops.get l with pump := .off }).demanded st l = u.demanded st l := by
    match l with
    | 0 | 1 | 2 => simp only [demanded_eq]; rfl
  rw [Cooling.release, Cooling.evaluate, hdemand, put_get_self, put_put]

/-- A demand evaluated at a temperature sample: a folded failure freed, then L1's own demand (R155 step 3, R161). -/
theorem sampleDemand_eq (s : State) (l : Fin 3) :
    takeSampleDemand l s =
      setCooling
        (s.cu.put l
          (if foldFreed s.table (s.cu.loops.get l) then
            ({ s.cu.loops.get l with pump := .off } : Loop).evaluate (s.cu.demanded s.settings l)
           else if l = 1 then (s.cu.loops.get l).evaluate (s.cu.demanded s.settings 1)
           else s.cu.loops.get l)) [] s := by
  have hfailed : foldFreed s.table (s.cu.loops.get l) = true → (s.cu.loops.get l).pump = .failed := by
    simp only [foldFreed, Bool.and_eq_true, beq_iff_eq]
    exact fun h => h.1.1
  have hdemand (x : Loop) (hx : x.tOut = (s.cu.loops.get 1).tOut) :
      (s.cu.put 1 x).demanded s.settings 1 = s.cu.demanded s.settings 1 := by
    simp only [demanded_eq, put_get_self, hx]
    rfl
  refine congrArg (fun u => setCooling u [] s) ?_
  by_cases hfreed : foldFreed s.table (s.cu.loops.get l) = true
  · simp only [if_pos hfreed, release_eq, if_pos (hfailed hfreed)]
    split
    next hl =>
      subst hl
      have hd := hdemand _ (evaluate_tOut { s.cu.loops.get 1 with pump := .off } (s.cu.demanded s.settings 1))
      simp only [Cooling.evaluate, put_get_self, put_put, hd, evaluate_evaluate]
    next => rfl
  · simp only [if_neg hfreed]
    split
    next hl =>
      subst hl
      rfl
    next => exact (put_self _ _).symm

/-! ## Boosts (R163, R164) -/

/-- The loops after a change of the boosts (R164). -/
theorem reboost_eq (st : List Int) {old u : Cooling} (h : u.loops = old.loops) :
    Cooling.reboost st old u =
      (let reboosted := fun k : Fin 3 =>
        if old.boosted k = u.boosted k then old.loops.get k else { old.loops.get k with duty := u.dutyNow st k }
       { u with loops := ⟨reboosted 0, reboosted 1, reboosted 2⟩ }) := by
  have hrest : Cooling.reboost st old u = { u with loops := (Cooling.reboost st old u).loops } := by
    obtain ⟨a, ha⟩ : ∃ v, Cooling.boostDuty st old u 0 = { u with loops := v } := ⟨_, boostDuty_rest _ _ _ _⟩
    obtain ⟨b, hb⟩ : ∃ v, Cooling.boostDuty st old { u with loops := a } 1 = { u with loops := v } :=
      ⟨_, boostDuty_rest _ _ _ _⟩
    obtain ⟨c, hc⟩ : ∃ v, Cooling.boostDuty st old { u with loops := b } 2 = { u with loops := v } :=
      ⟨_, boostDuty_rest _ _ _ _⟩
    simp only [Cooling.reboost, threeIndices, List.foldl, ha, hb, hc]
  have hloops := reboost_get st old u
  simp only [h, ne_eq, ite_not] at hloops
  rw [hrest]
  refine congrArg (fun v : Three Loop => { u with loops := v }) (three_ext fun l => ?_)
  match l with
  | 0 => exact hloops 0
  | 1 => exact hloops 1
  | 2 => exact hloops 2

/-- No boost moves a pump. -/
theorem setCooling_reboost (s : State) {u : Cooling} (h : u.loops = s.cu.loops) :
    setCooling (Cooling.reboost s.settings s.cu u) [] s = ({ s with cu := Cooling.reboost s.settings s.cu u }, []) := by
  have hpump : s.cu.loops.x0.pump = (Cooling.reboost s.settings s.cu u).loops.x0.pump := by
    rw [reboost_eq s.settings h]
    dsimp only
    split <;> rfl
  rw [setCooling, if_pos hpump, List.nil_append]

/-! ## Flow (R159, R160) -/

section
variable {s : State} {l : Fin 3}

theorem takeFlow_priming (h : (s.cu.loops.get l).pump = .priming) (seen : Bool) :
    takeFlow l seen s =
      setCooling
        (s.cu.put l
          (if seen then
            { s.cu.loops.get l with
              flow := true, pump := .running, prime := none, misses := 0
              duty := if s.cu.boosted l then 100 else fanLaw s.settings l s.cu.commanded (s.cu.loops.get l).tOut }
           else { s.cu.loops.get l with flow := false })) [] s := by
  have hflow : takeFlow l seen s =
      if seen then setCooling ((s.cu.sees l seen).runs s.settings l) [] s else setCooling (s.cu.sees l seen) [] s := by
    simp only [takeFlow, h]
  rw [hflow]
  cases seen with
  | false => rfl
  | true =>
    simp only [if_true, Cooling.runs, Cooling.sees, Cooling.setDuty, Cooling.dutyNow, put_get_self, put_put]
    rfl

theorem takeFlow_running (h : (s.cu.loops.get l).pump = .running) (seen : Bool) :
    takeFlow l seen s =
      if seen then setCooling (s.cu.put l { s.cu.loops.get l with flow := true, misses := 0 }) [] s
      else if 3 ≤ (s.cu.loops.get l).misses + 1 then
        setCooling (s.cu.put l ({ s.cu.loops.get l with flow := false } : Loop).fails) [.ctRaise (pumpFailRaise l 2)] s
      else
        setCooling (s.cu.put l { s.cu.loops.get l with flow := false, misses := (s.cu.loops.get l).misses + 1 }) [] s := by
  cases seen <;> simp only [takeFlow, h, Cooling.sees, Cooling.withMisses, put_get_self, put_put] <;> rfl

theorem takeFlow_still (h : (s.cu.loops.get l).pump = .off ∨ (s.cu.loops.get l).pump = .failed) (seen : Bool) :
    takeFlow l seen s = setCooling (s.cu.put l { s.cu.loops.get l with flow := seen }) [] s := by
  have hflow : takeFlow l seen s = setCooling (s.cu.sees l seen) [] s := by
    rcases h with h | h <;> simp only [takeFlow, h]
  exact hflow

end

/-- Settles O57, by the pump's state at a flow read, then by the event that evaluates a demand or a boost. -/
theorem flowAndPrimingMoveThePump : Obligations.FlowAndPrimingMoveThePump := by
  intro s l hu
  refine ⟨fun hpump => ⟨?idle, ?runs⟩, fun hpump => ⟨?clears, fun hmisses => ?miss, fun hmisses => ?fails⟩,
    fun hpump seen => ?still, fun hprime => ?timeout, fun yes => ?lanes, fun kw => ?commanded, fun st => ?supply, ?retired,
    ?sample, fun set => ⟨?boost, ?reaction⟩⟩
  case idle => exact exec_comesTo hu ((takeFlow_priming hpump false).trans (setCooling_put _ _ _ _))
  case runs => exact exec_comesTo hu ((takeFlow_priming hpump true).trans (setCooling_put _ _ _ _))
  case clears => exact exec_comesTo hu ((takeFlow_running hpump true).trans (setCooling_put _ _ _ _))
  case miss =>
    exact exec_comesTo hu ((takeFlow_running hpump false).trans (if_neg nofun |>.trans
      ((if_neg (by omega)).trans (setCooling_put _ _ _ _))))
  case fails =>
    exact exec_comesTo hu ((takeFlow_running hpump false).trans (if_neg nofun |>.trans
      ((if_pos (by omega)).trans (setCooling_put _ _ _ _))))
  case still => exact exec_comesTo hu ((takeFlow_still hpump seen).trans (setCooling_put _ _ _ _))
  case timeout =>
    obtain ⟨ms, hms⟩ := Option.isSome_iff_exists.mp hprime
    refine exec_comesTo hu (Eq.trans ?_ (setCooling_put _ _ _ _))
    simp only [firstEvent, handle, takePrimeTimeout, hms]
    rfl
  case lanes =>
    refine (setCooling_eq _ s).trans ?_
    rw [Cooling.evaluate, demanded_eq, evaluate_match] <;> rfl
  case commanded =>
    refine (setCooling_eq _ s).trans ?_
    rw [Cooling.evaluate, demanded_eq, evaluate_match] <;> rfl
  case supply =>
    refine (setCooling_eq _ s).trans ?_
    simp only [evaluate_supply, demanded_eq, evaluate_match]
    rfl
  case retired =>
    refine (setCooling_eq _ s).trans ?_
    rw [release_eq, demanded_eq, evaluate_match] <;> rfl
  case sample =>
    refine (sampleDemand_eq s l).trans ((setCooling_eq _ s).trans ?_)
    simp only [foldFreed_iff]
    simp only [demanded_eq, evaluate_match]
    rfl
  case boost =>
    refine (setCooling_reboost s (u := { s.cu with boost := set }) rfl).trans ?_
    rw [reboost_eq s.settings (old := s.cu) (u := { s.cu with boost := set }) rfl]
    simp only [Cooling.dutyNow, fanLaw_eq]
    rfl
  case reaction =>
    refine (setCooling_reboost s (u := { s.cu with reaction := set }) rfl).trans ?_
    rw [reboost_eq s.settings (old := s.cu) (u := { s.cu with reaction := set }) rfl]
    simp only [Cooling.dutyNow, fanLaw_eq]
    rfl

end Sys2Proof.Machine
end

section
/-! The lane manager, one lane at a time: what an operation leaves of a lane, what it tells, and the requests, reports and
timers of a lane (R87 to R107). -/

namespace Sys2Proof.Machine

/-! ## One lane replaced -/

theorem lane_get_put (m : LaneManager) (n k : Fin 4) (x : Lane) :
    (m.put n x).lanes.get k = if n = k then x else m.lanes.get k := Four.get_set _ _ _ _

theorem lane_get_put_self (m : LaneManager) (n : Fin 4) (x : Lane) : (m.put n x).lanes.get n = x := by
  rw [lane_get_put, if_pos rfl]

theorem lane_put_put (m : LaneManager) (n : Fin 4) (x y : Lane) : (m.put n x).put n y = m.put n y :=
  match n with
  | 0 | 1 | 2 | 3 => rfl

theorem lane_put_self (m : LaneManager) (n : Fin 4) : m.put n (m.lanes.get n) = m :=
  match n with
  | 0 | 1 | 2 | 3 => rfl

/-- A start condition in the terms of R93. -/
theorem startCondition_iff (auto : Bool) (m : LaneManager) (n : Fin 4) :
    startCondition auto m n = true ↔
      hasBit m.excluded n.val = false ∧ m.supply = .full ∧ m.pump = .running ∧
        ((m.lanes.get n).startFlag = true ∨ auto = true ∧ m.demand = true) := by
  simp [startCondition, wanted, and_assoc]

/-- The start of an OFFLINE lane evaluated (R93, R94). -/
theorem evaluateStart_offline {auto : Bool} {m : LaneManager} {n : Fin 4} {x : Lane} (h : x.state = .offline) :
    evaluateStart auto n (m.put n x) = m.put n (m.evaluated auto n x) := by
  have hlatched : latchedTrip x = x.report.any (fun r => r.severity == .trip) := by
    cases hr : x.report <;> simp [latchedTrip, hr]
  have hstart : startCondition auto (m.put n x) n = true ↔ hasBit m.excluded n.val = false ∧ m.supply = .full ∧
      m.pump = .running ∧ (x.startFlag = true ∨ auto = true ∧ m.demand = true) := by
    rw [startCondition_iff, lane_get_put_self]
    rfl
  rw [evaluateStart, LaneManager.evaluated, lane_get_put_self, leaveOffline, hlatched, lane_put_put]
  simp only [h, hstart, true_and]
  split <;> rfl

theorem evaluateStart_eq (auto : Bool) (n : Fin 4) (m : LaneManager) :
    evaluateStart auto n m =
      m.put n (if (m.lanes.get n).state = .offline then m.evaluated auto n (m.lanes.get n) else m.lanes.get n) := by
  split
  next h =>
    have hstart := evaluateStart_offline (auto := auto) (m := m) (n := n) h
    rwa [lane_put_self] at hstart
  next h => rw [lane_put_self, evaluateStart, if_neg fun hs => h hs.1]

/-- The end of a shed or of a reset (R98, R100). -/
theorem settleLane_eq (auto : Bool) (n : Fin 4) (m : LaneManager) :
    settleLane auto n m = m.put n (m.rested auto n (m.lanes.get n)) := by
  rw [settleLane, LaneManager.rested]
  split
  · rfl
  · exact evaluateStart_offline rfl

/-! ## What the lane manager tells -/

theorem setLanes_eq (m : LaneManager) (before after : List Ev) (s : State) :
    setLanes m before after s = (s.laned m, before ++ s.coolingNews m ++ after) := rfl

theorem exits_eq (s : State) (m : LaneManager) : exits s.lm m = s.exitNews m := rfl

theorem filter_lane (n : Fin 4) (b : Bool) :
    fourIndices.filter (fun k => decide (k = n) && b) = if b then [n] else [] := by
  cases b with
  | false => simp
  | true =>
    match n with
    | 0 | 1 | 2 | 3 => rfl

/-- Only the lane that is replaced can leave RUNNING. -/
theorem exits_put (m : LaneManager) (n : Fin 4) (x : Lane) :
    exits m (m.put n x) =
      if (m.lanes.get n).state = .running ∧ x.state ≠ .running then [.euLane n false] else [] := by
  have hlane (k : Fin 4) : ((m.lanes.get k).state == .running && !(((m.put n x).lanes.get k).state == .running)) =
      (decide (k = n) && ((m.lanes.get n).state == .running && x.state != .running)) := by
    rw [lane_get_put]
    by_cases hk : k = n
    · simp [hk, bne]
    · simp [hk, Ne.symm hk]
  simp only [exits, hlane, filter_lane]
  split <;> simp_all

/-- Only the lane that is replaced can enter RUNNING. -/
theorem entries_put (m : LaneManager) (n : Fin 4) (x : Lane) :
    entries m (m.put n x) =
      if (m.lanes.get n).state ≠ .running ∧ x.state = .running then [.euLane n true] else [] := by
  have hlane (k : Fin 4) : (!((m.lanes.get k).state == .running) && ((m.put n x).lanes.get k).state == .running) =
      (decide (k = n) && ((m.lanes.get n).state != .running && x.state == .running)) := by
    rw [lane_get_put]
    by_cases hk : k = n
    · simp [hk, bne]
    · simp [hk, Ne.symm hk]
  simp only [entries, hlane, filter_lane]
  split <;> simp_all

/-- Where no lane leaves RUNNING, none is told to. -/
theorem exits_eq_nil {old new : LaneManager}
    (h : ∀ n : Fin 4, (old.lanes.get n).state = .running → (new.lanes.get n).state = .running) : exits old new = [] := by
  have hnone : fourIndices.filter
      (fun n => (old.lanes.get n).state == .running && !((new.lanes.get n).state == .running)) = [] := by
    refine List.filter_eq_nil_iff.mpr fun n _ => ?_
    simp only [Bool.and_eq_true, beq_iff_eq, Bool.not_eq_true', beq_eq_false_iff_ne, not_and, not_not]
    exact h n
  rw [exits, hnone, List.map_nil]

theorem coolingNews_begun (s : State) (l : Link) (m : LaneManager) : (s.begun l).coolingNews m = s.coolingNews m := by
  simp only [State.coolingNews, begun_settingOn, begun_lm]

/-! ## LANE_START and LANE_STOP (R106, R107) -/

/-- A lane that leaves OFFLINE (R94). -/
theorem evaluated_start {m : LaneManager} {auto : Bool} {n : Fin 4} {x : Lane}
    (h : hasBit m.excluded n.val = false ∧ m.supply = .full ∧ m.pump = .running)
    (hw : x.startFlag = true ∨ auto = true ∧ m.demand = true) :
    m.evaluated auto n x =
      if ∃ r, x.report = some r ∧ r.severity = .trip then { x with state := .resetting, timer := some ⟨.reset, 2000⟩ }
      else { x with state := .precharge, timer := some ⟨.precharge, 8000⟩ } := by
  obtain ⟨hfree, hsupply, hpump⟩ := h
  rw [LaneManager.evaluated, if_pos ⟨hfree, hsupply, hpump, hw⟩]
  cases hr : x.report <;> simp

theorem evaluated_stay {m : LaneManager} {auto : Bool} {n : Fin 4} {x : Lane}
    (h : ¬((hasBit m.excluded n.val = false ∧ m.supply = .full ∧ m.pump = .running) ∧
      (x.startFlag = true ∨ auto = true ∧ m.demand = true))) : m.evaluated auto n x = x := by
  refine if_neg fun ⟨hfree, hsupply, hpump, hw⟩ => h ⟨⟨hfree, hsupply, hpump⟩, hw⟩

theorem not_running_of_offline {x : Lane} (h : x.state = .offline) : x.state ≠ .running := by
  rw [h]
  decide

section
variable {m : LaneManager} {auto : Bool} {n : Fin 4}

theorem stopLane_running (h : (m.lanes.get n).state = .running) :
    stopLane auto n m = m.put n (({ m.lanes.get n with startFlag := false } : Lane).sheds .stop) := by
  simp only [stopLane, h]

/-- A lane stopped in PRECHARGE or SYNC goes to OFFLINE, where its start is evaluated (R107). -/
theorem stopLane_starting (h : (m.lanes.get n).state = .precharge ∨ (m.lanes.get n).state = .sync) :
    stopLane auto n m =
      m.put n (m.evaluated auto n (({ m.lanes.get n with startFlag := false } : Lane).goes .offline)) := by
  rcases h with h | h <;> simp only [stopLane, h] <;> exact evaluateStart_offline rfl

theorem stopLane_shedding (h : (m.lanes.get n).state = .shedding) :
    stopLane auto n m = m.put n { m.lanes.get n with startFlag := false, shed := some .stop } := by
  simp only [stopLane, h]

theorem stopLane_still (h : (m.lanes.get n).state = .offline ∨ (m.lanes.get n).state = .locked ∨
    (m.lanes.get n).state = .faulted ∨ (m.lanes.get n).state = .resetting) :
    stopLane auto n m = m.put n { m.lanes.get n with startFlag := false } := by
  rcases h with h | h | h | h <;> simp only [stopLane, h]

end

section
variable {s : State} {l : Link} {n : Fin 4}

/-- A lane request that its owner carries out on one lane. -/
theorem exec_lane {i : Instr} {r : Request} {y : Lane} {before : List Ev} (h : s.ready l)
    (hc : firstEvent i = .lkRequest l r)
    (hs : serve l r (s.begun l) =
      Served.did (setLanes (s.lm.put n y) before [] (s.begun l)) .done (named (laneStateIndex y.state)))
    (hb : before = if (s.lm.lanes.get n).state = .running ∧ y.state ≠ .running then [.euLane n false] else [])
    (hr : ∀ straps, r ≠ .warmReset straps := by nofun) :
    exec i s =
      s.carriesOut l ((s.begun l).laned (s.lm.put n y))
        ((if (s.lm.lanes.get n).state = .running ∧ y.state ≠ .running then [.euLane n false] else []) ++
          s.coolingNews (s.lm.put n y)) .done (named (laneStateIndex y.state)) := by
  rw [hb, setLanes_eq, List.append_nil, coolingNews_begun] at hs
  exact exec_carriesOut h hc hs hr

theorem serveLaneStart_offline (hk : ¬(l = .main ∧ s.keyView = true)) (h : (s.lm.lanes.get n).state = .offline) :
    serveLaneStart l n.val s =
      (let y := s.lm.evaluated (s.settingOn 2) n { s.lm.lanes.get n with startFlag := true }
       Served.did (setLanes (s.lm.put n y) [] [] s) .done (named (laneStateIndex y.state))) := by
  have hstart : evaluateStart (s.settingOn 2) n (s.lm.put n { s.lm.lanes.get n with startFlag := true }) =
      s.lm.put n (s.lm.evaluated (s.settingOn 2) n { s.lm.lanes.get n with startFlag := true }) :=
    evaluateStart_offline h
  simp only [serveLaneStart, indexOf_val, if_neg fun hr => hk (keyRefuses_iff.mp hr), if_neg (not_not.mpr h), hstart,
    lane_get_put_self]

theorem serveLaneStart_refused (h : l = .main ∧ s.keyView = true) :
    serveLaneStart l n.val s = Served.refused s .refusedAuthority := by
  simp only [serveLaneStart, indexOf_val, if_pos (keyRefuses_iff.mpr h)]

theorem serveLaneStart_moved (hk : ¬(l = .main ∧ s.keyView = true)) (h : (s.lm.lanes.get n).state ≠ .offline) :
    serveLaneStart l n.val s = Served.refused s .refusedState := by
  simp only [serveLaneStart, indexOf_val, if_neg fun hr => hk (keyRefuses_iff.mp hr), if_pos h]

theorem serveLaneStop_eq {y : Lane} (h : stopLane (s.settingOn 2) n s.lm = s.lm.put n y) :
    serveLaneStop n.val s =
      Served.did
        (setLanes (s.lm.put n y)
          (if (s.lm.lanes.get n).state = .running ∧ y.state ≠ .running then [.euLane n false] else []) [] s) .done
        (named (laneStateIndex y.state)) := by
  simp only [serveLaneStop, indexOf_val, h, exits_put, lane_get_put_self]

end

/-- Settles O44, by the checks of LANE_START and by the state that LANE_STOP finds. -/
theorem laneStartAndStopMoveTheLane : Obligations.LaneStartAndStopMoveTheLane := by
  intro s l hready
  refine ⟨fun n hn => ⟨exec_replies hready rfl ?_, exec_replies hready rfl ?_⟩, fun n => ?_⟩
  · simp only [serve, serveLaneStart, indexOf_eq_none hn]; rfl
  · simp only [serve, serveLaneStop, indexOf_eq_none hn]; rfl
  intro x may auto started becomes
  have stops {y : Lane} (h : stopLane (s.settingOn 2) n s.lm = s.lm.put n y) : becomes (.laneStop l n.val) y := by
    refine exec_lane hready rfl ?_ rfl
    have hstop := serveLaneStop_eq (s := s.begun l) (n := n) (y := y) (by simpa using h)
    simp only [begun_lm] at hstop
    exact hstop
  refine ⟨fun hl hk => exec_replies hready rfl ?key, fun hk => ⟨fun hs => exec_replies hready rfl ?moved,
    fun hs hmay => ?start, fun hs hmay => ?wait⟩, fun hs => stops ?running, fun hs => ⟨fun hmay hauto => stops ?restart,
    fun hmay => stops ?offline⟩, fun hs => stops ?shedding, fun hs => stops ?still⟩
  case key =>
    refine serveLaneStart_refused ⟨hl, ?_⟩
    simpa using hk
  case moved => exact serveLaneStart_moved (by simpa using hk) (by simpa using hs)
  case start =>
    have hserve := serveLaneStart_offline (s := s.begun l) (n := n) (by simpa using hk) (by simpa using hs)
    have hstart : s.lm.evaluated (s.settingOn 2) n { x with startFlag := true } = started { x with startFlag := true } :=
      evaluated_start hmay (.inl rfl)
    simp only [begun_lm, begun_settingOn] at hserve
    rw [← hstart]
    exact exec_lane hready rfl hserve (if_neg fun h => not_running_of_offline hs h.1).symm
  case wait =>
    have hserve := serveLaneStart_offline (s := s.begun l) (n := n) (by simpa using hk) (by simpa using hs)
    have hstay : s.lm.evaluated (s.settingOn 2) n { x with startFlag := true } = { x with startFlag := true } :=
      evaluated_stay fun h => hmay h.1
    simp only [begun_lm, begun_settingOn] at hserve
    rw [← hstay]
    exact exec_lane hready rfl hserve (if_neg fun h => not_running_of_offline hs h.1).symm
  case running => exact stopLane_running hs
  case restart =>
    refine (stopLane_starting hs).trans (congrArg _ (evaluated_start hmay (.inr ⟨?_, hauto.2⟩)))
    exact beq_iff_eq.mpr hauto.1
  case offline =>
    refine (stopLane_starting hs).trans (congrArg _ (evaluated_stay fun h => hmay ⟨h.1, ?_⟩))
    obtain ⟨-, hflag | ⟨hon, hdemand⟩⟩ := h
    · cases hflag
    · exact ⟨beq_iff_eq.mp hon, hdemand⟩
  case shedding => exact stopLane_shedding hs
  case still => exact stopLane_still hs

end Sys2Proof.Machine
end

section
/-! The lanes' timers, reports and the handovers that other blocks make them (R87 to R105). -/

namespace Sys2Proof.Machine

/-! ## Timers (R89, R95, R96, R98, R100) -/

theorem takeTimeout_own {s : State} {n : Fin 4} {k : TimerKind} {ms : Nat}
    (h : (s.lm.lanes.get n).timer = some ⟨k, ms⟩) :
    takeTimeout n k s =
      match k with
      | .precharge =>
        setLanes (s.lm.put n ((s.lm.lanes.get n).goes .offline)) []
          [.ctRaise (prechargeFailRaise n (lastVoltage (s.lm.lanes.get n))), .lmEvaluate n] s
      | .sync =>
        setLanes (s.lm.put n ((s.lm.lanes.get n).goes .offline)) [] [.ctRaise (syncFailRaise n), .lmEvaluate n] s
      | .shed => setLanes (s.lm.put n (s.lm.rested (s.settingOn 2) n (s.lm.lanes.get n))) [] [] s
      | .reset => setLanes (s.lm.put n ((s.lm.lanes.get n).goes .faulted)) [] [.ctRaise (resetFailRaise n)] s := by
  have hkind : (s.lm.lanes.get n).timer.map (fun t => t.kind) = some k := by rw [h]; rfl
  refine (if_pos hkind).trans ?_
  cases k <;> simp only [settleLane_eq]

/-- Settles O46, by the timer that runs out. -/
theorem laneTimersRunOut : Obligations.LaneTimersRunOut := by
  intro s n hu
  refine ⟨fun hsilence => ?silence, fun ms h => ?precharge, fun ms h => ?sync, fun ms h hin => ?locked,
    fun ms h hout => ?rested, fun h => ?evaluate, fun ms h => ?reset⟩
  case silence =>
    obtain ⟨ms, hms⟩ := Option.isSome_iff_exists.mp hsilence
    refine exec_comesTo hu ?_
    simp only [firstEvent, handle, takeSilence, hms] <;> rfl
  case precharge => exact exec_comesTo hu (takeTimeout_own h)
  case sync => exact exec_comesTo hu (takeTimeout_own h)
  case locked =>
    refine exec_comesTo hu ((takeTimeout_own h).trans ?_)
    simp only [LaneManager.rested, if_pos hin]
    rfl
  case rested =>
    refine exec_comesTo hu ((takeTimeout_own h).trans ?_)
    simp only [LaneManager.rested, if_neg (Bool.eq_false_iff.mp hout)]
    rfl
  case evaluate =>
    simp only [handle, takeEvaluate, evaluateStart_eq, setLanes_eq, List.append_nil, List.nil_append]
    rw [if_pos h]
  case reset => exact exec_comesTo hu (takeTimeout_own h)

/-! ## Reports (R87 to R92) -/

/-- A lane in a state that a trip onset takes its share and timer from. -/
abbrev LaneState.active (st : LaneState) : Prop := st = .precharge ∨ st = .sync ∨ st = .running ∨ st = .shedding

theorem tripOnset_iff (x : Lane) (r : Report) :
    tripOnset x r = true ↔
      r.severity = .trip ∧
        (x.state.active ∨ ¬∃ p, x.report = some p ∧ p.severity = .trip ∧ p.localCode = r.localCode) := by
  have hreport : (match x.report with
      | none => true
      | some p => !(p.severity == .trip && p.localCode == r.localCode)) = true ↔
      ¬∃ p, x.report = some p ∧ p.severity = .trip ∧ p.localCode = r.localCode := by
    cases x.report with
    | none => simp
    | some p =>
      simp only [Option.some.injEq, exists_eq_left', Bool.not_eq_true', ← Bool.not_eq_true, Bool.and_eq_true,
        beq_iff_eq]
  rw [tripOnset, Bool.and_eq_true, beq_iff_eq]
  refine and_congr_right fun _ => ?_
  rw [← hreport]
  cases hs : x.state <;> simp [LaneState.active] <;> rfl

/-- A trip onset takes the lane to FAULTED, unless it waits there or in OFFLINE or LOCKED (R91). -/
theorem afterOnset_eq (x : Lane) :
    afterOnset x =
      if x.state.active then { x with state := .faulted, timer := none, shed := none, share := 0 }
      else if x.state = .resetting then { x with state := .faulted, timer := none, shed := none }
      else x := by
  cases hs : x.state <;> simp [afterOnset, hs, Lane.goes, LaneState.active]

/-- The lane record after a valid report's fault fields are taken (R90 to R92). -/
theorem afterReport_eq (x : Lane) (r : Report) {onset : Prop} [Decidable onset] (h : tripOnset x r = true ↔ onset) :
    afterReport x r =
      (let y := { x with report := some r, silence := some 50, warned := warningOf r }
       if onset ∧ x.state.active then { y with state := .faulted, timer := none, shed := none, share := 0 }
       else if onset ∧ x.state = .resetting then { y with state := .faulted, timer := none, shed := none }
       else y) := by
  unfold afterReport
  by_cases honset : onset
  · simp only [h.mpr honset, if_true, afterOnset_eq, honset, true_and]
  · simp only [mt h.mp honset, honset, false_and, if_false, Bool.false_eq_true]

theorem reported_exits {x : Lane} {r : Report} {onset : Prop} [Decidable onset] (h : tripOnset x r = true ↔ onset) :
    (x.state = .running ∧ (afterReport x r).state ≠ .running) ↔ onset ∧ x.state = .running := by
  rw [afterReport_eq x r h]
  by_cases hs : x.state = .running
  · by_cases honset : onset <;> simp [hs, honset, LaneState.active]
  · simp [hs]

/-- A valid report taken (R87, R89 to R92). -/
theorem takeReport_valid {s : State} {n : Fin 4} {bytes : List Byte} {r : Report} (hr : readReport bytes = some r)
    {onset : Prop} [Decidable onset] (h : tripOnset (s.lm.lanes.get n) r = true ↔ onset) :
    takeReport n bytes s =
      (s.laned (s.lm.put n (afterReport (s.lm.lanes.get n) r)),
       (if onset ∧ (s.lm.lanes.get n).state = .running then [.euLane n false] else []) ++
         s.coolingNews (s.lm.put n (afterReport (s.lm.lanes.get n) r)) ++
         (if onset then [.ctRaise (laneTripRaise n r.localCode r.detail)] else []) ++
         warnReports n (s.lm.lanes.get n).warned r ++ [.euTemp n r.heatsink, .lmAct n, .lmReply n]) := by
  simp only [takeReport, hr, setLanes_eq, exits_put, reported_exits h, tripRaises, h, List.append_assoc]

/-! ## A report acted on (R93 to R101) -/

/-- The lane that a report acted on leaves (R95, R96, R98, R100, R101). -/
def actedOn (auto : Bool) (n : Fin 4) (r : Report) (m : LaneManager) (x : Lane) : Lane :=
  match x.state with
  | .offline => if hasBit m.excluded n.val then x.goes .locked else m.evaluated auto n x
  | .precharge => if r.laneState = .ready then { x with state := .sync, timer := some ⟨.sync, 3000⟩ } else x
  | .sync => if r.laneState = .synced then x.goes .running else x
  | .shedding => if r.power ≤ 50 then m.rested auto n x else x
  | .resetting => if r.laneState = .down ∧ r.severity = .none then m.rested auto n x else x
  | .running => x
  | .locked => x
  | .faulted => x

theorem actOn_eq (auto : Bool) (n : Fin 4) (r : Report) (m : LaneManager) :
    actOn auto n r m = m.put n (actedOn auto n r m (m.lanes.get n)) := by
  have hself := lane_put_self m n
  cases hs : (m.lanes.get n).state <;>
    simp only [actOn, actedOn, hs, evaluateStart_eq, settleLane_eq, apply_ite (m.put n), hself, if_true]

/-- A valid report acted on (R105). -/
theorem takeAct_eq {s : State} {n : Fin 4} {r : Report} (h : (s.lm.lanes.get n).report = some r) :
    takeAct n s =
      (let y := actedOn (s.settingOn 2) n r s.lm (s.lm.lanes.get n)
       (s.laned (s.lm.put n y),
        (if (s.lm.lanes.get n).state ≠ .running ∧ y.state = .running then [.euLane n true] else []) ++
          s.coolingNews (s.lm.put n y))) := by
  simp only [takeAct, h, actOn_eq, setLanes_eq, entries_put, List.append_nil]

theorem evaluated_ne_running {x : Lane} (m : LaneManager) (auto : Bool) (n : Fin 4) (h : x.state ≠ .running) :
    (m.evaluated auto n x).state ≠ .running := by
  unfold LaneManager.evaluated
  split
  · split <;> exact nofun
  · exact h

theorem rested_ne_running (m : LaneManager) (auto : Bool) (n : Fin 4) (x : Lane) :
    (m.rested auto n x).state ≠ .running := by
  unfold LaneManager.rested
  split
  · exact nofun
  · exact evaluated_ne_running _ _ _ nofun

/-- A report acted on that takes no lane into RUNNING. -/
theorem takeAct_stays {s : State} {n : Fin 4} {r : Report} {y : Lane} (h : (s.lm.lanes.get n).report = some r)
    (hy : actedOn (s.settingOn 2) n r s.lm (s.lm.lanes.get n) = y)
    (hs : (s.lm.lanes.get n).state = .running ∨ y.state ≠ .running) :
    handle (.lmAct n) s = (s.laned (s.lm.put n y), [] ++ s.coolingNews (s.lm.put n y)) := by
  refine (takeAct_eq h).trans ?_
  rw [hy]
  dsimp only
  rw [if_neg fun hn => hs.elim hn.1 fun hr => hr hn.2]

/-- An invalid report is answered, and nothing else (R87, R88). -/
theorem exec_laneReport_invalid {s : State} {n : Fin 4} {bytes : List Byte} (hu : s.unsettled = [])
    (h : readReport bytes = none) :
    exec (.laneReport n bytes) s =
      .next { s with lm := s.lm.put n { s.lm.lanes.get n with command := some (commandOf (s.lm.lanes.get n)) } } := by
  have hfirst : handle (.lmReport n bytes) s = (s, [.lmReply n]) := by simp only [handle, takeReport, h]
  have hsecond : leftAfter 1 = leftAfter 2 + 1 := rfl
  rw [exec_comesTo (c := .laneReport n bytes) hu hfirst, State.comesTo, hsecond, settle_one]
  exact congrArg _ (settle_nil _ _)

/-- Settles O45: an invalid report, a valid one by its fault fields, and the report acted on by the lane's state. -/
theorem laneReportsAreTaken : Obligations.LaneReportsAreTaken := by
  intro s n bytes hu
  refine ⟨fun h => ?invalid, fun r hr => ?valid, fun r hr => ?acted⟩
  case invalid => exact exec_laneReport_invalid hu h
  case valid =>
    intro active onset warning y z
    have honset : tripOnset (s.lm.lanes.get n) r = true ↔ onset := tripOnset_iff _ _
    have hz : afterReport (s.lm.lanes.get n) r = z := afterReport_eq _ _ honset
    refine exec_comesTo hu ((takeReport_valid hr honset).trans ?_)
    rw [hz]
    rfl
  case acted =>
    refine ⟨fun hs hin => takeAct_stays hr ?locked ?locked', fun hs hout => takeAct_stays hr ?evaluated ?evaluated',
      fun hs => takeAct_stays hr ?precharge ?precharge', fun hs hsync => ?runs, fun hs hsync => takeAct_stays hr ?waits ?waits',
      fun hs => takeAct_stays hr ?shed ?shed', fun hs => takeAct_stays hr ?reset ?reset',
      fun hs => takeAct_stays hr ?still ?still'⟩
    case locked => simp only [actedOn, hs, if_pos hin]; rfl
    case locked' => exact .inr nofun
    case evaluated => simp only [actedOn, hs, if_neg (Bool.eq_false_iff.mp hout)]
    case evaluated' => exact .inr (evaluated_ne_running _ _ _ (not_running_of_offline hs))
    case precharge => simp only [actedOn, hs]
    case precharge' => exact .inr (by split <;> simp [hs])
    case runs =>
      refine (takeAct_eq hr).trans ?_
      simp only [actedOn, hs, if_pos hsync]
      rfl
    case waits => simp only [actedOn, hs, if_neg hsync]
    case waits' => exact .inr (by simp [hs])
    case shed => simp only [actedOn, hs]
    case shed' => exact .inr (by split <;> simp [hs, rested_ne_running])
    case reset => simp only [actedOn, hs]
    case reset' => exact .inr (by split <;> simp [hs, rested_ne_running])
    case still => rcases hs with hs | hs | hs <;> simp only [actedOn, hs]
    case still' =>
      rcases hs with hs | hs | hs
      · exact .inl hs
      · exact .inr (by simp [hs])
      · exact .inr (by simp [hs])

/-! ## Handovers to every lane (R101 to R105) -/

/-- A change of the four lanes in turn, each read alone, is the change of all four. -/
theorem foldl_lanes {f : LaneManager → Fin 4 → LaneManager} {g : LaneManager → Fin 4 → Lane → Lane}
    (hf : ∀ m n, f m n = m.put n (g m n (m.lanes.get n)))
    (hg : ∀ (m : LaneManager) (v : Four Lane) (n : Fin 4) (x : Lane), g { m with lanes := v } n x = g m n x)
    (m : LaneManager) :
    fourIndices.foldl f m = { m with lanes := Four.ofFn fun n => g m n (m.lanes.get n) } := by
  have hput (k : LaneManager) (n : Fin 4) (y : Lane) (j : Fin 4) (x : Lane) : g (k.put n y) j x = g k j x := hg _ _ _ _
  simp only [fourIndices, List.foldl, hf, hput]
  rfl

theorem evaluateAll_eq (auto : Bool) (m : LaneManager) :
    evaluateAll auto m =
      { m with lanes := Four.ofFn fun n =>
          if (m.lanes.get n).state = .offline then m.evaluated auto n (m.lanes.get n) else m.lanes.get n } :=
  foldl_lanes (g := fun m n x => if x.state = .offline then m.evaluated auto n x else x)
    (fun m n => evaluateStart_eq auto n m) (fun _ _ _ _ => rfl) m

theorem evaluateAll_running {auto : Bool} {m : LaneManager} {n : Fin 4} (h : (m.lanes.get n).state = .running) :
    ((evaluateAll auto m).lanes.get n).state = .running := by
  rw [evaluateAll_eq, Four.get_ofFn, if_neg (by simp [h])]
  exact h

theorem mapLanes_get (m : LaneManager) (f : Lane → Lane) (n : Fin 4) :
    (m.mapLanes f).lanes.get n = f (m.lanes.get n) :=
  match n with
  | 0 | 1 | 2 | 3 => rfl

/-- The lane that a delivery of excluded_lanes leaves (R101, R102). -/
def deliveredLane (auto : Bool) (old : LaneSet) (full : Bool) (m : LaneManager) (n : Fin 4) (x : Lane) : Lane :=
  if deliveryActs old m.excluded full n x then
    if hasBit m.excluded n.val then whenExcluded x
    else
      match x.state with
      | .offline => m.evaluated auto n x
      | .locked => m.evaluated auto n (x.goes .offline)
      | .faulted => { x with state := .resetting, timer := some ⟨.reset, 2000⟩ }
      | _ => x
  else x

theorem whenFree_eq (auto : Bool) (n : Fin 4) (m : LaneManager) :
    whenFree auto n m =
      m.put n
        (match (m.lanes.get n).state with
         | .offline => m.evaluated auto n (m.lanes.get n)
         | .locked => m.evaluated auto n ((m.lanes.get n).goes .offline)
         | .faulted => { m.lanes.get n with state := .resetting, timer := some ⟨.reset, 2000⟩ }
         | _ => m.lanes.get n) := by
  have hself := lane_put_self m n
  have hlocked : evaluateStart auto n (m.put n ((m.lanes.get n).goes .offline)) =
      m.put n (m.evaluated auto n ((m.lanes.get n).goes .offline)) := evaluateStart_offline rfl
  cases hs : (m.lanes.get n).state <;>
    simp only [whenFree, hs, hlocked, hself, evaluateStart_eq, if_true] <;> rfl

theorem deliverLane_eq (auto : Bool) (old : LaneSet) (full : Bool) (m : LaneManager) (n : Fin 4) :
    deliverLane auto old full m n = m.put n (deliveredLane auto old full m n (m.lanes.get n)) := by
  rw [deliverLane, deliveredLane, whenFree_eq]
  split
  · split <;> rfl
  · exact (lane_put_self m n).symm

theorem deliveryActs_iff (old new : LaneSet) (full : Bool) (n : Fin 4) (x : Lane) :
    deliveryActs old new full n x = true ↔
      full = true ∨ hasBit old n.val ≠ hasBit new n.val ∨ x.state = .offline ∨ x.state = .faulted := by
  simp [deliveryActs, or_assoc]

/-- The lane manager after a delivery (R101, R102). -/
theorem takeExcluded_eq (set : LaneSet) (full : Bool) (s : State) :
    takeExcluded set full s =
      (let m := { s.lm with
         excluded := set
         lanes := Four.ofFn fun n => deliveredLane (s.settingOn 2) s.lm.excluded full { s.lm with excluded := set } n
           (s.lm.lanes.get n) }
       (s.laned m, s.exitNews m ++ s.coolingNews m)) := by
  rw [takeExcluded, foldl_lanes (g := deliveredLane (s.settingOn 2) s.lm.excluded full) (deliverLane_eq _ _ _)
    (fun _ _ _ _ => rfl), setLanes_eq, List.append_nil, exits_eq]

theorem whenSupplyLost_eq (x : Lane) :
    whenSupplyLost x =
      if x.state = .precharge ∨ x.state = .sync ∨ x.state = .running ∨ x.state = .shedding then
        { x with state := .offline, timer := none, shed := none, share := 0 }
      else x := by
  cases hs : x.state <;> simp [whenSupplyLost, hs, Lane.goes]

theorem whenPumpLost_eq (x : Lane) :
    whenPumpLost x =
      if x.state = .precharge ∨ x.state = .sync then { x with state := .offline, timer := none, shed := none } else x := by
  cases hs : x.state <;> simp [whenPumpLost, hs, Lane.goes]

/-- The supply state handed over (R103). -/
theorem takeLaneSupply_eq {st : SupplyState} {s : State} (h : st ≠ s.lm.supply) :
    handle (.lmSupply st) s =
      (let m := evaluateAll (s.settingOn 2)
         { if s.lm.supply = .full then s.lm.mapLanes whenSupplyLost else s.lm with supply := st }
       (s.laned m, s.exitNews m ++ s.coolingNews m)) := by
  refine (if_neg h).trans ?_
  simp only [setLanes_eq, exits_eq, List.append_nil]

/-- The L0 pump state handed over: no lane leaves RUNNING (R104). -/
theorem takeLanePump_eq {p : PumpState} {s : State} (h : p ≠ s.lm.pump) :
    handle (.lmPump p) s =
      (let m := evaluateAll (s.settingOn 2)
         { if s.lm.pump = .running then s.lm.mapLanes whenPumpLost else s.lm with pump := p }
       (s.laned m, s.exitNews m ++ s.coolingNews m)) := by
  refine (if_neg h).trans ?_
  have hexits : exits s.lm (evaluateAll (s.settingOn 2)
      { if s.lm.pump = .running then s.lm.mapLanes whenPumpLost else s.lm with pump := p }) = [] := by
    refine exits_eq_nil fun n hn => evaluateAll_running ?_
    dsimp only
    split
    · rw [mapLanes_get, whenPumpLost_eq, if_neg (by simp [hn])]
      exact hn
    · exact hn
  simp only [setLanes_eq, ← exits_eq, hexits, List.append_nil]

/-- The demand indication handed over: no lane leaves RUNNING (R93). -/
theorem takeLaneDemand_eq (s : State) :
    handle (.lmDemand !s.lm.demand) s =
      (let m := evaluateAll (s.settingOn 2) { s.lm with demand := !s.lm.demand }
       (s.laned m, s.exitNews m ++ s.coolingNews m)) := by
  refine (if_neg (by simp)).trans ?_
  have hexits : exits s.lm (evaluateAll (s.settingOn 2) { s.lm with demand := !s.lm.demand }) = [] :=
    exits_eq_nil fun n hn => evaluateAll_running hn
  simp only [setLanes_eq, ← exits_eq, hexits, List.append_nil]

/-- Settles O50, by what the other block hands over. -/
theorem handoversMoveTheLanes : Obligations.HandoversMoveTheLanes := by
  intro s auto told
  refine ⟨fun set full => ?excluded, if_pos rfl, fun st hst => ?supply, if_pos rfl, fun p hp => ?pump, if_pos rfl, ?demand,
    fun n kw => ?share⟩
  case excluded =>
    refine ⟨_, takeExcluded_eq set full s, rfl, fun n => ?_⟩
    intro x looked locked
    have hlooked := deliveryActs_iff s.lm.excluded set full n x
    simp only [Four.get_ofFn]
    refine ⟨fun h => if_neg (mt hlooked.mp h), fun h hin => ?_, fun h hout => ?_⟩
    · refine (if_pos (hlooked.mpr h)).trans ((if_pos hin).trans ?_)
      show whenExcluded x = _
      cases hs : x.state <;> simp only [whenExcluded, hs] <;> rfl
    · refine (if_pos (hlooked.mpr h)).trans ((if_neg (Bool.eq_false_iff.mp hout)).trans ?_)
      show (match x.state with | .offline => _ | .locked => _ | .faulted => _ | _ => x) = _
      cases hs : x.state <;> rfl
  case supply =>
    refine ⟨_, takeLaneSupply_eq hst, ?_, fun n => ?_⟩
    · rw [evaluateAll_eq]
      split <;> rfl
    · simp only [evaluateAll_eq, Four.get_ofFn]
      by_cases hfull : s.lm.supply = .full
      · simp only [hfull, if_true, mapLanes_get, whenSupplyLost_eq, true_and]
        rfl
      · simp only [if_neg hfull, hfull, false_and, if_false]
        rfl
  case pump =>
    refine ⟨_, takeLanePump_eq hp, ?_, fun n => ?_⟩
    · rw [evaluateAll_eq]
      split <;> rfl
    · simp only [evaluateAll_eq, Four.get_ofFn]
      by_cases hrun : s.lm.pump = .running
      · simp only [hrun, if_true, mapLanes_get, whenPumpLost_eq, true_and]
        rfl
      · simp only [if_neg hrun, hrun, false_and, if_false]
        rfl
  case demand =>
    refine ⟨_, takeLaneDemand_eq s, ?_, fun n => ?_⟩
    · rw [evaluateAll_eq]
    · simp only [evaluateAll_eq, Four.get_ofFn]
      rfl
  case share => rfl

end Sys2Proof.Machine
end

section
/-! The wind and heading unit: the twist account and the unwind request (R112 to R115, R123), the vane and the anemometer
(R116 to R122). -/

namespace Sys2Proof.Machine

/-! ## Clamping -/

theorem clampInt_eq_max {lo hi : Int} (h : lo ≤ hi) (v : Int) : clampInt lo hi v = max lo (min hi v) := by
  unfold clampInt
  split
  · omega
  · split <;> omega

/-! ## The unwind request (R123) -/

theorem unwindDue_eq (s : State) :
    unwindDue s =
      decide ((s.setting 10).toNat ≤ s.wh.twist.natAbs ∧ s.wh.speed < s.setting 12 ∧ s.wh.parkSeen = false ∧
        s.wh.unwindInChain = false) := by
  rw [Bool.eq_iff_iff]
  simp only [unwindDue, Bool.and_eq_true, decide_eq_true_eq, Bool.not_eq_true', and_assoc]
  rfl

theorem takeUnwindEval_eq (s : State) :
    takeUnwindEval s =
      ({ s with wh := { s.wh with unwindInChain := s.wh.unwindInChain || unwindDue s } },
       if unwindDue s then [.ymUnwind (s.setting 11) (if 0 < s.wh.twist then .ccw else .cw)] else []) := by
  rw [takeUnwindEval]
  cases hdue : unwindDue s with
  | false => simp
  | true => simp [unwindDir]

/-! ## The twist limit and SET_TWIST (R114, R115) -/

/-- What TWIST_LIMIT reports at an evaluation of a twist (R115). -/
theorem twistReport_eq (w : Wind) :
    twistReport w =
      if twistView w.views.twistLimit w.twist = w.views.twistLimit then []
      else if twistView w.views.twistLimit w.twist then [.ctPresent (twistLimitRaise w.twist)]
      else [.ctAbsent twistLimitCode] :=
  if_congr eq_comm rfl rfl

/-- The twist after a valid read, saturating (R112). -/
theorem twistAfter_eq (w : Wind) (h : Nat) :
    twistAfter w h =
      match w.refHeading with
      | none => w.twist
      | some r => max (-32767) (min 32767 (w.twist + (((h : Int) - r + 1800) % 3600 - 1800))) := by
  have hsaturate (t : Int) : saturateTwist t = max (-32767) (min 32767 t) := clampInt_eq_max (by decide) t
  simp only [twistAfter, hsaturate]
  rfl

theorem crossesBands_iff (w : Wind) (t : Int) :
    crossesBands w t = true ↔
      w.views.twistLimit = true ∧ 10500 ≤ t.natAbs ∧ (0 < t ∧ w.twist < 0 ∨ t < 0 ∧ 0 < w.twist) := by
  simp only [crossesBands, Bool.and_eq_true, Bool.or_eq_true, decide_eq_true_eq, and_assoc]
  rfl

theorem serveSetTwist_crosses {s : State} {v : Int}
    (h : crossesBands s.wh (max (-12600) (min 12600 v)) = true) :
    serveSetTwist .service v s = Served.refused s .refusedState := by
  simp only [serveSetTwist, clampInt_eq_max (show (-12600 : Int) ≤ 12600 by decide), h, if_true]
  rfl

theorem serveSetTwist_taken {s : State} {v : Int}
    (h : ¬crossesBands s.wh (max (-12600) (min 12600 v)) = true) :
    serveSetTwist .service v s =
      (let t := max (-12600) (min 12600 v)
       let z := { s with wh := ({ s.wh with twist := t } : Wind).evalTwist }
       ⟨{ z with wh := { z.wh with unwindInChain := z.wh.unwindInChain || unwindDue z } },
        twistReport { s.wh with twist := t } ++
          (if unwindDue z then [.ymUnwind (s.setting 11) (if 0 < t then .ccw else .cw)] else []) ++
          [.ymHeading s.wh.refHeading t],
        ⟨if t = v then .done else .clamped, signed t⟩⟩) := by
  simp only [serveSetTwist, clampInt_eq_max (show (-12600 : Int) ≤ 12600 by decide), h, takeUnwindEval_eq]
  rfl

/-! ## The obligations -/

/-- Settles O47, by the event: the unwind request, the deliveries that evaluate it, a heading read, SET_TWIST. -/
theorem headingAndTwistAreAccounted : Obligations.HeadingAndTwistAreAccounted := by
  intro s view limit asks request
  have hasks (t : Int) (z : State) (hset : z.settings = s.settings)
      (hw : z.wh.twist = t ∧ z.wh.speed = s.wh.speed ∧ z.wh.parkSeen = s.wh.parkSeen ∧
        z.wh.unwindInChain = s.wh.unwindInChain) : unwindDue z = asks t := by
    obtain ⟨htwist, hspeed, hpark, hchain⟩ := hw
    rw [unwindDue_eq, htwist, hspeed, hpark, hchain]
    simp only [State.setting, hset]
    rfl
  refine ⟨?eval, fun on => ⟨rfl, rfl⟩, rfl, rfl, fun hu h hh => exec_comesTo hu ?heading, fun hu reading hbad =>
    exec_comesTo hu ?lost, fun hready v => exec_replies hready rfl rfl, fun hready v => ⟨fun hcross =>
    exec_replies hready rfl ?crosses, fun hcross => exec_carriesOut hready rfl ?taken⟩⟩
  case eval =>
    have hdue := hasks s.wh.twist s rfl ⟨rfl, rfl, rfl, rfl⟩
    refine (takeUnwindEval_eq s).trans ?_
    rw [hdue]
  case heading =>
    simp only [firstEvent, handle, takeHeading, validHeading, if_pos hh, twistReport_eq, Wind.evalTwist, Wind.atHeading,
      twistAfter_eq]
    rfl
  case lost =>
    have hnone : validHeading reading = none := by
      cases reading with
      | none => rfl
      | some h => exact if_neg (Nat.not_lt.mpr (hbad h rfl))
    simp only [firstEvent, handle, takeHeading, hnone]
    rfl
  case crosses =>
    refine serveSetTwist_crosses ((crossesBands_iff _ _).mpr ?_)
    rw [begun_wh]
    exact hcross
  case taken =>
    refine (serveSetTwist_taken fun h => hcross ?_).trans ?_
    · have := (crossesBands_iff _ _).mp h
      rwa [begun_wh] at this
    · have hdue := hasks (max (-12600) (min 12600 v))
        { s.begun .service with wh := ({ s.wh with twist := max (-12600) (min 12600 v) } : Wind).evalTwist }
        (begun_settings s .service) ⟨rfl, rfl, rfl, rfl⟩
      simp only [begun_wh, begun_setting, hdue, twistReport_eq]
      rfl

/-! ## Samples (R116 to R122) -/

theorem validVane_none {reading : Option Int} (h : ∀ e, reading = some e → e < -1800 ∨ 1799 < e) :
    validVane reading = none := by
  cases reading with
  | none => rfl
  | some e =>
    have := h e rfl
    exact if_neg (by omega)

/-- A cause report in the order of the old and the new view. -/
theorem viewReport_eq (old new : Bool) (r : Raise) :
    viewReport old new r = if new = old then [] else if new then [.ctPresent r] else [.ctAbsent r.code] :=
  if_congr eq_comm rfl rfl

theorem filterWind_eq (w : Int) (pulses : Nat) :
    filterWind w pulses = w + Int.tdiv (min 700 (pulses : Int) - w) 16 := by
  have hmin : ((saturate 700 pulses : Nat) : Int) = min 700 (pulses : Int) := by
    rw [saturate_eq_min]
    omega
  rw [filterWind, hmin]
  rfl

theorem misalignRefreshDue_iff (table : List Record) (cap : Nat) :
    misalignRefreshDue table cap = true ↔
      ∃ q, table.find? (fun q => q.code == misalignCode) = some q ∧
        ∃ held, q.eff.cap = some held ∧ (cap < held ∨ held + 500 ≤ cap) := by
  unfold misalignRefreshDue findCode
  cases table.find? (fun q => q.code == misalignCode) with
  | none => simp
  | some q => cases hcap : q.eff.cap <;> simp [hcap]

/-- Settles O48, by the sample and by the parts of a vane sample that follow it. -/
theorem windSamplesMoveTheFilters : Obligations.WindSamplesMoveTheFilters := by
  intro s hu
  refine ⟨fun e hlow hhigh => exec_comesTo hu ?vane, fun reading hbad => exec_comesTo hu ?lost,
    fun pulses => exec_comesTo hu ?wind, ?misalign, fun hcounts => ?stops, fun hcounts hdwell => ?counts,
    fun hcounts hdwell => ?moves⟩
  case vane =>
    simp only [firstEvent, handle, takeVane, validVane, if_pos (And.intro hlow hhigh)]
    rfl
  case lost =>
    simp only [firstEvent, handle, takeVane, validVane_none hbad]
    rfl
  case wind =>
    simp only [firstEvent, handle, takeAnemometer, filterWind_eq, viewReport_eq]
    rfl
  case misalign =>
    simp only [handle, takeMisalign, viewReport_eq, misalignRefreshDue_iff]
    rfl
  case stops => exact if_neg fun h => hcounts ⟨h.1, of_decide_eq_true h.2⟩
  case counts => exact (if_pos ⟨hcounts.1, decide_eq_true hcounts.2⟩).trans (if_neg (Nat.not_le.mpr hdwell))
  case moves => exact (if_pos ⟨hcounts.1, decide_eq_true hcounts.2⟩).trans (if_pos hdwell)

end Sys2Proof.Machine
end

section
/-! The frames of the links: start conditions, bytes, stop conditions, response frames and attention frames (R185 to R190,
R195, R199 to R201); the requests that read a block (R48, R83, R108, R124, R151, R169, R181, R202). -/

namespace Sys2Proof.Machine

/-! ## A command of two events -/

/-- A command whose event hands on one more, which hands nothing on. -/
theorem exec_then_quiet {s z t : State} {c : Instr} {e : Ev} (hu : s.unsettled = [])
    (hfirst : handle (firstEvent c) s = (z, [e])) (hnext : handle e z = (t, [])) : exec c s = .next t := by
  have hfuel : leftAfter 1 = leftAfter 2 + 1 := rfl
  rw [exec_comesTo hu hfirst, State.comesTo, hfuel, settle_one, hnext, settle_nil]

/-! ## Start conditions (R185, R186) -/

theorem readAddress_ne_writeAddress (a : Nat) : readAddress a ≠ writeAddress a := fun h => by
  have hval := congrArg BitVec.toNat h
  simp only [readAddress, writeAddress, byteOf, BitVec.toNat_ofNat] at hval
  omega

section
variable {u : LinkUnit}

/-- A unit in neither RECEIVING nor POISONED disregards a byte. -/
theorem byte_ignored (h : u.frame ≠ .receiving) (hp : u.frame ≠ .poisoned) (b : Byte) (good : Bool) :
    u.byte b good = u := by
  unfold LinkUnit.byte
  split
  next hr => exact absurd hr h
  next hr => exact absurd hr hp
  next => rfl

theorem byte_added (h : u.frame = .receiving) (hroom : u.received.length < 16) (b : Byte) :
    u.byte b true = { u with received := u.received ++ [b], ackSlot := .ack } := by
  simp only [LinkUnit.byte, h, true_and, if_pos hroom]

theorem byte_poisons (h : u.frame = .receiving) {good : Bool} (hbad : good = false ∨ 16 ≤ u.received.length) (b : Byte) :
    u.byte b good = u.poison := by
  have hnot : ¬(good = true ∧ u.received.length < 16) := by
    rintro ⟨rfl, hroom⟩
    exact hbad.elim nofun fun hfull => Nat.not_le.mpr hroom hfull
  simp only [LinkUnit.byte, h, if_neg hnot]

theorem byte_discarded (h : u.frame = .poisoned) (b : Byte) (good : Bool) :
    u.byte b good = { u with ackSlot := .nack } := by
  simp only [LinkUnit.byte, h]

theorem bytes_ignored (h : u.frame ≠ .receiving) (hp : u.frame ≠ .poisoned) (bytes : List Byte) :
    bytes.foldl (fun v b => v.byte b true) u = u := by
  induction bytes with
  | nil => rfl
  | cons b rest ih => rw [List.foldl_cons, byte_ignored h hp, ih]

theorem bytes_added {bytes : List Byte} (h : u.frame = .receiving) (ha : u.ackSlot = .ack)
    (hroom : u.received.length + bytes.length ≤ 16) :
    bytes.foldl (fun v b => v.byte b true) u = { u with received := u.received ++ bytes } := by
  induction bytes generalizing u with
  | nil => rw [List.foldl_nil, List.append_nil]
  | cons b rest ih =>
    rw [List.length_cons] at hroom
    have hrest := ih (u := { u with received := u.received ++ [b], ackSlot := .ack }) h rfl (by simp; omega)
    rw [List.foldl_cons, byte_added h (by omega), hrest]
    simp [ha]

theorem bytes_discarded (h : u.frame = .poisoned) (ha : u.ackSlot = .nack) (bytes : List Byte) :
    bytes.foldl (fun v b => v.byte b true) u = u := by
  induction bytes with
  | nil => rfl
  | cons b rest ih =>
    have hself : ({ u with ackSlot := .nack } : LinkUnit) = u := by rw [← ha]
    rw [List.foldl_cons, byte_discarded h, hself, ih]

/-- The seventeenth byte poisons the frame, and the rest are discarded (R186). -/
theorem bytes_poison {bytes : List Byte} (h : u.frame = .receiving) (hroom : u.received.length ≤ 16)
    (hfull : 16 < u.received.length + bytes.length) :
    bytes.foldl (fun v b => v.byte b true) u = u.poison := by
  induction bytes generalizing u with
  | nil =>
    rw [List.length_nil] at hfull
    omega
  | cons b rest ih =>
    rw [List.length_cons] at hfull
    rw [List.foldl_cons]
    by_cases hlast : u.received.length = 16
    · rw [byte_poisons h (.inr (Nat.le_of_eq hlast.symm))]
      exact bytes_discarded rfl rfl rest
    · have hrest := ih (u := { u with received := u.received ++ [b], ackSlot := .ack }) h (by simp; omega) (by simp; omega)
      rw [byte_added h (by omega), hrest]
      rfl

end

section
variable {s : State} {l : Link}

theorem exec_startCondition (hu : s.unsettled = []) (ht : s.takesFrame l = true)
    (hf : (s.links.get l).frame ≠ .receiving) (addr : Byte) (good : Bool) (bytes : List Byte) :
    exec (.startCondition l addr good bytes) s =
      .next (s.setLink l
        (bytes.foldl (fun v b => v.byte b true) ((s.links.get l).opens s.address addr good))) := by
  refine exec_then_quiet hu (z := s) (e := .lkOpen l addr good bytes) ?_ rfl
  simp only [firstEvent, handle, takeStart, ht, if_true, if_neg hf]

/-- Settles O26, by the address byte, and by a frame in RECEIVING that ends first. -/
theorem startConditionOpensAFrame : Obligations.StartConditionOpensAFrame := by
  intro s l addr bytes hu ht
  refine ⟨fun hf => ⟨fun hw hr good => ?other, fun haddr => ?parity, ?read, fun hlen => ?write, fun hlen => ?poisoned⟩,
    fun hf good => ⟨exec_comesTo hu ?ends, fun r c hc => exec_comesTo hu ?request⟩⟩
  case other =>
    rw [exec_startCondition hu ht hf, LinkUnit.opens, if_neg (not_or.mpr ⟨hw, hr⟩), bytes_ignored]
    all_goals exact nofun
  case parity =>
    rw [exec_startCondition hu ht hf, LinkUnit.opens, if_pos haddr, if_pos rfl, bytes_ignored]
    all_goals exact nofun
  case read =>
    rw [exec_startCondition hu ht hf, LinkUnit.opens, if_pos (.inr rfl), if_neg Bool.false_ne_true.symm,
      if_neg (readAddress_ne_writeAddress _), bytes_ignored]
    all_goals exact nofun
  case write =>
    rw [exec_startCondition hu ht hf, LinkUnit.opens, if_pos (.inl rfl), if_neg Bool.false_ne_true.symm, if_pos rfl,
      bytes_added rfl rfl (by simpa using hlen)]
    rfl
  case poisoned =>
    rw [exec_startCondition hu ht hf, LinkUnit.opens, if_pos (.inl rfl), if_neg Bool.false_ne_true.symm, if_pos rfl,
      bytes_poison rfl (by simp) (by simpa using hlen)]
    rfl
  case ends => simp only [firstEvent, handle, takeStart, ht, if_true, if_pos hf]
  case request => simp only [firstEvent_of_command hc, handle, takeRequest, ht, if_true, if_pos hf]

/-! ## Bytes and stop conditions (R185 to R187) -/

/-- The checks on a frame's length and check byte, then on its code and parameters (R187). -/
theorem judgeFrame_eq (address : Nat) (checked : Bool) (straps : Fin 4) (bytes : List Byte) :
    judgeFrame address checked straps bytes =
      (let body := if checked then bytes.dropLast else bytes
       if bytes.length < (if checked then 2 else 1) then .fault .badRequest
       else if checked = true ∧ bytes.getLast? ≠ some (crc8 (writeAddress address :: body)) then .fault .checkFail
       else judgeBody straps body) := by
  cases checked with
  | false => simp [judgeFrame]
  | true =>
    simp only [judgeFrame, if_true, true_and, ne_eq, ite_not, eq_comm (a := bytes.getLast?)]

theorem judgeBody_eq (straps : Fin 4) (code : Byte) (params : List Byte) :
    judgeBody straps (code :: params) =
      if requestLength code = some params.length then .execute (requestAt straps code params) else .fault .badRequest := by
  cases h : requestLength code with
  | none => simp [judgeBody, h]
  | some n => simp [judgeBody, h, eq_comm]

/-- The stop condition of a frame in RECEIVING ends it and judges its bytes (R187). -/
theorem exec_requestFrameFault (hu : s.unsettled = []) (ht : s.takesFrame l = true)
    (hf : (s.links.get l).frame = .receiving) :
    exec (.requestFrameFault l) s =
      (let ended := s.setLink l (s.links.get l).ends
       match judgeFrame s.address (s.checkMode l) s.straps (s.links.get l).received with
       | .fault status => .next (ended.answered l (s.checkMode l) status [])
       | .execute r => ended.comesTo [.lkBegin l r]) := by
  have hfirst : handle (.lkStop l) s = takeStop l s := if_pos ht
  cases hj : judgeFrame s.address (s.checkMode l) s.straps (s.links.get l).received with
  | fault status =>
    refine exec_quiet hu (hfirst.trans ?_)
    simp only [takeStop, hf, hj]
    rfl
  | execute r =>
    refine exec_comesTo hu (hfirst.trans ?_)
    simp only [takeStop, hf, hj]

end

/-- Settles O27, by the state of the frame that a byte or a stop condition finds. -/
theorem framesAreAddedToAndJudged : Obligations.FramesAreAddedToAndJudged := by
  refine ⟨fun s l b hu ht => ?bytes, fun s l hu ht => ⟨fun hf => ?idle, fun hf => ?judged⟩⟩
  case bytes =>
    have hbyte (good : Bool) : exec (.framePoison l b good) s =
        .next (s.setLink l ((s.links.get l).byte b good)) := exec_quiet hu (if_pos ht)
    have hself : s.setLink l (s.links.get l) = s := by
      cases l <;> rfl
    refine ⟨fun hf => ⟨fun hroom => ?_, fun good hbad => ?_⟩, fun hf => ⟨fun good => ?_, exec_quiet hu ?_⟩,
      fun hf hp good => ?_, fun hp => exec_quiet hu ?_⟩
    · rw [hbyte, byte_added hf hroom]
    · rw [hbyte, byte_poisons hf hbad]
      rfl
    · rw [hbyte, byte_discarded hf]
    · exact if_pos (by simp [ht, hf])
    · rw [hbyte, byte_ignored hf hp, hself]
    · exact if_neg (by simp [hp])
  case idle =>
    have hfirst : handle (.lkStop l) s = takeStop l s := if_pos ht
    split
    next hend =>
      refine exec_quiet hu (hfirst.trans ?_)
      rcases hend with hend | hend <;> simp only [takeStop, hend]
    next hend =>
      obtain ⟨hidle, hignoring⟩ := not_or.mp hend
      refine exec_quiet hu (hfirst.trans ?_)
      cases hs : (s.links.get l).frame with
      | receiving => exact absurd hs hf
      | idle => exact absurd hs hidle
      | ignoring => exact absurd hs hignoring
      | poisoned => simp only [takeStop, hs]; rfl
      | sending => simp only [takeStop, hs]; rfl
      | attention => simp only [takeStop, hs]; rfl
  case judged =>
    refine (exec_requestFrameFault hu ht hf).trans ?_
    rw [judgeFrame_eq]
    dsimp only
    generalize hbody : (if s.checkMode l = true then (s.links.get l).received.dropLast else (s.links.get l).received) = body
    by_cases hlen : (s.links.get l).received.length < if s.checkMode l = true then 2 else 1
    · simp only [if_pos hlen]
      rfl
    · simp only [if_neg hlen]
      by_cases hcheck : s.checkMode l = true ∧
          (s.links.get l).received.getLast? ≠ some (crc8 (writeAddress s.address :: body))
      · simp only [if_pos hcheck]
        rfl
      · simp only [if_neg hcheck]
        cases body with
        | nil => rfl
        | cons code params =>
          rw [judgeBody_eq]
          by_cases hparams : requestLength code = some params.length
          · simp only [if_pos hparams]
            rfl
          · simp only [if_neg hparams]
            rfl

/-! ## Response frames and link resets (R190, R195) -/

theorem responseToSend_eq (s : State) (l : Link) :
    responseToSend s l = match (s.links.get l).response with
      | some r => r
      | none => formResponse s.address (s.checkMode l) .noResponse [] := by
  unfold responseToSend
  cases (s.links.get l).response <;> rfl

/-- Settles O28, by whether a request frame is in progress. -/
theorem responseFrameSendsTheBuffer : Obligations.ResponseFrameSendsTheBuffer := by
  intro s l hu
  refine ⟨exec_quiet hu rfl, fun ht hf n => ?sends, fun ht hf n => exec_comesTo hu ?ends⟩
  case sends =>
    refine exec_then_quiet hu (z := s) (e := .lkSend l n) ?_ ?_
    · simp only [firstEvent, handle, takeRead, ht, if_true, if_neg hf]
    · simp only [handle, takeSend, updateLink, Act.update, responseToSend_eq]
      rfl
  case ends => simp only [firstEvent, handle, takeRead, ht, if_true, if_pos hf]

/-! ## Attention frames (R199 to R201) -/

theorem highestIndex_eq (h : Option Cls) :
    highestIndex h = match h with
      | none => 0 | some .notice => 1 | some .limit => 2 | some .shed => 3 | some .trip => 4 := by
  rcases h with _ | (_ | _ | _ | _) <;> rfl

theorem topIndex_eq (chain : List Context) :
    topIndex chain = match chain.head?.map (fun c => c.kind) with
      | none => 0 | some .track => 1 | some .unwind => 2 | some .park => 3 | some .service => 4 := by
  cases chain with
  | nil => rfl
  | cons top rest => cases hk : top.kind <;> simp [topIndex, priority, hk]

/-- Settles O29, by the frame and the payload that the command finds. -/
theorem attentionFrameRunsItsCourse : Obligations.AttentionFrameRunsItsCourse := by
  intro s l hu hline
  refine ⟨fun h => exec_quiet hu (if_pos ⟨hline, h⟩), fun h => exec_quiet hu (if_neg fun hn => h hn.2),
    fun hf hp => ⟨exec_quiet hu ?nack, exec_quiet hu ?ack⟩, fun h ack => exec_quiet hu (if_neg fun hn => h hn.2),
    fun h => ⟨exec_quiet hu (if_pos ⟨hline, h⟩), exec_quiet hu (if_pos ⟨hline, h⟩)⟩,
    fun h => ⟨exec_quiet hu (if_neg ?_), exec_quiet hu (if_neg ?_)⟩⟩
  case nack => exact (if_pos ⟨hline, hf, hp⟩).trans rfl
  case ack =>
    refine (if_pos ⟨hline, hf, hp⟩).trans ?_
    simp only [if_true, snapshot, payloadBytes, highestIndex_eq, topIndex_eq]
    rfl
  all_goals simp [h]

/-! ## Requests that read a block -/

/-- Settles O31, by the block that the request reads. -/
theorem readsAnswerTheirItems : Obligations.ReadsAnswerTheirItems := by
  intro s l hready
  refine ⟨fun k => exec_replies hready rfl ?slot, exec_replies hready rfl ?envelope, fun n => exec_replies hready rfl ?lane,
    exec_replies hready rfl ?supply, fun id hlow hhigh => exec_replies hready rfl ?setting,
    fun n hn => exec_replies hready rfl ?noSlot, fun n hn => exec_replies hready rfl ?noLane,
    fun id hid => exec_replies hready rfl ?noSetting⟩
  case slot =>
    simp only [serve, serveReadSlot, indexOf_val, begun_slots]
    rfl
  case envelope =>
    simp only [serve, serveReadEnvelope, begun_eu]
    rfl
  case lane =>
    simp only [serve, serveReadLane, indexOf_val, begun_lm]
    rfl
  case supply =>
    simp only [serve, serveReadSupply, begun_sm]
    rfl
  case setting =>
    simp only [serve, serveGetSetting, knownSetting_iff.mpr ⟨hlow, hhigh⟩, begun_setting]
    rfl
  case noSlot =>
    simp only [serve, serveReadSlot, indexOf_eq_none hn]
    rfl
  case noLane =>
    simp only [serve, serveReadLane, indexOf_eq_none hn]
    rfl
  case noSetting =>
    have hunknown : knownSetting id = false := by
      rw [← Bool.not_eq_true, knownSetting_iff]
      omega
    simp only [serve, serveGetSetting, hunknown]
    rfl

/-- The direction that the winding guard blocks (R132, R151). -/
theorem guardedDir_eq (y : Yaw) :
    y.guardedDir =
      if 10800 ≤ y.twist.natAbs then (if 0 < y.twist then some Dir.cw else some Dir.ccw) else none := by
  by_cases hband : 10800 ≤ y.twist.natAbs
  · by_cases hpos : 0 < y.twist
    · simp [Yaw.guardedDir, Yaw.guards, winds, magnitude, hband, hpos]
    · have hneg : y.twist < 0 := by omega
      simp [Yaw.guardedDir, Yaw.guards, winds, magnitude, hband, hpos, hneg]
  · simp [Yaw.guardedDir, Yaw.guards, magnitude, hband]

/-- The yaw motion unit's items, spelled out (R151). -/
theorem yawBytes_eq (y : Yaw) :
    yawBytes y =
      named y.chain.length ++
      (y.chain.map (fun c =>
        named (kindIndex c.kind) ++ named (contextOriginIndex c.origin) ++ targetBytes c.target ++
        optional 1 (fun d => named (dirIndex d)) c.dir ++ named (contextStateIndex c.state))).flatten ++
      (y.drives.toList.map (fun d => named (driveStateIndex d.state) ++ flag d.line ++ flag d.reported)).flatten ++
      word y.healthy ++ named (rateIndex (rateOf y.healthy y.supply)) ++ named (brakeIndex y.brake) ++
      word y.pressure ++ optional 2 word y.brakeTimer ++ named (runIndex y.run) ++
      optional 3 (fun q : Settle => word q.ms ++ named (dirIndex q.dir)) y.settle ++
      optional 2 (fun q : StallWatch => word q.ms) y.stall ++ flag (hasBit y.held 4) ++ flag (hasBit y.held 3) ++
      flag (hasBit y.held 2) ++ flag (hasBit y.held 0) ++ flag (hasBit y.held 1) ++ named (supplyIndex y.supply) ++
      optional 1 (fun d => named (dirIndex d)) y.guardedDir ++ flag y.blockedView ++ flag y.lowView := rfl

/-- READ_YAW, served. -/
theorem serve_readYaw (s : State) (l : Link) :
    serve l .readYaw s = ⟨s, [], ⟨.done, yawBytes s.ym ++ windBytes s.wh⟩⟩ := rfl

/-- Settles O32, by the items of the unit that the request reads. -/
theorem yawAndLoopReadsAnswerTheirItems : Obligations.YawAndLoopReadsAnswerTheirItems := by
  intro s l hready
  refine ⟨?yaw, fun n => ?loop, fun n hn => exec_replies hready rfl ?none⟩
  case yaw =>
    have hread : exec (.readYaw l) s = .next (s.replies l .done (yawBytes s.ym ++ windBytes s.wh)) :=
      exec_replies hready rfl (by rw [serve_readYaw, begun_ym, begun_wh])
    rw [hread, yawBytes_eq, guardedDir_eq]
    rfl
  case loop =>
    refine exec_replies hready rfl ?_
    simp only [serve, serveReadLoop, indexOf_val, begun_settings, begun_cu]
    rfl
  case none =>
    simp only [serve, serveReadLoop, indexOf_eq_none hn]
    rfl

end Sys2Proof.Machine
end

section
/-! The condition table's requests and arrivals: LOOKUP and SCAN (R24, R26, R27), RAISE (R28), AMEND (R16), the reports and
escalations of the other blocks (R8 to R15, R25), and the catalogue of internal codes (R32). -/

namespace Sys2Proof.Machine

/-! ## What a change of the table comes to (R25, R40, R41) -/

@[simp] theorem begun_news (s : State) (l : Link) (t : List Record) : (s.begun l).news t = s.news t := by
  rw [State.news, State.news, begun_limits]

/-- A change of a record asks for attention, replaces the record and delivers what changed of the limits. -/
theorem changeRecord_eq (s : State) (q r : Record) :
    changeRecord q r s =
      ((s.ask (some q) r).tabled (replaceRecord r s.table), s.news (replaceRecord r s.table)) := by
  rw [changeRecord, State.withTable, ask_limits, State.tabled, State.news]

/-- A creation asks for attention, places the record and delivers what changed of the limits. -/
theorem placeRecord_eq (s : State) (t : List Record) (r : Record) :
    placeRecord t r s = ((s.ask none r).tabled (insertRecord r t), s.news (insertRecord r t)) := by
  rw [placeRecord, State.withTable, ask_limits, State.tabled, State.news]

/-- A re-raise is a change whose raise is offered (R8). -/
theorem reRaise_eq (s : State) (r : Raise) (q : Record) :
    reRaise r q s =
      ((s.ask (some q) (reRaised s.uptime r q)).tabled (replaceRecord (reRaised s.uptime r q) s.table),
       s.news (replaceRecord (reRaised s.uptime r q) s.table) ++ [.ruOffer r.code]) := by
  simp only [reRaise, Act.andThen, changeRecord_eq, offer, Act.emit]

/-- A raise into a free slot is a creation whose raise is offered (R7). -/
theorem createIn_eq (s : State) (n : Nat) (r : Raise) :
    createIn n r s =
      ((s.ask none (createdRecord s.uptime n r)).tabled (insertRecord (createdRecord s.uptime n r) s.table),
       s.news (insertRecord (createdRecord s.uptime n r) s.table) ++ [.ruOffer r.code]) := by
  simp only [createIn, Act.andThen, placeRecord_eq, offer, Act.emit]

/-! ## Slots and codes -/

theorem slotTaken_iff {t : List Record} {n : Nat} : slotTaken t n = true ↔ ∃ q ∈ t, q.slot = n := by
  simp [slotTaken, List.any_eq_true]

/-- The lowest free general slot is the one below which all are taken (R2). -/
theorem freeSlot_eq {t : List Record} {n : Nat} (hn : n < 47) (hfree : ∀ q ∈ t, q.slot ≠ n)
    (hbelow : ∀ m, m < n → ∃ q ∈ t, q.slot = m) : freeSlot t = some n := by
  refine List.find?_range_eq_some.mpr ⟨?_, List.mem_range.mpr hn, fun m hm => ?_⟩
  · have hnot : ¬slotTaken t n = true := fun h => by
      obtain ⟨q, hq, hs⟩ := slotTaken_iff.mp h
      exact hfree q hq hs
    simpa using hnot
  · simpa using slotTaken_iff.mpr (hbelow m hm)

/-- A table whose general slots are all taken has none free. -/
theorem freeSlot_full {t : List Record} (h : ∀ m, m < 47 → ∃ q ∈ t, q.slot = m) : freeSlot t = none :=
  List.find?_range_eq_none.mpr fun m hm => by simpa using slotTaken_iff.mpr (h m hm)

/-- Of candidates in slot order, the oldest, in the lowest slot among equals, is the one that an eviction removes (R20). -/
theorem foldr_olderOf {t : List Record} {v : Record} (hslots : t.Pairwise (fun a b => a.slot < b.slot)) (hv : v ∈ t)
    (hold : ∀ q ∈ t, v.lastChange < q.lastChange ∨ v.lastChange = q.lastChange ∧ v.slot ≤ q.slot) :
    t.foldr olderOf none = some v := by
  induction t with
  | nil => cases hv
  | cons r rest ih =>
    obtain ⟨hr, hrest⟩ := List.pairwise_cons.mp hslots
    rw [List.foldr_cons]
    rcases List.mem_cons.mp hv with rfl | hmem
    · cases hf : rest.foldr olderOf none with
      | none => rfl
      | some x =>
        have hle : v.lastChange ≤ x.lastChange := by
          have := hold x (List.mem_cons_of_mem _ (olderOf_mem hf))
          omega
        exact if_pos hle
    · rw [ih hrest hmem fun q hq => hold q (List.mem_cons_of_mem _ hq)]
      have hlt : ¬r.lastChange ≤ v.lastChange := by
        have hslot := hr v hmem
        have := hold r List.mem_cons_self
        omega
      exact if_neg hlt

/-! ## A record replaced or placed is found (R2) -/

theorem replaceRecord_mem {t : List Record} {q r : Record} (hq : q ∈ t) (hc : r.code = q.code) : r ∈ replaceRecord r t :=
  List.mem_map.mpr ⟨q, hq, if_pos hc.symm⟩

theorem findCode_replaced {t : List Record} {q r : Record} (hd : distinct t) (hq : q ∈ t) (hc : r.code = q.code) :
    findCode (replaceRecord r t) r.code = some r :=
  findCode_of_mem (distinct_of_codes (replaceRecord_codes r t) hd) (replaceRecord_mem hq hc)

theorem findCode_inserted {t : List Record} {r : Record} (hd : distinct t) (hr : ∀ q ∈ t, q.code ≠ r.code) :
    findCode (insertRecord r t) r.code = some r :=
  findCode_of_mem (insert_distinct hd hr) (mem_insertRecord.mpr (.inl rfl))

/-! ## LOOKUP (R24, R26) -/

/-- The one record of a code is found between those below and those above it. -/
theorem findCode_between {below above : List Record} {q : Record} (h : ∀ p ∈ below ++ above, p.code ≠ q.code) :
    findCode (below ++ q :: above) q.code = some q := by
  have hbelow : below.find? (fun r => r.code == q.code) = none :=
    List.find?_eq_none.mpr fun p hp => by simpa using h p (List.mem_append_left _ hp)
  simp [findCode, List.find?_append, hbelow]

/-- Replacing the one record of a code leaves those below and above it. -/
theorem replaceRecord_between {below above : List Record} {q r : Record} (hc : r.code = q.code)
    (h : ∀ p ∈ below ++ above, p.code ≠ q.code) : replaceRecord r (below ++ q :: above) = below ++ r :: above := by
  have hleave : ∀ t : List Record, (∀ p ∈ t, p.code ≠ q.code) → replaceRecord r t = t := fun t ht =>
    (List.map_congr_left fun p hp => if_neg (hc ▸ ht p hp)).trans (List.map_id t)
  have hsplit : replaceRecord r (below ++ q :: above) = replaceRecord r below ++ r :: replaceRecord r above := by
    simp [replaceRecord, hc]
  rw [hsplit, hleave below fun p hp => h p (List.mem_append_left _ hp),
    hleave above fun p hp => h p (List.mem_append_right _ hp)]

/-! ## SCAN (R24, R27) -/

/-- The records a SCAN returns, by what its filter passes. -/
theorem scanned_eq (l : Link) (start : Nat) (f : Filter) (t : List Record) :
    scanned l start f t =
      (t.filter (fun q => decide (start ≤ q.slot) &&
        (match f with
          | .all => true
          | .unread => q.unread.get l
          | .classAtLeast k => decide (clsIndex k ≤ clsIndex q.cls)))).take 4 := by
  cases f <;> rfl

/-- next_slot is the slot after the fourth of at most four records. -/
theorem nextSlot_eq {found : List Record} (h : found.length ≤ 4) :
    nextSlot found = match found[3]? with | none => 48 | some q => q.slot + 1 := by
  match found with
  | [] => rfl
  | [_] => rfl
  | [_, _] => rfl
  | [_, _, _] => rfl
  | [_, _, _, _] => rfl
  | _ :: _ :: _ :: _ :: _ :: rest =>
    simp only [List.length_cons] at h
    omega

/-- Where codes are distinct, a SCAN clears the mark on the records it returns and on no other. -/
theorem markRead_eq {l : Link} {found t : List Record} (hd : distinct t) (hsub : ∀ q ∈ found, q ∈ t) :
    markRead l found t = t.map (fun q => if q ∈ found then { q with unread := q.unread.set l false } else q) := by
  refine List.map_congr_left fun q hq => ?_
  have hfound : found.any (fun r => r.code == q.code) = true ↔ q ∈ found := by
    rw [List.any_eq_true]
    constructor
    · rintro ⟨r, hr, hc⟩
      rwa [unique_of_code hd hq (hsub r hr) (beq_iff_eq.mp hc)] at hr
    · exact fun h => ⟨q, h, beq_self_eq_true _⟩
  simp only [hfound]
  rfl

/-- Settles O33, by whether the code is present and by the start slot. -/
theorem lookupAndScanReadTheTable : Obligations.LookupAndScanReadTheTable := by
  refine ⟨fun s l c hready => ⟨fun habsent => ?absent, ?present⟩, fun s l start f hready hsound => ⟨fun hout => ?out,
    fun hin => ?scan⟩⟩
  case absent =>
    refine exec_replies hready rfl ?_
    simp only [serve, serveLookup, begun_table, findCode_absent habsent]
    rfl
  case present =>
    rintro below q above htable rfl hothers
    refine exec_answered hready rfl ?_
    have hreplace := replaceRecord_between (q := q) (r := q.readBy l) rfl hothers
    simp only [serve, serveLookup, begun_table, htable, findCode_between hothers, hreplace]
    rfl
  case out =>
    refine exec_replies hready rfl ?_
    simp only [serve, serveScan, if_pos hout]
    rfl
  case scan =>
    intro found
    have hfound : scanned l start f s.table = found := scanned_eq ..
    have hlength : found.length ≤ 4 := List.length_take_le ..
    have hsub : ∀ q ∈ found, q ∈ s.table := fun q hq => List.mem_of_mem_filter (List.mem_of_mem_take hq)
    refine exec_answered hready rfl ?_
    simp only [serve, serveScan, if_neg (Nat.not_lt.mpr hin), begun_table, hfound, markRead_eq hsound.codes hsub,
      nextSlot_eq hlength]
    rfl

/-! ## Effects that a class takes (R4) -/

/-- Effects break R4 on a NOTICE that carries any and on a LIMIT with a lane set. -/
theorem effectsAllowed_iff (k : Cls) (cap : Option Nat) (lanes : LaneSet) (yaw : YawEffect) (loops : LoopSet) :
    effectsAllowed k (requestEffects cap lanes yaw loops) = true ↔
      ¬(k = .notice ∧ ¬(cap = none ∧ lanes = 0 ∧ flagOf yaw = 0 ∧ loops = 0) ∨ k = .limit ∧ lanes ≠ 0) := by
  cases k with
  | notice => simp [effectsAllowed, requestEffects, Effects.nothing]
  | limit =>
    rw [effectsAllowed, decide_eq_true_iff]
    simp [requestEffects]
  | shed => simp [effectsAllowed]
  | trip => simp [effectsAllowed]

/-- A class forces the cap of its effects, and nothing else of them (R4). -/
theorem forced_eq (k : Cls) (e : Effects) : forced k e = { e with cap := if k = .trip then some 0 else e.cap } := by
  unfold forced
  split <;> rfl

/-! ## AMEND (R16) -/

theorem mayAmend_iff (l : Link) (o : Origin) : mayAmend l o = true ↔ o = .main ∨ o = .service ∧ l = .service := by
  cases o <;> simp [mayAmend]

/-- Settles O35, by the checks in their order. -/
theorem amendReplacesTheEffects : Obligations.AmendReplacesTheEffects := by
  intro s l c cap lanes yaw loops hready hsound
  refine ⟨fun habsent => exec_replies hready rfl ?absent, ?present⟩
  case absent =>
    simp only [serve, serveAmend, begun_table, findCode_absent habsent]
    rfl
  case present =>
    rintro q hq rfl owned broken r
    have hfind : findCode s.table q.code = some q := findCode_of_mem hsound.codes hq
    have howned : mayAmend l q.origin = true ↔ owned := mayAmend_iff ..
    have hallowed : effectsAllowed q.cls (requestEffects cap lanes yaw loops) = true ↔ ¬broken := effectsAllowed_iff ..
    refine ⟨fun hn => exec_replies hready rfl ?notOwner, fun ho hb => exec_replies hready rfl ?badValue,
      fun ho hb => exec_carriesOut hready rfl ?amended⟩
    case notOwner =>
      have hmay : mayAmend l q.origin = false := by rwa [← Bool.not_eq_true, howned]
      simp only [serve, serveAmend, begun_table, hfind, hmay]
      rfl
    case badValue =>
      have hallow : effectsAllowed q.cls (requestEffects cap lanes yaw loops) = false := by
        rw [← Bool.not_eq_true, hallowed]
        exact not_not_intro hb
      simp only [serve, serveAmend, begun_table, hfind, howned.mpr ho, hallow]
      rfl
    case amended =>
      have hr : amended s.uptime l (requestEffects cap lanes yaw loops) q = r := by
        rw [amended, forced_eq]
        rfl
      simp only [serve, serveAmend, begun_table, hfind, howned.mpr ho, hallowed.mpr hb, changeRecord_eq, begun_uptime,
        begun_news, hr]
      rfl

end Sys2Proof.Machine
end

section
/-! The raises that the condition table takes (R7, R8, R20 to R22, R28), the reports and escalations of the other blocks (R9
to R15, R25), and the catalogue of internal codes (R32). -/

namespace Sys2Proof.Machine

/-! ## The table without a code -/

theorem removeCode_eq (c : Code) (t : List Record) : removeCode c t = t.filter (fun q => q.code ≠ c) :=
  List.filter_congr fun q _ => by by_cases h : q.code = c <;> simp [h]

/-! ## Records raised (R7, R8, R10) -/

/-- A record created: its cause is present where it is LEVEL, and its class forces the cap (R4, R7). -/
theorem createdRecord_eq (u n : Nat) (r : Raise) :
    createdRecord u n r =
      { slot := n, code := r.code, cls := r.cls, mode := r.mode, origin := r.origin, state := .active
        cause := decide (r.mode = .level), occurrences := 1, firstRaised := u, lastChange := u, detail := r.detail
        eff := { r.eff with cap := if r.cls = .trip then some 0 else r.eff.cap }
        unread := marksAfter r.via ⟨false, false⟩, holdoff := none } := by
  rw [createdRecord, forced_eq]
  cases r.mode <;> rfl

/-- A record raised again stays LEVEL with its cause where record and raise are LEVEL, and is EDGE otherwise (R8, R10). -/
theorem reRaised_eq (u : Nat) (r : Raise) (q : Record) :
    reRaised u r q =
      { q with
        cls := if clsIndex q.cls ≤ clsIndex r.cls then r.cls else q.cls
        mode := if q.mode = .level ∧ r.mode = .level then .level else .edge
        state := .active, cause := decide (q.mode = .level ∧ r.mode = .level), occurrences := min 255 (q.occurrences + 1)
        lastChange := u, detail := r.detail
        eff := { cap := if (if clsIndex q.cls ≤ clsIndex r.cls then r.cls else q.cls) = .trip then some 0
                   else lowerCap q.eff.cap r.eff.cap
                 lanes := q.eff.lanes ||| r.eff.lanes, yaw := q.eff.yaw ||| r.eff.yaw
                 boost := q.eff.boost ||| r.eff.boost }
        unread := marksAfter r.via q.unread, holdoff := none } := by
  have hmode : (if r.mode = .edge then .edge else q.mode) =
      if q.mode = .level ∧ r.mode = .level then RecMode.level else .edge := by
    cases q.mode <;> cases r.mode <;> rfl
  have hcause : ((if q.mode = .level ∧ r.mode = .level then RecMode.level else .edge) == RecMode.level) =
      decide (q.mode = .level ∧ r.mode = .level) := by
    cases q.mode <;> cases r.mode <;> rfl
  simp only [reRaised, forced_eq, saturate_eq_min, hmode, higherCls, mergeEffects]
  rw [hcause]

/-! ## Raises as the table takes them -/

section
variable {s : State} {r : Raise}

theorem takeRaise_present {q : Record} (hd : distinct s.table) (hq : q ∈ s.table) (hc : r.code = q.code) :
    takeRaise r s = reRaise r q s := by
  simp only [takeRaise, hc, findCode_of_mem hd hq]

theorem takeRaise_free {n : Nat} (habsent : ∀ q ∈ s.table, q.code ≠ r.code) (hfree : freeSlot s.table = some n) :
    takeRaise r s = createIn n r s := by
  simp only [takeRaise, findCode_absent habsent, hfree]

theorem takeRaise_evicts {v : Record} (habsent : ∀ q ∈ s.table, q.code ≠ r.code) (hfree : freeSlot s.table = none)
    (hv : evictionCandidate s.table = some v) : takeRaise r s = createByEviction v r s := by
  simp only [takeRaise, findCode_absent habsent, hfree, hv]

theorem takeRaise_folds (habsent : ∀ q ∈ s.table, q.code ≠ r.code) (hfree : freeSlot s.table = none)
    (hv : evictionCandidate s.table = none) (hvia : r.via = none) : takeRaise r s = foldRaise r s := by
  simp only [takeRaise, findCode_absent habsent, hfree, hv, hvia, Option.isSome_none, Bool.false_eq_true, if_false]

end

/-- An eviction and the creation it makes room for (R20; log 24). -/
theorem createByEviction_eq (s : State) (v : Record) (r : Raise) :
    createByEviction v r s =
      let table := insertRecord (createdRecord s.uptime v.slot r) (s.table.filter (fun q => q.code ≠ v.code))
      ({ (s.ask none (createdRecord s.uptime v.slot r)).tabled table with slots := cancelSlots v.code s.slots },
       s.news table ++ boostHandover s.slots (cancelSlots v.code s.slots) ++ [.ruOffer r.code] ++
        spentRaises (exhaustedBy v.code s.slots)) := by
  have hslots (t : List Record) (a : Record) : ((s.ask none a).tabled t).slots = s.slots := by
    rw [ask_eq]
    rfl
  simp only [createByEviction, Act.all, Act.andThen, Act.skip, placeRecord_eq, removeCode_eq, cancelFor, offer, Act.emit,
    hslots, List.append_nil, List.append_assoc]

/-- The NOTICE record that an eviction removes is the oldest of the candidates (R20). -/
theorem evictionCandidate_eq {t : List Record} {v : Record} (hslots : t.Pairwise (fun a b => a.slot < b.slot))
    (hv : v ∈ t.filter (fun q => q.cls == .notice && decide (q.slot < 47)))
    (hold : ∀ q ∈ t.filter (fun q => q.cls == .notice && decide (q.slot < 47)),
      v.lastChange < q.lastChange ∨ v.lastChange = q.lastChange ∧ v.slot ≤ q.slot) :
    evictionCandidate t = some v :=
  foldr_olderOf (hslots.sublist List.filter_sublist) hv hold

/-! ## Raises folded into OVERFLOW (R21) -/

/-- The note that the cooling unit takes of a PUMP_FAIL folded into OVERFLOW (R161). -/
theorem noteFolded_eq (c : Code) (s : State) :
    noteFolded c s =
      let noted := fun l : Fin 3 =>
        if c = pumpFailCode l then { s.cu.loops.get l with failFolded := true } else s.cu.loops.get l
      { s with cu := { s.cu with loops := ⟨noted 0, noted 1, noted 2⟩ } } := by
  have h01 : pumpFailCode 0 ≠ pumpFailCode 1 := by decide
  have h02 : pumpFailCode 0 ≠ pumpFailCode 2 := by decide
  have h12 : pumpFailCode 1 ≠ pumpFailCode 2 := by decide
  by_cases h0 : c = pumpFailCode 0
  · subst h0
    simp [noteFolded, threeIndices, Three.set, Three.get, h01, h02]
  · by_cases h1 : c = pumpFailCode 1
    · subst h1
      simp [noteFolded, threeIndices, Three.set, Three.get, h01, h01.symm, h12]
    · by_cases h2 : c = pumpFailCode 2
      · subst h2
        simp [noteFolded, threeIndices, Three.set, Three.get, h02, h12, h02.symm, h12.symm]
      · simp [noteFolded, threeIndices, Three.get, h0, h1, h2, Ne.symm h0, Ne.symm h1, Ne.symm h2]

/-- A record of the highest slot stands last. -/
theorem insertRecord_last {r : Record} {t : List Record} (h : ∀ q ∈ t, q.slot < r.slot) :
    insertRecord r t = t ++ [r] := by
  induction t with
  | nil => rfl
  | cons q rest ih =>
    have hq := h q List.mem_cons_self
    rw [insertRecord, if_neg (by omega), ih fun x hx => h x (List.mem_cons_of_mem _ hx)]
    rfl

/-- Without OVERFLOW, every record stands below slot 47 (R2). -/
theorem slot_below_overflow {t : List Record} (h : TableSound t) (habsent : ∀ q ∈ t, q.code ≠ overflowCode) :
    ∀ q ∈ t, q.slot < 47 := by
  intro q hq
  have hslot := (h.records q hq).slot
  have hne : q.slot ≠ 47 := fun he => habsent q hq ((h.records q hq).overflow.mp he)
  omega

/-- What a raise that no slot can hold becomes where OVERFLOW is absent (R21). -/
theorem foldRaise_absent {s : State} {r : Raise} (habsent : ∀ q ∈ s.table, q.code ≠ overflowCode) :
    foldRaise r s =
      let z := noteFolded r.code s
      let created := createdRecord s.uptime 47 (overflowRaise r)
      ((z.ask none created).tabled (insertRecord created s.table),
       s.news (insertRecord created s.table) ++ [.ruOffer overflowCode]) := by
  have hnews (t : List Record) : (noteFolded r.code s).news t = s.news t := by
    rw [State.news, State.news, (noteFolded_table r.code s).2]
  simp only [foldRaise, findCode_absent habsent, Act.andThen, placeRecord_eq, offer, Act.emit, hnews]

/-- What a raise that no slot can hold becomes where OVERFLOW is present (R21). -/
theorem foldRaise_present {s : State} {r : Raise} {q : Record} (hd : distinct s.table) (hq : q ∈ s.table)
    (hc : q.code = overflowCode) :
    foldRaise r s =
      let z := noteFolded r.code s
      let again := reRaised s.uptime (overflowRaise r) q
      ((z.ask (some q) again).tabled (replaceRecord again s.table),
       s.news (replaceRecord again s.table) ++ [.ruOffer overflowCode]) := by
  have hnews (t : List Record) : (noteFolded r.code s).news t = s.news t := by
    rw [State.news, State.news, (noteFolded_table r.code s).2]
  have hfind : findCode s.table overflowCode = some q := by
    rw [← hc]
    exact findCode_of_mem hd hq
  simp only [foldRaise, hfind, Act.andThen, changeRecord_eq, offer, Act.emit, hnews, (noteFolded_table r.code s).1]

/-! ## RAISE (R28) -/

section
variable {s : State} {l : Link} {c : Code} {k : Cls} {detail : Nat} {e : Effects}

/-- A RAISE that passes the checks is taken as a raise of the link, and answers the slot and the occurrences. -/
theorem serveRaise_taken {z : State} {evs : List Ev} (hgroup : 8 ≤ c.group.val) (hallowed : effectsAllowed k e = true)
    (hrefuses : tableRefuses s c = false) (ht : takeRaise (linkRaise l c k detail e) s = (z, evs)) :
    serveRaise l c k detail e s = ⟨z, evs, ⟨.done, raiseAnswer c z⟩⟩ := by
  simp only [serveRaise, if_neg (Nat.not_lt.mpr hgroup), hallowed, hrefuses, ht, Served.did]
  rfl

theorem raiseAnswer_eq {q : Record} (h : findCode s.table c = some q) :
    raiseAnswer c s = word q.slot ++ word q.occurrences := by
  simp only [raiseAnswer, h]

end

/-- Settles O34, by the checks of the request, and then by where the raise finds its record, a slot, a record to evict or
none of them. -/
theorem raiseCreatesOrReRaises : Obligations.RaiseCreatesOrReRaises := by
  refine ⟨fun s l c cls detail cap lanes yaw loops hready hsound => ?request, fun s r hsound hvia habsent hfull hbusy => ?fold⟩
  case request =>
    intro request broken full victims created
    have hallowed : effectsAllowed cls (requestEffects cap lanes yaw loops) = true ↔ ¬broken := effectsAllowed_iff ..
    have hcreated (n : Nat) :
        createdRecord s.uptime n (linkRaise l c cls detail (requestEffects cap lanes yaw loops)) = created n :=
      createdRecord_eq ..
    refine ⟨fun hbad => exec_replies hready rfl ?badValue, fun hgroup hfits => ⟨?present, fun habsent => ⟨?free, ?evict, ?full⟩⟩⟩
    case badValue =>
      by_cases hgroup : c.group.val < 8
      · simp only [serve, serveRaise, if_pos hgroup]
        rfl
      · have hbroken : effectsAllowed cls (requestEffects cap lanes yaw loops) = false := by
          rw [← Bool.not_eq_true, hallowed]
          exact not_not_intro (hbad.resolve_left hgroup)
        simp only [serve, serveRaise, if_neg hgroup, hbroken]
        rfl
    case present =>
      rintro q hq rfl k lower r
      have hd : distinct (s.begun l).table := by
        rw [begun_table]
        exact hsound.codes
      have hq' : q ∈ (s.begun l).table := by rwa [begun_table]
      have hr : reRaised s.uptime (linkRaise l q.code cls detail (requestEffects cap lanes yaw loops)) q = r := by
        rw [reRaised_eq]
        simp only [linkRaise, reduceCtorEq, and_false, decide_false, if_false]
        rfl
      have htaken := (takeRaise_present (r := linkRaise l q.code cls detail (requestEffects cap lanes yaw loops)) hd hq'
        rfl).trans (reRaise_eq ..)
      simp only [begun_uptime, begun_table, begun_news, hr] at htaken
      have hrefuses : tableRefuses (s.begun l) q.code = false := by
        simp only [tableRefuses, findCode_of_mem hd hq', Option.isNone_some, Bool.false_and]
      refine exec_carriesOut hready rfl ((serveRaise_taken hgroup (hallowed.mpr hfits) hrefuses htaken).trans ?_)
      rw [raiseAnswer_eq (q := r) (findCode_replaced (r := r) hsound.codes hq rfl)]
      rfl
    case free =>
      intro n hn hfree hbelow
      have habs : ∀ q ∈ (s.begun l).table, q.code ≠ c := by rwa [begun_table]
      have hslot : freeSlot (s.begun l).table = some n := by
        rw [begun_table]
        exact freeSlot_eq hn hfree hbelow
      have htaken := (takeRaise_free (r := linkRaise l c cls detail (requestEffects cap lanes yaw loops)) habs hslot).trans
        (createIn_eq ..)
      simp only [begun_uptime, begun_table, begun_news, hcreated] at htaken
      have hrefuses : tableRefuses (s.begun l) c = false := by
        simp only [tableRefuses, hslot, Option.isNone_some, Bool.and_false, Bool.false_and]
      refine exec_carriesOut hready rfl ((serveRaise_taken hgroup (hallowed.mpr hfits) hrefuses htaken).trans ?_)
      rw [raiseAnswer_eq (q := created n) (findCode_inserted hsound.codes habsent)]
      rfl
    case evict =>
      intro hfull v hv hold table
      have habs : ∀ q ∈ (s.begun l).table, q.code ≠ c := by rwa [begun_table]
      have hnone : freeSlot (s.begun l).table = none := by
        rw [begun_table]
        exact freeSlot_full hfull
      have hvictim : evictionCandidate (s.begun l).table = some v := by
        rw [begun_table]
        exact evictionCandidate_eq hsound.slots hv hold
      have htaken := (takeRaise_evicts (r := linkRaise l c cls detail (requestEffects cap lanes yaw loops)) habs hnone
        hvictim).trans (createByEviction_eq ..)
      simp only [begun_uptime, begun_table, begun_news, begun_slots, hcreated] at htaken
      have hrefuses : tableRefuses (s.begun l) c = false := by
        simp only [tableRefuses, hvictim, Option.isNone_some, Bool.and_false]
      have hfind : findCode table c = some (created v.slot) :=
        findCode_inserted (r := created v.slot) (hsound.codes.sublist List.filter_sublist)
          fun q hq => habsent q (List.mem_of_mem_filter hq)
      refine exec_carriesOut hready rfl ((serveRaise_taken hgroup (hallowed.mpr hfits) hrefuses htaken).trans ?_)
      rw [raiseAnswer_eq (q := created v.slot) hfind]
      rfl
    case full =>
      intro hfull hnone
      refine exec_replies hready rfl ?_
      have hvictim : evictionCandidate s.table = none := congrArg (List.foldr olderOf none) hnone
      have hrefuses : tableRefuses (s.begun l) c = true := by
        simp only [tableRefuses, begun_table, findCode_absent habsent, freeSlot_full hfull, hvictim, Option.isNone_none,
          Bool.and_self]
      simp only [serve, serveRaise, if_neg (Nat.not_lt.mpr hgroup), hallowed.mpr hfits, hrefuses]
      rfl
  case fold =>
    intro noted z detail created
    have hvictim : evictionCandidate s.table = none := by
      have hnone : s.table.filter (fun q => q.cls == .notice && decide (q.slot < 47)) = [] :=
        List.filter_eq_nil_iff.mpr fun q hq => by
          by_cases hslot : q.slot < 47
          · simp [hbusy q hq hslot]
          · simp [hslot]
      exact congrArg (List.foldr olderOf none) hnone
    have hfold : handle (.ctRaise r) s = foldRaise r s := takeRaise_folds habsent (freeSlot_full hfull) hvictim hvia
    have hnoted : noteFolded r.code s = z := noteFolded_eq ..
    refine ⟨fun hno => ?absent, fun q hq hc => ?present⟩
    case absent =>
      have hcreated : createdRecord s.uptime 47 (overflowRaise r) = created := createdRecord_eq ..
      have hlast : insertRecord created s.table = s.table ++ [created] :=
        insertRecord_last (slot_below_overflow hsound hno)
      rw [hfold, foldRaise_absent hno, hnoted, hcreated]
      simp only [hlast]
      rfl
    case present =>
      intro k lower again
      have hagain : reRaised s.uptime (overflowRaise r) q = again := by
        rw [reRaised_eq]
        simp only [overflowRaise, reduceCtorEq, and_false, decide_false, if_false]
        rfl
      rw [hfold, foldRaise_present hsound.codes hq hc, hnoted, hagain]
      rfl

end Sys2Proof.Machine
end

section
/-! What the other blocks report to the condition table (R8 to R15), the attention that a change asks for (R25, R198), and
the catalogue of internal codes (R32). -/

namespace Sys2Proof.Machine

/-! ## Attention requests (R25, R198) -/

/-- A class reaches the threshold that a setting names where the setting is 1 for NOTICE up to 4 for TRIP, and not above
the class; 0 is NONE, which no class reaches (R25, R202). -/
theorem reaches_thresholdAt (v : Int) (k : Cls) :
    reaches (thresholdAt v) k = true ↔ 1 ≤ v ∧ v ≤ (clsIndex k : Int) + 1 := by
  unfold thresholdAt
  split
  case h_5 h1 h2 h3 h4 =>
    have hk : clsIndex k ≤ 3 := by cases k <;> decide
    refine iff_of_false Bool.false_ne_true fun ⟨hlow, hhigh⟩ => ?_
    have h1' : v ≠ 1 := h1
    have h2' : v ≠ 2 := h2
    have h3' : v ≠ 3 := h3
    have h4' : v ≠ 4 := h4
    omega
  all_goals cases k <;> decide

/-- A change asks for attention on a link where it leaves the record unread there in a class that reaches the threshold,
and did not leave it so before (R25). -/
theorem requestsAttention_iff (s : State) (l : Link) (before : Option Record) (r : Record) :
    requestsAttention s l before r = true ↔
      r.unread.get l = true ∧ reaches (s.threshold l) r.cls = true ∧
        ∀ b, before = some b → b.unread.get l = false ∨ ¬reaches (s.threshold l) b.cls = true := by
  cases before with
  | none => simp [requestsAttention]
  | some b => simp [requestsAttention, and_assoc]

/-- The attention requests of a change, link by link. -/
theorem ask_get (s : State) (before : Option Record) (r : Record) (l : Link) :
    (s.ask before r).links.get l =
      if requestsAttention s l before r then (s.links.get l).asked else s.links.get l := by
  have hservice : requestsAttention (s.askLink .main before r) .service before r =
      requestsAttention s .service before r := by
    unfold State.askLink
    split <;> rfl
  unfold State.ask
  rw [State.askLink, hservice]
  unfold State.askLink
  cases l with
  | main => split <;> split <;> rfl
  | service => split <;> split <;> rfl

/-! ## What a report of a present code does (R9 to R15) -/

section
variable {s : State} {q : Record}

theorem takePresent_eq (hd : distinct s.table) (hq : q ∈ s.table) {r : Raise} (hc : r.code = q.code) :
    takePresent r s = if q.mode = .level ∧ q.cause = true then (s, []) else takeRaise r s := by
  simp only [takePresent, hc, findCode_of_mem hd hq]

theorem takeAbsent_eq (hd : distinct s.table) (hq : q ∈ s.table) :
    takeAbsent q.code s =
      if q.mode = .level ∧ q.cause = true ∧ q.state ≠ .clearing then changeRecord q (causeLost s q) s else (s, []) := by
  simp only [takeAbsent, findCode_of_mem hd hq]

theorem takeRefresh_eq (hd : distinct s.table) (hq : q ∈ s.table) (cap : Nat) :
    takeRefresh q.code cap s =
      if q.cls = .trip then (s, []) else changeRecord q (refreshed s.uptime cap q) s := by
  simp only [takeRefresh, findCode_of_mem hd hq]

theorem takeEscalation_eq (hd : distinct s.table) (hq : q ∈ s.table) (rise : Cls → Cls) (cap : Option Nat) :
    takeEscalation q.code rise cap s =
      if (escalated s.uptime (rise q.cls) cap q).cls = q.cls ∧
          (escalated s.uptime (rise q.cls) cap q).eff.cap = q.eff.cap then (s, [])
      else changeRecord q (escalated s.uptime (rise q.cls) cap q) s := by
  simp only [takeEscalation, findCode_of_mem hd hq]

end

/-- A record escalated: the higher class, and the lower cap as the class forces it (R4, R15). -/
theorem escalated_eq (u : Nat) (k : Cls) (cap : Option Nat) (q : Record) :
    escalated u k cap q =
      { q with
        cls := higherCls q.cls k
        eff := { q.eff with cap := if higherCls q.cls k = .trip then some 0 else lowerCap q.eff.cap cap }
        lastChange := u, unread := ⟨true, true⟩ } := by
  rw [escalated, forced_eq]
  rfl

/-- A record whose cause is gone: an ACKED one enters CLEARING with the hold-off it held or that of its class, and an ACTIVE
one waits for its ACK (R12, R13). -/
theorem causeLost_eq (s : State) (q : Record) :
    causeLost s q =
      if q.state = .acked then
        { q with
          cause := false, lastChange := s.uptime, unread := ⟨true, true⟩, state := .clearing
          holdoff := some (q.holdoff.getD (s.settingNat (holdoffId q.cls))) }
      else { q with cause := false, lastChange := s.uptime, unread := ⟨true, true⟩ } := rfl

/-- Settles O37, by the arrivals in the order of R8 to R15, then by what a change asks for and delivers. -/
theorem reportsMoveRecordsAndAreHandedOn : Obligations.ReportsMoveRecordsAndAreHandedOn := by
  intro s hsound changed higher lower
  have hd : distinct s.table := hsound.codes
  have hlower (a b : Option Nat) : lowerCap a b = lower a b := by cases a <;> cases b <;> rfl
  refine ⟨fun r hvia => ⟨fun habsent => ⟨?presentAbsent, ?created⟩, fun q hq hc => ?raised⟩, fun c => ⟨fun habsent => ?absent,
    ?changed⟩, fun before r => ?asked, fun table => ?delivered⟩
  case presentAbsent =>
    change takePresent r s = takeRaise r s
    simp only [takePresent, findCode_absent habsent]
  case created =>
    intro n hn hfree hbelow created
    have hcreated : createdRecord s.uptime n r = created := by
      rw [createdRecord_eq, hvia]
      rfl
    change takeRaise r s = _
    rw [takeRaise_free habsent (freeSlot_eq hn hfree hbelow), createIn_eq, hcreated]
  case raised =>
    intro level again
    have htake : handle (.ctPresent r) s = if q.mode = .level ∧ q.cause = true then (s, []) else takeRaise r s :=
      takePresent_eq hd hq hc.symm
    refine ⟨fun hmode hcause => htake.trans (if_pos ⟨hmode, hcause⟩), fun h => htake.trans (if_neg h), ?_⟩
    have hagain : reRaised s.uptime r q = again := by
      rw [reRaised_eq, hvia, hlower]
      rfl
    change takeRaise r s = _
    rw [takeRaise_present hd hq hc.symm, reRaise_eq, hagain]
  case absent =>
    have hfind := findCode_absent habsent
    refine ⟨?_, fun cap => ?_, fun k cap => ?_⟩
    · simp only [handle, takeAbsent, hfind]
    · simp only [handle, takeRefresh, hfind]
    · simp only [handle, takeEscalation, hfind]
  case changed =>
    rintro q hq rfl lost hold
    have htake : handle (.ctAbsent q.code) s = _ := takeAbsent_eq hd hq
    have hmode : q.cause = true → q.mode = .level := fun hcause => by
      cases hm : q.mode with
      | level => rfl
      | edge => exact absurd ((hsound.records q hq).edge hm) (by simp [hcause])
    refine ⟨fun h => ?_, fun hcause hactive => ?_, fun hcause hacked => ?_, fun cap => ?_, fun k cap => ?_⟩
    · rw [htake, if_neg]
      rintro ⟨hlevel, hcause, -⟩
      rcases h with h | h
      · simp [hlevel] at h
      · simp [hcause] at h
    · rw [htake, if_pos ⟨hmode hcause, hcause, by simp [hactive]⟩, causeLost_eq, if_neg (by simp [hactive]), changeRecord_eq]
    · rw [htake, if_pos ⟨hmode hcause, hcause, by simp [hacked]⟩, causeLost_eq, if_pos hacked, changeRecord_eq]
      rfl
    · exact (takeRefresh_eq hd hq cap).trans (by rw [changeRecord_eq]; rfl)
    · refine (takeEscalation_eq hd hq (fun _ => k) (some cap)).trans ?_
      rw [changeRecord_eq, escalated_eq, hlower]
      rfl
  case asked =>
    intro reached t
    have hreached (l : Link) (k : Cls) : reaches (s.threshold l) k = true ↔ reached l k := by
      cases l <;> exact reaches_thresholdAt ..
    refine ⟨ask_eq .., ?_⟩
    intro l u asks
    have hasks : requestsAttention s l before r = true ↔ asks := by
      rw [requestsAttention_iff]
      simp only [hreached, asks]
    have hget : t.links.get l = _ := ask_get s before r l
    refine ⟨fun h => ?_, fun h => ?_⟩
    · rw [hget, if_pos (hasks.mpr h)]
      rfl
    · rw [hget, if_neg fun hn => h (hasks.mp hn)]
  case delivered => rfl

/-! ## The catalogue (R32) -/

/-- Settles O38, code by code. -/
theorem catalogueGivesEachCodeItsEffects : Obligations.CatalogueGivesEachCodeItsEffects := by
  unfold Obligations.CatalogueGivesEachCodeItsEffects
  intro none' capped exclude hold raised
  have hexclude (n : Fin 4) : oneBit 4 n.val = 1 <<< n.val := by fin_cases n <;> rfl
  have hboost (l : Fin 3) : oneBit 3 l.val = 1 <<< l.val := by fin_cases l <;> rfl
  refine ⟨fun k => rfl, fun d => rfl, rfl, fun d => rfl, fun d => rfl, fun d => rfl, fun n xx d hxx => ⟨?trip, ?warn⟩,
    fun n => ⟨?silent, fun d => ?precharge, ?sync, ?reset⟩, fun t => ?twist, fun d => rfl, fun d => rfl, fun d => rfl,
    fun w => rfl, fun f cap => rfl, rfl, rfl, fun f => rfl, fun d => rfl, fun n => rfl, fun d => ⟨rfl, rfl, rfl⟩,
    fun l t cap => rfl, fun l => ?sensor⟩
  case trip =>
    simp only [laneTripRaise, laneCode, excludeEffects, Effects.nothing, hexclude, Nat.mul_comm n.val, exclude]
  case warn => simp only [laneWarnRaise, laneCode, Effects.nothing, Nat.mul_comm n.val, none']
  case silent =>
    simp only [laneSilentRaise, laneSilentCode, internalRaise, excludeEffects, Effects.nothing, hexclude, raised, exclude]
  case precharge =>
    simp only [prechargeFailRaise, prechargeFailCode, internalRaise, excludeEffects, Effects.nothing, hexclude, raised, exclude]
  case sync =>
    simp only [syncFailRaise, syncFailCode, internalRaise, excludeEffects, Effects.nothing, hexclude, raised, exclude]
  case reset =>
    simp only [resetFailRaise, resetFailCode, internalRaise, excludeEffects, Effects.nothing, hexclude, raised, exclude]
  case twist =>
    by_cases h : 0 < t
    · simp only [twistLimitRaise, internalRaise, yawEffects, if_pos h, Effects.nothing, flagOf, signedWord, twistLimitCode,
        raised]
    · simp only [twistLimitRaise, internalRaise, yawEffects, if_neg h, Effects.nothing, flagOf, signedWord, twistLimitCode,
        raised]
  case sensor =>
    simp only [sensorFaultRaise, sensorFaultCode, internalRaise, Effects.nothing, hboost, raised]

end Sys2Proof.Machine
end

section
/-! Retirement (R13, R17, R18, R54, R55) and the actions of the reaction slots (R49 to R55). -/

namespace Sys2Proof.Machine

/-! ## Retirement (R18) -/

/-- A retirement: the record leaves the table, the actions bound to its code are cancelled, the owner is told, and the slots
exhausted are raised last (R18, R54, R55; log 24). -/
theorem retireRecord_eq (c : Code) (s : State) :
    retireRecord c s =
      let table := s.table.filter (fun q => q.code ≠ c)
      ({ s.tabled table with slots := cancelSlots c s.slots },
       s.news table ++ boostHandover s.slots (cancelSlots c s.slots) ++ retirementOwner c ++
        spentRaises (exhaustedBy c s.slots)) := by
  simp only [retireRecord, Act.all, Act.andThen, Act.skip, State.withTable, removeCode_eq, cancelFor, Act.emit,
    List.append_nil, List.append_assoc, State.tabled, State.news]

/-- The main link lacks the authority over a TRIP record that remote_retire does not open to it (R17). -/
theorem retireRefused_iff (s : State) (l : Link) (q : Record) :
    retireRefused s l q = true ↔
      l = .main ∧ q.cls = .trip ∧ ¬(s.setting 19 = 1 ∧ (q.occurrences : Int) ≤ s.setting 20) := by
  rw [← not_iff_not]
  simp [retireRefused, State.settingOn]

theorem driveFaultCode_eq (n : Fin 8) : driveFaultCode n = ⟨3, ⟨16 + n.val, by omega⟩⟩ := by fin_cases n <;> rfl

theorem pumpFailCode_eq (l : Fin 3) : pumpFailCode l = ⟨4, ⟨16 + l.val, by omega⟩⟩ := by fin_cases l <;> rfl

theorem retirementOwner_drive (n : Fin 8) : retirementOwner (driveFaultCode n) = [.ymDriveRetired n] := by
  fin_cases n <;> rfl

theorem retirementOwner_pump (l : Fin 3) : retirementOwner (pumpFailCode l) = [.cuPumpRetired l] := by
  fin_cases l <;> rfl

theorem retirementOwner_none {c : Code} (hdrive : ∀ n, c ≠ driveFaultCode n) (hpump : ∀ l, c ≠ pumpFailCode l) :
    retirementOwner c = [] := by
  have hdrives : eightIndices.filter (fun n => driveFaultCode n == c) = [] :=
    List.filter_eq_nil_iff.mpr fun n _ => by simpa using (hdrive n).symm
  have hpumps : threeIndices.filter (fun l => pumpFailCode l == c) = [] :=
    List.filter_eq_nil_iff.mpr fun l _ => by simpa using (hpump l).symm
  rw [retirementOwner, hdrives, hpumps]
  rfl

/-! ## Slots cancelled (R54, R55) -/

theorem pendingFor_iff (c : Code) (v : Slot) : v.pendingFor c = true ↔ v.bound = some c ∧ v.pending.isSome = true := by
  simp [Slot.pendingFor]

/-- A slot that a removal cancels ends CANCELLED, and unbinds itself with its last action (R54, R55). -/
theorem cancelSlots_get (c : Code) (slots : Eight Slot) (k : Fin 8) :
    (cancelSlots c slots).get k =
      if (slots.get k).bound = some c ∧ (slots.get k).pending.isSome then (slots.get k).ended .cancelled
      else slots.get k := by
  rw [cancelSlots, Eight.get_map, Slot.cancelledFor]
  simp only [pendingFor_iff]

/-- The slots that a removal exhausts (R54, R55). -/
theorem exhaustedBy_eq (c : Code) (slots : Eight Slot) :
    exhaustedBy c slots = eightIndices.filter (fun k =>
      decide ((slots.get k).bound = some c ∧ (slots.get k).pending.isSome ∧ (slots.get k).count ≤ 1)) :=
  List.filter_congr fun k _ => by
    rw [Bool.eq_iff_iff, Bool.and_eq_true, pendingFor_iff, decide_eq_true_iff, Slot.exhausts, decide_eq_true_iff, and_assoc]

/-! ## The reaction boost set (R45, R52) -/

/-- A slot holds the loops of its COOL_BOOST while that is pending. -/
theorem hasBit_boosts (v : Slot) (m : Nat) :
    hasBit v.boosts m = true ↔
      v.action = some .coolBoost ∧ v.pending.isSome = true ∧ ∃ set, v.loops = some set ∧ hasBit set m = true := by
  by_cases h : v.action = some .coolBoost ∧ v.pending.isSome = true
  · cases hl : v.loops with
    | none => simp [Slot.boosts, h, hl, hasBit]
    | some set => simp [Slot.boosts, h, hl]
  · rw [Slot.boosts, if_neg h]
    refine iff_of_false (by simp [hasBit]) fun hall => h ⟨hall.1, hall.2.1⟩

/-- A loop is in the reaction boost set while some slot holds it there. -/
theorem hasBit_reactionBoost (slots : Eight Slot) (m : Nat) :
    hasBit (reactionBoost slots) m = true ↔ ∃ k : Fin 8, hasBit (slots.get k).boosts m = true := by
  have hfold : ∀ l : List Slot,
      hasBit (l.foldr (fun k acc => k.boosts ||| acc) 0) m = true ↔ ∃ v ∈ l, hasBit v.boosts m = true := by
    intro l
    induction l with
    | nil => simp [hasBit]
    | cons v rest ih =>
      simp only [List.foldr_cons, List.exists_mem_cons_iff, ← ih]
      simp [hasBit]
  rw [reactionBoost, hfold]
  constructor
  · rintro ⟨v, hv, h⟩
    obtain ⟨k, -, rfl⟩ := List.mem_map.mp (show v ∈ eightIndices.map slots.get from hv)
    exact ⟨k, h⟩
  · rintro ⟨k, h⟩
    have hk : k ∈ eightIndices := by fin_cases k <;> decide
    exact ⟨slots.get k, show slots.get k ∈ eightIndices.map slots.get from List.mem_map_of_mem hk, h⟩

/-- Settles O39, by the checks of RETIRE in their order, then by what a retirement does. -/
theorem retirementRemovesTheRecord : Obligations.RetirementRemovesTheRecord := by
  intro s c hsound table slots told
  refine ⟨fun l hready => ⟨fun habsent => exec_replies hready rfl ?notFound, ?present⟩, ?holdoff, fun k => ?slots,
    ?exhausted, rfl, fun m => ?boosted, ?drive, ?pump, ?noOwner⟩
  case notFound =>
    simp only [serve, serveRetire, begun_table, findCode_absent habsent]
    rfl
  case present =>
    rintro q hq rfl held barred
    have hfind : findCode s.table q.code = some q := findCode_of_mem hsound.codes hq
    have hbarred : retireRefused (s.begun l) l q = true ↔ barred := by
      rw [retireRefused_iff, begun_setting, begun_setting]
    refine ⟨fun ha => exec_replies hready rfl ?active, fun ha hh => exec_replies hready rfl ?held,
      fun ha hh hb => exec_replies hready rfl ?barred, fun ha hh hb => exec_carriesOut hready rfl ?retired⟩
    case active =>
      simp only [serve, serveRetire, begun_table, hfind, if_pos ha]
      rfl
    case held =>
      simp only [serve, serveRetire, begun_table, hfind, if_neg ha]
      exact if_pos hh
    case barred =>
      simp only [serve, serveRetire, begun_table, hfind, if_neg ha, hbarred.mpr hb, if_true]
      exact if_neg hh
    case retired =>
      simp only [serve, serveRetire, begun_table, hfind, if_neg ha, if_neg (mt hbarred.mp hb), retireRecord_eq,
        begun_slots, begun_news]
      exact if_neg hh
  case holdoff =>
    rintro hu q hq rfl hclearing
    refine exec_comesTo hu ?_
    have htake : handle (firstEvent (.holdoffExpiry q.code)) s = retireRecord q.code s := by
      simp only [firstEvent, handle, takeHoldoffEnd, findCode_of_mem hsound.codes hq, if_pos hclearing]
    rw [htake, retireRecord_eq]
  case slots => exact cancelSlots_get c s.slots k
  case exhausted => rw [exhaustedBy_eq, spentRaises]
  case boosted =>
    rw [hasBit_reactionBoost]
    simp only [hasBit_boosts]
  case drive =>
    rintro n rfl
    rw [← driveFaultCode_eq]
    exact retirementOwner_drive n
  case pump =>
    rintro l rfl
    rw [← pumpFailCode_eq]
    exact retirementOwner_pump l
  case noOwner =>
    intro hdrive hpump
    refine retirementOwner_none (fun n => ?_) fun l => ?_
    · rw [driveFaultCode_eq]
      exact hdrive n
    · rw [pumpFailCode_eq]
      exact hpump l

/-! ## A slot's action starts and ends (R49 to R55) -/

/-- A slot bound has a count of at least 1, so its action's end exhausts it at 1 alone (R45, R55). -/
theorem ended_eq {v : Slot} (h : 1 ≤ v.count) (o : SlotOutcome) :
    v.ended o =
      if v.count = 1 then
        { bound := none, action := none, loops := none, delay := none, count := 0, pending := none, last := o }
      else { v with count := v.count - 1, pending := none, last := o } := by
  have hone : v.count ≤ 1 ↔ v.count = 1 := by omega
  simp only [Slot.ended, hone, Slot.unbound]

theorem spentIf_eq {v : Slot} (h : 1 ≤ v.count) (k : Fin 8) (s : State) :
    spentIf k v s = (s, if v.count = 1 then [.ctRaise (spentRaise k)] else []) := by
  have hone : v.count ≤ 1 ↔ v.count = 1 := by omega
  simp only [spentIf, Act.emit, Slot.exhausts, hone, decide_eq_true_eq]

/-- A slot whose action has ended holds no loop in the reaction boost set. -/
theorem ended_boosts (v : Slot) (o : SlotOutcome) : (v.ended o).boosts = 0 := by
  refine boosts_of_not_pending ?_
  rw [Slot.ended]
  split <;> rfl

/-- The end of an action that holds no loop hands nothing over. -/
theorem setSlot_ended_quiet {s : State} {k : Fin 8} (h : (s.slots.get k).boosts = 0) (o : SlotOutcome) :
    setSlot k ((s.slots.get k).ended o) s = ({ s with slots := s.slots.set k ((s.slots.get k).ended o) }, []) :=
  setSlot_quiet ((ended_boosts ..).trans h.symm)

/-- AUTO_RETIRE and COOL_BOOST start their delay (R50, R52). -/
theorem fire_waits {s : State} {k : Fin 8} (c : Code)
    (h : (s.slots.get k).action = some .autoRetire ∨ (s.slots.get k).action = some .coolBoost) :
    fire k c s = setSlot k { s.slots.get k with pending := (s.slots.get k).delay } s := by
  simp only [fire]
  split
  case h_1 hno => simp [hno] at h
  case h_2 => rfl
  case h_3 => rfl
  case h_4 hescalate => simp [hescalate] at h

/-- ESCALATE hands its escalation over and ends at once (R53, R55). -/
theorem fire_escalates {s : State} {k : Fin 8} (c : Code) (h : (s.slots.get k).action = some .escalate)
    (hp : (s.slots.get k).pending = none) (hcount : 1 ≤ (s.slots.get k).count) :
    fire k c s =
      ({ s with slots := s.slots.set k ((s.slots.get k).ended .done) },
       .ctEscalateStep c :: if (s.slots.get k).count = 1 then [.ctRaise (spentRaise k)] else []) := by
  simp only [fire, h, Act.all, Act.andThen, Act.skip, Act.emit, setSlot_ended_quiet (boosts_of_not_pending hp),
    spentIf_eq hcount, List.append_nil, List.nil_append, List.singleton_append]

/-- The eligible slot for a code is the lowest bound to it (R45, R49). -/
theorem eligible_eq {slots : Eight Slot} {c : Code} {k : Fin 8} (hsound : ∀ k, (slots.get k).sound)
    (hk : (slots.get k).bound = some c) (hbelow : ∀ j, j < k → (slots.get j).bound ≠ some c) :
    eligible c slots = some k := by
  have hcount : 0 < (slots.get k).count := ((hsound k).count (by rw [hk]; rfl)).1
  have hat : ((slots.get k).bound == some c && decide (0 < (slots.get k).count)) = true := by simp [hk, hcount]
  have hbefore : ∀ j, j < k → ((slots.get j).bound == some c && decide (0 < (slots.get j).count)) = false :=
    fun j hj => by simp [hbelow j hj]
  have hmem : k ∈ eightIndices := by fin_cases k <;> decide
  have hrising : eightIndices.Pairwise (· < ·) := by decide
  obtain ⟨before, after, hsplit⟩ := List.append_of_mem hmem
  rw [eligible, hsplit, List.find?_append, List.find?_eq_none.mpr, List.find?_cons, hat]
  · rfl
  · intro j hj
    rw [hsplit] at hrising
    rw [hbefore j ((List.pairwise_append.mp hrising).2.2 j hj k List.mem_cons_self)]
    exact Bool.false_ne_true

theorem eligible_none {slots : Eight Slot} {c : Code} (h : ∀ k, (slots.get k).bound ≠ some c) : eligible c slots = none :=
  List.find?_eq_none.mpr fun k _ => by simp [h k]

/-- What an expired AUTO_RETIRE comes to where the record stands against it (R51, R55). -/
theorem takeAutoRetire_stays {s : State} {k : Fin 8} {c : Code} {o : SlotOutcome}
    (ha : (s.slots.get k).action = some .autoRetire) (hp : (s.slots.get k).pending.isSome = true)
    (hb : (s.slots.get k).bound = some c) (hcount : 1 ≤ (s.slots.get k).count) (hj : judgeExpiry s.table c = o)
    (ho : o ≠ .done) :
    takeAutoRetire k s =
      ({ s with slots := s.slots.set k ((s.slots.get k).ended o) },
       if (s.slots.get k).count = 1 then [.ctRaise (spentRaise k)] else []) := by
  obtain ⟨p, hp⟩ := Option.isSome_iff_exists.mp hp
  have hloops : (s.slots.get k).boosts = 0 := by simp [Slot.boosts, ha]
  have hall : takeAutoRetire k s = Act.all [setSlot k ((s.slots.get k).ended o), spentIf k (s.slots.get k)] s := by
    simp only [takeAutoRetire, ha, hp, hb, hj]
  rw [hall]
  simp only [Act.all, Act.andThen, Act.skip, setSlot_ended_quiet hloops, spentIf_eq hcount, List.append_nil,
    List.nil_append]

/-- What an expired AUTO_RETIRE comes to where it retires the record (R51, R55). -/
theorem takeAutoRetire_retires {s : State} {k : Fin 8} {c : Code}
    (ha : (s.slots.get k).action = some .autoRetire) (hp : (s.slots.get k).pending.isSome = true)
    (hb : (s.slots.get k).bound = some c) (hcount : 1 ≤ (s.slots.get k).count) (hj : judgeExpiry s.table c = .done) :
    takeAutoRetire k s =
      let z := { s with slots := s.slots.set k ((s.slots.get k).ended .done) }
      ((retireRecord c z).1,
       (retireRecord c z).2 ++ if (s.slots.get k).count = 1 then [.ctRaise (spentRaise k)] else []) := by
  obtain ⟨p, hp⟩ := Option.isSome_iff_exists.mp hp
  have hloops : (s.slots.get k).boosts = 0 := by simp [Slot.boosts, ha]
  simp only [takeAutoRetire, ha, hp, hb, hj, Act.all, Act.andThen, Act.skip, setSlot_ended_quiet hloops,
    spentIf_eq hcount, List.append_nil, List.nil_append]

/-- What the end of a COOL_BOOST comes to (R52, R55). -/
theorem takeBoostEnd_eq {s : State} {k : Fin 8} (ha : (s.slots.get k).action = some .coolBoost)
    (hp : (s.slots.get k).pending.isSome = true) (hcount : 1 ≤ (s.slots.get k).count) :
    takeBoostEnd k s =
      ({ s with slots := s.slots.set k ((s.slots.get k).ended .done) },
       boostHandover s.slots (s.slots.set k ((s.slots.get k).ended .done)) ++
        if (s.slots.get k).count = 1 then [.ctRaise (spentRaise k)] else []) := by
  obtain ⟨p, hp⟩ := Option.isSome_iff_exists.mp hp
  simp only [takeBoostEnd, ha, hp, Act.all, Act.andThen, Act.skip, setSlot, spentIf_eq hcount, List.append_nil]

/-- The record that an expired AUTO_RETIRE judges (R51). -/
theorem judgeExpiry_eq {t : List Record} {q : Record} (hd : distinct t) (hq : q ∈ t) :
    judgeExpiry t q.code =
      if q.cls = .trip then .refusedClass else if q.mode = .level ∧ q.cause = true then .notApplicable else .done := by
  simp only [judgeExpiry, findCode_of_mem hd hq]

theorem clsUp_eq (k : Cls) : clsUp k = match k with | .notice => .limit | .limit => .shed | _ => .trip := by
  cases k <;> rfl

theorem clsUp_ne {k : Cls} (h : k ≠ .trip) : clsUp k ≠ k := by
  cases k with
  | trip => exact absurd rfl h
  | notice | limit | shed => nofun

/-- An escalation of one step lifts a class below TRIP, and forces the cap of a TRIP (R15, R53). -/
theorem escalated_step (u : Nat) (q : Record) :
    escalated u (clsUp q.cls) none q =
      { q with
        cls := clsUp q.cls
        eff := { q.eff with cap := if clsUp q.cls = .trip then some 0 else q.eff.cap }
        lastChange := u, unread := ⟨true, true⟩ } := by
  have hcap : lowerCap q.eff.cap none = q.eff.cap := by cases q.eff.cap <;> rfl
  have hhigher : higherCls q.cls (clsUp q.cls) = clsUp q.cls := by cases q.cls <;> rfl
  rw [escalated_eq, hhigher, hcap]

/-- Settles O41, by the offer, the step of the class, and the expiries. -/
theorem slotActionsEnd : Obligations.SlotActionsEnd := by
  refine ⟨fun s c hsound => ⟨fun hno => ?noSlot, fun k hk hbelow => ?offer⟩, fun s c hsound => ⟨fun habsent => ?noRecord, ?step⟩,
    fun s k hu hsound hslot hpending => ?expiry⟩
  case noSlot =>
    have htake : handle (.ruOffer c) s = takeOffer c s := rfl
    simp only [htake, takeOffer, eligible_none hno]
  case offer =>
    intro v fired ended
    have hcount : 1 ≤ v.count := ((hsound k).count (by rw [hk]; rfl)).1
    have htake : handle (.ruOffer c) s = if v.pending.isSome then (s, []) else fire k c s := by
      simp only [handle, takeOffer, eligible_eq hsound hk hbelow, v]
    refine ⟨fun hp => ?_, fun hp ha => ?_, fun hp ha => ?_⟩
    · rw [htake, if_pos hp]
    · rw [htake, if_neg (by simp [hp]), fire_waits c ha]
      rfl
    · rw [htake, if_neg (by simp [hp]), fire_escalates c ha hp hcount, ended_eq hcount]
  case noRecord =>
    have htake : handle (.ctEscalateStep c) s = takeEscalation c clsUp none s := rfl
    simp only [htake, takeEscalation, findCode_absent habsent]
  case step =>
    rintro q hq rfl next r
    have htake : handle (.ctEscalateStep q.code) s = _ := takeEscalation_eq hsound.codes hq clsUp none
    have hfits := (hsound.records q hq).effects
    refine ⟨fun htrip => ?_, fun hbelow => ?_⟩
    · rw [htake, escalated_step, htrip]
      exact if_pos ⟨rfl, (hfits.2.2 htrip).symm⟩
    · have hnext : clsUp q.cls = next := clsUp_eq q.cls
      have hr : escalated s.uptime (clsUp q.cls) none q = r := by
        rw [escalated_step, hnext]
      have hmoves : r.cls ≠ q.cls := fun he => clsUp_ne hbelow (hnext.trans he)
      rw [htake, hr, if_neg fun h => hmoves h.1, changeRecord_eq]
  case expiry =>
    intro v ended spent
    have hbound : v.bound.isSome = true := by
      obtain ⟨p, hp⟩ := Option.isSome_iff_exists.mp hpending
      rw [hslot.action]
      rcases hslot.delay.mp (hslot.pending p hp).1 with ha | ha <;> rw [ha] <;> rfl
    have hcount : 1 ≤ v.count := (hslot.count hbound).1
    have hended (o : SlotOutcome) : s.slots.set k (v.ended o) = ended o := by rw [ended_eq hcount]
    refine ⟨fun ha => exec_comesTo hu ?boost, fun ha q hq hc => ?judged⟩
    case boost =>
      have htake : handle (firstEvent (.coolBoostEnd k)) s = takeBoostEnd k s := rfl
      rw [htake, takeBoostEnd_eq ha hpending hcount, hended]
      rfl
    case judged =>
      have htake : handle (firstEvent (.autoRetireExpiry k)) s = takeAutoRetire k s := rfl
      have hjudge := judgeExpiry_eq hsound.codes hq
      refine ⟨fun htrip => exec_comesTo hu ?_, fun hbelow hlevel hcause => exec_comesTo hu ?_, fun hbelow hgone => ?_⟩
      · rw [htake, takeAutoRetire_stays ha hpending hc hcount (hjudge.trans (if_pos htrip)) (by decide), hended]
      · rw [htake, takeAutoRetire_stays ha hpending hc hcount
          (hjudge.trans ((if_neg hbelow).trans (if_pos ⟨hlevel, hcause⟩))) (by decide), hended]
      · intro table slots
        refine exec_comesTo hu ?_
        rw [htake, takeAutoRetire_retires ha hpending hc hcount (hjudge.trans ((if_neg hbelow).trans (if_neg hgone)))]
        simp only [retireRecord_eq]
        rw [hended]
        rfl

end Sys2Proof.Machine
end

section
/-! The yaw context chain (R129 to R138): the holds on a context, its evaluation as the top, insertion, removal and the
re-evaluation of the holds. -/

namespace Sys2Proof.Machine

/-! ## Holds (R132, R133) -/

theorem freeHold_iff (y : Yaw) (k : Kind) :
    y.freeHold k = true ↔ hasBit y.held 4 = true ∨ y.supply = .low ∨ (hasBit y.held 3 = true ∧ k ≠ .service) := by
  simp [Yaw.freeHold, Yaw.hold, Yaw.holdAuto, or_assoc, or_comm]

theorem blocked_cw (y : Yaw) : y.blocked .cw = true ↔ hasBit y.held 0 = true ∨ 10800 ≤ y.twist := by
  have hguards : y.guards .cw = true ↔ 10800 ≤ y.twist := by
    simp only [Yaw.guards, winds, Bool.and_eq_true, decide_eq_true_eq]
    unfold magnitude
    omega
  rw [Yaw.blocked, Bool.or_eq_true, hguards]
  rfl

theorem blocked_ccw (y : Yaw) : y.blocked .ccw = true ↔ hasBit y.held 1 = true ∨ y.twist ≤ -10800 := by
  have hguards : y.guards .ccw = true ↔ y.twist ≤ -10800 := by
    simp only [Yaw.guards, winds, Bool.and_eq_true, decide_eq_true_eq]
    unfold magnitude
    omega
  rw [Yaw.blocked, Bool.or_eq_true, hguards]
  rfl

/-- The direction hold on a context: its direction is blocked, and where it is a TRACK in HELD, F still asks for a blocked
direction (R133). -/
theorem directionHold_iff (st : List Int) (y : Yaw) (c : Context) :
    y.directionHold st c = true ↔
      ∃ d, c.dir = some d ∧ y.blocked d = true ∧
        (c.kind = .track → c.state = .held →
          (settingOf st 6).toNat ≤ y.filtered.natAbs ∧ y.blocked (if 0 < y.filtered then .cw else .ccw) = true) := by
  cases hd : c.dir with
  | none => simp [Yaw.directionHold, hd]
  | some d =>
    by_cases htrack : c.kind = .track ∧ c.state = .held
    · simp [Yaw.directionHold, hd, htrack, magnitude, dirOf]
    · simp only [Yaw.directionHold, hd, if_neg htrack, Bool.and_true, Option.some.injEq, exists_eq_left']
      exact ⟨fun h => ⟨h, fun hk hs => absurd ⟨hk, hs⟩ htrack⟩, fun h => h.1⟩

/-! ## Evaluation (R131, R137, R138) -/

section
variable (st : List Int) (y : Yaw) (fresh : Bool) {c : Context} (rest : List Context)

theorem evalChain_service (hk : c.kind = .service) :
    evalChain st y fresh (c :: rest) = ({ c with state := .moving } :: rest, []) := by
  obtain ⟨kind, origin, target, dir, state⟩ := c
  cases hk
  simp [evalChain]

theorem evalChain_held (hk : c.kind ≠ .service) (hf : y.freeHold c.kind = true) :
    evalChain st y fresh (c :: rest) = ({ c with state := .held } :: rest, []) := by
  rw [evalChain, if_pos ⟨hf, hk⟩]

theorem evalChain_track (hk : c.kind = .track) (hf : y.freeHold .track = false) :
    evalChain st y fresh (c :: rest) = (c.watches :: rest, [.whWatch (if fresh then .enterDwell else .enterNow)]) := by
  obtain ⟨kind, origin, target, dir, state⟩ := c
  cases hk
  simp [evalChain, hf]

theorem evalChain_park (hk : c.kind = .park) (hf : y.freeHold .park = false) :
    evalChain st y fresh (c :: rest) = (evalPark st y c :: rest, []) := by
  obtain ⟨kind, origin, target, dir, state⟩ := c
  cases hk
  simp [evalChain, hf]

theorem evalChain_unwind_heads (hk : c.kind = .unwind) (hf : y.freeHold .unwind = false) (hg : goalReached y c = false) :
    evalChain st y fresh (c :: rest) = (c.heads y c.target (unwindDir y.twist) :: rest, []) := by
  obtain ⟨kind, origin, target, dir, state⟩ := c
  cases hk
  simp [evalChain, hf, hg]

theorem evalChain_unwind_leaves (hk : c.kind = .unwind) (hf : y.freeHold .unwind = false) (hg : goalReached y c = true) :
    evalChain st y fresh (c :: rest) = ((evalChain st y false rest).1, .whUnwind false :: (evalChain st y false rest).2) := by
  obtain ⟨kind, origin, target, dir, state⟩ := c
  cases hk
  simp [evalChain, hf, hg]

end

/-- An UNWIND is at its goal where |twist| is at or below it (R138). -/
theorem goalReached_iff (y : Yaw) {c : Context} {goal : Int} (h : c.target = .twist goal) :
    goalReached y c = true ↔ (y.twist.natAbs : Int) ≤ goal := by
  rw [goalReached, h]
  exact decide_eq_true_iff

/-- PARK's target and the way there, as the evaluation of PARK states them (R131, R137). -/
theorem evalPark_eq (st : List Int) (y : Yaw) (c : Context) :
    evalPark st y c =
      match y.heading with
      | none => c.watches
      | some h =>
        let t := ((h : Int) + y.filtered - settingOf st 8) % 3600
        let way := (t - h + 1800) % 3600 - 1800
        if way.natAbs ≤ 5 then c.watches else c.heads y (.heading t.toNat) (if 0 < way then .cw else .ccw) := by
  unfold evalPark
  cases y.heading with
  | none => rfl
  | some h =>
    have htarget : ((parkTarget st y h : Nat) : Int) = ((h : Int) + y.filtered - settingOf st 8) % 3600 := by
      rw [parkTarget, headingAdd, Int.toNat_of_nonneg (Int.emod_nonneg _ (by omega))]
      congr 1
      omega
    have hnat : parkTarget st y h = (((h : Int) + y.filtered - settingOf st 8) % 3600).toNat := by omega
    simp only [inBand, parkHeads, shorterWay, headingDiff, magnitude, decide_eq_true_eq, hnat]
    rw [← hnat, htarget]

/-- The evaluation does not look at the chain that the unit holds. -/
theorem evalChain_of_chain (st : List Int) (y : Yaw) (held chain : List Context) (fresh : Bool) :
    evalChain st { y with chain := held } fresh chain = evalChain st y fresh chain := by
  induction chain generalizing fresh with
  | nil => rfl
  | cons c rest ih =>
    rw [evalChain, evalChain, ih]
    rfl

theorem evaluate_chain (st : List Int) (fresh : Bool) (y : Yaw) (chain : List Context) :
    Yaw.evaluate st fresh { y with chain := chain } =
      ({ y with chain := (evalChain st y fresh chain).1 }, (evalChain st y fresh chain).2) := by
  simp only [Yaw.evaluate, evalChain_of_chain]

/-! ## Insertion (R130) -/

/-- A context below the top: a TRACK or PARK drops its move (R130, log 22). -/
theorem suspends_eq (c : Context) :
    c.suspends =
      if c.kind = .track ∨ c.kind = .park then { c with target := .absent, dir := none, state := .suspended }
      else { c with state := .suspended } := by
  obtain ⟨kind, origin, target, dir, state⟩ := c
  cases kind <;> rfl

section
variable {st : List Int} {y : Yaw} {c : Context}

theorem insert_nil (h : y.chain = []) :
    y.insert st c = ({ y with chain := (evalChain st y true [c]).1 }, (evalChain st y true [c]).2) := by
  rw [Yaw.insert, h]
  exact evaluate_chain st true y [c]

/-- A context above the top becomes the top, and suspends the old one. -/
theorem insert_above {top : Context} {rest : List Context} (h : y.chain = top :: rest)
    (hp : priority top.kind < priority c.kind) :
    y.insert st c =
      ({ y with chain := (evalChain st y true (c :: top.suspends :: rest)).1 },
       leaveEvents top ++ (evalChain st y true (c :: top.suspends :: rest)).2) := by
  simp only [Yaw.insert, h, if_pos hp, evaluate_chain]

theorem insertBelow_append {above below : List Context} (habove : ∀ q ∈ above, priority c.kind ≤ priority q.kind)
    (hbelow : ∀ q ∈ below.head?, priority q.kind < priority c.kind) :
    insertBelow c (above ++ below) = above ++ c :: below := by
  induction above with
  | nil =>
    cases below with
    | nil => rfl
    | cons q rest => exact if_pos (hbelow q rfl)
  | cons q rest ih =>
    have hq := habove q List.mem_cons_self
    rw [List.cons_append, insertBelow, if_neg (by omega), ih fun x hx => habove x (List.mem_cons_of_mem _ hx)]
    rfl

/-- A context that does not stand above the top is suspended at the place of its priority. -/
theorem insert_below {above below : List Context} (h : y.chain = above ++ below) (hne : above ≠ [])
    (habove : ∀ q ∈ above, priority c.kind ≤ priority q.kind)
    (hbelow : ∀ q ∈ below.head?, priority q.kind < priority c.kind) :
    y.insert st c = ({ y with chain := above ++ { c with state := .suspended } :: below }, []) := by
  obtain ⟨top, rest, rfl⟩ := List.exists_cons_of_ne_nil hne
  have htop := habove top List.mem_cons_self
  have hplace := insertBelow_append (c := { c with state := .suspended }) habove hbelow
  simp only [Yaw.insert, h, List.cons_append, if_neg (show ¬priority top.kind < priority c.kind by omega)]
  rw [← List.cons_append, hplace]
  rfl

/-! ## Removal (R130, R138) -/

theorem inChain_iff {k : Kind} : y.inChain k = true ↔ ∃ q ∈ y.chain, q.kind = k := by
  simp [Yaw.inChain, List.any_eq_true]

theorem inChain_eq_false {k : Kind} : y.inChain k = false ↔ ∀ q ∈ y.chain, q.kind ≠ k := by
  simp [Yaw.inChain, List.any_eq_false]

theorem remove_absent {k : Kind} (h : ∀ q ∈ y.chain, q.kind ≠ k) : y.remove st k = (y, []) := by
  have hno : ¬y.inChain k = true := by
    rw [inChain_iff]
    exact fun ⟨q, hq, hk⟩ => h q hq hk
  unfold Yaw.remove
  cases hc : y.chain with
  | nil => rfl
  | cons top rest =>
    have htop : top.kind ≠ k := h top (hc ▸ List.mem_cons_self)
    simp only [if_neg htop, if_neg hno]

theorem remove_top {k : Kind} {top : Context} {rest : List Context} (h : y.chain = top :: rest) (hk : top.kind = k) :
    y.remove st k =
      ({ y with chain := (evalChain st y false rest).1 },
       leaveEvents top ++ goneEvents k ++ (evalChain st y false rest).2) := by
  simp only [Yaw.remove, h, if_pos hk, evaluate_chain]

theorem remove_under {k : Kind} {top : Context} {rest : List Context} (h : y.chain = top :: rest) (hk : top.kind ≠ k)
    (hin : ∃ q ∈ rest, q.kind = k) :
    y.remove st k = ({ y with chain := y.chain.filter (fun q => q.kind ≠ k) }, goneEvents k) := by
  have hyes : y.inChain k = true := by
    obtain ⟨q, hq, hqk⟩ := hin
    exact inChain_iff.mpr ⟨q, h ▸ List.mem_cons_of_mem _ hq, hqk⟩
  have hfilter : y.chain.filter (fun q => !(q.kind == k)) = y.chain.filter (fun q => q.kind ≠ k) :=
    List.filter_congr fun q _ => by by_cases hq : q.kind = k <;> simp [hq]
  rw [← hfilter, Yaw.remove, h]
  simp only [if_neg hk, hyes, if_true]

/-! ## The holds on the top re-evaluated (R134) -/

/-- Whether the top is held: by a hold that needs no direction, or in its direction. -/
def Yaw.holdsTop (st : List Int) (y : Yaw) (top : Context) : Bool := y.freeHold top.kind || y.directionHold st top

section
variable {top : Context} {rest : List Context} (h : y.chain = top :: rest)
include h

theorem rehold_suspended (hs : top.state = .suspended) : y.rehold st = (y, []) := by
  simp only [Yaw.rehold, h, hs]

theorem rehold_stays_held (hs : top.state = .held) (hh : y.holdsTop st top = true) : y.rehold st = (y, []) := by
  simp only [Yaw.rehold, h, hs]
  exact if_pos hh

theorem rehold_lifts (hs : top.state = .held) (hh : y.holdsTop st top = false) :
    y.rehold st = ({ y with chain := (evalChain st y false y.chain).1 }, (evalChain st y false y.chain).2) := by
  simp only [Yaw.rehold, h, hs]
  rw [if_neg (by simpa [Yaw.holdsTop] using hh), Yaw.evaluate, h]

theorem rehold_active (hs : top.state = .watching ∨ top.state = .moving) :
    y.rehold st =
      if y.holdsTop st top then
        (if top.kind = .service then y.remove st .service
         else ({ y with chain := { top with state := .held } :: rest }, leaveEvents top))
      else (y, []) := by
  simp only [Yaw.rehold, h]
  split
  next hsus => simp [hsus] at hs
  next hheld => simp [hheld] at hs
  next => rfl

end
end

/-- Settles O51, by what the chain is asked to do. -/
theorem chainIsEvaluatedAndHeld : Obligations.ChainIsEvaluatedAndHeld := by
  intro st y held left rank
  have hrank (k : Kind) : rank k = priority k := by cases k <;> rfl
  have hfree (k : Kind) : y.freeHold k = true ↔ held k := freeHold_iff y k
  have hnot {k : Kind} (h : ¬held k) : y.freeHold k = false := by rwa [← Bool.not_eq_true, hfree]
  refine ⟨hfree, blocked_cw y, blocked_ccw y, fun fresh => rfl, ?evaluated, fun c => ⟨insert_nil, ?above, ?below⟩, ?removed,
    fun h => by simp only [Yaw.rehold, h], ?reheld⟩
  case evaluated =>
    intro fresh c rest becomes watching heads
    refine ⟨evalChain_service st y fresh rest, fun hk hh => evalChain_held st y fresh rest hk ((hfree _).mpr hh),
      fun hk hh => evalChain_track st y fresh rest hk (hnot hh), fun hk hh => ?_, fun goal hk ht hh => ⟨fun hg => ?_, fun hg => ?_⟩⟩
    · refine (evalChain_park st y fresh rest hk (hnot hh)).trans ?_
      rw [evalPark_eq]
      rfl
    · have hgoal : goalReached y c = false := by
        rw [← Bool.not_eq_true, goalReached_iff y ht]
        omega
      refine (evalChain_unwind_heads st y fresh rest hk (hnot hh) hgoal).trans ?_
      rw [ht]
      rfl
    · exact evalChain_unwind_leaves st y fresh rest hk (hnot hh) ((goalReached_iff y ht).mpr hg)
  case above =>
    intro top rest hc hp under r
    rw [hrank, hrank] at hp
    have hunder : top.suspends = under := suspends_eq top
    rw [insert_above hc hp, hunder]
    rfl
  case below =>
    intro above below hc hne habove hbelow
    simp only [hrank] at habove hbelow
    exact insert_below hc hne habove hbelow
  case removed =>
    intro k gone
    exact ⟨remove_absent, fun top rest hc => ⟨fun hk => remove_top hc hk, fun hk hin => remove_under hc hk hin⟩⟩
  case reheld =>
    intro top rest hc against holds
    have hholds : y.holdsTop st top = true ↔ holds := by
      rw [Yaw.holdsTop, Bool.or_eq_true, hfree, directionHold_iff]
    refine ⟨rehold_suspended hc, fun hs hh => rehold_stays_held hc hs (hholds.mpr hh), fun hs hh => rehold_lifts hc hs ?_,
      fun hs => ⟨fun hh => ?_, fun hh hk => ?_, fun hh hk => ?_⟩⟩
    · rwa [← Bool.not_eq_true, hholds]
    · rw [rehold_active hc hs, if_neg (mt hholds.mp hh)]
    · rw [rehold_active hc hs, if_pos (hholds.mpr hh), if_pos hk]
    · rw [rehold_active hc hs, if_pos (hholds.mpr hh), if_neg hk]
      rfl

end Sys2Proof.Machine
end

section
/-! What the yaw motion unit takes: the handovers of the other blocks (R121, R122, R134 to R138), the requests that move its
chain (R136, R139 to R141), and the end of a jog's time (R141). -/

namespace Sys2Proof.Machine

/-! ## What an event of the unit leaves (R145, R146) -/

/-- The brake and the drives follow beside the chain. -/
theorem setYaw_chain (raises : List Ev) (w : YawWork) (s : State) : (setYaw raises w s).1.ym.chain = w.1.chain := by
  rw [setYaw_ym, follow_keeps]

/-- A change of the chain alone leaves what the unit was handed. -/
theorem setYaw_sameInputs {y : Yaw} {w : YawWork} (raises : List Ev) (s : State) (h : chainOnly y w.1) :
    y.sameInputs (setYaw raises w s).1.ym := by
  rw [setYaw_ym, follow_keeps, h]
  exact ⟨rfl, rfl, rfl, rfl, rfl, rfl⟩

/-! ## Limits and F (R134, R137) -/

/-- PARK comes and goes with yaw_park (R137). -/
theorem followPark_eq (st : List Int) (y : Yaw) :
    y.followPark st =
      if hasBit y.held 2 = true ∧ ∀ c ∈ y.chain, c.kind ≠ .park then
        y.insert st ⟨.park, .auto, .absent, none, .watching⟩
      else if hasBit y.held 2 = false ∧ ∃ c ∈ y.chain, c.kind = .park then y.remove st .park
      else (y, []) := by
  simp only [Yaw.followPark, yawPark, inChain_eq_false, inChain_iff, parkContext]

section
variable {st : List Int} {y : Yaw} {top : Context} {rest : List Context}

/-- A PARK that a direction alone holds takes a fresh target at each F (R134, R137). -/
theorem atFiltered_retargets (hc : y.chain = top :: rest) (hk : top.kind = .park) (hs : top.state = .held)
    (hheading : y.heading.isSome = true) (hf : y.freeHold .park = false) (hd : y.directionHold st top = true) :
    y.atFiltered st = ({ y with chain := (evalChain st y false (top :: rest)).1 }, []) := by
  obtain ⟨h, hh⟩ := Option.isSome_iff_exists.mp hheading
  simp only [Yaw.atFiltered, hc, hh]
  rw [if_pos ⟨hk, hs, hf, hd⟩, evalChain_park st y false rest hk hf]

/-- A PARK that watches heads for a fresh target once F is off park_offset (R137; log 50). -/
theorem atFiltered_turns {h : Nat} (hc : y.chain = top :: rest) (hh : y.heading = some h) (hk : top.kind = .park)
    (hs : top.state = .watching) (hoff : settingOf st 9 ≤ ((y.filtered - settingOf st 8).natAbs : Int)) :
    y.atFiltered st = ({ y with chain := parkHeads st y h top :: rest }, []) := by
  simp only [Yaw.atFiltered, hc, hh]
  rw [if_neg (by simp [hs]), if_pos ⟨hk, hs, hoff⟩]

/-- Any other HELD top has its holds re-evaluated (R134). -/
theorem atFiltered_reholds (hc : y.chain = top :: rest) (hs : top.state = .held)
    (hnot : ¬(top.kind = .park ∧ top.state = .held ∧ y.heading.isSome = true ∧ y.freeHold .park = false ∧
      y.directionHold st top = true)) : y.atFiltered st = y.rehold st := by
  cases hh : y.heading with
  | none =>
    simp only [Yaw.atFiltered, hc, hh]
    exact if_pos hs
  | some h =>
    simp only [Yaw.atFiltered, hc, hh]
    rw [if_neg (fun ⟨hk, _, hf, hd⟩ => hnot ⟨hk, hs, by simp [hh], hf, hd⟩), if_neg (by simp [hs]), if_pos hs]

/-- Any other top stands. -/
theorem atFiltered_stands (hc : y.chain = top :: rest) (hs : top.state ≠ .held)
    (hnot : y.heading = none ∨ ¬(top.kind = .park ∧ top.state = .watching ∧
      settingOf st 9 ≤ ((y.filtered - settingOf st 8).natAbs : Int))) : y.atFiltered st = (y, []) := by
  cases hh : y.heading with
  | none =>
    simp only [Yaw.atFiltered, hc, hh]
    exact if_neg hs
  | some h =>
    simp only [Yaw.atFiltered, hc, hh]
    rw [if_neg (by simp [hs])]
    exact (if_neg (hnot.resolve_left (by simp [hh]))).trans (if_neg hs)

end

/-- Settles O52, by the handovers in turn. -/
theorem yawTakesWhatBlocksHandIt : Obligations.YawTakesWhatBlocksHandIt := by
  intro s
  refine ⟨fun flags => ?limits, fun supply => rfl, fun goal d => ⟨fun hin => ?inChain, fun hout => ?joins⟩,
    fun t d => ⟨fun hnot => ?notWatching, fun top rest hc hk hs => ?moves⟩, fun f => ⟨fun hc => ?noTop, ?filtered⟩, rfl, rfl,
    ?enterNow⟩
  case limits =>
    intro y p q
    have hpark : Yaw.followPark s.settings y = p := followPark_eq s.settings y
    have htake : handle (.ymLimits flags) s = setYaw [] ((Yaw.followPark s.settings y).thenDo (Yaw.rehold s.settings)) s :=
      rfl
    rw [htake, hpark]
    rfl
  case inChain => exact if_pos (inChain_iff.mpr hin)
  case joins => exact if_neg (by rwa [Bool.not_eq_true, inChain_eq_false])
  case notWatching =>
    have htake : handle (.ymMove t d) s = takeMove t d s := rfl
    rw [htake, takeMove]
    cases hc : s.ym.chain with
    | nil => rfl
    | cons top rest => exact if_neg (hnot top (by rw [hc]; rfl))
  case moves =>
    have htake : handle (.ymMove t d) s = takeMove t d s := rfl
    rw [htake, takeMove]
    simp only [hc]
    rw [if_pos ⟨hk, hs⟩, leaveEvents, if_pos ⟨hk, hs⟩]
    rfl
  case noTop =>
    have htake : handle (.ymFiltered f) s = setYaw [] (Yaw.atFiltered s.settings { s.ym with filtered := f }) s := rfl
    rw [htake]
    congr 1
    simp only [Yaw.atFiltered, hc]
  case filtered =>
    intro top rest hc retargets off turns
    set y : Yaw := { s.ym with filtered := f }
    have htake : handle (.ymFiltered f) s = setYaw [] (y.atFiltered s.settings) s := rfl
    have hdirection (hk : top.kind = .park) :
        y.directionHold s.settings top = true ↔ ∃ d, top.dir = some d ∧ y.blocked d = true := by
      rw [directionHold_iff]
      simp [hk]
    refine ⟨fun ⟨hk, hs, hh, hf, hd⟩ => ?_, fun h hh ⟨hk, hs, hoff⟩ => ?_, fun hs hnot => ?_, fun hs hnot => ?_⟩
    · rw [htake, atFiltered_retargets (y := y) hc hk hs hh hf ((hdirection hk).mpr hd)]
    · intro t d
      have ht : ((parkTarget s.settings y h : Nat) : Int) = t := by
        rw [parkTarget, headingAdd, Int.toNat_of_nonneg (Int.emod_nonneg _ (by omega))]
        rfl
      have hway : shorterWay h (parkTarget s.settings y h) = d := by
        rw [shorterWay, headingDiff, ht]
      rw [htake, atFiltered_turns (y := y) hc hh hk hs hoff, parkHeads, hway]
      rfl
    · refine htake.trans (congrArg (fun w => setYaw [] w s) (atFiltered_reholds (y := y) hc hs ?_))
      exact fun ⟨hk, hheld, hh, hf, hd⟩ => hnot ⟨hk, hheld, hh, hf, (hdirection hk).mp hd⟩
    · rw [htake, atFiltered_stands (y := y) hc hs hnot]
  case enterNow =>
    have htake : handle (.whWatch .enterNow) s =
        ({ s with wh := { s.wh with watching := true, dwell := 0 } }, if overThreshold s then trackMove s.wh else []) := rfl
    rw [htake]
    congr 1
    cases hok : s.wh.headingOk with
    | false => simp [trackMove, hok]
    | true =>
      cases hh : s.wh.refHeading with
      | none => simp [trackMove, hok, hh]
      | some h =>
        by_cases hover : (s.setting 6).toNat ≤ s.wh.filtered.natAbs
        · have hthreshold : overThreshold s = true := decide_eq_true hover
          simp only [hthreshold, if_true, trackMove, hok, hh, if_pos hover]
          rfl
        · have hthreshold : overThreshold s = false := decide_eq_false hover
          simp only [hthreshold, if_neg hover]
          rfl

/-! ## SERVICE (R140, R141) -/

/-- A SERVICE stands at the top of a sound chain (R129, R130). -/
theorem service_at_top {chain : List Context} (hsound : ChainSound chain) (h : ∃ c ∈ chain, c.kind = .service) :
    ∃ top rest, chain = top :: rest ∧ top.kind = .service := by
  obtain ⟨c, hc, hk⟩ := h
  cases chain with
  | nil => cases hc
  | cons top rest =>
    rcases List.mem_cons.mp hc with rfl | hrest
    · exact ⟨c, rest, rfl, hk⟩
    · obtain ⟨htail, -, -, -⟩ := chainSound_cons.mp hsound
      exact absurd hk (htail.noService c hrest)

/-- A context below a new top keeps its target and direction where it is an UNWIND (R130, log 22). -/
theorem suspends_not_service {c : Context} (h : c.kind ≠ .service) :
    c.suspends =
      { c with
        target := if c.kind = .unwind then c.target else .absent
        dir := if c.kind = .unwind then c.dir else none, state := .suspended } := by
  obtain ⟨kind, origin, target, dir, state⟩ := c
  cases kind with
  | service => exact absurd rfl h
  | park | unwind | track => rfl

theorem priority_lt_service {k : Kind} (h : k ≠ .service) : priority k < priority .service := by
  cases k with
  | service => exact absurd rfl h
  | park | unwind | track => decide

/-- A SERVICE inserted where none is stands above the old chain, whose top it suspends (R130, R140). -/
theorem insert_service {st : List Int} {y : Yaw} (target : Target) (d : Dir) (h : ∀ c ∈ y.chain, c.kind ≠ .service) :
    (y.insert st (serviceContext target d)).1.chain =
      ⟨.service, .service, target, some d, .moving⟩ ::
        (match y.chain with
         | [] => []
         | top :: rest =>
           { top with
             target := if top.kind = .unwind then top.target else .absent
             dir := if top.kind = .unwind then top.dir else none, state := .suspended } :: rest) := by
  cases hc : y.chain with
  | nil =>
    rw [insert_nil hc, evalChain_service st y true [] rfl]
    rfl
  | cons top rest =>
    have htop : top.kind ≠ .service := h top (by rw [hc]; exact List.mem_cons_self)
    have hp : priority top.kind < priority (serviceContext target d).kind := priority_lt_service htop
    rw [insert_above hc hp, evalChain_service st y true (top.suspends :: rest) rfl, suspends_not_service htop]
    rfl

/-- The unit jogs while a SERVICE with a time stands in its chain (R141). -/
theorem jogs_iff (y : Yaw) : y.jogs = true ↔ ∃ c ∈ y.chain, c.kind = .service ∧ ∃ ms, c.target = .time ms := by
  have htime (t : Target) : (match t with | .time _ => true | _ => false) = true ↔ ∃ ms, t = .time ms := by
    cases t <;> simp
  simp only [Yaw.jogs, List.any_eq_true, Bool.and_eq_true, beq_iff_eq]
  exact exists_congr fun c => and_congr_right fun _ => and_congr_right fun _ => htime c.target

theorem inBand_iff (h t : Nat) : inBand h t = true ↔ (((t : Int) - h + 1800) % 3600 - 1800).natAbs ≤ 5 := by
  rw [inBand, headingDiff, magnitude, decide_eq_true_eq]

/-- Settles O53, by the checks in their order, then by what is inserted and removed. -/
theorem serviceMovesComeAndGo : Obligations.ServiceMovesComeAndGo := by
  intro s serves barred under inserted removed
  have hserves : s.ym.inChain .service = true ↔ serves := inChain_iff
  have hnone (h : ¬serves) : s.ym.inChain .service = false := by rwa [← Bool.not_eq_true, hserves]
  have hremoved (h : serves) (hsound : s.ym.sound) :
      chainOnly s.ym (s.ym.remove s.settings .service).1 ∧
      (s.ym.remove s.settings .service).1.chain = (evalChain s.settings s.ym false s.ym.chain.tail).1 := by
    obtain ⟨top, rest, hc, hk⟩ := service_at_top hsound.chain h
    refine ⟨remove_only .., ?_⟩
    rw [remove_top hc hk, hc]
    rfl
  have hinserts {i : Instr} {target : Target} {d : Dir} {r : Request} (hready : s.ready .service)
      (hi : firstEvent i = .lkRequest .service r) (hr : ∀ straps, r ≠ .warmReset straps) (hn : ¬serves)
      (hs : serve .service r (s.begun .service) = Served.did (insertService target d (s.begun .service)) .done []) :
      inserted i target d := by
    refine ⟨?_, fun hsound => ⟨setYaw_sameInputs _ _ (insert_only ..), ?_⟩⟩
    · refine exec_carriesOut hready hi (hs.trans ?_) hr
      simp only [insertService, begun_ym, begun_settings]
      rfl
    · rw [setYaw_chain]
      exact insert_service target d (inChain_eq_false.mp (hnone hn))
  refine ⟨fun hready => ⟨fun h => exec_replies hready rfl rfl, fun d n => exec_replies hready rfl rfl,
    exec_replies hready rfl rfl⟩, fun hready => ⟨fun t ht => exec_replies hready rfl ?gotoValue,
    fun d n hn => exec_replies hready rfl ?jogValue, fun t ht hs => exec_replies hready rfl ?gotoServes,
    fun d n hlow hhigh hs => exec_replies hready rfl ?jogServes,
    fun t ht hs hb => exec_replies hready rfl ?gotoBarred, fun d n hlow hhigh hs hb => exec_replies hready rfl ?jogBarred,
    fun t h ht hs hb hh => ?goto, fun d n hlow hhigh hs hb hfree => hinserts hready rfl nofun hs ?jog,
    fun hs => exec_replies hready rfl ?noStop, fun hs => ⟨exec_carriesOut hready rfl ?stop, fun hsound => ?stopped⟩⟩,
    fun hu hjog => ⟨exec_comesTo hu ?jogEnd, fun hsound => ?jogEnded⟩⟩
  case gotoValue =>
    simp only [serve, serveYawGoto, reduceCtorEq, if_false, if_pos ht]
    rfl
  case jogValue =>
    simp only [serve, serveYawJog, reduceCtorEq, if_false]
    exact if_pos (by omega)
  case gotoServes =>
    simp only [serve, serveYawGoto, reduceCtorEq, if_false, if_neg (Nat.not_lt.mpr ht), begun_ym, hserves.mpr hs, if_true]
    rfl
  case jogServes =>
    simp only [serve, serveYawJog, reduceCtorEq, if_false, if_neg (show ¬(n < 1 ∨ 60 < n) by omega), begun_ym,
      hserves.mpr hs, if_true]
    rfl
  case gotoBarred =>
    simp only [serve, serveYawGoto, reduceCtorEq, if_false, if_neg (Nat.not_lt.mpr ht), begun_ym, hnone hs,
      Bool.false_eq_true]
    by_cases hbar : barred
    · exact if_pos hbar
    · rw [if_neg hbar, hb.resolve_left hbar]
      rfl
  case jogBarred =>
    simp only [serve, serveYawJog, reduceCtorEq, if_false, if_neg (show ¬(n < 1 ∨ 60 < n) by omega), begun_ym, hnone hs,
      Bool.false_eq_true]
    by_cases hbar : barred
    · exact if_pos hbar
    · rw [if_neg hbar, if_pos (hb.resolve_left hbar)]
      rfl
  case goto =>
    intro way d
    have hserve : serve .service (.yawGoto t) (s.begun .service) =
        if inBand h t then Served.read (s.begun .service) []
        else if s.ym.blocked d then Served.refused (s.begun .service) .refusedState
        else Served.did (insertService (.heading t) d (s.begun .service)) .done [] := by
      simp only [serve, serveYawGoto, reduceCtorEq, if_false, if_neg (Nat.not_lt.mpr ht), begun_ym, hnone hs,
        Bool.false_eq_true, hh]
      exact if_neg hb
    have hnot (hfar : 5 < way.natAbs) : ¬inBand h t = true := by
      rw [inBand_iff]
      exact Nat.not_le.mpr hfar
    refine ⟨fun hnear => exec_replies hready rfl (hserve.trans (if_pos ((inBand_iff h t).mpr hnear))), fun hfar hblocked => ?_,
      fun hfar hfree => hinserts hready rfl nofun hs (hserve.trans ?_)⟩
    · exact exec_replies hready rfl (hserve.trans ((if_neg (hnot hfar)).trans (if_pos hblocked)))
    · rw [if_neg (hnot hfar), if_neg (by simp [hfree])]
  case jog =>
    simp only [serve, serveYawJog, reduceCtorEq, if_false, if_neg (show ¬(n < 1 ∨ 60 < n) by omega), begun_ym, hnone hs,
      Bool.false_eq_true, hfree]
    exact if_neg hb
  case noStop =>
    simp only [serve, serveServiceStop, reduceCtorEq, if_false, begun_ym, hnone hs, Bool.false_eq_true]
    rfl
  case stop =>
    simp only [serve, serveServiceStop, reduceCtorEq, if_false, begun_ym, hserves.mpr hs, if_true, begun_settings]
    rfl
  case stopped =>
    obtain ⟨honly, hchain⟩ := hremoved hs hsound
    exact ⟨setYaw_sameInputs _ _ honly, (setYaw_chain ..).trans hchain⟩
  case jogEnd => exact if_pos ((jogs_iff s.ym).mpr hjog)
  case jogEnded =>
    obtain ⟨c, hc, hk, -⟩ := hjog
    obtain ⟨honly, hchain⟩ := hremoved ⟨c, hc, hk⟩ hsound
    exact ⟨setYaw_sameInputs _ _ honly, (setYaw_chain ..).trans hchain⟩

end Sys2Proof.Machine
end

section
/-! SET_TRACKING (R136) and START_UNWIND (R139): how TRACK and UNWIND join and leave the chain. -/

namespace Sys2Proof.Machine

/-! ## The place of TRACK and UNWIND in a sound chain (R129, R130) -/

theorem priority_track_le (k : Kind) : priority .track ≤ priority k := by cases k <;> decide

/-- TRACK has the lowest priority, so it stands below every other context. -/
theorem chain_split {chain : List Context} (h : chain.Pairwise (fun a b => priority b.kind < priority a.kind)) :
    chain = chain.filter (fun c => c.kind ≠ .track) ++ chain.filter (fun c => c.kind = .track) := by
  induction chain with
  | nil => rfl
  | cons top rest ih =>
    obtain ⟨htop, hrest⟩ := List.pairwise_cons.mp h
    by_cases hk : top.kind = .track
    · have hnone : rest = [] := List.eq_nil_iff_forall_not_mem.mpr fun c hc => by
        have hlow := hk ▸ htop c hc
        have := priority_track_le c.kind
        omega
      subst hnone
      simp [hk]
    · conv_lhs => rw [ih hrest]
      simp [hk]

/-- A chain of TRACK alone holds one context. -/
theorem track_alone {chain : List Context} (h : chain.Pairwise (fun a b => priority b.kind < priority a.kind))
    (hk : ∀ c ∈ chain, c.kind = .track) : chain = [] ∨ ∃ t, chain = [t] ∧ t.kind = .track := by
  match chain with
  | [] => exact .inl rfl
  | [t] => exact .inr ⟨t, rfl, hk t List.mem_cons_self⟩
  | a :: b :: rest =>
    have hlt := (List.pairwise_cons.mp h).1 b List.mem_cons_self
    rw [hk a (by simp), hk b (by simp)] at hlt
    omega

/-! ## TRACK joins and leaves (R130, R131, R136) -/

/-- TRACK joins below every other context; alone it is evaluated (R131). -/
theorem insert_track {st : List Int} (y : Yaw) :
    (y.insert st trackContext).1.chain =
      y.chain ++ [⟨.track, .auto, .absent, none,
        if y.chain ≠ [] then .suspended else if y.freeHold .track then .held else .watching⟩] := by
  by_cases hc : y.chain = []
  · rw [insert_nil hc, hc]
    cases hf : y.freeHold .track with
    | true =>
      rw [evalChain_held st y true [] (by decide) hf]
      rfl
    | false =>
      rw [evalChain_track st y true [] rfl hf]
      rfl
  · have hplace := insert_below (st := st) (y := y) (c := trackContext) (above := y.chain) (below := [])
      (List.append_nil _).symm hc (fun q _ => priority_track_le q.kind) (by simp)
    rw [hplace, if_pos hc]
    rfl

/-- TRACK leaves from wherever it stands. -/
theorem remove_track {st : List Int} {y : Yaw} (hsound : ChainSound y.chain) (h : ∃ c ∈ y.chain, c.kind = .track) :
    (y.remove st .track).1.chain = y.chain.filter (fun c => c.kind ≠ .track) := by
  obtain ⟨c, hmem, hk⟩ := h
  obtain ⟨top, rest, hc⟩ := List.exists_cons_of_ne_nil (List.ne_nil_of_mem hmem)
  by_cases htop : top.kind = .track
  · have hnone : rest = [] := List.eq_nil_iff_forall_not_mem.mpr fun q hq => by
      have hlt := (List.pairwise_cons.mp (hc ▸ hsound.ordered)).1 q hq
      have := priority_track_le q.kind
      rw [htop] at hlt
      omega
    subst hnone
    rw [remove_top hc htop, hc]
    simp [htop, evalChain]
  · have hrest : c ∈ rest := by
      rw [hc] at hmem
      exact (List.mem_cons.mp hmem).resolve_left fun he => htop (he ▸ hk)
    rw [remove_under hc htop ⟨c, hrest, hk⟩]

/-! ## UNWIND joins (R130, R139) -/

/-- The state in which an UNWIND of direction d joins the chain: SUSPENDED below a PARK or SERVICE, and at the top HELD under
a hold and MOVING otherwise (R130, R131, R139). -/
def Yaw.unwindJoins (y : Yaw) (d : Dir) : ContextState :=
  if ∃ c ∈ y.chain, c.kind = .park ∨ c.kind = .service then .suspended
  else if y.freeHold .unwind ∨ y.blocked d then .held else .moving

/-- An UNWIND that becomes the top short of its goal (R131). -/
theorem evalChain_new_unwind (st : List Int) (y : Yaw) {origin : ContextOrigin} {goal : Int} (rest : List Context)
    (hgoal : goal < (y.twist.natAbs : Int)) :
    (evalChain st y true (unwindContext origin goal (unwindDir y.twist) :: rest)).1 =
      ⟨.unwind, origin, .twist goal, some (unwindDir y.twist),
        if y.freeHold .unwind ∨ y.blocked (unwindDir y.twist) then .held else .moving⟩ :: rest := by
  cases hf : y.freeHold .unwind with
  | true =>
    rw [evalChain_held st y true rest (by decide : Kind.unwind ≠ .service) hf, if_pos (.inl rfl)]
    rfl
  | false =>
    have hnot : goalReached y (unwindContext origin goal (unwindDir y.twist)) = false := by
      rw [← Bool.not_eq_true, goalReached_iff y (goal := goal) rfl]
      omega
    rw [evalChain_unwind_heads st y true rest rfl hf hnot]
    simp only [Context.heads, Bool.false_eq_true, false_or]
    rfl

/-- An UNWIND joins above TRACK and below every other context. -/
theorem insert_unwind {st : List Int} {y : Yaw} {origin : ContextOrigin} {goal : Int} (hsound : ChainSound y.chain)
    (habsent : ∀ c ∈ y.chain, c.kind ≠ .unwind) (hgoal : goal < (y.twist.natAbs : Int)) :
    (y.insert st (unwindContext origin goal (unwindDir y.twist))).1.chain =
      y.chain.filter (fun c => c.kind ≠ .track) ++
        ⟨.unwind, origin, .twist goal, some (unwindDir y.twist), y.unwindJoins (unwindDir y.twist)⟩ ::
          (y.chain.filter (fun c => c.kind = .track)).map (fun c =>
            if ∃ c ∈ y.chain, c.kind = .park ∨ c.kind = .service then c
            else { c with target := .absent, dir := none, state := .suspended }) := by
  have hkinds : ∀ c ∈ y.chain, c.kind = .park ∨ c.kind = .service ∨ c.kind = .track := fun c hc => by
    have hne := habsent c hc
    revert hne
    cases c.kind <;> simp
  by_cases hbelow : ∃ c ∈ y.chain, c.kind = .park ∨ c.kind = .service
  · simp only [Yaw.unwindJoins, if_pos hbelow]
    obtain ⟨c, hc, hk⟩ := hbelow
    have hmem : c ∈ y.chain.filter (fun c => c.kind ≠ .track) := List.mem_filter.mpr ⟨hc, by rcases hk with hk | hk <;> simp [hk]⟩
    rw [insert_below (chain_split hsound.ordered) (List.ne_nil_of_mem hmem)]
    · simp [unwindContext]
    · intro q hq
      obtain ⟨hq, hqk⟩ := List.mem_filter.mp hq
      rcases hkinds q hq with hk | hk | hk
      · exact hk ▸ (by decide : priority .unwind ≤ priority .park)
      · exact hk ▸ (by decide : priority .unwind ≤ priority .service)
      · simp [hk] at hqk
    · intro q hq
      have hqk := (List.mem_filter.mp (List.mem_of_mem_head? hq)).2
      exact of_decide_eq_true hqk ▸ (by decide : priority .track < priority .unwind)
  · have htrack : ∀ c ∈ y.chain, c.kind = .track := fun c hc => by
      rcases hkinds c hc with hk | hk | hk
      · exact absurd ⟨c, hc, .inl hk⟩ hbelow
      · exact absurd ⟨c, hc, .inr hk⟩ hbelow
      · exact hk
    simp only [Yaw.unwindJoins, if_neg hbelow]
    rcases track_alone hsound.ordered htrack with hc | ⟨t, hc, ht⟩
    · rw [insert_nil hc, evalChain_new_unwind st y [] hgoal, hc]
      rfl
    · have hp : priority t.kind < priority (unwindContext origin goal (unwindDir y.twist)).kind :=
        ht ▸ (by decide : priority .track < priority .unwind)
      rw [insert_above hc hp, evalChain_new_unwind st y _ hgoal, hc, suspends_eq t,
        if_pos (show t.kind = .track ∨ t.kind = .park from .inl ht)]
      simp [ht]

/-- The holds that need no direction, as they stand on a context that is not SERVICE (R133). -/
theorem freeHold_auto (y : Yaw) {k : Kind} (h : k ≠ .service) :
    y.freeHold k = true ↔ y.hold = true ∨ y.holdAuto = true ∨ y.supply = .low := by
  simp [Yaw.freeHold, h, or_assoc]

/-- TRACK follows the setting where that and the chain differ (R136). -/
theorem followTracking_eq (on : Bool) (s : State) :
    followTracking on s =
      if on = true ↔ s.ym.inChain .track = true then (s, [])
      else setYaw [] (if on then s.ym.insert s.settings trackContext else s.ym.remove s.settings .track) s := by
  cases on <;> cases hin : s.ym.inChain .track <;> simp [followTracking, hin]

/-- Settles O49, by the checks of each request, then by what it does to the chain. -/
theorem trackingAndUnwindRequestsMoveTheChain : Obligations.TrackingAndUnwindRequestsMoveTheChain := by
  refine ⟨fun s l on hready => ?tracking, fun s l hready => ⟨fun hin => exec_replies hready rfl ?inChain,
    fun hout => ⟨fun hlow => exec_replies hready rfl ?tooLow, fun hhigh => ?unwind⟩⟩⟩
  case tracking =>
    intro z r
    have hz : z.ym = s.ym := begun_ym s l
    have hin : (on = true ↔ z.ym.inChain .track = true) ↔ (on = true ↔ ∃ c ∈ s.ym.chain, c.kind = .track) := by
      rw [hz, inChain_iff]
    have hfollow : followTracking on z =
        if on = true ↔ z.ym.inChain .track = true then (z, []) else
          setYaw [] (if on then s.ym.insert z.settings trackContext else s.ym.remove z.settings .track) z := by
      rw [followTracking_eq, hz]
    have hserve (hkey : ¬(l = .main ∧ s.keyView = true)) :
        serve l (.setTracking on) (s.begun l) = Served.did (followTracking on z) .done [] := by
      have hkeyed : ¬(s.begun l).keyRefuses l = true := by
        rw [keyRefuses_iff, begun_keyView]
        exact hkey
      simp only [serve, serveSetTracking, if_neg hkeyed, begun_settings]
      rfl
    refine ⟨fun hl hkey => exec_replies hready rfl ?refused,
      fun hkey hsame => exec_answered hready rfl ((hserve hkey).trans ?_),
      fun hkey hdiffer => ⟨exec_carriesOut hready rfl ((hserve hkey).trans ?_), fun hsound => ⟨?_, ?_⟩⟩⟩
    case refused =>
      have hkeyed : (s.begun l).keyRefuses l = true := keyRefuses_iff.mpr ⟨hl, (begun_keyView s l).trans hkey⟩
      simp only [serve, serveSetTracking, if_pos hkeyed]
      rfl
    · rw [hfollow, if_pos (hin.mpr hsame)]
      rfl
    · rw [hfollow, if_neg (mt hin.mp hdiffer)]
      rfl
    · refine setYaw_sameInputs _ _ ?_
      cases on with
      | true => exact insert_only ..
      | false => exact remove_only ..
    · refine (setYaw_chain ..).trans ?_
      cases on with
      | true =>
        refine (insert_track s.ym).trans ?_
        simp only [freeHold_auto s.ym (show Kind.track ≠ .service by decide)]
        rfl
      | false => exact remove_track hsound.chain (by simpa using hdiffer)
  case inChain =>
    simp only [serve, serveStartUnwind, begun_ym, inChain_iff.mpr hin, if_true]
    rfl
  case tooLow =>
    simp only [serve, serveStartUnwind, begun_ym, inChain_eq_false.mpr hout, Bool.false_eq_true, if_false, begun_setting]
    exact if_pos hlow
  case unwind =>
    intro d below origin w r st
    refine ⟨exec_carriesOut hready rfl ?_, fun hsound => ⟨setYaw_sameInputs _ _ (insert_only ..), ?_⟩⟩
    · have hanswer : r.1.ym.stateOf .unwind = match st with | none => [] | some q => named (contextStateIndex q) := by
        rw [Yaw.stateOf]
        cases hf : r.1.ym.chain.find? (fun c => c.kind == .unwind) <;> simp [st, hf]
      have horigin : unwindOrigin l = origin := by cases l <;> rfl
      refine Eq.trans (b := ⟨r.1, r.2, ⟨.done, r.1.ym.stateOf .unwind⟩⟩) ?_
        (congrArg (fun data => (⟨r.1, r.2, ⟨.done, data⟩⟩ : Served)) hanswer)
      simp only [serve, serveStartUnwind, begun_ym, inChain_eq_false.mpr hout, Bool.false_eq_true, if_false,
        begun_setting, begun_settings, horigin]
      exact if_neg (Int.not_le.mpr hhigh)
    · have hchain : r.1.ym.chain = _ := (setYaw_chain ..).trans (insert_unwind (st := s.settings) (origin := origin)
        hsound.chain hout hhigh)
      have hfind : r.1.ym.chain.find? (fun c => c.kind == .unwind) =
          some ⟨.unwind, origin, .twist (s.setting 11), some d, s.ym.unwindJoins d⟩ := by
        rw [hchain, List.find?_append, List.find?_eq_none.mpr]
        · rfl
        · exact fun c hc => by simpa using hout c (List.mem_of_mem_filter hc)
      have hst : st = some (s.ym.unwindJoins d) := by rw [show st = _ from congrArg (Option.map _) hfind, Option.map_some]
      refine ⟨?_, fun q hq => ?_⟩
      · rw [hst, Yaw.unwindJoins]
        simp only [freeHold_auto s.ym (show Kind.unwind ≠ .service by decide), or_assoc]
        rfl
      · rw [hchain, ← Option.some.inj (hst.symm.trans hq)]
        rfl

end Sys2Proof.Machine
end

section
/-! Drives isolated, returned and faulted, and YAW_DRIVES_LOW (R142 to R144). -/

namespace Sys2Proof.Machine

/-! ## Healthy drives and their report (R142) -/

theorem drive_healthy_eq (d : Drive) : d.healthy = decide (d.state = .ready ∨ d.state = .running) := by
  rw [Drive.healthy]
  cases d.state <;> rfl

theorem healthy_eq (y : Yaw) :
    y.healthy = (y.drives.toList.filter (fun q => decide (q.state = .ready ∨ q.state = .running))).length := by
  rw [Yaw.healthy, show Drive.healthy = _ from funext drive_healthy_eq]

/-- The report of YAW_DRIVES_LOW where the view changes (R142). -/
theorem lowReport_eq (old : Bool) (healthy : Nat) :
    viewReport old (decide (healthy < 4)) (drivesLowRaise healthy) =
      if old = decide (healthy < 4) then []
      else if healthy < 4 then [.ctPresent (drivesLowRaise healthy)] else [.ctAbsent ⟨3, 3⟩] := by
  simp only [viewReport, decide_eq_true_eq]
  rfl

/-! ## A read of the fault lines (R143) -/

theorem atRead_eq (active : Bool) (d : Drive) :
    d.atRead active =
      { line := active
        state := if active = true ∧ (d.state = .ready ∨ d.state = .running) then .faulted else d.state
        reported := if active = true ∧ d.state ≠ .isolated then true else d.reported } := by
  obtain ⟨state, reported, line⟩ := d
  cases active <;> cases state <;> rfl

theorem raisesAt_iff (active : Bool) (d : Drive) :
    d.raisesAt active = true ↔
      active = true ∧ (d.state = .ready ∨ d.state = .running ∨ (d.state = .faulted ∧ d.reported = false)) := by
  rw [Drive.raisesAt, Bool.and_eq_true]
  refine and_congr_right fun _ => ?_
  cases d.state <;> simp

theorem readLine_drives (lines : BitVec 8) (w : YawWork) (k n : Fin 8) :
    (Yaw.readLine lines w k).1.drives.get n =
      if k = n then (w.1.drives.get k).atRead (hasBit lines k.val) else w.1.drives.get n :=
  Eight.get_set ..

/-- Lines taken one after another change the drives and the view of them alone. -/
theorem readLines_apart (lines : BitVec 8) (ns : List (Fin 8)) (w : YawWork) :
    (ns.foldl (Yaw.readLine lines) w).1 =
      { w.1 with
        drives := (ns.foldl (Yaw.readLine lines) w).1.drives, lowView := (ns.foldl (Yaw.readLine lines) w).1.lowView } := by
  induction ns generalizing w with
  | nil => rfl
  | cons k rest ih =>
    rw [List.foldl_cons, ih]
    rfl

/-- Each drive whose line is among those taken is as its own read leaves it. -/
theorem readLines_drives (lines : BitVec 8) {ns : List (Fin 8)} (hns : ns.Nodup) (w : YawWork) (n : Fin 8) :
    (ns.foldl (Yaw.readLine lines) w).1.drives.get n =
      if n ∈ ns then (w.1.drives.get n).atRead (hasBit lines n.val) else w.1.drives.get n := by
  induction ns generalizing w with
  | nil => rfl
  | cons k rest ih =>
    obtain ⟨hk, hrest⟩ := List.nodup_cons.mp hns
    rw [List.foldl_cons, ih hrest, readLine_drives]
    by_cases hkn : k = n
    · subst hkn
      simp [hk]
    · simp [hkn, Ne.symm hkn]

theorem driveFaultRaise_inj {k n : Fin 8} (h : driveFaultRaise k = driveFaultRaise n) : k = n := by
  have hcode : driveFaultCode k = driveFaultCode n := congrArg Raise.code h
  rw [driveFaultCode_eq, driveFaultCode_eq] at hcode
  simp only [Code.mk.injEq, Fin.mk.injEq, true_and] at hcode
  omega

/-- A view's report raises nothing. -/
theorem ctRaise_not_viewReport (old new : Bool) (r q : Raise) : Ev.ctRaise q ∉ viewReport old new r := by
  rw [viewReport]
  split
  · simp
  · split <;> simp

theorem ctRaise_not_blockedReport (old : Bool) (now : Option Dir) (q : Raise) : Ev.ctRaise q ∉ blockedReport old now := by
  cases old <;> cases now <;> simp [blockedReport]

/-- DRIVE_FAULT is raised for a drive exactly where its own line's read raises it. -/
theorem readLines_raises (lines : BitVec 8) {ns : List (Fin 8)} (hns : ns.Nodup) (w : YawWork) (n : Fin 8) :
    Ev.ctRaise (driveFaultRaise n) ∈ (ns.foldl (Yaw.readLine lines) w).2 ↔
      Ev.ctRaise (driveFaultRaise n) ∈ w.2 ∨
        n ∈ ns ∧ (w.1.drives.get n).raisesAt (hasBit lines n.val) = true := by
  induction ns generalizing w with
  | nil => simp
  | cons k rest ih =>
    obtain ⟨hk, hrest⟩ := List.nodup_cons.mp hns
    have hline : Ev.ctRaise (driveFaultRaise n) ∈ (Yaw.readLine lines w k).2 ↔
        Ev.ctRaise (driveFaultRaise n) ∈ w.2 ∨ k = n ∧ (w.1.drives.get k).raisesAt (hasBit lines k.val) = true := by
      simp only [Yaw.readLine, Yaw.viewLow, List.mem_append, ctRaise_not_viewReport, or_false]
      refine or_congr_right ?_
      split
      next hraises =>
        simp only [List.mem_singleton, Ev.ctRaise.injEq, hraises, and_true]
        exact ⟨fun h => (driveFaultRaise_inj h).symm, fun h => by rw [h]⟩
      next hnot => simp [hnot]
    rw [List.foldl_cons, ih hrest, hline, readLine_drives, or_assoc]
    refine or_congr_right ?_
    by_cases hkn : k = n
    · subst hkn
      simp [hk]
    · simp [hkn, Ne.symm hkn]

/-! ## Drives after an event (R142) -/

/-- Every healthy drive runs or stands with the run; the others stay as they are. -/
theorem sync_eq (running : Bool) (d : Drive) :
    d.sync running =
      { d with
        state := if d.state = .ready ∨ d.state = .running then (if running then .running else .ready) else d.state } := by
  obtain ⟨state, reported, line⟩ := d
  cases state <;> rfl

theorem setYaw_drives (raises : List Ev) (w : YawWork) (s : State) (n : Fin 8) :
    (setYaw raises w s).1.ym.drives.get n =
      (w.1.drives.get n).sync (setYaw raises w s).1.ym.run.isSome := by
  have hfollowed : (followed w.1).drives = w.1.drives := by rw [followed_keeps w.1]
  rw [setYaw_ym, follow_eq, Eight.get_map, hfollowed]

/-! ## DRIVE_RETURN (R144) -/

theorem findCode_isSome (t : List Record) (c : Code) : (findCode t c).isSome = decide (∃ q ∈ t, q.code = c) := by
  rw [Bool.eq_iff_iff, decide_eq_true_iff, findCode, List.find?_isSome]
  simp

/-- A drive out of service comes back where its line is clear; an ISOLATED one with its line active faults, and any other is
refused (R144). -/
theorem serveDriveReturn_eq (n : Fin 8) (s : State) :
    serveDriveReturn .service n.val s =
      let d := s.ym.drives.get n
      if (d.state = .isolated ∨ d.state = .faulted) ∧ d.line = false then
        driveAnswer n (setYaw [] (s.ym.putDrive n (returnedDrive s n), []) s)
      else if d.state = .isolated ∧ d.line = true then
        driveAnswer n
          (setYaw [.ctRaise (driveFaultRaise n)] (s.ym.putDrive n { d with state := .faulted, reported := true }, []) s)
      else Served.refused s .refusedState := by
  simp only [serveDriveReturn, reduceCtorEq, if_false, indexOf_val]
  split
  next hstate hline => rw [if_pos ⟨.inl hstate, hline⟩]
  next hstate hline => rw [if_neg (by simp [hline]), if_pos ⟨hstate, hline⟩]
  next hstate hline => rw [if_pos ⟨.inr hstate, hline⟩]
  next hclear hactive hfaulted =>
    rw [if_neg, if_neg]
    · exact fun h => hactive h.1 h.2
    · rintro ⟨hstate | hstate, hline⟩
      · exact hclear hstate hline
      · exact hfaulted hstate hline

/-- Settles O54, by the requests, then a read of the fault lines, and the retirement of a DRIVE_FAULT. -/
theorem drivesLeaveAndJoin : Obligations.DrivesLeaveAndJoin := by
  intro s
  refine ⟨fun hready n => ⟨exec_replies hready rfl rfl, exec_replies hready rfl rfl⟩,
    fun hready => ⟨fun n hn => ⟨exec_replies hready rfl ?noIsolate, exec_replies hready rfl ?noReturn⟩, fun n => ?requests⟩,
    fun hu lines => ?read, fun lines w n => ?line, fun n => ?retired⟩
  case noIsolate =>
    simp only [serve, serveDriveIsolate, reduceCtorEq, if_false, indexOf_eq_none hn]
    rfl
  case noReturn =>
    simp only [serve, serveDriveReturn, reduceCtorEq, if_false, indexOf_eq_none hn]
    rfl
  case requests =>
    intro d follows
    have hreturn : serve .service (.driveReturn n.val) (s.begun .service) = _ := serveDriveReturn_eq n (s.begun .service)
    simp only [begun_ym] at hreturn
    refine ⟨exec_carriesOut hready rfl ?_, fun hline hstate => exec_carriesOut hready rfl (hreturn.trans ?_),
      fun hline hstate => exec_carriesOut hready rfl (hreturn.trans ?_),
      fun h => exec_replies hready rfl (hreturn.trans ?_)⟩
    · simp only [serve, serveDriveIsolate, reduceCtorEq, if_false, indexOf_val, begun_ym]
      rfl
    · rw [if_pos ⟨hstate, hline⟩, returnedDrive]
      simp only [begun_ym, begun_table, findCode_isSome]
      rfl
    · rw [if_neg fun hn => Bool.false_ne_true (hn.2.symm.trans hline), if_pos ⟨hstate, hline⟩]
      rfl
    · rw [if_neg, if_neg]
      · rfl
      · rintro ⟨hisolated, -⟩
        rcases h with h | h | ⟨h, -⟩ <;> cases hisolated.symm.trans h
      · rintro ⟨hisolated | hfaulted, hclear⟩
        · rcases h with h | h | ⟨h, -⟩ <;> cases hisolated.symm.trans h
        · rcases h with h | h | ⟨-, hactive⟩
          · cases hfaulted.symm.trans h
          · cases hfaulted.symm.trans h
          · exact Bool.false_ne_true (hclear.symm.trans hactive)
  case read =>
    intro w r
    have hapart : w.1 = { s.ym with drives := w.1.drives, lowView := w.1.lowView } := readLines_apart ..
    have hnodup : eightIndices.Nodup := by decide
    refine ⟨exec_comesTo hu rfl, ?chain, ?inputs, fun n => ?drive⟩
    case chain => exact (setYaw_chain ..).trans (by rw [hapart])
    case inputs =>
      rw [setYaw_ym, follow_keeps, hapart]
      exact ⟨rfl, rfl, rfl, rfl, rfl, rfl⟩
    case drive =>
      intro d active
      have hn : n ∈ eightIndices := by fin_cases n <;> decide
      have hdrive : r.1.ym.drives.get n = (d.atRead (hasBit lines n.val)).sync r.1.ym.run.isSome := by
        rw [setYaw_drives, readLines_drives lines hnodup, if_pos hn]
      have hevents : r.2 = w.2 ++ viewReport w.1.follow.lowView (decide (w.1.follow.healthy < 4))
          (drivesLowRaise w.1.follow.healthy) ++ blockedReport w.1.follow.blockedView w.1.follow.blockedDir ++ [] := rfl
      rw [hdrive, sync_eq, atRead_eq]
      refine ⟨rfl, ?_, rfl, ?_⟩
      · by_cases hactive : hasBit lines n.val = true <;> cases hs : d.state <;> simp [hactive, active]
      · rw [hevents]
        simp only [List.mem_append, ctRaise_not_viewReport, ctRaise_not_blockedReport, List.not_mem_nil, or_false]
        rw [readLines_raises lines hnodup, raisesAt_iff]
        simp [hn, active, d]
  case line =>
    intro d active e drives healthy
    have he : d.atRead (hasBit lines n.val) = e := atRead_eq ..
    have hhealthy : ({ w.1 with drives := drives } : Yaw).healthy = healthy := healthy_eq _
    have hline : Yaw.readLine lines w n =
        ({ w.1 with drives := drives, lowView := decide (healthy < 4) },
         w.2 ++ (if d.raisesAt (hasBit lines n.val) then [.ctRaise (driveFaultRaise n)] else []) ++
          viewReport w.1.lowView (decide (healthy < 4)) (drivesLowRaise healthy)) := by
      rw [Yaw.readLine, ← hhealthy]
      simp only [drives, ← he]
      rfl
    rw [hline, lowReport_eq]
    simp only [raisesAt_iff, active]
  case retired =>
    intro d e
    have hfreed : (if d.state = .faulted ∧ d.line = false then { d with reported := false, state := .ready }
        else { d with reported := false }) = e := by
      by_cases h : d.state = .faulted ∧ d.line = false
      · simp only [e, if_pos h]
      · simp only [e, if_neg h]
    rw [← hfreed]
    rfl

end Sys2Proof.Machine
end

section
/-! The brake and the drives as they follow the top (R142, R145 to R148), the two views (R135, R142), and the heading and
twist handover (R149, R150). -/

namespace Sys2Proof.Machine

/-! ## The brake and the run follow what is wanted (R145, R146, R148) -/

section
variable {y : Yaw}

theorem followed_releases {d : Dir} (hb : y.brake = .applied) (hw : y.wants = some d) :
    followed y = { y with brake := .releasing, brakeTimer := some 3000 } := by
  simp only [followed, hb, hw]

theorem followed_gives_up (hb : y.brake = .releasing) (hw : y.wants = none) : followed y = y.applies := by
  simp only [followed, hb, hw]

theorem followed_stops (hb : y.brake = .released) (hw : y.wants = none) : followed y = (y.setRun none).applies := by
  simp only [followed, hb, hw]

theorem followed_drives {d : Dir} (hb : y.brake = .released) (hw : y.wants = some d) : followed y = y.drive d := by
  simp only [followed, hb, hw]

theorem followed_stays (h : y.brake = .applying ∨ (y.brake = .applied ∧ y.wants = none) ∨
    (y.brake = .releasing ∧ y.wants.isSome = true)) : followed y = y := by
  unfold followed
  split
  next hb hw => simp [hb, hw] at h
  next hb hw => simp [hb, hw] at h
  next hb hw => simp [hb] at h
  next hb hw => simp [hb] at h
  next => rfl

/-! ### The run while RELEASED (R148) -/

theorem opposite_ne (d : Dir) : d.opposite ≠ d := by cases d <;> decide

theorem drive_goes_on {d : Dir} (hr : y.run = some d) (hb : y.blocked d = false) : y.drive d = y := by
  unfold Yaw.drive
  split
  next r hrun =>
    cases hr.symm.trans hrun
    rw [if_pos rfl, if_neg (by simp [hb])]
  next hrun _ => cases hr.symm.trans hrun
  next hrun _ => cases hr.symm.trans hrun

theorem drive_reverses {d : Dir} (hr : y.run = some d.opposite) :
    y.drive d = { y.setRun none with settle := some ⟨2000, d.opposite⟩ } := by
  simp only [Yaw.drive, hr, if_neg (opposite_ne d)]

theorem drive_starts {d : Dir} (hr : y.run = none) (hs : y.settle = none) (hb : y.blocked d = false) :
    y.drive d = y.setRun (some d) := by
  simp only [Yaw.drive, hr, hs, hb, Bool.false_eq_true, if_false]

theorem drive_settled {d : Dir} {ms : Nat} (hr : y.run = none) (hs : y.settle = some ⟨ms, d⟩) (hb : y.blocked d = false) :
    y.drive d = { y.setRun (some d) with settle := none } := by
  simp only [Yaw.drive, hr, hs, hb, and_self, if_true]

theorem drive_settles {d : Dir} {ms : Nat} (hr : y.run = none) (hs : y.settle = some ⟨ms, d.opposite⟩) : y.drive d = y := by
  unfold Yaw.drive
  split
  next r hrun => cases hr.symm.trans hrun
  next _ hsettle => cases hs.symm.trans hsettle
  next q _ hsettle =>
    cases hs.symm.trans hsettle
    exact if_neg fun h => opposite_ne d h.1

theorem drive_blocked {d : Dir} (hb : y.blocked d = true) : (y.drive d).run = none := by
  cases hrun : (y.drive d).run with
  | none => rfl
  | some r =>
    obtain ⟨rfl, hfree⟩ := drive_run hrun
    exact absurd hb (by simp [hfree])

theorem drive_brakeTimer (d : Dir) : (y.drive d).brakeTimer = y.brakeTimer := by
  unfold Yaw.drive
  split
  · split
    · split <;> rfl
    · rfl
  · split <;> rfl
  · split <;> rfl

end

/-! ## The views after an event (R135, R142) -/

theorem blockedDir_eq (y : Yaw) :
    y.blockedDir =
      match y.chain with
      | [] => none
      | top :: _ =>
        if (top.kind = .track ∨ top.kind = .park) ∧ top.state = .held then top.dir.filter (fun d => y.blocked d)
        else none := by
  unfold Yaw.blockedDir
  cases y.chain with
  | nil => rfl
  | cons top rest =>
    simp only
    congr 1
    cases top.dir with
    | none => rfl
    | some d => cases hb : y.blocked d <;> simp [Option.filter, hb]

theorem follow_blockedDir (y : Yaw) : y.follow.blockedDir = y.blockedDir := by
  have hblocked : y.follow.blocked = y.blocked := funext (follow_blocked y)
  have hchain : y.follow.chain = y.chain := by rw [follow_keeps]
  simp only [Yaw.blockedDir, hblocked, hchain]

theorem blockedReport_eq (old : Bool) (now : Option Dir) :
    blockedReport old now =
      match old, now with
      | false, some d => [.ctPresent (trackBlockedRaise d)]
      | true, none => [.ctAbsent ⟨3, 7⟩]
      | _, _ => [] := by
  cases old <;> cases now <;> rfl

/-- A whole event: the brake and the drives follow, then the two views are reported, and what goes to the wind and heading
unit comes last. -/
theorem setYaw_eq (raises evs : List Ev) (y : Yaw) (s : State) :
    setYaw raises (y, evs) s =
      ({ s with ym := { y.follow with lowView := decide (y.healthy < 4), blockedView := y.blockedDir.isSome } },
       raises ++ viewReport y.lowView (decide (y.healthy < 4)) (drivesLowRaise y.healthy) ++
        blockedReport y.blockedView y.blockedDir ++ evs) := by
  have hlow : y.follow.lowView = y.lowView := by rw [follow_keeps]
  have hview : y.follow.blockedView = y.blockedView := by rw [follow_keeps]
  simp only [setYaw, Yaw.viewLow, follow_healthy, follow_blockedDir, hlow, hview]

/-! ## Following twice (R146) -/

/-- A unit whose top wants no motion stands still. -/
theorem follow_idle_run {y : Yaw} (h : y.run.isSome = true → y.brake = .released) (hw : y.wants = none) :
    y.follow.run = none := by
  cases hr : y.follow.run with
  | none => rfl
  | some d =>
    obtain ⟨-, hwants, -⟩ := followed_run h hr
    cases hw.symm.trans hwants

/-- With no motion wanted the brake and the drives have followed once they followed. -/
theorem follow_idle {y : Yaw} (h : y.run.isSome = true → y.brake = .released) (hw : y.wants = none) :
    y.follow.follow = y.follow := by
  have hrun : (followed y).run = none := follow_idle_run h hw
  have hbrake : (followed y).brake = .applying ∨ (followed y).brake = .applied := by
    cases hb : y.brake with
    | applied => exact .inr (by rw [followed_stays (.inr (.inl ⟨hb, hw⟩)), hb])
    | applying => exact .inl (by rw [followed_stays (.inl hb), hb])
    | releasing => exact .inl (by rw [followed_gives_up hb hw]; rfl)
    | released => exact .inl (by rw [followed_stops hb hw]; rfl)
  have hagain : followed y.follow = y.follow := by
    refine followed_stays ?_
    rw [follow_wants, hw, follow_brake]
    exact hbrake.imp id fun h => .inl ⟨h, rfl⟩
  have hsync (d : Drive) : (d.sync false).sync false = d.sync false := by
    obtain ⟨state, reported, line⟩ := d
    cases state <;> rfl
  rw [follow_eq y.follow, hagain, follow_eq y]
  simp only [hrun, Option.isSome_none]
  congr 1
  simp only [Eight.map, hsync]

end Sys2Proof.Machine
end

section
/-! The events that move the brake and the drives: brake pressures, timers and the heading and twist handover (R146 to
R150). -/

namespace Sys2Proof.Machine

/-! ## Brake reads and timers (R146, R147) -/

theorem atPressure_eq (y : Yaw) (bar : Nat) :
    y.atPressure bar =
      if y.brake = .releasing ∧ bar ≤ 20 then { y with pressure := bar, brake := .released, brakeTimer := none }
      else if y.brake = .applying ∧ 150 ≤ bar then { y with pressure := bar, brake := .applied, brakeTimer := none }
      else { y with pressure := bar } := by
  unfold Yaw.atPressure
  split
  next hb => simp [hb]
  next hb => simp [hb]
  next hb => simp [hb]
  next hb => simp [hb]

/-! ## The stall watch (R150) -/

theorem watchStall_eq {y : Yaw} {d : Dir} {h : Nat} (hr : y.run = some d) (hh : y.heading = some h) :
    y.watchStall =
      match y.stall with
      | none => ({ y with stall := some ⟨h, 0⟩ }, [])
      | some w =>
        if 5 ≤ (((h : Int) - w.ref + 1800) % 3600 - 1800).natAbs then ({ y with stall := some ⟨h, 0⟩ }, [])
        else if 20000 ≤ w.ms then ({ y with stall := none }, [.ctRaise (yawStallRaise h)]) else (y, []) := by
  unfold Yaw.watchStall
  split
  next d' h' _ hheading =>
    cases hh.symm.trans hheading
    rfl
  next hnot => exact absurd hh (hnot d h hr)

theorem watchStall_still {y : Yaw} (hr : y.run = none) : y.watchStall = (y, []) := by
  simp only [Yaw.watchStall, hr]

/-! ## A run that goes on (R142, R145) -/

theorem eight_ext {α : Type} {v w : Eight α} (h : ∀ n : Fin 8, v.get n = w.get n) : v = w := by
  obtain ⟨a, b, c, d, e, f, g, i⟩ := v
  exact congr (congr (congr (congr (congr (congr (congr (congrArg Eight.mk (h 0)) (h 1)) (h 2)) (h 3)) (h 4)) (h 5)) (h 6)) (h 7)

/-- A sound unit that runs as its top wants has nothing to follow. -/
theorem follow_running {y : Yaw} {d : Dir} (hr : y.run = some d) (hbrake : y.brake = .released) (hw : y.wants = some d)
    (hb : y.blocked d = false)
    (hdrives : ∀ n : Fin 8, (y.drives.get n).state = .running ↔ (y.drives.get n).healthy = true) : y.follow = y := by
  have hfollowed : followed y = y := (followed_drives hbrake hw).trans (drive_goes_on hr hb)
  have hsync (n : Fin 8) : (y.drives.get n).sync true = y.drives.get n := by
    rw [Drive.sync]
    split
    next hhealthy =>
      rw [← (hdrives n).mpr hhealthy]
      rfl
    next => rfl
  have hmap : y.drives.map (Drive.sync true) = y.drives := eight_ext fun n => (Eight.get_map ..).trans (hsync n)
  rw [follow_eq, hfollowed, hr, Option.isSome_some, hmap]

/-! ## The heading and twist handover (R149, R150) -/

section
variable {st : List Int} {y : Yaw} {top : Context} {rest : List Context}

/-- A top that moves under no hold stands at a re-evaluation (R134). -/
theorem rehold_moving {d : Dir} (hc : y.chain = top :: rest) (hs : top.state = .moving) (hd : top.dir = some d)
    (hf : y.freeHold top.kind = false) (hb : y.blocked d = false) : y.rehold st = (y, []) := by
  rw [rehold_active hc (.inr hs), if_neg]
  rw [Yaw.holdsTop, hf, Bool.false_or, directionHold_iff]
  rintro ⟨e, he, hblocked, -⟩
  cases hd.symm.trans he
  exact Bool.false_ne_true (hb.symm.trans hblocked)

theorem atGoal_stands (hc : y.chain = top :: rest) (h : ¬(top.kind = .unwind ∧ goalReached y top = true)) :
    y.atGoal st = (y, []) := by
  simp only [Yaw.atGoal, hc]
  exact if_neg h

theorem atGoal_leaves (hc : y.chain = top :: rest) (hk : top.kind = .unwind) (hg : goalReached y top = true) :
    y.atGoal st = y.remove st .unwind := by
  simp only [Yaw.atGoal, hc]
  exact if_pos ⟨hk, hg⟩

theorem atArrival_not_moving (h : ∀ c ∈ y.chain.head?, c.state ≠ .moving) : y.atArrival st = (y, []) := by
  unfold Yaw.atArrival
  split
  next c rest h' hc _ =>
    split
    next t _ hs => exact absurd hs (h c (by rw [hc]; rfl))
    next => rfl
  next => rfl

/-- A top that is not within the arrival band of a heading goes on. -/
theorem atArrival_far {h : Nat} (hc : y.chain = top :: rest) (hh : y.heading = some h)
    (hfar : ¬∃ t, top.target = .heading t ∧ inBand h t = true) : y.atArrival st = (y, []) := by
  simp only [Yaw.atArrival, hc, hh]
  split
  next t htarget _ => exact if_neg fun hnear => hfar ⟨t, htarget, hnear⟩
  next => rfl

theorem atArrival_watches {h t : Nat} (hc : y.chain = top :: rest) (hh : y.heading = some h) (hs : top.state = .moving)
    (ht : top.target = .heading t) (hnear : inBand h t = true) (hk : top.kind = .track ∨ top.kind = .park) :
    y.atArrival st =
      ({ y with chain := top.watches :: rest }, if top.kind = .track then [.whWatch .enterDwell] else []) := by
  obtain ⟨kind, origin, target, dir, state⟩ := top
  cases hs
  cases ht
  have hy : { y with chain := Context.watches ⟨kind, origin, .heading t, dir, .moving⟩ :: rest, heading := some h } =
      { y with chain := Context.watches ⟨kind, origin, .heading t, dir, .moving⟩ :: rest } := by rw [← hh]
  rcases hk with hk | hk
  · cases hk
    simp [Yaw.atArrival, hc, hh, hnear, hy]
  · cases hk
    simp [Yaw.atArrival, hc, hh, hnear, hy]

theorem atArrival_leaves {h t : Nat} (hc : y.chain = top :: rest) (hh : y.heading = some h) (hs : top.state = .moving)
    (ht : top.target = .heading t) (hnear : inBand h t = true) (hk : top.kind = .service) :
    y.atArrival st = y.remove st .service := by
  simp only [Yaw.atArrival, hc, hh, ht, hs, hnear, hk, if_true]

/-- What stands below an UNWIND is not MOVING once the UNWIND has left (R131). -/
theorem remove_unwind_top (hsound : ChainSound y.chain) (hc : y.chain = top :: rest) (hk : top.kind = .unwind) :
    ∀ c ∈ (y.remove st .unwind).1.chain.head?, c.state ≠ .moving := by
  have hrest : ∀ c ∈ rest, c.kind = .track := fun c hmem => by
    have hlt := (List.pairwise_cons.mp (hc ▸ hsound.ordered)).1 c hmem
    rw [hk] at hlt
    revert hlt
    cases c.kind <;> decide
  rw [remove_top hc hk]
  cases hr : rest with
  | nil => simp [evalChain]
  | cons t below =>
    have ht : t.kind = .track := hrest t (by simp [hr])
    cases hf : y.freeHold .track with
    | true =>
      rw [evalChain_held st y false below (by simp [ht]) (by rw [ht, hf])]
      simp
    | false =>
      rw [evalChain_track st y false below ht hf]
      simp [Context.watches]

end

theorem thenDo_nil (y : Yaw) (f : Yaw → YawWork) : YawWork.thenDo (y, []) f = f y := rfl

theorem thenDo_stands {w : YawWork} {f : Yaw → YawWork} (h : f w.1 = (w.1, [])) : w.thenDo f = w := by
  rw [YawWork.thenDo, h, List.append_nil]

/-- A handover of a heading, once its chain's part is known (R149, R150). -/
theorem takeYawHeading_eq {s : State} {h : Nat} {twist : Int} {w : YawWork}
    (hw : ((Yaw.rehold s.settings { s.ym with heading := some h, twist := twist }).thenDo
      (Yaw.atGoal s.settings)).thenDo (Yaw.atArrival s.settings) = w) :
    handle (.ymHeading (some h) twist) s =
      setYaw w.1.follow.watchStall.2 (w.1.follow.watchStall.1, w.2) s := by
  rw [← hw]
  rfl

/-- What follows once and for all follows within the event. -/
theorem setYaw_followed {y : Yaw} (h : y.follow.follow = y.follow) (raises evs : List Ev) (s : State) :
    setYaw raises (y.follow, evs) s = setYaw raises (y, evs) s := by
  simp only [setYaw, h]

theorem wants_not_moving {y : Yaw} {top : Context} {rest : List Context} (hc : y.chain = top :: rest)
    (hs : top.state ≠ .moving) : y.wants = none := by
  simp only [Yaw.wants, hc, if_neg hs, ite_self]

/-- Settles O55, by what the unit follows, the views, the brake's reads and timers, and the handover. -/
theorem brakeAndDrivesFollow : Obligations.BrakeAndDrivesFollow := by
  refine ⟨fun y => ?follow, fun raises evs y s => ?views, fun s hu => ?brake, fun s h twist top rest d hsound => ?heading⟩
  case follow =>
    intro z
    have hz : z = { followed y with drives := (followed y).drives.map (Drive.sync (followed y).run.isSome) } := follow_eq y
    refine ⟨fun hb hw => ?_, fun hb hw => ?_, fun hb hw => ?_, fun hstays => ?_, fun d hb hw => ?_, fun n => ?_⟩
    · obtain ⟨d, hw⟩ := Option.isSome_iff_exists.mp hw
      rw [hz, followed_releases hb hw]
      exact ⟨rfl, rfl, rfl⟩
    · rw [hz, followed_gives_up hb hw]
      exact ⟨rfl, rfl, rfl⟩
    · rw [hz, followed_stops hb hw]
      exact ⟨rfl, rfl, rfl, rfl, rfl⟩
    · rw [hz, followed_stays hstays]
      exact ⟨rfl, rfl, rfl⟩
    · rw [hz, followed_drives hb hw]
      refine ⟨(drive_brake y d).trans hb, drive_brakeTimer d, fun hr hfree => ?_, fun hr => ?_, fun hr hs hfree => ?_,
        fun ms hr hs hfree => ?_, fun ms hr hs => ?_, fun hblocked => drive_blocked hblocked⟩
      · rw [drive_goes_on hr hfree]
        exact ⟨hr, rfl⟩
      · rw [drive_reverses hr]
        exact ⟨rfl, rfl, rfl⟩
      · rw [drive_starts hr hs hfree]
        exact ⟨rfl, rfl⟩
      · rw [drive_settled hr hs hfree]
        exact ⟨rfl, rfl⟩
      · rw [drive_settles hr hs]
        exact ⟨hr, hs⟩
    · have hdrives : (followed y).drives = y.drives := by rw [followed_keeps y]
      have hdrive : z.drives.get n = (y.drives.get n).sync z.run.isSome := by
        rw [hz, Eight.get_map, hdrives]
      rw [hdrive, sync_eq]
  case views =>
    intro healthy stuck
    have hhealthy : y.healthy = healthy := healthy_eq y
    have hstuck : y.blockedDir = stuck := blockedDir_eq y
    rw [setYaw_eq, hhealthy, hstuck, lowReport_eq, blockedReport_eq] <;> rfl
  case brake =>
    intro follows
    refine ⟨fun bar => ?_, fun hb hw bar hbar => ?_, fun htimer => ?_, fun hsettle => ?_⟩
    · refine exec_comesTo hu ?_
      rw [← atPressure_eq]
      rfl
    · intro t
      have hwants : ({ s.ym with pressure := bar, brake := .released, brakeTimer := none } : Yaw).wants = none := hw
      have ht : t.ym = _ := setYaw_ym [] ({ s.ym with pressure := bar, brake := .released, brakeTimer := none }, []) s
      rw [ht, follow_eq, followed_stops rfl hwants]
      exact ⟨rfl, rfl, rfl⟩
    · obtain ⟨ms, htimer⟩ := Option.isSome_iff_exists.mp htimer
      refine exec_comesTo hu ?_
      simp only [firstEvent, handle, takeBrakeTimer, htimer]
      rfl
    · obtain ⟨q, hsettle⟩ := Option.isSome_iff_exists.mp hsettle
      refine exec_comesTo hu ?_
      simp only [firstEvent, handle, takeSettleEnd, hsettle]
  case heading =>
    intro y hc hs hd hf hb near wound
    have hrehold : y.rehold s.settings = (y, []) := rehold_moving hc hs hd hf hb
    have hnear (t : Nat) : inBand h t = true ↔ (((t : Int) - h + 1800) % 3600 - 1800).natAbs ≤ 5 := inBand_iff h t
    have hwound : top.kind = .unwind ∧ goalReached y top = true ↔ wound := by
      refine and_congr_right fun hk => ?_
      cases ht : top.target with
      | twist goal => simp [goalReached_iff y ht, y]
      | absent => simp [goalReached, ht]
      | heading t => simp [goalReached, ht]
      | time ms => simp [goalReached, ht]
    refine ⟨fun ⟨t, ht, hband⟩ hk => ?arrives, fun hends => ?leaves, fun hfar hshort hr => ?goesOn⟩
    case arrives =>
      let z : Yaw := { y with chain := top.watches :: rest }
      have hw : ((Yaw.rehold s.settings y).thenDo (Yaw.atGoal s.settings)).thenDo (Yaw.atArrival s.settings) =
          (z, if top.kind = .track then [.whWatch .enterDwell] else []) := by
        rw [hrehold, thenDo_nil, atGoal_stands (y := y) hc (fun hn => by rcases hk with hk | hk <;> cases hk.symm.trans hn.1),
          thenDo_nil, atArrival_watches (y := y) hc rfl hs ht ((hnear t).mpr hband) hk]
      have hwants : z.wants = none := wants_not_moving rfl nofun
      have hbrake : z.run.isSome = true → z.brake = .released := hsound.followable.run
      rw [takeYawHeading_eq hw, watchStall_still (follow_idle_run hbrake hwants), setYaw_followed (follow_idle hbrake hwants)]
      rfl
    case leaves =>
      have hw : ((Yaw.rehold s.settings y).thenDo (Yaw.atGoal s.settings)).thenDo (Yaw.atArrival s.settings) =
          y.remove s.settings top.kind := by
        rw [hrehold, thenDo_nil]
        rcases hends with ⟨⟨t, ht, hband⟩, hk⟩ | hends
        · rw [atGoal_stands (y := y) hc (fun hn => by cases hk.symm.trans hn.1), thenDo_nil,
            atArrival_leaves (y := y) hc rfl hs ht ((hnear t).mpr hband) hk, hk]
        · obtain ⟨hk, hg⟩ := hwound.mpr hends
          rw [atGoal_leaves (y := y) hc hk hg, hk]
          exact thenDo_stands (atArrival_not_moving (remove_unwind_top hsound.chain hc hk))
      exact takeYawHeading_eq hw
    case goesOn =>
      have hw : ((Yaw.rehold s.settings y).thenDo (Yaw.atGoal s.settings)).thenDo (Yaw.atArrival s.settings) = (y, []) := by
        rw [hrehold, thenDo_nil, atGoal_stands (y := y) hc (mt hwound.mp hshort), thenDo_nil]
        exact atArrival_far (y := y) hc rfl fun ⟨t, ht, hband⟩ => hfar ⟨t, ht, (hnear t).mp hband⟩
      obtain ⟨hbrake, hwants, -⟩ := hsound.run d hr
      have hdrives (n : Fin 8) : (s.ym.drives.get n).state = .running ↔ (s.ym.drives.get n).healthy = true := by
        rw [hsound.drives n, hr]
        simp
      have hfollow : y.follow = y := follow_running hr hbrake hwants hb hdrives
      rw [takeYawHeading_eq hw, hfollow, watchStall_eq (y := y) hr rfl]
      cases hstall : s.ym.stall with
      | none => simp only [y]
      | some q =>
        simp only [y, hstall]
        split
        · rfl
        · split <;> rfl

end Sys2Proof.Machine
end

section
/-! Bytes on the wire: lane reports (R87) and request frames (R185 to R188, section 10.7) read back from what carries
them. -/

namespace Sys2Proof.Machine

/-! ## Numbers in bytes (R188, R189) -/

theorem byteOf_toNat {n : Nat} (h : n < 256) : (byteOf n).toNat = n := by
  rw [byteOf, BitVec.toNat_ofNat, Nat.mod_eq_of_lt h]

theorem wordAt_word {n : Nat} (h : n < 65536) : wordAt (byteOf (n / 256)) (byteOf n) = n := by
  rw [wordAt, byteOf, byteOf, BitVec.toNat_ofNat, BitVec.toNat_ofNat]
  omega

theorem signedWord_lt (v : Int) : signedWord v < 65536 := by
  unfold signedWord
  omega

theorem wordSigned_signedWord {v : Int} (hlow : -32768 ≤ v) (hhigh : v ≤ 32767) : wordSigned (signedWord v) = v := by
  unfold wordSigned signedWord
  split <;> omega

theorem wordSigned_word {v : Int} (hlow : -32768 ≤ v) (hhigh : v ≤ 32767) :
    wordSigned (wordAt (byteOf (signedWord v / 256)) (byteOf (signedWord v))) = v := by
  rw [wordAt_word (signedWord_lt v), wordSigned_signedWord hlow hhigh]

theorem codeAt_word (c : Code) : codeAt (byteOf (c.toNat / 256)) (byteOf c.toNat) = c := by
  obtain ⟨⟨group, hgroup⟩, ⟨item, hitem⟩⟩ := c
  have hnat : (⟨⟨group, hgroup⟩, ⟨item, hitem⟩⟩ : Code).toNat = group * 4096 + item := rfl
  rw [codeAt, wordAt_word (by omega), hnat]
  simp only [Code.mk.injEq, Fin.ext_iff, Fin.ofNat]
  omega

/-! ## The check byte misses no single wrong byte (R87) -/

/-- The bit shift of the CRC taken back. -/
def crcUnshift (c : Byte) : Byte := if c.getLsbD 0 then ((c ^^^ 0x2F#8) >>> 1) ||| 0x80#8 else c >>> 1

theorem crcUnshift_crcShift : ∀ c : Byte, crcUnshift (crcShift c) = c := by decide

theorem crcShift_injective : Function.Injective crcShift := Function.LeftInverse.injective crcUnshift_crcShift

/-- A byte of the CRC loses neither the value it starts from nor the byte. -/
theorem crcByte_inj (c c' b b' : Byte) : crcByte c b = crcByte c' b' ↔ c ^^^ b = c' ^^^ b' := by
  simp only [crcByte, crcShift_injective.eq_iff]

theorem crcByte_eq_right {c b b' : Byte} : crcByte c b = crcByte c b' ↔ b = b' := by
  rw [crcByte_inj, BitVec.xor_right_inj]

theorem foldl_crcByte_injective (bytes : List Byte) : Function.Injective (fun c => bytes.foldl crcByte c) := by
  induction bytes with
  | nil => exact fun _ _ h => h
  | cons b rest ih =>
    intro c c' h
    have hstep : crcByte c b = crcByte c' b := ih h
    rwa [crcByte_inj, BitVec.xor_left_inj] at hstep

/-- Changing one byte changes the check value. -/
theorem crc8_set_ne {bytes : List Byte} {i : Nat} {b : Byte} (hi : i < bytes.length) (hb : bytes[i]? ≠ some b) :
    crc8 (bytes.set i b) ≠ crc8 bytes := by
  intro h
  have hold : bytes = bytes.take i ++ bytes[i] :: bytes.drop (i + 1) := by simp
  have hnew : bytes.set i b = bytes.take i ++ b :: bytes.drop (i + 1) := List.set_eq_take_append_cons_drop ..|>.trans (if_pos hi)
  rw [hnew] at h
  nth_rewrite 3 [hold] at h
  simp only [crc8, List.foldl_append, List.foldl_cons] at h
  have hbyte := crcByte_eq_right.mp (foldl_crcByte_injective _ h)
  exact hb (by rw [List.getElem?_eq_getElem hi, hbyte])

/-! ## Lane reports (R87) -/

/-- A report whose check byte is not that of its other bytes is invalid. -/
theorem readReport_invalid {body : List Byte} {chk : Byte} (h : crc8 body ≠ chk) : readReport (body ++ [chk]) = none := by
  unfold readReport
  split
  next st v1 v0 t1 t0 p1 p0 sev code d1 d0 last heq =>
    have hsplit : body = [st, v1, v0, t1, t0, p1, p0, sev, code, d1, d0] ∧ [chk] = [last] :=
      List.append_inj' (s₂ := [st, v1, v0, t1, t0, p1, p0, sev, code, d1, d0]) heq rfl
    obtain ⟨hbody, hlast⟩ := hsplit
    rw [← hbody, ← (List.cons.inj hlast).1, if_neg h]
  next => rfl

/-- The eleven bytes of a report before its check byte. -/
def reportBody (r : Report) : List Byte :=
  named (portStateIndex r.laneState) ++ word r.dcVoltage ++ signed r.heatsink ++ word r.power ++
    named (severityIndex r.severity) ++ named r.localCode ++ word r.detail

theorem reportBytes_eq (r : Report) : reportBytes r = reportBody r ++ [crc8 (reportBody r)] := rfl

theorem portStateAt_index (p : PortState) : portStateAt (byteOf (portStateIndex p)) = some p := by cases p <;> rfl

theorem severityAt_index (v : Severity) : severityAt (byteOf (severityIndex v)) = some v := by cases v <;> rfl

theorem inRange_iff (r : Report) :
    r.inRange = true ↔
      ((r.dcVoltage ≤ 1500 ∧ -400 ≤ r.heatsink) ∧ r.heatsink ≤ 1500) ∧ r.power ≤ 5000 ∧
        (r.severity == .none) = (r.localCode == 0) := by
  simp only [Report.inRange, Bool.and_eq_true, decide_eq_true_eq, beq_iff_eq, and_assoc]

theorem readReport_reportBytes {r : Report} (hr : r.inRange = true) (hcode : r.localCode < 256) (hdetail : r.detail < 65536) :
    readReport (reportBytes r) = some r := by
  obtain ⟨⟨⟨hvolts, hcold⟩, hhot⟩, hpower, -⟩ := (inRange_iff r).mp hr
  have hbytes : reportBytes r =
      [byteOf (portStateIndex r.laneState), byteOf (r.dcVoltage / 256), byteOf r.dcVoltage,
        byteOf (signedWord r.heatsink / 256), byteOf (signedWord r.heatsink), byteOf (r.power / 256), byteOf r.power,
        byteOf (severityIndex r.severity), byteOf r.localCode, byteOf (r.detail / 256), byteOf r.detail,
        crc8 (reportBody r)] := rfl
  rw [hbytes, readReport]
  simp only [portStateAt_index, severityAt_index, wordAt_word (show r.dcVoltage < 65536 by omega),
    wordSigned_word (show -32768 ≤ r.heatsink by omega) (by omega), wordAt_word (show r.power < 65536 by omega),
    byteOf_toNat hcode, wordAt_word hdetail, hr, if_true]
  exact if_pos rfl

/-- Settles O21. -/
theorem laneReportsReadBack : Obligations.LaneReportsReadBack := by
  intro r hr hcode hdetail
  refine ⟨rfl, readReport_reportBytes hr hcode hdetail, fun i b hi hb => ?_⟩
  have hlength : (reportBody r).length = 11 := rfl
  rw [reportBytes_eq] at hb ⊢
  by_cases hlast : i < 11
  · rw [List.set_append_left _ _ (by omega)]
    rw [List.getElem?_append_left (by omega)] at hb
    exact readReport_invalid (crc8_set_ne (by omega) hb)
  · have heq : i = 11 := by omega
    subst heq
    rw [List.set_append_right _ _ (by omega), hlength]
    rw [List.getElem?_append_right (by omega), hlength] at hb
    exact readReport_invalid fun h => hb (by rw [h]; rfl)

/-! ## Parameter fields (R188) -/

theorem clsAt_index (k : Cls) : clsAt (byteOf (clsIndex k)) = some k := by cases k <;> rfl

theorem filterAt_index (f : Filter) : filterAt (byteOf (filterIndex f)) = some f := by
  cases f with
  | all | unread => rfl
  | classAtLeast k => cases k <;> rfl

theorem yawEffectAt_index (e : YawEffect) : yawEffectAt (byteOf (yawEffectIndex e)) = some e := by cases e <;> rfl

theorem actionAt_index (a : Action) : actionAt (byteOf (actionIndex a)) = some a := by cases a <;> rfl

theorem dirAt_index (d : Dir) : dirAt (byteOf (dirIndex d)) = some d := by cases d <;> rfl

theorem onOffAt_flag (b : Bool) : onOffAt (if b then 1#8 else 0#8) = some b := by cases b <;> rfl

theorem laneSetAt_byte (set : LaneSet) : laneSetAt (byteOf set.toNat) = some set := by
  have hlt : set.toNat < 16 := set.isLt
  rw [laneSetAt, byteOf_toNat (by omega), if_pos hlt, BitVec.ofNat_toNat, BitVec.setWidth_eq]

theorem loopSetAt_byte (set : LoopSet) : loopSetAt (byteOf set.toNat) = some set := by
  have hlt : set.toNat < 8 := set.isLt
  rw [loopSetAt, byteOf_toNat (by omega), if_pos hlt, BitVec.ofNat_toNat, BitVec.setWidth_eq]

theorem capAt_cap {cap : Option Nat} (h : capFits cap = true) :
    capAt (byteOf (cap.getD 65535 / 256)) (byteOf (cap.getD 65535)) = some cap := by
  cases cap with
  | none => rw [Option.getD_none, capAt, wordAt_word (by omega), if_neg (by omega), if_pos rfl]
  | some kw =>
    have hkw : kw ≤ 16000 := of_decide_eq_true h
    rw [Option.getD_some, capAt, wordAt_word (by omega), if_pos hkw]

/-! ## Request frames (R186, R187) -/

/-- The request bytes of a request whose operands fit carry the request. -/
theorem judgeBody_requestBytes (straps : Fin 4) {r : Request} (hfits : r.fits = true)
    (hstraps : ∀ p, r = .warmReset p → p = straps) : judgeBody straps (requestBytes r) = .execute r := by
  cases r with
  | badEncoding => cases hfits
  | readEnvelope | startUnwind | serviceStop | readYaw | readSupply | ident => rfl
  | warmReset p =>
    rw [hstraps p rfl]
    rfl
  | lookup c => exact congrArg (fun c => Judged.execute (.lookup c)) (codeAt_word c)
  | ack c => exact congrArg (fun c => Judged.execute (.ack c)) (codeAt_word c)
  | retire c => exact congrArg (fun c => Judged.execute (.retire c)) (codeAt_word c)
  | unbind n => exact congrArg (fun n => Judged.execute (.unbind n)) (byteOf_toNat (of_decide_eq_true hfits))
  | readSlot n => exact congrArg (fun n => Judged.execute (.readSlot n)) (byteOf_toNat (of_decide_eq_true hfits))
  | laneStart n => exact congrArg (fun n => Judged.execute (.laneStart n)) (byteOf_toNat (of_decide_eq_true hfits))
  | laneStop n => exact congrArg (fun n => Judged.execute (.laneStop n)) (byteOf_toNat (of_decide_eq_true hfits))
  | readLane n => exact congrArg (fun n => Judged.execute (.readLane n)) (byteOf_toNat (of_decide_eq_true hfits))
  | driveIsolate n => exact congrArg (fun n => Judged.execute (.driveIsolate n)) (byteOf_toNat (of_decide_eq_true hfits))
  | driveReturn n => exact congrArg (fun n => Judged.execute (.driveReturn n)) (byteOf_toNat (of_decide_eq_true hfits))
  | readLoop n => exact congrArg (fun n => Judged.execute (.readLoop n)) (byteOf_toNat (of_decide_eq_true hfits))
  | getSetting n => exact congrArg (fun n => Judged.execute (.getSetting n)) (byteOf_toNat (of_decide_eq_true hfits))
  | setDemand n => exact congrArg (fun n => Judged.execute (.setDemand n)) (wordAt_word (of_decide_eq_true hfits))
  | yawGoto n => exact congrArg (fun n => Judged.execute (.yawGoto n)) (wordAt_word (of_decide_eq_true hfits))
  | scan start f =>
    have hstart : start < 256 := of_decide_eq_true hfits
    change Judged.execute (match filterAt (byteOf (filterIndex f)) with
      | some g => .scan (byteOf start).toNat g | none => .badEncoding) = _
    rw [filterAt_index, byteOf_toNat hstart]
  | setTracking on =>
    change Judged.execute (match onOffAt (if on then 1#8 else 0#8) with
      | some b => .setTracking b | none => .badEncoding) = _
    rw [onOffAt_flag]
  | yawJog d seconds =>
    have hseconds : seconds < 256 := of_decide_eq_true hfits
    change Judged.execute (match dirAt (byteOf (dirIndex d)) with
      | some e => .yawJog e (byteOf seconds).toNat | none => .badEncoding) = _
    rw [dirAt_index, byteOf_toNat hseconds]
  | setTwist t =>
    obtain ⟨hlow, hhigh⟩ := Bool.and_eq_true_iff.mp hfits
    exact congrArg (fun t => Judged.execute (.setTwist t))
      (wordSigned_word (of_decide_eq_true hlow) (of_decide_eq_true hhigh))
  | setSetting id v =>
    obtain ⟨hid, hv⟩ := Bool.and_eq_true_iff.mp hfits
    obtain ⟨hlow, hhigh⟩ := Bool.and_eq_true_iff.mp hv
    exact congrArg₂ (fun id v => Judged.execute (.setSetting id v)) (byteOf_toNat (of_decide_eq_true hid))
      (wordSigned_word (of_decide_eq_true hlow) (of_decide_eq_true hhigh))
  | raise c k detail cap lanes yaw loops =>
    obtain ⟨hword, hcap⟩ := Bool.and_eq_true_iff.mp hfits
    have hdetail : detail < 65536 := of_decide_eq_true hword
    change Judged.execute (raiseAt (byteOf (c.toNat / 256)) (byteOf c.toNat) (byteOf (clsIndex k)) (byteOf (detail / 256))
      (byteOf detail) (byteOf (cap.getD 65535 / 256)) (byteOf (cap.getD 65535)) (byteOf lanes.toNat)
      (byteOf (yawEffectIndex yaw)) (byteOf loops.toNat)) = _
    simp only [raiseAt, clsAt_index, capAt_cap hcap, laneSetAt_byte, yawEffectAt_index, loopSetAt_byte, codeAt_word,
      wordAt_word hdetail]
  | amend c cap lanes yaw loops =>
    have hcap : capFits cap = true := hfits
    change Judged.execute (amendAt (byteOf (c.toNat / 256)) (byteOf c.toNat) (byteOf (cap.getD 65535 / 256))
      (byteOf (cap.getD 65535)) (byteOf lanes.toNat) (byteOf (yawEffectIndex yaw)) (byteOf loops.toNat)) = _
    simp only [amendAt, capAt_cap hcap, laneSetAt_byte, yawEffectAt_index, loopSetAt_byte, codeAt_word]
  | bind slot c a loops delay count =>
    obtain ⟨hboth, hlast⟩ := Bool.and_eq_true_iff.mp hfits
    obtain ⟨hfirst, hword⟩ := Bool.and_eq_true_iff.mp hboth
    have hslot : slot < 256 := of_decide_eq_true hfirst
    have hdelay : delay < 65536 := of_decide_eq_true hword
    have hcount : count < 256 := of_decide_eq_true hlast
    change Judged.execute (bindAt (byteOf slot) (byteOf (c.toNat / 256)) (byteOf c.toNat) (byteOf (actionIndex a))
      (byteOf loops.toNat) (byteOf (delay / 256)) (byteOf delay) (byteOf count)) = _
    simp only [bindAt, actionAt_index, loopSetAt_byte, codeAt_word, byteOf_toNat hslot, wordAt_word hdelay,
      byteOf_toNat hcount]

theorem requestBytes_length {r : Request} (h : r.fits = true) :
    1 ≤ (requestBytes r).length ∧ (requestBytes r).length ≤ 11 := by
  cases r with
  | badEncoding => cases h
  | _ => exact ⟨by simp [requestBytes], by simp [requestBytes, codeBytes, named, word, signed, capBytes, setByte, flag]⟩

/-- Settles O22, by the check byte, then by the bytes of the request. -/
theorem requestFramesReadBack : Obligations.RequestFramesReadBack := by
  intro r address checked straps hfits hstraps
  obtain ⟨hlow, hhigh⟩ := requestBytes_length hfits
  have hbody := judgeBody_requestBytes straps hfits hstraps
  cases checked with
  | false =>
    have hne : ¬(requestBytes r).length = 0 := by omega
    refine ⟨?_, by simpa [frameBytes] using (by omega : (requestBytes r).length ≤ 16)⟩
    simp only [judgeFrame, frameBytes, Bool.false_eq_true, if_false, if_neg hne, hbody]
  | true =>
    refine ⟨?_, by simp [frameBytes]; omega⟩
    have hlong : ¬(requestBytes r ++ [crc8 (writeAddress address :: requestBytes r)]).length < 2 := by
      rw [List.length_append, List.length_singleton]
      omega
    simp only [judgeFrame, frameBytes, if_true, if_neg hlong, List.dropLast_concat, List.getLast?_concat, hbody]

/-- Settles O23: the frame's start condition stores the request's bytes, and its stop condition finds the request. -/
theorem frameBytesRunTheCommand : Obligations.FrameBytesRunTheCommand := by
  intro s l r c hu ht hf hfits hc hstraps
  have hbytes := requestFramesReadBack r s.address (s.checkMode l) s.straps hfits hstraps
  obtain ⟨hjudged, hlength⟩ := hbytes
  let u : LinkUnit :=
    { s.links.get l with
      frame := .receiving, received := frameBytes s.address (s.checkMode l) r, payload := none, driven := []
      ackSlot := .ack }
  refine ⟨s.setLink l u, ?start, rfl, ?stop⟩
  case start =>
    rw [exec_startCondition hu ht hf, LinkUnit.opens, if_pos (.inl rfl), if_neg Bool.false_ne_true.symm, if_pos rfl,
      bytes_added rfl rfl (by simpa using hlength)]
    rfl
  case stop =>
    have hget : (s.setLink l u).links.get l = u := by cases l <;> rfl
    have htakes : (s.setLink l u).takesFrame l = true := by
      have hline : s.lineAsserted = false := by
        rw [State.takesFrame, Bool.and_eq_true, Bool.not_eq_true'] at ht
        exact ht.1
      rw [State.takesFrame, hget, show (s.setLink l u).lineAsserted = false from hline]
      rfl
    have hrequest : handle (firstEvent c) s =
        (s.setLink l { (s.links.get l).ends with ackSlot := .ack, driven := [] }, [.lkBegin l r]) := by
      simp only [firstEvent_of_command hc, handle, takeRequest, ht, if_true, if_neg hf]
    rw [exec_comesTo hu hrequest, exec_requestFrameFault (s := s.setLink l u) hu htakes (by rw [hget]), hget]
    have hjudgedThere : judgeFrame (s.setLink l u).address ((s.setLink l u).checkMode l) (s.setLink l u).straps u.received =
        .execute r := hjudged
    rw [hjudgedThere]
    have hended : (s.setLink l u).setLink l u.ends =
        s.setLink l { (s.links.get l).ends with ackSlot := .ack, driven := [] } := by cases l <;> rfl
    simp only [hended]

end Sys2Proof.Machine
end

section
/-! COLD_POWER_UP and the asserted reset line (R29, R197). -/

namespace Sys2Proof.Machine

/-! ## Cold power-up (R29) -/

/-- The cascade of a cold power-up, evaluated event by event: it never looks at the strap address, at the level of the reset
line or at the commands that wait, so these stand as they are given. -/
theorem coldStart_settles (straps : Fin 4) (s : State) :
    settled [.coldStart straps] { s with unsettled := [] } =
      { State.reset with
        straps := straps, address := 0x34 + straps.val, lineAsserted := s.lineAsserted, arrivals := s.arrivals
        pending := s.pending } := by
  cbv

/-! ## While the reset line is asserted (R197; log 10) -/

section
variable {s : State} {l : Link}

theorem takesFrame_asserted (h : s.lineAsserted = true) : s.takesFrame l = false := by
  rw [State.takesFrame, h]
  rfl

theorem takeRequest_asserted (h : s.lineAsserted = true) (r : Request) : takeRequest l r s = (s, []) := by
  rw [takeRequest, takesFrame_asserted h]
  rfl

theorem exec_frame_asserted {c : Instr} (hu : s.unsettled = []) (h : s.lineAsserted = true) (hc : frameLink c = some l) :
    exec c s = .next s := by
  have htakes : ¬s.takesFrame l = true := by simp [takesFrame_asserted h]
  have hline : ¬s.lineAsserted = false := by simp [h]
  cases c with
  | startCondition k addr good bytes =>
    cases hc
    exact exec_quiet hu (if_neg htakes)
  | framePoison k b good =>
    cases hc
    exact exec_quiet hu (if_neg htakes)
  | requestFrameFault k =>
    cases hc
    exact exec_quiet hu (if_neg htakes)
  | responseFrame k n =>
    cases hc
    exact exec_quiet hu (if_neg htakes)
  | poisonedFrameStop k =>
    cases hc
    exact exec_quiet hu (if_neg fun hn => htakes (Bool.and_eq_true_iff.mp hn).1)
  | attentionFrame k | attentionSlot k ack | payloadComplete k | attentionPayloadCutShort k =>
    cases hc
    exact exec_quiet hu (if_neg fun hn => hline hn.1)
  | _ =>
    cases hc <;> exact exec_quiet hu (takeRequest_asserted h _)

end

/-- Settles O24, by the cascade of a cold power-up, and by the commands of a frame under the asserted line. -/
theorem powerUpAndTheResetLine : Obligations.PowerUpAndTheResetLine := by
  refine ⟨fun straps s => ?_, fun s hu => ⟨exec_quiet hu rfl, fun c l hc h => exec_frame_asserted hu h hc⟩⟩
  exact congrArg Host.Outcome.next (coldStart_settles straps s)

end Sys2Proof.Machine
end

section
/-! Which events an event hands on: a kind for each event, and for each event the kinds it can hand on. That a class of
events is closed is then a look at this table. -/

namespace Sys2Proof.Machine

/-- The kinds of events. The events that only the part's surroundings set off stand together: the reads of inputs, the
expiries of timers, and the events of the lines and resets that are never handed on. -/
inductive EvKind where
  | raise | present | absent | refresh | escalateStep | escalateTo | offer
  | limits | exclusion | yawLimits | park | boost | reaction
  | lane | temperature | share | laneSupply | pump | demand
  | commanded | laneDemand | coolingSupply | pumpRetired
  | yawSupply | heading | filtered | move | unwind | driveRetired | watch | unwindMoved
  | act | reply | evaluate | misalign | dwell | unwindEval | derate | escalate | sampleDemand | fan
  | stop | opened | request | begun | served
  | input | expiry | line | reset | due
deriving DecidableEq

/-- The kind of an event. -/
def Ev.kind : Ev → EvKind
  | .ctRaise _ => .raise
  | .ctPresent _ => .present
  | .ctAbsent _ => .absent
  | .ctRefresh _ _ => .refresh
  | .ctEscalateStep _ => .escalateStep
  | .ctEscalateTo _ _ _ => .escalateTo
  | .ruOffer _ => .offer
  | .euLimits _ => .limits
  | .lmExcluded _ _ => .exclusion
  | .ymLimits _ => .yawLimits
  | .whPark _ _ => .park
  | .cuBoost _ => .boost
  | .cuReaction _ => .reaction
  | .euLane _ _ => .lane
  | .euTemp _ _ => .temperature
  | .lmShare _ _ => .share
  | .lmSupply _ => .laneSupply
  | .lmPump _ => .pump
  | .lmDemand _ => .demand
  | .cuCommanded _ => .commanded
  | .cuLaneDemand _ => .laneDemand
  | .cuSupply _ => .coolingSupply
  | .cuPumpRetired _ => .pumpRetired
  | .ymSupply _ => .yawSupply
  | .ymHeading _ _ => .heading
  | .ymFiltered _ => .filtered
  | .ymMove _ _ => .move
  | .ymUnwind _ _ => .unwind
  | .ymDriveRetired _ => .driveRetired
  | .whWatch _ => .watch
  | .whUnwind _ => .unwindMoved
  | .lmAct _ => .act
  | .lmReply _ => .reply
  | .lmEvaluate _ => .evaluate
  | .whMisalign => .misalign
  | .whDwell => .dwell
  | .whUnwindEval => .unwindEval
  | .cuDerate _ _ => .derate
  | .cuEscalate _ => .escalate
  | .cuDemand _ => .sampleDemand
  | .cuFan _ => .fan
  | .lkStop _ => .stop
  | .lkOpen _ _ _ _ | .lkSend _ _ => .opened
  | .lkRequest _ _ => .request
  | .lkBegin _ _ => .begun
  | .lkServe _ _ => .served
  | .lmReport _ _ | .whHeading _ | .whVane _ | .whAnemometer _ | .ymFaultLines _ | .ymPressure _ => .input
  | .cuSample _ _ | .cuFlow _ _ | .smGrid _ | .smUps _ | .lkKey _ => .input
  | .ctHoldoffEnd _ | .ruAutoRetire _ | .ruBoostEnd _ | .euRampStep | .lmSilence _ | .lmTimeout _ _ => .expiry
  | .ymJogEnd | .ymBrakeTimer | .ymSettleEnd | .cuPrimeTimeout _ | .smSettled | .lkSilence => .expiry
  | .lkStart _ _ _ _ | .lkByte _ _ _ | .lkPoisonStop _ | .lkRead _ _ | .lkReset _ | .lkAttention _ => .line
  | .lkAttentionSlot _ _ | .lkPayloadDone _ | .lkPayloadCut _ => .line
  | .coldStart _ | .lineAssert | .lineRelease _ => .reset
  | .due _ => .due

/-! ## Lists of events of given kinds -/

/-- Every event of a list is of one of the kinds. -/
def Emits (ks : List EvKind) (evs : List Ev) : Prop := ∀ e ∈ evs, e.kind ∈ ks

section
variable {ks : List EvKind}

@[simp] theorem emits_nil : Emits ks [] := nofun

@[simp] theorem emits_cons {e : Ev} {evs : List Ev} : Emits ks (e :: evs) ↔ e.kind ∈ ks ∧ Emits ks evs := by
  simp [Emits]

@[simp] theorem emits_append {a b : List Ev} : Emits ks (a ++ b) ↔ Emits ks a ∧ Emits ks b := by
  simp only [Emits, List.mem_append, or_imp, forall_and]

@[simp] theorem emits_ite {p : Prop} [Decidable p] {a b : List Ev} :
    Emits ks (if p then a else b) ↔ (p → Emits ks a) ∧ (¬p → Emits ks b) := by
  split <;> simp [*]

@[simp] theorem emits_ite_snd {α : Type} {p : Prop} [Decidable p] {a b : α × List Ev} :
    Emits ks (if p then a else b).2 ↔ (p → Emits ks a.2) ∧ (¬p → Emits ks b.2) := by
  split <;> simp [*]

@[simp] theorem emits_ite_events {p : Prop} [Decidable p] {a b : Served} :
    Emits ks (if p then a else b).events ↔ (p → Emits ks a.events) ∧ (¬p → Emits ks b.events) := by
  split <;> simp [*]

theorem emits_map {α : Type} {f : α → Ev} (h : ∀ a, (f a).kind ∈ ks) (xs : List α) : Emits ks (xs.map f) := by
  simp [Emits, h]

theorem Emits.mono {js : List EvKind} {evs : List Ev} (h : Emits js evs) (hs : js ⊆ ks) : Emits ks evs :=
  fun e he => hs (h e he)

/-! ## Handovers, reports and deliveries -/

/-- What the limit resolver delivers (R41). -/
def deliveryKinds : List EvKind := [.limits, .exclusion, .yawLimits, .park, .boost]

theorem deliveries_emits (a b : Limits) : Emits deliveryKinds (deliveries a b) := by
  simp [deliveries, deliveryKinds, Ev.kind]

theorem boostHandover_emits (a b : Eight Slot) : Emits [.reaction] (boostHandover a b) := by
  simp [boostHandover, Ev.kind]

@[simp] theorem viewReport_emits (a b : Bool) (r : Raise) (hp : .present ∈ ks) (ha : .absent ∈ ks) :
    Emits ks (viewReport a b r) := by
  simp [viewReport, Ev.kind, hp, ha]

theorem envelopeHandover_emits (a b : Envelope) : Emits [.share, .commanded] (envelopeHandover a b) := by
  simp [envelopeHandover, fourIndices, shareHandover, Ev.kind]

theorem setLanes_emits {m : LaneManager} {b a : List Ev} {s : State} (hb : Emits ks b) (ha : Emits ks a)
    (h : .laneDemand ∈ ks) : Emits ks (setLanes m b a s).2 := by
  simp [setLanes, Ev.kind, hb, ha, h]

theorem exits_emits (a b : LaneManager) (h : .lane ∈ ks) : Emits ks (exits a b) := emits_map (fun _ => h) _

theorem entries_emits (a b : LaneManager) (h : .lane ∈ ks) : Emits ks (entries a b) := emits_map (fun _ => h) _

theorem setCooling_emits {u : Cooling} {a : List Ev} {s : State} (ha : Emits ks a) (h : .pump ∈ ks) :
    Emits ks (setCooling u a s).2 := by
  simp [setCooling, Ev.kind, ha, h]

theorem setSupply_emits (m : Supply) (s : State) :
    Emits [.laneSupply, .yawSupply, .coolingSupply, .present, .absent] (setSupply m s).2 := by
  simp [setSupply, supplyHandover, Ev.kind]

theorem setYaw_emits {r : List Ev} {w : YawWork} {s : State} (hr : Emits ks r) (hw : Emits ks w.2)
    (hp : .present ∈ ks) (ha : .absent ∈ ks) : Emits ks (setYaw r w s).2 := by
  have hblocked : ∀ old now, Emits ks (blockedReport old now) := by
    intro old now
    unfold blockedReport
    split <;> simp [Ev.kind, hp, ha]
  simp [setYaw, Yaw.viewLow, hblocked, hr, hw, hp, ha]

end

/-! ## Yaw work -/

/-- What the yaw motion unit tells the wind and heading unit (R121, R138). -/
def toldKinds : List EvKind := [.watch, .unwindMoved]

@[simp] theorem leaveEvents_emits (c : Context) : Emits toldKinds (leaveEvents c) := by
  simp [leaveEvents, toldKinds, Ev.kind]

@[simp] theorem goneEvents_emits (k : Kind) : Emits toldKinds (goneEvents k) := by
  simp [goneEvents, toldKinds, Ev.kind]

theorem evalChain_emits (st : List Int) (y : Yaw) (fresh : Bool) (chain : List Context) :
    Emits toldKinds (evalChain st y fresh chain).2 := by
  induction chain generalizing fresh with
  | nil => exact emits_nil
  | cons c rest ih =>
    simp only [evalChain]
    split
    · exact emits_nil
    · cases c.kind with
      | unwind =>
        rw [emits_ite_snd]
        exact ⟨fun _ => emits_cons.mpr ⟨by decide, ih false⟩, fun _ => emits_nil⟩
      | track => simp [toldKinds, Ev.kind]
      | park => exact emits_nil
      | service => exact emits_nil

@[simp] theorem evaluate_emits (st : List Int) (fresh : Bool) (y : Yaw) : Emits toldKinds (y.evaluate st fresh).2 :=
  evalChain_emits st y fresh y.chain

@[simp] theorem insert_emits (st : List Int) (c : Context) (y : Yaw) : Emits toldKinds (y.insert st c).2 := by
  unfold Yaw.insert
  split <;> simp

@[simp] theorem remove_emits (st : List Int) (k : Kind) (y : Yaw) : Emits toldKinds (y.remove st k).2 := by
  unfold Yaw.remove
  split <;> simp

@[simp] theorem rehold_emits (st : List Int) (y : Yaw) : Emits toldKinds (y.rehold st).2 := by
  unfold Yaw.rehold
  split
  · simp
  · dsimp only
    split <;> simp

@[simp] theorem thenDo_emits {ks : List EvKind} {w : YawWork} {f : Yaw → YawWork} :
    Emits ks (w.thenDo f).2 ↔ Emits ks w.2 ∧ Emits ks (f w.1).2 := emits_append

@[simp] theorem followPark_emits (st : List Int) (y : Yaw) : Emits toldKinds (y.followPark st).2 := by
  simp [Yaw.followPark]

@[simp] theorem atFiltered_emits (st : List Int) (y : Yaw) : Emits toldKinds (y.atFiltered st).2 := by
  unfold Yaw.atFiltered
  split <;> simp

@[simp] theorem atGoal_emits (st : List Int) (y : Yaw) : Emits toldKinds (y.atGoal st).2 := by
  unfold Yaw.atGoal
  split <;> simp

@[simp] theorem atArrival_emits (st : List Int) (y : Yaw) : Emits toldKinds (y.atArrival st).2 := by
  have hwatch : Emits toldKinds [.whWatch .enterDwell] := emits_cons.mpr ⟨by decide, emits_nil⟩
  unfold Yaw.atArrival
  repeat' split
  all_goals simp [hwatch]

theorem watchStall_emits (y : Yaw) : Emits [.raise] y.watchStall.2 := by
  unfold Yaw.watchStall
  repeat' split
  all_goals simp [Ev.kind]

theorem readLines_emits (lines : BitVec 8) (ns : List (Fin 8)) {w : YawWork}
    (h : Emits [.raise, .present, .absent] w.2) :
    Emits [.raise, .present, .absent] (ns.foldl (Yaw.readLine lines) w).2 := by
  induction ns generalizing w with
  | nil => exact h
  | cons n rest ih => exact ih (by simp [Yaw.readLine, Yaw.viewLow, h, Ev.kind])

/-- What an event of the yaw motion unit reports and tells. -/
def yawKinds : List EvKind := [.present, .absent, .watch, .unwindMoved]

/-- An event of the yaw motion unit that raises nothing. -/
theorem setYaw_told {w : YawWork} {s : State} (hw : Emits toldKinds w.2) : Emits yawKinds (setYaw [] w s).2 :=
  setYaw_emits emits_nil (hw.mono (by decide)) (by decide) (by decide)

/-- An event of the yaw motion unit that raises what is given. -/
theorem setYaw_raised {r : List Ev} {w : YawWork} {s : State} (hr : Emits [.raise, .present, .absent] r)
    (hw : Emits toldKinds w.2) : Emits (.raise :: yawKinds) (setYaw r w s).2 :=
  setYaw_emits (hr.mono (by decide)) (hw.mono (by decide)) (by decide) (by decide)

/-! ## The table and the reaction unit -/

/-- What a raise hands on (R7, R8, R20, R21). -/
def raiseKinds : List EvKind := .offer :: .reaction :: .raise :: deliveryKinds

/-- What a retirement hands on (R18). -/
def retireKinds : List EvKind := .reaction :: .raise :: .driveRetired :: .pumpRetired :: deliveryKinds

theorem withTable_emits (t : List Record) (s : State) : Emits deliveryKinds (State.withTable t s).2 :=
  deliveries_emits _ _

theorem changeRecord_emits (b a : Record) (s : State) : Emits deliveryKinds (changeRecord b a s).2 :=
  deliveries_emits _ _

theorem placeRecord_emits (t : List Record) (r : Record) (s : State) : Emits deliveryKinds (placeRecord t r s).2 :=
  deliveries_emits _ _

theorem setSlot_emits (k : Fin 8) (v : Slot) (s : State) : Emits [.reaction] (setSlot k v s).2 :=
  boostHandover_emits _ _

theorem spentIf_emits (k : Fin 8) (v : Slot) (s : State) : Emits [.raise] (spentIf k v s).2 := by
  simp [spentIf, Act.emit, Ev.kind]

theorem spentRaises_emits (ks : List (Fin 8)) : Emits [.raise] (spentRaises ks) := emits_map (fun _ => by simp [Ev.kind]) ks

theorem retirementOwner_emits (c : Code) : Emits [.driveRetired, .pumpRetired] (retirementOwner c) :=
  emits_append.mpr ⟨emits_map (fun _ => by simp [Ev.kind]) _, emits_map (fun _ => by simp [Ev.kind]) _⟩

theorem Emits.andThen {ks : List EvKind} {f g : Act} {s : State} (hf : Emits ks (f s).2) (hg : ∀ t, Emits ks (g t).2) :
    Emits ks (Act.andThen f g s).2 := emits_append.mpr ⟨hf, hg _⟩

/-- Parts taken in their order hand on what each hands on. -/
theorem emits_all {ks : List EvKind} {fs : List Act} (h : ∀ f ∈ fs, ∀ s, Emits ks (f s).2) (s : State) :
    Emits ks (Act.all fs s).2 := by
  induction fs generalizing s with
  | nil => exact emits_nil
  | cons f rest ih =>
    exact Emits.andThen (h f (.head _) s) fun t => ih (fun g hg => h g (.tail _ hg)) t

theorem retireRecord_emits (c : Code) (s : State) : Emits retireKinds (retireRecord c s).2 := by
  refine emits_all ?_ s
  simp only [List.forall_mem_cons, List.not_mem_nil, false_imp_iff, implies_true, and_true]
  exact ⟨fun t => (withTable_emits _ t).mono (by decide), fun t => (boostHandover_emits _ _).mono (by decide),
    fun _ => (retirementOwner_emits c).mono (by decide), fun _ => (spentRaises_emits _).mono (by decide)⟩

theorem takeRaise_emits (r : Raise) (s : State) : Emits raiseKinds (takeRaise r s).2 := by
  have hoffer : ∀ c t, Emits raiseKinds (offer c t).2 := fun c t => by
    simp [offer, Act.emit, raiseKinds, Ev.kind]
  have hchange : ∀ b a t, Emits raiseKinds (changeRecord b a t).2 := fun b a t => (changeRecord_emits b a t).mono (by decide)
  have hplace : ∀ u a t, Emits raiseKinds (placeRecord u a t).2 := fun u a t => (placeRecord_emits u a t).mono (by decide)
  unfold takeRaise
  split
  · exact Emits.andThen (hchange _ _ s) (hoffer _)
  · split
    · exact Emits.andThen (hplace _ _ s) (hoffer _)
    · split
      · refine emits_all ?_ s
        simp only [List.forall_mem_cons, List.not_mem_nil, false_imp_iff, implies_true, and_true]
        exact ⟨hplace _ _, fun t => (boostHandover_emits _ _).mono (by decide), hoffer _,
          fun _ => (spentRaises_emits _).mono (by decide)⟩
      · split
        · exact emits_nil
        · unfold foldRaise
          dsimp only
          split
          · exact Emits.andThen (hchange _ _ _) (hoffer _)
          · exact Emits.andThen (hplace _ _ _) (hoffer _)

theorem takeAutoRetire_emits (k : Fin 8) (s : State) : Emits retireKinds (takeAutoRetire k s).2 := by
  have hset : ∀ v t, Emits retireKinds (setSlot k v t).2 := fun v t => (setSlot_emits k v t).mono (by decide)
  have hspent : ∀ v t, Emits retireKinds (spentIf k v t).2 := fun v t => (spentIf_emits k v t).mono (by decide)
  simp only [takeAutoRetire]
  split
  · split
    · refine emits_all ?_ s
      simp only [List.forall_mem_cons, List.not_mem_nil, false_imp_iff, implies_true, and_true]
      exact ⟨hset _, retireRecord_emits _, hspent _⟩
    · refine emits_all ?_ s
      simp only [List.forall_mem_cons, List.not_mem_nil, false_imp_iff, implies_true, and_true]
      exact ⟨hset _, hspent _⟩
  · exact emits_nil

theorem takeBoostEnd_emits (k : Fin 8) (s : State) : Emits [.reaction, .raise] (takeBoostEnd k s).2 := by
  simp only [takeBoostEnd]
  split
  · refine emits_all ?_ s
    simp only [List.forall_mem_cons, List.not_mem_nil, false_imp_iff, implies_true, and_true]
    exact ⟨fun t => (setSlot_emits _ _ t).mono (by decide), fun t => (spentIf_emits _ _ t).mono (by decide)⟩
  · exact emits_nil

theorem takeOffer_emits (c : Code) (s : State) : Emits [.escalateStep, .reaction, .raise] (takeOffer c s).2 := by
  have hset : ∀ k v t, Emits [.escalateStep, .reaction, .raise] (setSlot k v t).2 := fun k v t =>
    (setSlot_emits k v t).mono (by decide)
  unfold takeOffer
  split
  · exact emits_nil
  · split
    · exact emits_nil
    · simp only [fire]
      split
      · exact emits_nil
      · exact hset _ _ s
      · exact hset _ _ s
      · refine emits_all ?_ s
        simp only [List.forall_mem_cons, List.not_mem_nil, false_imp_iff, implies_true, and_true]
        exact ⟨fun t => by simp [Act.emit, Ev.kind], hset _ _, fun t => (spentIf_emits _ _ t).mono (by decide)⟩

/-! ## Requests and resets -/

/-- What a request of the condition table or of the reaction unit can hand on. -/
def recordKinds : List EvKind := .offer :: retireKinds

/-- What a request of any other unit can hand on. -/
def unitKinds : List EvKind :=
  [.share, .commanded, .demand, .lane, .laneDemand, .raise, .present, .absent, .watch, .unwindMoved, .unwind, .heading]

/-- What a request can hand on. -/
def servedKinds : List EvKind := unitKinds ++ recordKinds

/-- The kinds that a request can hand on, by the unit that serves it. -/
def Request.handsOn (r : Request) : List EvKind := if r.part = .table then recordKinds else unitKinds

theorem Request.handsOn_subset (r : Request) : r.handsOn ⊆ servedKinds := by
  unfold Request.handsOn
  split
  · exact List.subset_append_right _ _
  · exact List.subset_append_left _ _

theorem setYaw_served {w : YawWork} {s : State} (hw : Emits toldKinds w.2) : Emits unitKinds (setYaw [] w s).2 :=
  (setYaw_told hw).mono (by decide)

theorem followTracking_emits (on : Bool) (s : State) : Emits yawKinds (followTracking on s).2 := by
  unfold followTracking
  split
  · exact setYaw_told (insert_emits _ _ _)
  · split
    · exact setYaw_told (remove_emits _ _ _)
    · exact emits_nil

theorem takeUnwindEval_emits (s : State) : Emits [.unwind] (takeUnwindEval s).2 := by
  simp [takeUnwindEval, Ev.kind]

theorem serve_emits (l : Link) (r : Request) (s : State) : Emits r.handsOn (serve l r s).events := by
  cases r with
  | lookup c => simp only [serve, serveLookup]; split <;> exact emits_nil
  | scan start f => simp only [serve, serveScan]; split <;> exact emits_nil
  | raise c cls detail cap lanes yaw loops =>
    change Emits recordKinds _
    simp only [serve, serveRaise, emits_ite_events]
    exact ⟨fun _ => emits_nil, fun _ => ⟨fun _ => emits_nil, fun _ => ⟨fun _ => emits_nil, fun _ =>
      (takeRaise_emits _ s).mono (by decide)⟩⟩⟩
  | amend c cap lanes yaw loops =>
    change Emits recordKinds _
    simp only [serve, serveAmend]
    split
    · exact emits_nil
    · simp only [emits_ite_events]
      exact ⟨fun _ => emits_nil, fun _ => ⟨fun _ => emits_nil, fun _ => (changeRecord_emits _ _ s).mono (by decide)⟩⟩
  | ack c =>
    change Emits recordKinds _
    simp only [serve, serveAck]
    split
    · exact emits_nil
    · split
      · exact (changeRecord_emits _ _ s).mono (by decide)
      · exact emits_nil
  | retire c =>
    change Emits recordKinds _
    simp only [serve, serveRetire]
    split
    · exact emits_nil
    · simp only [emits_ite_events]
      exact ⟨fun _ => emits_nil, fun _ => ⟨fun _ => emits_nil, fun _ => ⟨fun _ => emits_nil, fun _ =>
        (retireRecord_emits _ s).mono (by decide)⟩⟩⟩
  | bind slot c a loops delay count =>
    change Emits recordKinds _
    simp only [serve, serveBind]
    split
    · exact emits_nil
    · simp only [emits_ite_events]
      exact ⟨fun _ => emits_nil, fun _ => ⟨fun _ => emits_nil, fun _ => ⟨fun _ => emits_nil, fun _ =>
        ⟨fun _ => emits_nil, fun _ => (setSlot_emits _ _ s).mono (by decide)⟩⟩⟩⟩
  | unbind slot =>
    change Emits recordKinds _
    simp only [serve, serveUnbind]
    split
    · exact emits_nil
    · simp only [emits_ite_events]
      exact ⟨fun _ => emits_nil, fun _ => ⟨fun _ => (setSlot_emits _ _ s).mono (by decide), fun _ =>
        (setSlot_emits _ _ s).mono (by decide)⟩⟩
  | readSlot slot => simp only [serve, serveReadSlot]; split <;> exact emits_nil
  | setDemand d =>
    change Emits unitKinds _
    simp only [serve, serveSetDemand, emits_ite_events]
    refine ⟨fun _ => emits_nil, fun _ => ⟨fun _ => emits_nil, fun _ => ?_⟩⟩
    exact Emits.andThen ((envelopeHandover_emits _ _).mono (by decide)) fun t => by
      simp [Act.emit, demandHandover, unitKinds, Ev.kind]
  | readEnvelope => exact emits_nil
  | laneStart n =>
    change Emits unitKinds _
    simp only [serve, serveLaneStart]
    split
    · exact emits_nil
    · simp only [emits_ite_events]
      exact ⟨fun _ => emits_nil, fun _ => ⟨fun _ => emits_nil, fun _ => setLanes_emits emits_nil emits_nil (by decide)⟩⟩
  | laneStop n =>
    change Emits unitKinds _
    simp only [serve, serveLaneStop]
    split
    · exact emits_nil
    · exact setLanes_emits (exits_emits _ _ (by decide)) emits_nil (by decide)
  | readLane n => simp only [serve, serveReadLane]; split <;> exact emits_nil
  | setTracking on =>
    change Emits unitKinds _
    simp only [serve, serveSetTracking, emits_ite_events]
    exact ⟨fun _ => emits_nil, fun _ => (followTracking_emits on _).mono (by decide)⟩
  | startUnwind =>
    change Emits unitKinds _
    simp only [serve, serveStartUnwind, emits_ite_events]
    refine ⟨fun _ => emits_nil, fun _ => ⟨fun _ => emits_nil, fun _ => setYaw_served (s := s)
      (emits_append.mpr ⟨insert_emits _ _ _, emits_cons.mpr ⟨by decide, emits_nil⟩⟩)⟩⟩
  | yawGoto h =>
    change Emits unitKinds _
    simp only [serve, serveYawGoto, emits_ite_events]
    refine ⟨fun _ => emits_nil, fun _ => ⟨fun _ => emits_nil, fun _ => ⟨fun _ => emits_nil, fun _ =>
      ⟨fun _ => emits_nil, fun _ => ?_⟩⟩⟩⟩
    split
    · exact emits_nil
    · simp only [emits_ite_events]
      exact ⟨fun _ => emits_nil, fun _ => ⟨fun _ => emits_nil, fun _ => setYaw_served (s := s) (insert_emits _ _ _)⟩⟩
  | yawJog d sec =>
    change Emits unitKinds _
    simp only [serve, serveYawJog, emits_ite_events]
    exact ⟨fun _ => emits_nil, fun _ => ⟨fun _ => emits_nil, fun _ => ⟨fun _ => emits_nil, fun _ =>
      ⟨fun _ => emits_nil, fun _ => ⟨fun _ => emits_nil, fun _ => setYaw_served (s := s) (insert_emits _ _ _)⟩⟩⟩⟩⟩
  | serviceStop =>
    change Emits unitKinds _
    simp only [serve, serveServiceStop, emits_ite_events]
    exact ⟨fun _ => emits_nil, fun _ => ⟨fun _ => setYaw_served (s := s) (remove_emits _ _ _), fun _ => emits_nil⟩⟩
  | readYaw => exact emits_nil
  | driveIsolate n =>
    change Emits unitKinds _
    simp only [serve, serveDriveIsolate, emits_ite_events]
    refine ⟨fun _ => emits_nil, fun _ => ?_⟩
    split
    · exact emits_nil
    · exact setYaw_served (s := s) emits_nil
  | driveReturn n =>
    change Emits unitKinds _
    simp only [serve, serveDriveReturn, emits_ite_events]
    refine ⟨fun _ => emits_nil, fun _ => ?_⟩
    split
    · exact emits_nil
    · split
      · exact setYaw_served (s := s) emits_nil
      · exact (setYaw_raised (s := s) (by simp [Ev.kind]) emits_nil).mono (by decide)
      · exact setYaw_served (s := s) emits_nil
      · exact emits_nil
  | setTwist t =>
    change Emits unitKinds _
    simp only [serve, serveSetTwist, emits_ite_events]
    refine ⟨fun _ => emits_nil, fun _ => ⟨fun _ => emits_nil, fun _ => ?_⟩⟩
    simp only [Served.did, emits_append]
    exact ⟨⟨viewReport_emits _ _ _ (by decide) (by decide), (takeUnwindEval_emits _).mono (by decide)⟩,
      emits_cons.mpr ⟨by simp [unitKinds, Ev.kind], emits_nil⟩⟩
  | readLoop n => simp only [serve, serveReadLoop]; split <;> exact emits_nil
  | setSetting id v =>
    change Emits unitKinds _
    simp only [serve, serveSetSetting, emits_ite_events]
    refine ⟨fun _ => emits_nil, fun _ => ⟨fun _ => emits_nil, fun _ => ⟨fun _ => emits_nil, fun _ => ?_⟩⟩⟩
    simp only [Served.did, settingActs]
    split
    · exact (followTracking_emits _ _).mono (by decide)
    · exact emits_nil
    · exact emits_nil
  | getSetting id => simp only [serve, serveGetSetting]; split <;> exact emits_nil
  | readSupply => exact emits_nil
  | ident => exact emits_nil
  | warmReset straps => exact emits_nil
  | badEncoding => exact emits_nil

/-- What a reset hands on. -/
def resetKinds : List EvKind :=
  [.watch, .unwindMoved, .laneSupply, .yawSupply, .coolingSupply, .demand, .commanded, .laneDemand, .pump, .reaction,
    .raise, .present, .absent] ++ deliveryKinds

theorem startTracking_emits (s : State) : Emits toldKinds (startTracking s).2 := by
  unfold startTracking
  split
  · exact insert_emits _ _ _
  · exact emits_nil

theorem startReports_emits (s : State) : Emits [.present, .absent] (startReports s) := by
  have hif : ∀ (b : Bool) (r : Raise) (c : Code), (if b then Ev.ctPresent r else .ctAbsent c).kind ∈ [EvKind.present, .absent] := by
    intro b r c
    cases b <;> simp [Ev.kind]
  simp only [startReports, windStartReports, yawStartReports, supplyStartReports, emits_append, emits_cons, hif, emits_nil,
    and_true, true_and]
  decide

theorem takeWarmStart_emits (d : Nat) (straps : Fin 4) (s : State) : Emits resetKinds (takeWarmStart d straps s).2 := by
  simp only [takeWarmStart, emits_append]
  exact ⟨⟨⟨⟨(startTracking_emits _).mono (by decide), by simp [fullDelivery, resetKinds, deliveryKinds, Ev.kind]⟩,
    by simp [startHandovers, supplyHandover, resetKinds, Ev.kind]⟩, by simp [resetKinds, Ev.kind]⟩,
    (startReports_emits _).mono (by decide)⟩

theorem takeColdStart_emits (straps : Fin 4) (s : State) :
    Emits [.watch, .unwindMoved, .laneSupply, .yawSupply, .coolingSupply, .demand, .commanded, .laneDemand, .pump, .present,
      .absent] (takeColdStart straps s).2 := by
  simp only [takeColdStart, emits_append]
  exact ⟨⟨(startTracking_emits _).mono (by decide), by simp [startHandovers, supplyHandover, Ev.kind]⟩,
    (startReports_emits _).mono (by decide)⟩

/-! ## Lanes, and wind and heading -/

theorem warnReports_emits (n : Fin 4) (tracked : Option Nat) (r : Report) :
    Emits [.absent, .present] (warnReports n tracked r) := by
  simp only [warnReports, emits_ite, emits_append]
  exact ⟨fun _ => emits_nil, fun _ => ⟨by split <;> simp [Ev.kind], by split <;> simp [Ev.kind]⟩⟩

theorem trackMove_emits (w : Wind) : Emits [.move] (trackMove w) := by
  unfold trackMove
  split <;> simp [Ev.kind]

/-! ## Every event -/

/-- The kinds of events that an event can hand on. -/
def Ev.handsOn : Ev → List EvKind
  | .ctRaise _ | .ctPresent _ => raiseKinds
  | .ctAbsent _ | .ctRefresh _ _ | .ctEscalateStep _ | .ctEscalateTo _ _ _ => deliveryKinds
  | .ctHoldoffEnd _ | .ruAutoRetire _ => retireKinds
  | .ruOffer _ => [.escalateStep, .reaction, .raise]
  | .ruBoostEnd _ => [.reaction, .raise]
  | .euLimits _ | .euLane _ _ | .euTemp _ _ | .euRampStep => [.share, .commanded]
  | .lmExcluded _ _ | .lmSupply _ | .lmAct _ => [.lane, .laneDemand]
  | .lmPump _ | .lmDemand _ | .lmEvaluate _ => [.laneDemand]
  | .lmReport _ _ => [.lane, .laneDemand, .raise, .present, .absent, .temperature, .act, .reply]
  | .lmSilence _ => [.raise, .absent]
  | .lmTimeout _ _ => [.laneDemand, .raise, .evaluate]
  | .whPark _ _ | .whUnwind _ | .whUnwindEval => [.unwind]
  | .whWatch _ | .whDwell => [.move]
  | .whHeading _ => [.present, .absent, .heading, .unwindEval]
  | .whVane _ => [.present, .absent, .misalign, .filtered, .dwell]
  | .whMisalign => [.present, .absent, .refresh]
  | .whAnemometer _ => [.present, .absent, .unwindEval]
  | .ymLimits _ | .ymSupply _ | .ymFiltered _ | .ymMove _ _ | .ymUnwind _ _ | .ymDriveRetired _ => yawKinds
  | .ymJogEnd | .ymPressure _ | .ymSettleEnd => yawKinds
  | .ymHeading _ _ | .ymFaultLines _ | .ymBrakeTimer => .raise :: yawKinds
  | .cuBoost _ | .cuCommanded _ | .cuLaneDemand _ | .cuSupply _ | .cuReaction _ | .cuPumpRetired _ | .cuDemand _ => [.pump]
  | .cuSample _ _ => [.present, .absent, .derate, .sampleDemand, .fan]
  | .cuDerate _ _ => [.present, .absent, .refresh, .escalate]
  | .cuEscalate _ => [.present, .escalateTo]
  | .cuFlow _ _ | .cuPrimeTimeout _ => [.pump, .raise]
  | .smGrid _ | .smSettled | .smUps _ => [.laneSupply, .yawSupply, .coolingSupply, .present, .absent]
  | .lkKey _ => [.present, .absent]
  | .lkSilence => [.present]
  | .lkStart _ _ _ _ | .lkRead _ _ => [.stop, .opened]
  | .lkStop _ => [.begun]
  | .lkRequest _ _ => [.stop, .request, .begun]
  | .lkBegin _ _ => [.absent, .served]
  | .lkServe _ _ => servedKinds ++ resetKinds
  | .coldStart _ | .lineRelease _ => resetKinds
  | .due _ => [.expiry]
  | .lmShare _ _ | .lmReply _ | .cuFan _ | .lineAssert => []
  | .lkOpen _ _ _ _ | .lkSend _ _ | .lkByte _ _ _ | .lkPoisonStop _ | .lkReset _ | .lkAttention _ => []
  | .lkAttentionSlot _ _ | .lkPayloadDone _ | .lkPayloadCut _ => []

theorem handle_emits (e : Ev) (s : State) : Emits e.handsOn (handle e s).2 := by
  cases e with
  | ctRaise r => exact takeRaise_emits r s
  | ctPresent r =>
    simp only [handle, takePresent]
    split
    · exact takeRaise_emits r s
    · split
      · exact emits_nil
      · exact takeRaise_emits r s
  | ctAbsent c =>
    simp only [handle, takeAbsent]
    split
    · exact emits_nil
    · split
      · exact changeRecord_emits _ _ s
      · exact emits_nil
  | ctRefresh c cap =>
    simp only [handle, takeRefresh]
    split
    · exact emits_nil
    · split
      · exact emits_nil
      · exact changeRecord_emits _ _ s
  | ctEscalateStep c | ctEscalateTo c cls cap =>
    simp only [handle, takeEscalation]
    split
    · exact emits_nil
    · split
      · exact emits_nil
      · exact changeRecord_emits _ _ s
  | ctHoldoffEnd c =>
    simp only [handle, takeHoldoffEnd]
    split
    · exact emits_nil
    · split
      · exact retireRecord_emits c s
      · exact emits_nil
  | ruOffer c => exact takeOffer_emits c s
  | ruAutoRetire k => exact takeAutoRetire_emits k s
  | ruBoostEnd k => exact takeBoostEnd_emits k s
  | euLimits d =>
    simp only [handle, takeEnvelopeLimits]
    split
    · exact envelopeHandover_emits _ _
    · exact emits_nil
  | euLane n running =>
    simp only [handle, takeLaneEvent]
    split
    · exact emits_nil
    · exact envelopeHandover_emits _ _
  | euTemp n t =>
    simp only [handle, takeLaneTemperature]
    split
    · exact emits_nil
    · exact envelopeHandover_emits _ _
  | euRampStep =>
    simp only [handle, takeRampStep]
    split
    · exact emits_nil
    · exact envelopeHandover_emits _ _
  | lmExcluded set full => exact setLanes_emits (exits_emits _ _ (by simp [Ev.handsOn])) emits_nil (by simp [Ev.handsOn])
  | lmShare n kw => exact emits_nil
  | lmSupply st =>
    simp only [handle, takeLaneSupply]
    split
    · exact emits_nil
    · exact setLanes_emits (exits_emits _ _ (by simp [Ev.handsOn])) emits_nil (by simp [Ev.handsOn])
  | lmPump p =>
    simp only [handle, takeLanePump]
    split
    · exact emits_nil
    · exact setLanes_emits emits_nil emits_nil (by simp [Ev.handsOn])
  | lmDemand present =>
    simp only [handle, takeLaneDemand]
    split
    · exact emits_nil
    · exact setLanes_emits emits_nil emits_nil (by simp [Ev.handsOn])
  | lmReport n bytes =>
    simp only [handle, takeReport]
    split
    · exact emits_cons.mpr ⟨by simp [Ev.handsOn, Ev.kind], emits_nil⟩
    · refine setLanes_emits (exits_emits _ _ (by simp [Ev.handsOn])) ?_ (by simp [Ev.handsOn])
      have hwarn : ∀ tracked r, Emits (Ev.lmReport n bytes).handsOn (warnReports n tracked r) := fun tracked r =>
        (warnReports_emits n tracked r).mono (by simp [Ev.handsOn])
      refine emits_append.mpr ⟨emits_append.mpr ⟨?_, hwarn _ _⟩, ?_⟩
      · simp [tripRaises, Ev.handsOn, Ev.kind]
      · simp [Ev.handsOn, Ev.kind]
  | lmAct n =>
    simp only [handle, takeAct]
    split
    · exact emits_nil
    · exact setLanes_emits (entries_emits _ _ (by simp [Ev.handsOn])) emits_nil (by simp [Ev.handsOn])
  | lmReply n => exact emits_nil
  | lmEvaluate n => exact setLanes_emits emits_nil emits_nil (by simp [Ev.handsOn])
  | lmSilence n =>
    simp only [handle, takeSilence]
    split
    · exact emits_nil
    · exact emits_cons.mpr ⟨by simp [Ev.handsOn, Ev.kind], by split <;> simp [Ev.handsOn, Ev.kind]⟩
  | lmTimeout n k =>
    simp only [handle, takeTimeout]
    split
    · cases k with
      | precharge | sync => exact setLanes_emits emits_nil (by simp [Ev.handsOn, Ev.kind]) (by simp [Ev.handsOn])
      | shed => exact setLanes_emits emits_nil emits_nil (by simp [Ev.handsOn])
      | reset => exact setLanes_emits emits_nil (by simp [Ev.handsOn, Ev.kind]) (by simp [Ev.handsOn])
    · exact emits_nil
  | whPark on full =>
    simp only [handle, takePark]
    split
    · exact emits_nil
    · exact takeUnwindEval_emits _
  | whWatch w => cases w <;> simp [handle, takeWatch, Ev.handsOn, trackMove_emits]
  | whUnwind inChain =>
    simp only [handle, takeUnwindEvent]
    split
    · exact emits_nil
    · exact takeUnwindEval_emits _
  | whHeading reading => simp only [handle, takeHeading]; split <;> simp [twistReport, Ev.handsOn, Ev.kind]
  | whVane reading => simp only [handle, takeVane]; split <;> simp [Ev.handsOn, Ev.kind]
  | whMisalign => simp [handle, takeMisalign, Ev.handsOn, Ev.kind]
  | whDwell => simp [handle, takeDwell, Ev.handsOn, trackMove_emits]
  | whAnemometer pulses => simp [handle, takeAnemometer, Ev.handsOn, Ev.kind]
  | whUnwindEval => exact takeUnwindEval_emits s
  | ymLimits flags => exact setYaw_told (thenDo_emits.mpr ⟨followPark_emits _ _, rehold_emits _ _⟩)
  | ymSupply st => exact setYaw_told (rehold_emits _ _)
  | ymHeading heading twist =>
    exact setYaw_raised ((watchStall_emits _).mono (by decide))
      (thenDo_emits.mpr ⟨thenDo_emits.mpr ⟨rehold_emits _ _, atGoal_emits _ _⟩, atArrival_emits _ _⟩)
  | ymFiltered f => exact setYaw_told (atFiltered_emits _ _)
  | ymMove target d =>
    simp only [handle, takeMove]
    split
    · exact emits_nil
    · split
      · exact setYaw_told (leaveEvents_emits _)
      · exact emits_nil
  | ymUnwind goal d =>
    simp only [handle, takeUnwind]
    split
    · exact emits_nil
    · exact setYaw_told (insert_emits _ _ _)
  | ymDriveRetired n => exact setYaw_told emits_nil
  | ymJogEnd =>
    simp only [handle, takeJogEnd]
    split
    · exact setYaw_told (remove_emits _ _ _)
    · exact emits_nil
  | ymFaultLines lines => exact setYaw_raised (readLines_emits lines _ emits_nil) emits_nil
  | ymPressure bar => exact setYaw_told emits_nil
  | ymBrakeTimer =>
    simp only [handle, takeBrakeTimer]
    split
    · exact emits_nil
    · exact setYaw_raised (by simp [Ev.kind]) emits_nil
  | ymSettleEnd =>
    simp only [handle, takeSettleEnd]
    split
    · exact emits_nil
    · exact setYaw_told emits_nil
  | cuBoost set => exact setCooling_emits emits_nil (by simp [Ev.handsOn])
  | cuCommanded kw => exact setCooling_emits emits_nil (by simp [Ev.handsOn])
  | cuLaneDemand yes => exact setCooling_emits emits_nil (by simp [Ev.handsOn])
  | cuSupply st => exact setCooling_emits emits_nil (by simp [Ev.handsOn])
  | cuReaction set => exact setCooling_emits emits_nil (by simp [Ev.handsOn])
  | cuPumpRetired l => exact setCooling_emits emits_nil (by simp [Ev.handsOn])
  | cuSample l reading => simp only [handle, takeSample]; split <;> simp [Ev.handsOn, Ev.kind]
  | cuDerate l valid =>
    have hrefresh : ∀ t old new esc cap, Emits (Ev.cuDerate l valid).handsOn (hotRefresh l t old new esc cap) := by
      intro t old new esc cap
      unfold hotRefresh
      split <;> simp [Ev.handsOn, Ev.kind]
    simp only [handle, takeDerate]
    split
    · simp [hotReport, hrefresh]
      simp [Ev.handsOn, Ev.kind]
    · simp [Ev.handsOn, Ev.kind]
  | cuEscalate l => simp only [handle, takeHotEscalation]; split <;> simp [Ev.handsOn, Ev.kind]
  | cuDemand l => exact setCooling_emits emits_nil (by simp [Ev.handsOn])
  | cuFan l => exact emits_nil
  | cuFlow l seen =>
    have hset : ∀ u a, Emits [.raise] a → Emits (Ev.cuFlow l seen).handsOn (setCooling u a s).2 := fun u a ha =>
      setCooling_emits (ha.mono (by simp [Ev.handsOn])) (by simp [Ev.handsOn])
    simp only [handle, takeFlow]
    split
    · split <;> exact hset _ _ emits_nil
    · split
      · exact hset _ _ emits_nil
      · split
        · exact hset _ _ (by simp [Ev.kind])
        · exact hset _ _ emits_nil
    · exact hset _ _ emits_nil
    · exact hset _ _ emits_nil
  | cuPrimeTimeout l =>
    simp only [handle, takePrimeTimeout]
    split
    · exact emits_nil
    · exact setCooling_emits (by simp [Ev.handsOn, Ev.kind]) (by simp [Ev.handsOn])
  | smGrid present =>
    simp only [handle, takeGrid]
    split
    · exact setSupply_emits _ s
    · exact setSupply_emits _ s
    · exact emits_nil
  | smSettled =>
    simp only [handle, takeSettled]
    split
    · exact emits_nil
    · exact setSupply_emits _ s
  | smUps reading =>
    simp only [handle, takeUps]
    split
    · exact emits_nil
    · exact setSupply_emits _ s
  | lkKey on => cases on <;> simp [handle, takeKey, Ev.handsOn, Ev.kind]
  | lkSilence => simp only [handle, takeSilenceExpiry]; split <;> simp [Ev.handsOn, Ev.kind]
  | lkStart l addr ok bytes => simp [handle, takeStart, Ev.handsOn, Ev.kind]
  | lkRead l clocked => simp [handle, takeRead, Ev.handsOn, Ev.kind]
  | lkRequest l r => simp [handle, takeRequest, Ev.handsOn, Ev.kind]
  | lkBegin l r => simp only [handle, takeBegin]; split <;> simp [Ev.handsOn, Ev.kind]
  | lkStop l =>
    simp only [handle, takeFrameStop, Act.guarded, takeStop, emits_ite_snd]
    refine ⟨fun _ => ?_, fun _ => emits_nil⟩
    split
    · split <;> simp [Ev.handsOn, Ev.kind]
    all_goals exact emits_nil
  | lkByte l b ok => simp [handle, takeByte, Act.guarded, updateLink, Act.update]
  | lkPoisonStop l => simp [handle, takePoisonStop, Act.guarded, updateLink, Act.update]
  | lkAttention l => simp [handle, takeAttention]
  | lkAttentionSlot l ack => simp [handle, takeAttentionSlot]
  | lkPayloadDone l => simp [handle, takePayloadDone]
  | lkPayloadCut l => simp [handle, takePayloadCut]
  | lkOpen l addr ok bytes => exact emits_nil
  | lkSend l clocked => exact emits_nil
  | lkReset l => exact emits_nil
  | lineAssert => exact emits_nil
  | lkServe l r =>
    simp only [handle, takeServe]
    split
    · exact (takeWarmStart_emits (restartDetail l) _ s).mono (List.subset_append_right _ _)
    · exact (serve_emits l r s).mono (List.Subset.trans r.handsOn_subset (List.subset_append_left _ _))
  | coldStart straps =>
    have hks : ∀ ks : List EvKind, ks ⊆ resetKinds → Emits ks (takeColdStart straps s).2 →
        Emits resetKinds (takeColdStart straps s).2 := fun ks hs h => h.mono hs
    exact hks _ (by decide) (takeColdStart_emits straps s)
  | lineRelease straps => exact takeWarmStart_emits 1 straps { s with lineAsserted := false }
  | due i => cases i <;> simp [handle, takeDue, expiryEvent, Ev.handsOn, Ev.kind]

end Sys2Proof.Machine
end

section
/-! What each event leaves of a block: what the block was delivered, what its inputs last gave, and what an operator
chose, one block at a time. -/

namespace Sys2Proof.Machine

/-! ## The envelope unit: D and what the limit resolver delivered (R61, R64, R68) -/

/-- D and the delivered limits of two states of the envelope unit are the same. -/
structure Envelope.SameOrders (e f : Envelope) : Prop where
  demand : f.demand = e.demand
  capEff : f.capEff = e.capEff
  capSource : f.capSource = e.capSource
  excluded : f.excluded = e.excluded

theorem recompute_sameOrders (e : Envelope) : e.SameOrders e.recompute := ⟨rfl, rfl, rfl, rfl⟩

/-- The envelope unit with what an event delivers to it. -/
def Ev.toEnvelope (e : Ev) (u : Envelope) : Envelope :=
  match e with
  | .euLimits d => u.deliver d
  | _ => u

/-- Only a delivery moves what the envelope unit was delivered, and no event of its own moves D. -/
theorem handle_envelope {e : Ev} (h : e.part = .eu) (s : State) :
    (e.toEnvelope s.eu).SameOrders (handle e s).1.eu := by
  cases e with
  | euLimits d =>
    simp only [handle, takeEnvelopeLimits]
    split
    · exact recompute_sameOrders _
    · exact ⟨rfl, rfl, rfl, rfl⟩
  | euLane n running =>
    simp only [handle, takeLaneEvent]
    split
    · exact ⟨rfl, rfl, rfl, rfl⟩
    · exact ⟨rfl, rfl, rfl, rfl⟩
  | euTemp n t =>
    simp only [handle, takeLaneTemperature]
    split
    · exact ⟨rfl, rfl, rfl, rfl⟩
    · exact ⟨rfl, rfl, rfl, rfl⟩
  | euRampStep =>
    simp only [handle, takeRampStep]
    split <;> exact ⟨rfl, rfl, rfl, rfl⟩
  | _ => exact nomatch h

/-! ## The lanes: reports, start flags, and the states an excluded lane must not take (R87, R101, R106) -/

/-- A lane in a state that exclusion bars (R101). -/
def Lane.runs (x : Lane) : Prop := x.state = .precharge ∨ x.state = .sync ∨ x.state = .running

theorem exclusionHolds_iff (s : State) :
    s.exclusionHolds ↔ ∀ n : Fin 4, hasBit s.lm.excluded n.val = true → ¬(s.lm.lanes.get n).runs := by
  simp only [State.exclusionHolds, Lane.runs, not_or, ne_eq]

/-- The exclusion set is the same, each lane's last report and start flag too, but for the lanes in `reporting` and in
`starting`, and no excluded lane comes to run. -/
structure LaneManager.Kept (reporting starting : Fin 4 → Prop) (m z : LaneManager) : Prop where
  excluded : z.excluded = m.excluded
  report : ∀ n, ¬reporting n → (z.lanes.get n).report = (m.lanes.get n).report
  startFlag : ∀ n, ¬starting n → (z.lanes.get n).startFlag = (m.lanes.get n).startFlag
  barred : ∀ n : Fin 4, hasBit m.excluded n.val = true → (z.lanes.get n).runs → (m.lanes.get n).runs

section
variable {reporting starting : Fin 4 → Prop}

theorem LaneManager.Kept.refl (m : LaneManager) : m.Kept reporting starting m :=
  ⟨rfl, fun _ _ => rfl, fun _ _ => rfl, fun _ _ h => h⟩

theorem LaneManager.Kept.trans {a b c : LaneManager} (h : a.Kept reporting starting b) (g : b.Kept reporting starting c) :
    a.Kept reporting starting c where
  excluded := g.excluded.trans h.excluded
  report n hn := (g.report n hn).trans (h.report n hn)
  startFlag n hn := (g.startFlag n hn).trans (h.startFlag n hn)
  barred n hn hr := h.barred n hn (g.barred n (by rw [h.excluded]; exact hn) hr)

/-- One lane replaced. -/
theorem put_kept {m : LaneManager} {n : Fin 4} {x : Lane} (hr : reporting n ∨ x.report = (m.lanes.get n).report)
    (hf : starting n ∨ x.startFlag = (m.lanes.get n).startFlag)
    (hx : hasBit m.excluded n.val = true → x.runs → (m.lanes.get n).runs) : m.Kept reporting starting (m.put n x) where
  excluded := rfl
  report k hk := by
    rw [lane_get_put]
    split
    next h => exact hr.resolve_left (h ▸ hk)|>.trans (by rw [h])
    next => rfl
  startFlag k hk := by
    rw [lane_get_put]
    split
    next h => exact hf.resolve_left (h ▸ hk)|>.trans (by rw [h])
    next => rfl
  barred k hk := by
    rw [lane_get_put]
    split
    next h =>
      subst h
      exact hx hk
    next => exact id

/-- One lane replaced by itself in a state that exclusion does not bar. -/
theorem put_stops {m : LaneManager} {n : Fin 4} {x : Lane} (hr : x.report = (m.lanes.get n).report)
    (hf : x.startFlag = (m.lanes.get n).startFlag) (hx : ¬x.runs) : m.Kept reporting starting (m.put n x) :=
  put_kept (.inr hr) (.inr hf) fun _ h => absurd h hx

theorem goes_stops (x : Lane) (st : LaneState) (h : st ≠ .precharge ∧ st ≠ .sync ∧ st ≠ .running) :
    ¬(x.goes st).runs := by
  simp [Lane.runs, Lane.goes, h]

theorem evaluateStart_kept (auto : Bool) (n : Fin 4) (m : LaneManager) :
    m.Kept reporting starting (evaluateStart auto n m) := by
  unfold evaluateStart
  split
  next h =>
    have hfree : hasBit m.excluded n.val = false := by simpa using ((startCondition_iff auto m n).mp h.2).1
    refine put_kept (.inr ?_) (.inr ?_) (by simp [hfree])
    all_goals unfold leaveOffline; split <;> rfl
  next => exact .refl m

theorem evaluateAll_kept (auto : Bool) (m : LaneManager) : m.Kept reporting starting (evaluateAll auto m) :=
  (((evaluateStart_kept auto 0 m).trans (evaluateStart_kept auto 1 _)).trans (evaluateStart_kept auto 2 _)).trans
    (evaluateStart_kept auto 3 _)

theorem settleLane_kept (auto : Bool) (n : Fin 4) (m : LaneManager) :
    m.Kept reporting starting (settleLane auto n m) := by
  unfold settleLane
  split
  · exact put_stops rfl rfl (goes_stops _ .locked (by decide))
  · have hput : m.Kept reporting starting (m.put n ((m.lanes.get n).goes .offline)) :=
      put_stops rfl rfl (goes_stops _ .offline (by decide))
    exact hput.trans (evaluateStart_kept auto n _)

theorem mapLanes_kept (m : LaneManager) {f : Lane → Lane}
    (h : ∀ x, (f x).report = x.report ∧ (f x).startFlag = x.startFlag ∧ ((f x).runs → x.runs)) :
    m.Kept reporting starting (m.mapLanes f) where
  excluded := rfl
  report n _ := by rw [mapLanes_get]; exact (h _).1
  startFlag n _ := by rw [mapLanes_get]; exact (h _).2.1
  barred n _ := by rw [mapLanes_get]; exact (h _).2.2

theorem whenSupplyLost_kept (x : Lane) : (whenSupplyLost x).report = x.report ∧
    (whenSupplyLost x).startFlag = x.startFlag ∧ ((whenSupplyLost x).runs → x.runs) := by
  unfold whenSupplyLost
  split <;> simp [Lane.goes, Lane.runs]

theorem whenPumpLost_kept (x : Lane) : (whenPumpLost x).report = x.report ∧
    (whenPumpLost x).startFlag = x.startFlag ∧ ((whenPumpLost x).runs → x.runs) := by
  unfold whenPumpLost
  split <;> simp [Lane.goes, Lane.runs]

theorem afterOnset_kept (x : Lane) : (afterOnset x).report = x.report ∧ (afterOnset x).startFlag = x.startFlag ∧
    ((afterOnset x).runs → x.runs) := by
  unfold afterOnset
  split <;> simp [Lane.goes, Lane.runs]

theorem afterReport_kept (x : Lane) (r : Report) :
    (afterReport x r).startFlag = x.startFlag ∧ ((afterReport x r).runs → x.runs) := by
  unfold afterReport
  split
  · obtain ⟨-, hflag, hruns⟩ := afterOnset_kept { x with report := some r, silence := some 50, warned := warningOf r }
    exact ⟨hflag, hruns⟩
  · exact ⟨rfl, id⟩

theorem actOn_kept (auto : Bool) (n : Fin 4) (r : Report) (m : LaneManager) :
    m.Kept reporting starting (actOn auto n r m) := by
  unfold actOn
  dsimp only
  split
  case h_1 =>
    split
    · exact put_stops rfl rfl (goes_stops _ .locked (by decide))
    · exact evaluateStart_kept auto n m
  case h_2 hs =>
    split
    · exact put_kept (.inr rfl) (.inr rfl) fun _ _ => .inl hs
    · exact .refl m
  case h_3 hs =>
    split
    · exact put_kept (.inr rfl) (.inr rfl) fun _ _ => .inr (.inl hs)
    · exact .refl m
  case h_4 | h_5 =>
    split
    · exact settleLane_kept auto n m
    · exact .refl m
  all_goals exact .refl m

/-- The unit replaced apart from its lanes' records and its exclusion set. -/
theorem LaneManager.Kept.withInputs {m z : LaneManager} (h : m.Kept reporting starting z) (w : LaneManager)
    (hl : w.lanes = z.lanes) (he : w.excluded = z.excluded) : m.Kept reporting starting w where
  excluded := he.trans h.excluded
  report n hn := by rw [hl]; exact h.report n hn
  startFlag n hn := by rw [hl]; exact h.startFlag n hn
  barred n hn := by rw [hl]; exact h.barred n hn

theorem LaneManager.Kept.evaluated {m z w : LaneManager} (h : m.Kept reporting starting z) (hl : w.lanes = z.lanes)
    (he : w.excluded = z.excluded) (auto : Bool) : m.Kept reporting starting (evaluateAll auto w) :=
  (h.withInputs w hl he).trans (evaluateAll_kept auto w)

theorem setLanes_kept {m : LaneManager} {s : State} {before after : List Ev} (h : s.lm.Kept reporting starting m) :
    s.lm.Kept reporting starting (setLanes m before after s).1.lm := h.withInputs _ rfl rfl

end

/-- The lanes whose report an event takes. -/
def Ev.reportsOn (e : Ev) (n : Fin 4) : Prop := ∃ bytes, e = .lmReport n bytes

/-- Of the lane manager's events a delivery alone moves the exclusion set, and a report the lane's last report. -/
theorem handle_lanes {e : Ev} (h : e.part = .lm) (hx : ∀ set full, e ≠ .lmExcluded set full) (s : State) :
    s.lm.Kept e.reportsOn (fun _ => False) (handle e s).1.lm := by
  cases e with
  | lmExcluded set full => exact absurd rfl (hx set full)
  | lmShare n kw => exact put_kept (.inr rfl) (.inr rfl) fun _ h => h
  | lmSupply st =>
    simp only [handle, takeLaneSupply]
    split
    · exact .refl _
    · have hm : s.lm.Kept (Ev.lmSupply st).reportsOn (fun _ => False)
          (if s.lm.supply = .full then s.lm.mapLanes whenSupplyLost else s.lm) := by
        split
        · exact mapLanes_kept _ whenSupplyLost_kept
        · exact .refl _
      generalize (if s.lm.supply = .full then s.lm.mapLanes whenSupplyLost else s.lm) = m at hm ⊢
      exact setLanes_kept (hm.evaluated (w := { m with supply := st }) rfl rfl _)
  | lmPump p =>
    simp only [handle, takeLanePump]
    split
    · exact .refl _
    · have hm : s.lm.Kept (Ev.lmPump p).reportsOn (fun _ => False)
          (if s.lm.pump = .running then s.lm.mapLanes whenPumpLost else s.lm) := by
        split
        · exact mapLanes_kept _ whenPumpLost_kept
        · exact .refl _
      generalize (if s.lm.pump = .running then s.lm.mapLanes whenPumpLost else s.lm) = m at hm ⊢
      exact setLanes_kept (hm.evaluated (w := { m with pump := p }) rfl rfl _)
  | lmDemand p =>
    simp only [handle, takeLaneDemand]
    split
    · exact .refl _
    · have hm := LaneManager.Kept.refl (reporting := (Ev.lmDemand p).reportsOn) (starting := fun _ => False) s.lm
      exact setLanes_kept (hm.evaluated (w := { s.lm with demand := p }) rfl rfl _)
  | lmReport n bytes =>
    simp only [handle, takeReport]
    split
    · exact .refl _
    · obtain ⟨hflag, hruns⟩ := afterReport_kept (s.lm.lanes.get n) ‹_›
      exact setLanes_kept (put_kept (.inl ⟨bytes, rfl⟩) (.inr hflag) fun _ => hruns)
  | lmAct n =>
    simp only [handle, takeAct]
    split
    · exact .refl _
    · exact setLanes_kept (actOn_kept _ _ _ _)
  | lmReply n => exact put_kept (.inr rfl) (.inr rfl) fun _ h => h
  | lmEvaluate n => exact setLanes_kept (evaluateStart_kept _ _ _)
  | lmSilence n =>
    simp only [handle, takeSilence]
    split
    · exact .refl _
    · exact put_kept (.inr rfl) (.inr rfl) fun _ h => h
  | lmTimeout n k =>
    simp only [handle, takeTimeout]
    split
    · cases k with
      | precharge | sync => exact setLanes_kept (put_stops rfl rfl (goes_stops _ .offline (by decide)))
      | reset => exact setLanes_kept (put_stops rfl rfl (goes_stops _ .faulted (by decide)))
      | shed => exact setLanes_kept (settleLane_kept _ _ _)
    · exact .refl _
  | _ => exact nomatch h

/-! ## Wind and heading: twist account, filters, and yaw_park as delivered (R112, R116, R119, R123) -/

/-- What the wind and heading unit's inputs last gave and what it was delivered, each the same unless the event is the one
that moves it. -/
structure Wind.Kept (e : Ev) (w z : Wind) : Prop where
  parkSeen : (∀ on full, e ≠ .whPark on full) → z.parkSeen = w.parkSeen
  refHeading : (∀ r, e ≠ .whHeading r) → z.refHeading = w.refHeading
  twist : (∀ r, e ≠ .whHeading r) → z.twist = w.twist
  speed : (∀ p, e ≠ .whAnemometer p) → z.speed = w.speed
  filtered : (∀ r, e ≠ .whVane r) → z.filtered = w.filtered

theorem Wind.Kept.same {e : Ev} {w z : Wind} (hp : z.parkSeen = w.parkSeen) (hr : z.refHeading = w.refHeading)
    (ht : z.twist = w.twist) (hs : z.speed = w.speed) (hf : z.filtered = w.filtered) : w.Kept e z :=
  ⟨fun _ => hp, fun _ => hr, fun _ => ht, fun _ => hs, fun _ => hf⟩

/-- An evaluation of the unwind request moves the note that an UNWIND stands in the chain alone. -/
theorem takeUnwindEval_wh (s : State) :
    (takeUnwindEval s).1.wh = { s.wh with unwindInChain := (takeUnwindEval s).1.wh.unwindInChain } := by
  unfold takeUnwindEval
  split <;> rfl

theorem handle_wind {e : Ev} (h : e.part = .wh) (s : State) : s.wh.Kept e (handle e s).1.wh := by
  cases e with
  | whPark on full =>
    simp only [handle, takePark]
    split
    · exact ⟨fun hp => absurd rfl (hp on full), fun _ => rfl, fun _ => rfl, fun _ => rfl, fun _ => rfl⟩
    · rw [takeUnwindEval_wh]
      exact ⟨fun hp => absurd rfl (hp on full), fun _ => rfl, fun _ => rfl, fun _ => rfl, fun _ => rfl⟩
  | whWatch w => cases w <;> exact .same rfl rfl rfl rfl rfl
  | whUnwind inChain =>
    simp only [handle, takeUnwindEvent]
    split
    · exact .same rfl rfl rfl rfl rfl
    · rw [takeUnwindEval_wh]
      exact .same rfl rfl rfl rfl rfl
  | whHeading r =>
    simp only [handle, takeHeading]
    split
    · exact ⟨fun _ => rfl, fun hr => absurd rfl (hr r), fun hr => absurd rfl (hr r), fun _ => rfl, fun _ => rfl⟩
    · exact .same rfl rfl rfl rfl rfl
  | whVane r =>
    simp only [handle, takeVane]
    split
    · exact ⟨fun _ => rfl, fun _ => rfl, fun _ => rfl, fun _ => rfl, fun hr => absurd rfl (hr r)⟩
    · exact .same rfl rfl rfl rfl rfl
  | whMisalign => exact .same rfl rfl rfl rfl rfl
  | whDwell =>
    simp only [handle, takeDwell]
    split
    · split <;> exact .same rfl rfl rfl rfl rfl
    · exact .same rfl rfl rfl rfl rfl
  | whAnemometer p => exact ⟨fun _ => rfl, fun _ => rfl, fun _ => rfl, fun hp => absurd rfl (hp p), fun _ => rfl⟩
  | whUnwindEval =>
    simp only [handle]
    rw [takeUnwindEval_wh]
    exact .same rfl rfl rfl rfl rfl
  | _ => exact nomatch h

end Sys2Proof.Machine
end

section
/-! What each event leaves of the yaw motion unit and of the cooling unit: what the unit was delivered, what its inputs
last gave, and the drives that an operator isolated. -/

namespace Sys2Proof.Machine

/-! ## The yaw motion unit: limits, pressure, fault lines and isolated drives (R128, R143, R144, R146) -/

/-- The delivered limits, the brake pressure last read, each drive's line unless the lines have just been read, and
each drive's isolation unless a request has just moved it are the same. -/
structure Yaw.Kept (reading isolating : Prop) (y z : Yaw) : Prop where
  held : z.held = y.held
  pressure : z.pressure = y.pressure
  line : ¬reading → ∀ n : Fin 8, (z.drives.get n).line = (y.drives.get n).line
  isolated : ¬isolating → ∀ n : Fin 8, (z.drives.get n).state = .isolated ↔ (y.drives.get n).state = .isolated

section
variable {reading isolating : Prop}

theorem Yaw.Kept.refl (y : Yaw) : y.Kept reading isolating y := ⟨rfl, rfl, fun _ _ => rfl, fun _ _ => Iff.rfl⟩

theorem Yaw.Kept.trans {a b c : Yaw} (h : a.Kept reading isolating b) (g : b.Kept reading isolating c) : a.Kept reading isolating c :=
  ⟨g.held.trans h.held, g.pressure.trans h.pressure, fun hr n => (g.line hr n).trans (h.line hr n),
    fun hi n => (g.isolated hi n).trans (h.isolated hi n)⟩

theorem chainOnly.kept {y z : Yaw} (h : chainOnly y z) : y.Kept reading isolating z := by
  rw [h]
  exact ⟨rfl, rfl, fun _ _ => rfl, fun _ _ => Iff.rfl⟩

theorem sync_line (b : Bool) (d : Drive) : (d.sync b).line = d.line := by rw [sync_eq]

theorem sync_isolated (b : Bool) (d : Drive) : (d.sync b).state = .isolated ↔ d.state = .isolated := by
  rw [sync_eq]
  cases d.state <;> cases b <;> simp

theorem follow_kept (y : Yaw) : y.Kept reading isolating y.follow := by
  have hdrives (n : Fin 8) : y.follow.drives.get n = (y.drives.get n).sync (followed y).run.isSome := by
    rw [follow_eq, Eight.get_map, followed_keeps y]
  exact ⟨by rw [follow_keeps], by rw [follow_keeps], fun _ n => by rw [hdrives, sync_line],
    fun _ n => by rw [hdrives, sync_isolated]⟩

/-- A whole event keeps what its own part keeps. -/
theorem setYaw_kept {y : Yaw} {w : YawWork} (h : y.Kept reading isolating w.1) (raises : List Ev) (s : State) :
    y.Kept reading isolating (setYaw raises w s).1.ym := by
  have hfollow := h.trans (follow_kept w.1)
  exact ⟨hfollow.held, hfollow.pressure, hfollow.line, hfollow.isolated⟩

theorem setYaw_chainOnly {y : Yaw} {w : YawWork} (h : chainOnly y w.1) (raises : List Ev) (s : State) :
    y.Kept reading isolating (setYaw raises w s).1.ym := setYaw_kept h.kept raises s

/-- One drive replaced by one with the same line and the same isolation. -/
theorem putDrive_kept {y : Yaw} {n : Fin 8} {d : Drive} (hl : d.line = (y.drives.get n).line)
    (hi : isolating ∨ (d.state = .isolated ↔ (y.drives.get n).state = .isolated)) : y.Kept reading isolating (y.putDrive n d) where
  held := rfl
  pressure := rfl
  line _ k := by
    rw [Yaw.putDrive, Eight.get_set]
    split
    next h => rw [hl, h]
    next => rfl
  isolated hk k := by
    rw [Yaw.putDrive, Eight.get_set]
    split
    next h => rw [hi.resolve_left hk, h]
    next => rfl

end

theorem followPark_only (st : List Int) (y : Yaw) : chainOnly y (y.followPark st).1 := by
  unfold Yaw.followPark
  split
  · exact insert_only _ _ _
  · split
    · exact remove_only _ _ _
    · rfl

theorem atFiltered_only (st : List Int) (y : Yaw) : chainOnly y (y.atFiltered st).1 := by
  unfold Yaw.atFiltered
  split
  · split
    · rfl
    · split
      · rfl
      · split
        · exact rehold_only _ _
        · rfl
  · split
    · exact rehold_only _ _
    · rfl
  · rfl

theorem atGoal_only (st : List Int) (y : Yaw) : chainOnly y (y.atGoal st).1 := by
  unfold Yaw.atGoal
  split
  · rfl
  · split
    · exact remove_only _ _ _
    · rfl

theorem atArrival_only (st : List Int) (y : Yaw) : chainOnly y (y.atArrival st).1 := by
  unfold Yaw.atArrival
  split
  · split
    · split
      · split
        case h_3 => exact remove_only _ _ _
        all_goals rfl
      · rfl
    · rfl
  · rfl

theorem watchStall_kept {reading isolating : Prop} (y : Yaw) : y.Kept reading isolating y.watchStall.1 := by
  unfold Yaw.watchStall
  repeat' split
  all_goals exact ⟨rfl, rfl, fun _ _ => rfl, fun _ _ => Iff.rfl⟩

theorem atRead_isolated (active : Bool) (d : Drive) :
    (d.atRead active).state = .isolated ↔ d.state = .isolated := by
  rw [atRead_eq]
  cases d.state <;> cases active <;> simp

theorem readLines_kept (lines : BitVec 8) (y : Yaw) :
    y.Kept True False (eightIndices.foldl (Yaw.readLine lines) (y, [])).1 where
  held := by rw [readLines_apart]
  pressure := by rw [readLines_apart]
  line h := absurd trivial h
  isolated _ n := by
    rw [readLines_drives lines (by decide) (y, []) n]
    split
    · exact atRead_isolated _ _
    · exact Iff.rfl

theorem atPressure_kept (y : Yaw) (bar : Nat) : ({ y with pressure := bar } : Yaw).Kept False False (y.atPressure bar) := by
  unfold Yaw.atPressure
  dsimp only
  repeat' split
  all_goals exact ⟨rfl, rfl, fun _ _ => rfl, fun _ _ => Iff.rfl⟩

/-- The yaw motion unit with the limits or the pressure that an event brings it. -/
def Ev.toYaw (e : Ev) (y : Yaw) : Yaw :=
  match e with
  | .ymLimits f => { y with held := f }
  | .ymPressure bar => { y with pressure := bar }
  | _ => y

/-- Of the yaw motion unit's events a delivery alone moves its limits, a pressure read the pressure, and a read of the
fault lines the lines; none isolates a drive or returns one. -/
theorem handle_yaw {e : Ev} (h : e.part = .ym) (s : State) :
    (e.toYaw s.ym).Kept (∃ lines, e = .ymFaultLines lines) False (handle e s).1.ym := by
  cases e with
  | ymLimits f =>
    exact setYaw_chainOnly (chainOnly.trans (followPark_only _ _) (rehold_only _ _)) [] s
  | ymSupply st =>
    exact .trans (b := { s.ym with supply := st }) ⟨rfl, rfl, fun _ _ => rfl, fun _ _ => Iff.rfl⟩
      (setYaw_chainOnly (rehold_only _ _) _ s)
  | ymHeading heading twist =>
    let y : Yaw := { s.ym with heading := heading.or s.ym.heading, twist := twist }
    let w := ((Yaw.rehold s.settings y).thenDo (Yaw.atGoal s.settings)).thenDo (Yaw.atArrival s.settings)
    have hinputs : s.ym.Kept (∃ lines, Ev.ymHeading heading twist = .ymFaultLines lines) False y :=
      ⟨rfl, rfl, fun _ _ => rfl, fun _ _ => Iff.rfl⟩
    have hchain : chainOnly y w.1 :=
      chainOnly.trans (chainOnly.trans (rehold_only _ _) (atGoal_only _ _)) (atArrival_only _ _)
    have hstall := (hinputs.trans hchain.kept).trans ((follow_kept w.1).trans (watchStall_kept w.1.follow))
    exact setYaw_kept (w := (w.1.follow.watchStall.1, w.2)) hstall w.1.follow.watchStall.2 s
  | ymFiltered f =>
    exact .trans (b := { s.ym with filtered := f }) ⟨rfl, rfl, fun _ _ => rfl, fun _ _ => Iff.rfl⟩
      (setYaw_chainOnly (atFiltered_only _ _) _ s)
  | ymMove t d =>
    simp only [handle, takeMove]
    split
    · exact .refl _
    next top rest _ =>
      split
      · exact setYaw_kept (y := s.ym) (w := ({ s.ym with chain := top.heads s.ym (.heading t) d :: rest }, leaveEvents top))
          ⟨rfl, rfl, fun _ _ => rfl, fun _ _ => Iff.rfl⟩ [] s
      · exact .refl _
  | ymUnwind g d =>
    simp only [handle, takeUnwind]
    split
    · exact .refl _
    · exact setYaw_chainOnly (insert_only _ _ _) _ s
  | ymDriveRetired n =>
    refine setYaw_kept (y := s.ym) (putDrive_kept ?_ ?_) _ s
    · dsimp only
      split <;> rfl
    · dsimp only
      split
      next hf => exact .inr (by simp [hf.1])
      next => exact .inr Iff.rfl
  | ymJogEnd =>
    simp only [handle, takeJogEnd]
    split
    · exact setYaw_chainOnly (remove_only _ _ _) _ s
    · exact .refl _
  | ymFaultLines lines =>
    have hread := readLines_kept lines s.ym
    simp only [handle, takeFaultLines]
    generalize eightIndices.foldl (Yaw.readLine lines) (s.ym, []) = w at hread ⊢
    have hkept := setYaw_kept (w := (w.1, [])) hread w.2 s
    exact ⟨hkept.held, hkept.pressure, fun hr => absurd ⟨lines, rfl⟩ hr, hkept.isolated⟩
  | ymPressure bar =>
    have hkept := setYaw_kept (w := (_, [])) (atPressure_kept s.ym bar) [] s
    exact ⟨hkept.held, hkept.pressure, fun _ => hkept.line id, hkept.isolated⟩
  | ymBrakeTimer =>
    simp only [handle, takeBrakeTimer]
    split
    · exact .refl _
    · refine setYaw_kept ?_ _ s
      dsimp only
      split <;> exact ⟨rfl, rfl, fun _ _ => rfl, fun _ _ => Iff.rfl⟩
  | ymSettleEnd =>
    simp only [handle, takeSettleEnd]
    split
    · exact .refl _
    · exact setYaw_kept (y := s.ym) (w := ({ s.ym with settle := none }, []))
        ⟨rfl, rfl, fun _ _ => rfl, fun _ _ => Iff.rfl⟩ [] s
  | _ => exact nomatch h

theorem followTracking_kept {reading isolating : Prop} (on : Bool) (s : State) : s.ym.Kept reading isolating (followTracking on s).1.ym := by
  unfold followTracking
  split
  · exact setYaw_chainOnly (insert_only _ _ _) _ s
  · split
    · exact setYaw_chainOnly (remove_only _ _ _) _ s
    · exact .refl _

/-! ## The cooling unit: boosts, outlet temperatures and flow switches (R155, R159, R164) -/

/-- The two boost sets, each loop's temperature but for the loops in `sampled`, and each loop's flow but for those in
`switched` are the same. -/
structure Cooling.Kept (sampled switched : Fin 3 → Prop) (u z : Cooling) : Prop where
  boost : z.boost = u.boost
  reaction : z.reaction = u.reaction
  tOut : ∀ l, ¬sampled l → (z.loops.get l).tOut = (u.loops.get l).tOut
  flow : ∀ l, ¬switched l → (z.loops.get l).flow = (u.loops.get l).flow

section
variable {sampled switched : Fin 3 → Prop}

theorem Cooling.Kept.refl (u : Cooling) : u.Kept sampled switched u := ⟨rfl, rfl, fun _ _ => rfl, fun _ _ => rfl⟩

theorem Cooling.Kept.trans {a b c : Cooling} (h : a.Kept sampled switched b) (g : b.Kept sampled switched c) :
    a.Kept sampled switched c :=
  ⟨g.boost.trans h.boost, g.reaction.trans h.reaction, fun l hl => (g.tOut l hl).trans (h.tOut l hl),
    fun l hl => (g.flow l hl).trans (h.flow l hl)⟩

/-- One loop replaced. -/
theorem put_cooling_kept {u : Cooling} {l : Fin 3} {x : Loop} (ht : sampled l ∨ x.tOut = (u.loops.get l).tOut)
    (hf : switched l ∨ x.flow = (u.loops.get l).flow) : u.Kept sampled switched (u.put l x) where
  boost := rfl
  reaction := rfl
  tOut k hk := by
    rw [put_get]
    split
    next h => exact (ht.resolve_left (h ▸ hk)).trans (by rw [h])
    next => rfl
  flow k hk := by
    rw [put_get]
    split
    next h => exact (hf.resolve_left (h ▸ hk)).trans (by rw [h])
    next => rfl

theorem setDuty_kept (st : List Int) (l : Fin 3) (u : Cooling) : u.Kept sampled switched (u.setDuty st l) :=
  put_cooling_kept (.inr rfl) (.inr rfl)

theorem reboost_kept (st : List Int) (old u : Cooling) : u.Kept sampled switched (Cooling.reboost st old u) := by
  have hone (v : Cooling) (l : Fin 3) : v.Kept sampled switched (Cooling.boostDuty st old v l) := by
    unfold Cooling.boostDuty
    split
    · exact .refl v
    · exact setDuty_kept st l v
  exact ((hone u 0).trans (hone _ 1)).trans (hone _ 2)

theorem cooling_evaluate_kept (st : List Int) (l : Fin 3) (u : Cooling) :
    u.Kept sampled switched (u.evaluate st l) := by
  have hloop (x : Loop) (d : Bool) : (x.evaluate d).tOut = x.tOut ∧ (x.evaluate d).flow = x.flow := by
    unfold Loop.evaluate
    split <;> exact ⟨rfl, rfl⟩
  exact put_cooling_kept (.inr (hloop _ _).1) (.inr (hloop _ _).2)

theorem release_kept (st : List Int) (l : Fin 3) (u : Cooling) : u.Kept sampled switched (u.release st l) := by
  unfold Cooling.release
  split
  · have hput : u.Kept sampled switched (u.put l { u.loops.get l with pump := .off }) :=
      put_cooling_kept (.inr rfl) (.inr rfl)
    exact hput.trans (cooling_evaluate_kept st l _)
  · exact .refl u

end

/-- The cooling unit with the boosts that an event brings it. -/
def Ev.toCooling (e : Ev) (u : Cooling) : Cooling :=
  match e with
  | .cuBoost set => { u with boost := set }
  | .cuReaction set => { u with reaction := set }
  | _ => u

/-- The loops whose temperature an event samples. -/
def Ev.samples (e : Ev) (l : Fin 3) : Prop := ∃ r, e = .cuSample l r

/-- The loops whose flow switch an event reads. -/
def Ev.reads (e : Ev) (l : Fin 3) : Prop := ∃ b, e = .cuFlow l b

theorem handle_cooling {e : Ev} (h : e.part = .cu) (s : State) :
    (e.toCooling s.cu).Kept e.samples e.reads (handle e s).1.cu := by
  cases e with
  | cuBoost set => exact reboost_kept _ _ _
  | cuReaction set => exact reboost_kept _ _ _
  | cuCommanded kw =>
    exact .trans (b := { s.cu with commanded := kw }) ⟨rfl, rfl, fun _ _ => rfl, fun _ _ => rfl⟩
      (cooling_evaluate_kept _ _ _)
  | cuLaneDemand yes =>
    exact .trans (b := { s.cu with laneDemand := yes }) ⟨rfl, rfl, fun _ _ => rfl, fun _ _ => rfl⟩
      (cooling_evaluate_kept _ _ _)
  | cuSupply st =>
    refine .trans (b := { s.cu with supply := st }) ⟨rfl, rfl, fun _ _ => rfl, fun _ _ => rfl⟩ ?_
    exact ((cooling_evaluate_kept _ 0 _).trans (cooling_evaluate_kept _ 1 _)).trans (cooling_evaluate_kept _ 2 _)
  | cuPumpRetired l => exact release_kept _ _ _
  | cuSample l r =>
    simp only [handle, takeSample]
    split <;> exact put_cooling_kept (.inl ⟨r, rfl⟩) (.inr rfl)
  | cuDerate l v =>
    simp only [handle, takeDerate]
    split
    · split <;> exact put_cooling_kept (.inr rfl) (.inr rfl)
    · exact put_cooling_kept (.inr rfl) (.inr rfl)
  | cuEscalate l => exact put_cooling_kept (.inr rfl) (.inr rfl)
  | cuDemand l =>
    have hfold : s.cu.Kept (Ev.cuDemand l).samples (Ev.cuDemand l).reads
        (if foldFreed s.table (s.cu.loops.get l) then s.cu.release s.settings l else s.cu) := by
      split
      · exact release_kept _ _ _
      · exact .refl _
    simp only [handle, takeSampleDemand, setCooling]
    split
    · exact hfold.trans (cooling_evaluate_kept _ _ _)
    · exact hfold
  | cuFan l => exact setDuty_kept _ _ _
  | cuFlow l seen =>
    have hsees : s.cu.Kept (Ev.cuFlow l seen).samples (Ev.cuFlow l seen).reads (s.cu.sees l seen) :=
      put_cooling_kept (.inr rfl) (.inl ⟨seen, rfl⟩)
    simp only [handle, takeFlow]
    split
    · split
      · refine (hsees.trans ?_).trans (setDuty_kept s.settings l _)
        exact put_cooling_kept (l := l)
          (x := { (s.cu.sees l seen).loops.get l with pump := .running, prime := none, misses := 0 }) (.inr rfl) (.inr rfl)
      · exact hsees
    · split
      · exact hsees.trans (put_cooling_kept (.inr rfl) (.inr rfl))
      · split
        · exact hsees.trans (put_cooling_kept (.inr rfl) (.inr rfl))
        · exact hsees.trans (put_cooling_kept (.inr rfl) (.inr rfl))
    · exact hsees
    · exact hsees
  | cuPrimeTimeout l =>
    simp only [handle, takePrimeTimeout]
    split
    · exact .refl _
    · exact put_cooling_kept (.inr rfl) (.inr rfl)
  | _ => exact nomatch h

end Sys2Proof.Machine
end

section
/-! Every block holds the limits as they stand (R41, R43, R52): what the blocks hold, with the deliveries that still wait
in the queue taken in their order, is at every moment what the limit resolver and the slots make. -/

namespace Sys2Proof.Machine

/-! ## What is delivered, and what a queue still brings -/

/-- The limits that the blocks hold as delivered, with the reaction boost set (R41, R52). -/
structure Orders where
  cap : Nat
  source : Option Code
  envelopeLanes : LaneSet
  lanes : LaneSet
  yaw : YawFlags
  park : Bool
  boost : LoopSet
  reaction : LoopSet

/-- What the blocks hold. -/
def State.holds (s : State) : Orders :=
  { cap := s.eu.capEff, source := s.eu.capSource, envelopeLanes := s.eu.excluded, lanes := s.lm.excluded
    yaw := s.ym.held, park := s.wh.parkSeen, boost := s.cu.boost, reaction := s.cu.reaction }

/-- What limits and a reaction boost set would have the blocks hold. -/
def Limits.orders (x : Limits) (reaction : LoopSet) : Orders :=
  { cap := x.capEff, source := x.capSource, envelopeLanes := x.excluded, lanes := x.excluded, yaw := x.yaw
    park := yawPark x.yaw, boost := x.boost, reaction := reaction }

/-- What the limits and the slots as they stand would have the blocks hold. -/
def State.orders (s : State) : Orders := s.limits.orders (reactionBoost s.slots)

theorem delivered_iff (s : State) : s.delivered ↔ s.holds = s.orders := by
  simp only [State.holds, State.orders, Limits.orders, Orders.mk.injEq]
  exact ⟨fun ⟨a, b, c, d, e, f, g, h⟩ => ⟨a, b, c, d, e, f, g, h⟩, fun ⟨a, b, c, d, e, f, g, h⟩ => ⟨a, b, c, d, e, f, g, h⟩⟩

/-- What the blocks hold once an event's delivery is taken. -/
def Ev.carry (e : Ev) (o : Orders) : Orders :=
  match e with
  | .euLimits d =>
    { o with
      cap := d.capEff.getD o.cap, source := d.capSource.getD o.source
      envelopeLanes := d.excluded.getD o.envelopeLanes }
  | .lmExcluded set _ => { o with lanes := set }
  | .ymLimits f => { o with yaw := f }
  | .whPark on _ => { o with park := on }
  | .cuBoost set => { o with boost := set }
  | .cuReaction set => { o with reaction := set }
  | _ => o

/-- What the blocks hold once a queue's deliveries are taken. -/
def carried (q : List Ev) (o : Orders) : Orders := q.foldl (fun o e => e.carry o) o

@[simp] theorem carried_nil (o : Orders) : carried [] o = o := rfl

@[simp] theorem carried_cons (e : Ev) (q : List Ev) (o : Orders) : carried (e :: q) o = carried q (e.carry o) := rfl

theorem carried_append (a b : List Ev) (o : Orders) : carried (a ++ b) o = carried b (carried a o) :=
  List.foldl_append ..

/-- The kinds of events that carry a delivery or the reaction boost set. -/
def orderKinds : List EvKind := [.limits, .exclusion, .yawLimits, .park, .boost, .reaction]

theorem carry_of_kind {e : Ev} (h : e.kind ∉ orderKinds) (o : Orders) : e.carry o = o := by
  cases e with
  | euLimits _ | lmExcluded _ _ | ymLimits _ | whPark _ _ | cuBoost _ | cuReaction _ => exact absurd (by simp [Ev.kind, orderKinds]) h
  | _ => rfl

/-- Events of other kinds deliver nothing. -/
theorem carried_of_emits {ks : List EvKind} {evs : List Ev} (h : Emits ks evs) (hk : ∀ k ∈ ks, k ∉ orderKinds)
    (o : Orders) : carried evs o = o := by
  induction evs generalizing o with
  | nil => rfl
  | cons e rest ih =>
    obtain ⟨he, hrest⟩ := emits_cons.mp h
    rw [carried_cons, carry_of_kind (hk _ he), ih hrest]

/-! ## The order in which a queue is taken (log 2) -/

/-- Events that wait for no other deliver to different places. -/
theorem carry_comm {e q : Ev} (h : waitsFor e q = false) (o : Orders) : e.carry (q.carry o) = q.carry (e.carry o) := by
  cases e with
  | euLimits _ | lmExcluded _ _ | ymLimits _ | whPark _ _ | cuBoost _ | cuReaction _ =>
    cases q with
    | euLimits _ | lmExcluded _ _ | ymLimits _ | whPark _ _ | cuBoost _ | cuReaction _ =>
      cases h <;> rfl
    | _ => rfl
  | _ => rfl

theorem carry_carried {e : Ev} {rest : List Ev} (h : ∀ q ∈ rest, waitsFor e q = false) (o : Orders) :
    e.carry (carried rest o) = carried rest (e.carry o) := by
  induction rest generalizing o with
  | nil => rfl
  | cons q rest ih =>
    obtain ⟨hq, hrest⟩ := List.forall_mem_cons.mp h
    rw [carried_cons, carried_cons, ih hrest, carry_comm hq]

theorem waitsFor_of_waitBehind {e : Ev} {rest : List Ev} (h : waitBehind e rest = none) :
    ∀ q ∈ rest, waitsFor e q = false := by
  induction rest with
  | nil => simp
  | cons q rest ih =>
    simp only [waitBehind] at h
    split at h
    · exact nomatch h
    next hrest =>
      split at h
      · exact nomatch h
      next hq => exact List.forall_mem_cons.mpr ⟨by simpa using hq, ih hrest⟩

theorem carried_waitBehind {e : Ev} {rest r : List Ev} (h : waitBehind e rest = some r) (o : Orders) :
    carried r o = e.carry (carried rest o) := by
  induction rest generalizing r o with
  | nil => exact nomatch h
  | cons q rest ih =>
    simp only [waitBehind] at h
    split at h
    next hr =>
      cases h
      rw [carried_cons, carried_cons, ih hr]
    next hnone =>
      split at h
      · cases h
        rw [carried_cons, carried_cons, carried_cons, carry_carried (waitsFor_of_waitBehind hnone)]
      · exact nomatch h

theorem carried_postOne (w : List Ev × List Ev) (e : Ev) (o : Orders) :
    carried ((postOne w e).1 ++ (postOne w e).2) o = e.carry (carried (w.1 ++ w.2) o) := by
  unfold postOne
  split
  next r hr => rw [carried_append, carried_append, carried_waitBehind hr]
  next hnone =>
    rw [carried_append, carried_append, carried_append, carried_cons, carried_nil,
      carry_carried (waitsFor_of_waitBehind hnone)]

/-- What is handed on is taken after what waits, as far as deliveries tell. -/
theorem carried_post (evs rest : List Ev) (o : Orders) : carried (post evs rest) o = carried evs (carried rest o) := by
  have hfold (w : List Ev × List Ev) :
      carried ((evs.foldl postOne w).1 ++ (evs.foldl postOne w).2) o = carried evs (carried (w.1 ++ w.2) o) := by
    induction evs generalizing w with
    | nil => rfl
    | cons e evs ih => rw [List.foldl_cons, ih, carried_postOne, carried_cons]
  exact hfold ([], rest)

/-! ## The table and the reaction unit deliver what they change (R41, R52) -/

theorem getD_changed {α : Type} [DecidableEq α] (old new : α) : (changed old new).getD old = new := by
  unfold changed
  split
  next h => exact h
  next => rfl

/-- One recomputation delivers every limit that it changed. -/
theorem carried_deliveries (old new : Limits) (reaction : LoopSet) :
    carried (deliveries old new) (old.orders reaction) = new.orders reaction := by
  have henvelope (o : Orders) (hc : o.cap = old.capEff) (hs : o.source = old.capSource)
      (hx : o.envelopeLanes = old.excluded) :
      carried (if old.capEff = new.capEff ∧ old.capSource = new.capSource ∧ old.excluded = new.excluded then []
        else [.euLimits (envelopeDelivery old new)]) o =
      { o with cap := new.capEff, source := new.capSource, envelopeLanes := new.excluded } := by
    split
    next h => rw [carried_nil, ← h.1, ← h.2.1, ← h.2.2, ← hc, ← hs, ← hx]
    next => simp only [carried_cons, carried_nil, Ev.carry, envelopeDelivery, hc, hs, hx, getD_changed]
  have hone {α : Type} [DecidableEq α] (a b : α) (e : Ev) (o z : Orders) (hsame : a = b → z = o)
      (hcarry : e.carry o = z) : carried (if a = b then [] else [e]) o = z := by
    split
    next h => exact (hsame h).symm
    next => exact hcarry
  simp only [deliveries, carried_append]
  rw [henvelope _ rfl rfl rfl]
  rw [hone old.excluded new.excluded (.lmExcluded new.excluded false) _ { (old.orders reaction) with
    cap := new.capEff, source := new.capSource, envelopeLanes := new.excluded, lanes := new.excluded }
    (fun h => by simp [Limits.orders, h]) rfl]
  rw [hone old.yaw new.yaw (.ymLimits new.yaw) _ { (new.orders reaction) with
    park := yawPark old.yaw, boost := old.boost } (fun h => by simp [Limits.orders, h]) rfl]
  rw [hone (yawPark old.yaw) (yawPark new.yaw) (.whPark (yawPark new.yaw) false) _
    { (new.orders reaction) with boost := old.boost } (fun h => by simp [Limits.orders, h]) rfl]
  exact hone old.boost new.boost (.cuBoost new.boost) _ _ (fun h => by simp [Limits.orders, h]) rfl

theorem carried_boostHandover (x : Limits) (old new : Eight Slot) :
    carried (boostHandover old new) (x.orders (reactionBoost old)) = x.orders (reactionBoost new) := by
  unfold boostHandover
  split
  next h => rw [h, carried_nil]
  next => rfl

/-- A part of an event that hands on what it changed of the limits and of the reaction boost set. -/
def Act.Delivers (f : Act) : Prop := ∀ s, carried (f s).2 s.orders = (f s).1.orders

theorem Act.Delivers.andThen {f g : Act} (hf : f.Delivers) (hg : g.Delivers) : (Act.andThen f g).Delivers := fun s => by
  simp only [Act.andThen]
  rw [carried_append, hf, hg]

theorem Act.delivers_all {fs : List Act} (h : ∀ f ∈ fs, f.Delivers) : (Act.all fs).Delivers := by
  induction fs with
  | nil => exact fun _ => rfl
  | cons f rest ih =>
    obtain ⟨hf, hrest⟩ := List.forall_mem_cons.mp h
    exact hf.andThen (ih hrest)

theorem Act.delivers_emit {ks : List EvKind} {evs : List Ev} (h : Emits ks evs) (hk : ∀ k ∈ ks, k ∉ orderKinds) :
    (Act.emit evs).Delivers := fun s => carried_of_emits h hk s.orders

theorem withTable_delivers (t : List Record) : (State.withTable t).Delivers := fun s =>
  carried_deliveries s.limits (resolve t) (reactionBoost s.slots)

theorem ask_orders (s : State) (b : Option Record) (a : Record) : (s.ask b a).orders = s.orders := by
  rw [ask_eq]
  rfl

theorem changeRecord_delivers (b a : Record) : (changeRecord b a).Delivers := fun s => by
  rw [changeRecord, ← ask_orders s (some b) a]
  exact withTable_delivers _ _

theorem placeRecord_delivers (t : List Record) (r : Record) : (placeRecord t r).Delivers := fun s => by
  rw [placeRecord, ← ask_orders s none r]
  exact withTable_delivers _ _

theorem cancelFor_delivers (c : Code) : (cancelFor c).Delivers := fun s => carried_boostHandover s.limits _ _

theorem setSlot_delivers (k : Fin 8) (v : Slot) : (setSlot k v).Delivers := fun s => carried_boostHandover s.limits _ _

theorem offer_delivers (c : Code) : (offer c).Delivers := fun _ => rfl

theorem spentIf_delivers (k : Fin 8) (v : Slot) : (spentIf k v).Delivers := fun s =>
  carried_of_emits (spentIf_emits k v s) (by decide) _

theorem spentRaises_delivers (ks : List (Fin 8)) : (Act.emit (spentRaises ks)).Delivers :=
  Act.delivers_emit (spentRaises_emits ks) (by decide)

theorem retireRecord_delivers (c : Code) : (retireRecord c).Delivers := fun s => by
  refine Act.delivers_all (List.forall_mem_cons.mpr ⟨withTable_delivers _, List.forall_mem_cons.mpr
    ⟨cancelFor_delivers c, List.forall_mem_cons.mpr ⟨?_, List.forall_mem_singleton.mpr (spentRaises_delivers _)⟩⟩⟩) s
  exact Act.delivers_emit (retirementOwner_emits c) (by decide)

theorem noteFolded_orders (c : Code) (s : State) : (noteFolded c s).orders = s.orders := by
  unfold noteFolded
  split <;> rfl

theorem takeRaise_delivers (r : Raise) : (takeRaise r).Delivers := fun s => by
  unfold takeRaise
  split
  · exact (changeRecord_delivers _ _).andThen (offer_delivers _) s
  · split
    · exact (placeRecord_delivers _ _).andThen (offer_delivers _) s
    · split
      · exact Act.delivers_all (List.forall_mem_cons.mpr ⟨placeRecord_delivers _ _, List.forall_mem_cons.mpr
          ⟨cancelFor_delivers _, List.forall_mem_cons.mpr
            ⟨offer_delivers _, List.forall_mem_singleton.mpr (spentRaises_delivers _)⟩⟩⟩) s
      · split
        · rfl
        · unfold foldRaise
          dsimp only
          rw [← noteFolded_orders r.code s]
          split
          · exact (changeRecord_delivers _ _).andThen (offer_delivers _) _
          · exact (placeRecord_delivers _ _).andThen (offer_delivers _) _

theorem takePresent_delivers (r : Raise) : (takePresent r).Delivers := fun s => by
  unfold takePresent
  split
  · exact takeRaise_delivers r s
  · split
    · rfl
    · exact takeRaise_delivers r s

theorem takeAbsent_delivers (c : Code) : (takeAbsent c).Delivers := fun s => by
  unfold takeAbsent
  split
  · rfl
  · split
    · exact changeRecord_delivers _ _ s
    · rfl

theorem takeRefresh_delivers (c : Code) (cap : Nat) : (takeRefresh c cap).Delivers := fun s => by
  unfold takeRefresh
  split
  · rfl
  · split
    · rfl
    · exact changeRecord_delivers _ _ s

theorem takeEscalation_delivers (c : Code) (f : Cls → Cls) (cap : Option Nat) : (takeEscalation c f cap).Delivers :=
  fun s => by
    unfold takeEscalation
    split
    · rfl
    · dsimp only
      split
      · rfl
      · exact changeRecord_delivers _ _ s

theorem takeHoldoffEnd_delivers (c : Code) : (takeHoldoffEnd c).Delivers := fun s => by
  unfold takeHoldoffEnd
  split
  · rfl
  · split
    · exact retireRecord_delivers c s
    · rfl

theorem takeOffer_delivers (c : Code) : (takeOffer c).Delivers := fun s => by
  unfold takeOffer
  split
  · rfl
  · split
    · rfl
    · unfold fire
      dsimp only
      split
      · rfl
      · exact setSlot_delivers _ _ s
      · exact setSlot_delivers _ _ s
      · exact Act.delivers_all (List.forall_mem_cons.mpr ⟨fun _ => rfl, List.forall_mem_cons.mpr
          ⟨setSlot_delivers _ _, List.forall_mem_singleton.mpr (spentIf_delivers _ _)⟩⟩) s

theorem takeAutoRetire_delivers (k : Fin 8) : (takeAutoRetire k).Delivers := fun s => by
  unfold takeAutoRetire
  dsimp only
  split
  · split
    · exact Act.delivers_all (List.forall_mem_cons.mpr ⟨setSlot_delivers _ _, List.forall_mem_cons.mpr
        ⟨retireRecord_delivers _, List.forall_mem_singleton.mpr (spentIf_delivers _ _)⟩⟩) s
    · exact Act.delivers_all (List.forall_mem_cons.mpr
        ⟨setSlot_delivers _ _, List.forall_mem_singleton.mpr (spentIf_delivers _ _)⟩) s
  · rfl

theorem takeBoostEnd_delivers (k : Fin 8) : (takeBoostEnd k).Delivers := fun s => by
  unfold takeBoostEnd
  dsimp only
  split
  · exact Act.delivers_all (List.forall_mem_cons.mpr
      ⟨setSlot_delivers _ _, List.forall_mem_singleton.mpr (spentIf_delivers _ _)⟩) s
  · rfl

/-- The events of the table and of the reaction unit deliver what they change. -/
theorem handle_table_delivers {e : Ev} (h : e.part = .table) : (handle e).Delivers := by
  cases e with
  | ctRaise r => exact takeRaise_delivers r
  | ctPresent r => exact takePresent_delivers r
  | ctAbsent c => exact takeAbsent_delivers c
  | ctRefresh c cap => exact takeRefresh_delivers c cap
  | ctEscalateStep c => exact takeEscalation_delivers c _ _
  | ctEscalateTo c cls cap => exact takeEscalation_delivers c _ _
  | ctHoldoffEnd c => exact takeHoldoffEnd_delivers c
  | ruOffer c => exact takeOffer_delivers c
  | ruAutoRetire k => exact takeAutoRetire_delivers k
  | ruBoostEnd k => exact takeBoostEnd_delivers k
  | _ => exact nomatch h

/-- The requests of the table and of the reaction unit deliver what they change. -/
theorem serve_table_delivers {r : Request} (h : r.part = .table) (l : Link) (s : State) :
    carried (serve l r s).events s.orders = (serve l r s).state.orders := by
  cases r with
  | lookup c => simp only [serve, serveLookup]; split <;> rfl
  | scan start f => simp only [serve, serveScan]; split <;> rfl
  | raise c cls detail cap lanes yaw loops =>
    simp only [serve, serveRaise]
    split
    · rfl
    · split
      · rfl
      · split
        · rfl
        · exact takeRaise_delivers _ s
  | amend c cap lanes yaw loops =>
    simp only [serve, serveAmend]
    split
    · rfl
    · split
      · rfl
      · split
        · rfl
        · exact changeRecord_delivers _ _ s
  | ack c =>
    simp only [serve, serveAck]
    split
    · rfl
    · split
      · exact changeRecord_delivers _ _ s
      · rfl
  | retire c =>
    simp only [serve, serveRetire]
    split
    · rfl
    · split
      · rfl
      · split
        · rfl
        · split
          · rfl
          · exact retireRecord_delivers c s
  | bind slot c a loops delay count =>
    simp only [serve, serveBind]
    repeat' split
    case isFalse => exact setSlot_delivers _ _ s
    all_goals rfl
  | unbind slot =>
    simp only [serve, serveUnbind]
    split
    · rfl
    · split
      · rfl
      · split <;> exact setSlot_delivers _ _ s
  | _ => exact nomatch h

end Sys2Proof.Machine
end

section
/-! What a request leaves of the blocks, and that every block holds the limits as they stand after every step (R41, R43,
R52, R101). -/

namespace Sys2Proof.Machine

/-! ## What a request leaves of a block -/

/-- A request moves D at SET_DEMAND alone, and never what the envelope unit was delivered. -/
theorem serve_envelope (l : Link) (r : Request) (s : State) :
    ((∀ d, r ≠ .setDemand d) → (serve l r s).state.eu = s.eu) ∧
    (serve l r s).state.eu.capEff = s.eu.capEff ∧ (serve l r s).state.eu.capSource = s.eu.capSource ∧
    (serve l r s).state.eu.excluded = s.eu.excluded := by
  have htouches := serve_touches l r s
  cases r with
  | setDemand d =>
    refine ⟨fun h => absurd rfl (h d), ?_⟩
    simp only [serve, serveSetDemand]
    repeat' split
    all_goals exact ⟨rfl, rfl, rfl⟩
  | _ =>
    have heu := touched_eu htouches (by simp [Request.part]) (by simp [Request.part])
    exact ⟨fun _ => heu, by rw [heu], by rw [heu], by rw [heu]⟩

/-- The lanes whose start flag a request moves. -/
def Request.starts (r : Request) (n : Fin 4) : Prop := r = .laneStart n.val ∨ r = .laneStop n.val

theorem indexOf_some {k n : Nat} {i : Fin k} (h : indexOf k n = some i) : i.val = n := by
  simp only [indexOf] at h
  split at h
  · cases h
    rfl
  · exact nomatch h

theorem stopLane_kept {starting : Fin 4 → Prop} (auto : Bool) {n : Fin 4} (hn : starting n) (m : LaneManager) :
    m.Kept (fun _ => False) starting (stopLane auto n m) := by
  have hput (x : Lane) (hr : x.report = (m.lanes.get n).report) (hx : ¬x.runs ∨ x.state = (m.lanes.get n).state) :
      m.Kept (fun _ => False) starting (m.put n x) :=
    put_kept (.inr hr) (.inl hn) fun _ hruns => hx.elim (absurd hruns) fun hs => by
      rw [Lane.runs] at hruns ⊢
      rwa [← hs]
  unfold stopLane
  dsimp only
  split
  · exact hput _ rfl (.inl (by simp [Lane.runs, Lane.sheds]))
  · exact (hput (Lane.goes { m.lanes.get n with startFlag := false } .offline) rfl
      (.inl (goes_stops _ .offline (by decide)))).trans (evaluateStart_kept auto n _)
  · exact (hput (Lane.goes { m.lanes.get n with startFlag := false } .offline) rfl
      (.inl (goes_stops _ .offline (by decide)))).trans (evaluateStart_kept auto n _)
  · exact hput _ rfl (.inr rfl)
  · exact hput _ rfl (.inr rfl)

theorem serve_lanes (l : Link) (r : Request) (s : State) :
    s.lm.Kept (fun _ => False) r.starts (serve l r s).state.lm := by
  have htouches := serve_touches l r s
  cases r with
  | laneStart lane =>
    simp only [serve, serveLaneStart]
    split
    · exact .refl _
    next n hn =>
      obtain rfl := indexOf_some hn
      split
      · exact .refl _
      · split
        · exact .refl _
        · have hput : s.lm.Kept (fun _ => False) (Request.laneStart n.val).starts
              (s.lm.put n { s.lm.lanes.get n with startFlag := true }) :=
            put_kept (.inr rfl) (.inl (.inl rfl)) fun _ h => h
          exact setLanes_kept (before := []) (after := []) (hput.trans (evaluateStart_kept _ _ _))
  | laneStop lane =>
    simp only [serve, serveLaneStop]
    split
    · exact .refl _
    next n hn =>
      obtain rfl := indexOf_some hn
      have hkept : s.lm.Kept (fun _ => False) (Request.laneStop n.val).starts (stopLane (s.settingOn 2) n s.lm) :=
        stopLane_kept _ (.inr rfl) _
      exact setLanes_kept (before := exits s.lm (stopLane (s.settingOn 2) n s.lm)) (after := []) hkept
  | _ =>
    rw [touched_lm htouches (by simp [Request.part]) (by simp [Request.part])]
    exact .refl _

/-- A request moves the twist account at SET_TWIST alone, and nothing else that the wind unit's inputs or deliveries gave. -/
theorem serve_wind (l : Link) (r : Request) (s : State) :
    ((∀ t, r ≠ .setTwist t) → (serve l r s).state.wh = s.wh) ∧
    (serve l r s).state.wh.parkSeen = s.wh.parkSeen ∧ (serve l r s).state.wh.refHeading = s.wh.refHeading ∧
    (serve l r s).state.wh.speed = s.wh.speed ∧ (serve l r s).state.wh.filtered = s.wh.filtered := by
  have htouches := serve_touches l r s
  cases r with
  | setTwist t =>
    refine ⟨fun h => absurd rfl (h t), ?_⟩
    simp only [serve, serveSetTwist]
    split
    · exact ⟨rfl, rfl, rfl, rfl⟩
    · split
      · exact ⟨rfl, rfl, rfl, rfl⟩
      · simp only [Served.did]
        rw [takeUnwindEval_wh]
        exact ⟨rfl, rfl, rfl, rfl⟩
  | _ =>
    have hwh := touched_wh htouches (by simp [Request.part]) (by simp [Request.part])
    exact ⟨fun _ => hwh, by rw [hwh], by rw [hwh], by rw [hwh], by rw [hwh]⟩

/-- The requests that move a drive's isolation. -/
def Request.isolates (r : Request) : Prop := (∃ n, r = .driveIsolate n) ∨ ∃ n, r = .driveReturn n

theorem settingActs_yaw {reading isolating : Prop} (id : Nat) (v : Int) (s : State) :
    s.ym.Kept reading isolating (settingActs id v s).1.ym := by
  unfold settingActs
  split
  · exact followTracking_kept _ s
  · exact .refl _
  · exact .refl _

theorem serve_yaw (l : Link) (r : Request) (s : State) : s.ym.Kept False r.isolates (serve l r s).state.ym := by
  have htouches := serve_touches l r s
  cases r with
  | setTracking on =>
    simp only [serve, serveSetTracking]
    split
    · exact .refl _
    · exact followTracking_kept on { s with settings := withSetting s.settings 5 (if on then 1 else 0) }
  | startUnwind =>
    simp only [serve, serveStartUnwind]
    split
    · exact .refl _
    · split
      · exact .refl _
      · exact setYaw_chainOnly (insert_only _ _ _) [] s
  | yawGoto h =>
    simp only [serve, serveYawGoto]
    repeat' split
    case isFalse => exact setYaw_chainOnly (insert_only _ _ _) [] s
    all_goals exact .refl _
  | yawJog d sec =>
    simp only [serve, serveYawJog]
    repeat' split
    case isFalse => exact setYaw_chainOnly (insert_only _ _ _) [] s
    all_goals exact .refl _
  | serviceStop =>
    simp only [serve, serveServiceStop]
    split
    · exact .refl _
    · split
      · exact setYaw_chainOnly (remove_only _ _ _) [] s
      · exact .refl _
  | driveIsolate n =>
    have hput (k : Fin 8) (d : Drive) (hl : d.line = (s.ym.drives.get k).line) :
        s.ym.Kept False (Request.driveIsolate n).isolates (s.ym.putDrive k d) :=
      putDrive_kept hl (.inl (.inl ⟨n, rfl⟩))
    simp only [serve, serveDriveIsolate]
    split
    · exact .refl _
    · split
      · exact .refl _
      next k _ =>
        exact setYaw_kept (w := (s.ym.putDrive k { s.ym.drives.get k with state := .isolated }, [])) (hput k _ rfl) [] s
  | driveReturn n =>
    have hput (k : Fin 8) (d : Drive) (hl : d.line = (s.ym.drives.get k).line) :
        s.ym.Kept False (Request.driveReturn n).isolates (s.ym.putDrive k d) :=
      putDrive_kept hl (.inl (.inr ⟨n, rfl⟩))
    simp only [serve, serveDriveReturn]
    split
    · exact .refl _
    · split
      · exact .refl _
      next k _ =>
        have hreturned := setYaw_kept (w := (s.ym.putDrive k (returnedDrive s k), [])) (hput k _ rfl) [] s
        have hfaulted := setYaw_kept
          (w := (s.ym.putDrive k { s.ym.drives.get k with state := .faulted, reported := true }, []))
          (hput k _ rfl) [.ctRaise (driveFaultRaise k)] s
        split
        · exact hreturned
        · exact hfaulted
        · exact hreturned
        · exact .refl _
  | setSetting id v =>
    simp only [serve, serveSetSetting]
    split
    · exact .refl _
    · split
      · exact .refl _
      · split
        · exact .refl _
        · exact settingActs_yaw id _ { s with settings := writeSetting s.settings id (clampSetting s.settings id v) }
  | _ =>
    rw [touched_ym htouches (by simp [Request.part]) (by simp [Request.part]) (by simp [Request.part])]
    exact .refl _

/-- Where the cooling unit is not the part touched, no boost, temperature or flow moves: the table's own note on a loop
is of a folded failure. -/
theorem touched_cu {p : Part} {s t : State} (h : touched p s t) (hcu : p ≠ .cu) (hset : p ≠ .settings)
    (he : p ≠ .everything) : s.cu.Kept (fun _ => False) (fun _ => False) t.cu := by
  cases p with
  | table =>
    have happart := congrArg State.cu h
    have hloop (l : Fin 3) : (t.cu.loops.get l).tOut = (s.cu.loops.get l).tOut ∧
        (t.cu.loops.get l).flow = (s.cu.loops.get l).flow := by
      match l with
      | 0 => exact ⟨congrArg (fun u => u.loops.x0.tOut) happart, congrArg (fun u => u.loops.x0.flow) happart⟩
      | 1 => exact ⟨congrArg (fun u => u.loops.x1.tOut) happart, congrArg (fun u => u.loops.x1.flow) happart⟩
      | 2 => exact ⟨congrArg (fun u => u.loops.x2.tOut) happart, congrArg (fun u => u.loops.x2.flow) happart⟩
    exact ⟨congrArg (fun u => u.boost) happart, congrArg (fun u => u.reaction) happart, fun l _ => (hloop l).1,
      fun l _ => (hloop l).2⟩
  | cu => exact absurd rfl hcu
  | settings => exact absurd rfl hset
  | everything => exact absurd rfl he
  | _ =>
    simp only [touched] at h
    rw [h]
    exact .refl _

theorem takeFanMin_kept (s : State) : s.cu.Kept (fun _ => False) (fun _ => False) (takeFanMin s).1.cu :=
  ((setDuty_kept s.settings 0 s.cu).trans (setDuty_kept s.settings 1 _)).trans (setDuty_kept s.settings 2 _)

theorem settingActs_cooling (id : Nat) (v : Int) (s : State) :
    s.cu.Kept (fun _ => False) (fun _ => False) (settingActs id v s).1.cu := by
  unfold settingActs
  split
  · rw [followTracking_cu]
    exact .refl _
  · exact takeFanMin_kept s
  · exact .refl _

theorem serve_cooling (l : Link) (r : Request) (s : State) :
    s.cu.Kept (fun _ => False) (fun _ => False) (serve l r s).state.cu := by
  have htouches := serve_touches l r s
  cases r with
  | setTracking on =>
    simp only [serve, serveSetTracking]
    split
    · exact .refl _
    · simp only [Served.did]
      rw [followTracking_cu]
      exact .refl _
  | setSetting id v =>
    simp only [serve, serveSetSetting]
    split
    · exact .refl _
    · split
      · exact .refl _
      · split
        · exact .refl _
        · exact settingActs_cooling id _ { s with settings := writeSetting s.settings id (clampSetting s.settings id v) }
  | _ => exact touched_cu htouches (by simp [Request.part]) (by simp [Request.part]) (by simp [Request.part])

end Sys2Proof.Machine
end

section
/-! Every block holds the limits as they stand after every step that leaves nothing over (R41, R43, R52), and no lane that
a present record excludes runs (R101). -/

namespace Sys2Proof.Machine

/-! ## One event -/

/-- The exclusion set of the lane manager with what an event delivers. -/
def Ev.toLanes (e : Ev) (set : LaneSet) : LaneSet :=
  match e with
  | .lmExcluded new _ => new
  | _ => set

/-- The yaw_park that the wind and heading unit has seen with what an event delivers. -/
def Ev.toPark (e : Ev) (park : Bool) : Bool :=
  match e with
  | .whPark on _ => on
  | _ => park

theorem carry_holds (e : Ev) (s : State) :
    e.carry s.holds =
      { cap := (e.toEnvelope s.eu).capEff, source := (e.toEnvelope s.eu).capSource
        envelopeLanes := (e.toEnvelope s.eu).excluded, lanes := e.toLanes s.lm.excluded
        yaw := (e.toYaw s.ym).held, park := e.toPark s.wh.parkSeen, boost := (e.toCooling s.cu).boost
        reaction := (e.toCooling s.cu).reaction } := by
  cases e <;> rfl

theorem toEnvelope_of_part {e : Ev} (h : e.part ≠ .eu) (u : Envelope) : e.toEnvelope u = u := by
  cases e with
  | euLimits d => exact absurd rfl h
  | _ => rfl

theorem toLanes_of_ne {e : Ev} (h : ∀ set full, e ≠ .lmExcluded set full) (set : LaneSet) : e.toLanes set = set := by
  cases e with
  | lmExcluded new full => exact absurd rfl (h new full)
  | _ => rfl

theorem toPark_of_ne {e : Ev} (h : ∀ on full, e ≠ .whPark on full) (park : Bool) : e.toPark park = park := by
  cases e with
  | whPark on full => exact absurd rfl (h on full)
  | _ => rfl

theorem toYaw_of_part {e : Ev} (h : e.part ≠ .ym) (y : Yaw) : e.toYaw y = y := by
  cases e with
  | ymLimits f => exact absurd rfl h
  | ymPressure bar => exact absurd rfl h
  | _ => rfl

theorem toCooling_of_part {e : Ev} (h : e.part ≠ .cu) (u : Cooling) : e.toCooling u = u := by
  cases e with
  | cuBoost set => exact absurd rfl h
  | cuReaction set => exact absurd rfl h
  | _ => rfl

section
variable {e : Ev} (he : e.part ≠ .everything) (s : State)
include he

theorem event_envelope : (e.toEnvelope s.eu).SameOrders (handle e s).1.eu := by
  by_cases hp : e.part = .eu
  · exact handle_envelope hp s
  · rw [toEnvelope_of_part hp, touched_eu (handle_touches e s) hp he]
    exact ⟨rfl, rfl, rfl, rfl⟩

theorem event_excluded : (handle e s).1.lm.excluded = e.toLanes s.lm.excluded := by
  by_cases hx : ∃ set full, e = .lmExcluded set full
  · obtain ⟨set, full, rfl⟩ := hx
    rw [show handle (.lmExcluded set full) s = takeExcluded set full s from rfl, takeExcluded_eq]
    rfl
  · have hx : ∀ set full, e ≠ .lmExcluded set full := fun set full h => hx ⟨set, full, h⟩
    rw [toLanes_of_ne hx]
    by_cases hp : e.part = .lm
    · exact (handle_lanes hp hx s).excluded
    · rw [touched_lm (handle_touches e s) hp he]

theorem event_wind : s.wh.Kept e (handle e s).1.wh := by
  by_cases hp : e.part = .wh
  · exact handle_wind hp s
  · rw [touched_wh (handle_touches e s) hp he]
    exact .same rfl rfl rfl rfl rfl

theorem event_park : (handle e s).1.wh.parkSeen = e.toPark s.wh.parkSeen := by
  by_cases hx : ∃ on full, e = .whPark on full
  · obtain ⟨on, full, rfl⟩ := hx
    simp only [handle, takePark, Ev.toPark]
    split
    · rfl
    · rw [takeUnwindEval_wh]
  · have hx : ∀ on full, e ≠ .whPark on full := fun on full h => hx ⟨on, full, h⟩
    rw [toPark_of_ne hx]
    exact (event_wind he s).parkSeen hx

theorem event_yaw : (e.toYaw s.ym).Kept (∃ lines, e = .ymFaultLines lines) False (handle e s).1.ym := by
  by_cases hp : e.part = .ym
  · exact handle_yaw hp s
  · rw [toYaw_of_part hp, touched_ym (handle_touches e s) hp he e.part_ne_settings]
    exact .refl _

theorem event_cooling : (e.toCooling s.cu).Kept e.samples e.reads (handle e s).1.cu := by
  by_cases hp : e.part = .cu
  · exact handle_cooling hp s
  · rw [toCooling_of_part hp]
    obtain ⟨hboost, hreaction, htemp, hflow⟩ := touched_cu (handle_touches e s) hp e.part_ne_settings he
    exact ⟨hboost, hreaction, fun l _ => htemp l id, fun l _ => hflow l id⟩

/-- An event moves what the blocks hold by its own delivery alone. -/
theorem handle_holds : (handle e s).1.holds = e.carry s.holds := by
  obtain ⟨-, hcap, hsource, hlanes⟩ := event_envelope he s
  obtain ⟨hboost, hreaction, -, -⟩ := event_cooling he s
  rw [carry_holds]
  simp only [State.holds, hcap, hsource, hlanes, event_excluded he s, (event_yaw he s).held,
    event_park he s, hboost, hreaction]

end

theorem handsOn_no_orders {e : Ev} (h : e.part ≠ .table) (he : e.part ≠ .everything) :
    ∀ k ∈ e.handsOn, k ∉ orderKinds := by
  cases e <;> simp [Ev.part] at h he <;> simp [Ev.handsOn, orderKinds, yawKinds]

/-- An event hands on what it changed of the limits and of the reaction boost set. -/
theorem handle_delivers {e : Ev} (he : e.part ≠ .everything) : Act.Delivers (handle e) := fun s => by
  by_cases ht : e.part = .table
  · exact handle_table_delivers ht s
  · obtain ⟨-, hlimits, hslots⟩ := touched_table (handle_touches e s) ht he
    rw [carried_of_emits (handle_emits e s) (handsOn_no_orders ht he)]
    simp only [State.orders, hlimits, hslots]

/-! ## Requests and resets -/

theorem serve_holds (l : Link) (r : Request) (s : State) : (serve l r s).state.holds = s.holds := by
  obtain ⟨-, hcap, hsource, hlanes⟩ := serve_envelope l r s
  obtain ⟨-, hpark, -⟩ := serve_wind l r s
  obtain ⟨hboost, hreaction, -, -⟩ := serve_cooling l r s
  simp only [State.holds, hcap, hsource, hlanes, (serve_lanes l r s).excluded, (serve_yaw l r s).held, hpark, hboost,
    hreaction]

theorem serve_delivers (l : Link) (r : Request) (s : State) :
    carried (serve l r s).events s.orders = (serve l r s).state.orders := by
  by_cases ht : r.part = .table
  · exact serve_table_delivers ht l s
  · have hkinds : r.handsOn = unitKinds := if_neg ht
    obtain ⟨-, hlimits, hslots⟩ := touched_table (serve_touches l r s) ht r.part_ne_everything
    rw [carried_of_emits (serve_emits l r s) (by rw [hkinds]; decide)]
    simp only [State.orders, hlimits, hslots]

theorem reactionBoost_eq_zero {v : Eight Slot} (h : ∀ k, (v.get k).boosts = 0) : reactionBoost v = 0 := by
  have hget (k : Fin 8) := h k
  simp only [reactionBoost, Eight.toList, List.foldr]
  rw [show v.x0.boosts = 0 from hget 0, show v.x1.boosts = 0 from hget 1, show v.x2.boosts = 0 from hget 2,
    show v.x3.boosts = 0 from hget 3, show v.x4.boosts = 0 from hget 4, show v.x5.boosts = 0 from hget 5,
    show v.x6.boosts = 0 from hget 6, show v.x7.boosts = 0 from hget 7]
  rfl

theorem boosts_discarded (v : Slot) : ({ v with pending := none } : Slot).boosts = 0 := by
  simp [Slot.boosts]

theorem warmStart_orders (d : Nat) (straps : Fin 4) (s : State) :
    (takeWarmStart d straps s).1.orders = (s.warmValues straps).limits.orders 0 := by
  have hslots : (takeWarmStart d straps s).1.slots = discardPending s.slots := by
    simp only [takeWarmStart, State.warmValues]
    rw [askRetained_eq]
  have hlimits : (takeWarmStart d straps s).1.limits = (s.warmValues straps).limits := rfl
  rw [State.orders, hslots, hlimits, reactionBoost_eq_zero]
  intro k
  rw [discardPending, Eight.get_map]
  exact boosts_discarded _

/-- A warm reset delivers everything anew, whatever the blocks held (R43, R58). -/
theorem warmStart_carries (d : Nat) (straps : Fin 4) (s : State) (o : Orders) :
    carried (takeWarmStart d straps s).2 o = (takeWarmStart d straps s).1.orders := by
  have hstart : Emits resetKinds (startHandovers (s.warmValues straps).sm.state
      (s.warmValues straps).cu.loops.x0.pump) := by
    simp [startHandovers, supplyHandover, resetKinds, Ev.kind]
  rw [warmStart_orders]
  simp only [takeWarmStart, carried_append]
  rw [carried_of_emits (startTracking_emits _) (by decide), carried_of_emits (startReports_emits _) (by decide)]
  simp [fullDelivery, startHandovers, supplyHandover, Ev.carry, Limits.orders]

/-! ## A whole queue -/

/-- What the blocks hold, with what the queue still brings, is what the limits and the slots make. -/
def Delivering (q : List Ev) (s : State) : Prop := carried q s.holds = s.orders

theorem storeResponse_holds (l : Link) (checked : Bool) (a : Answer) (s : State) :
    (storeResponse l checked a s).holds = s.holds := rfl

theorem storeResponse_orders (l : Link) (checked : Bool) (a : Answer) (s : State) :
    (storeResponse l checked a s).orders = s.orders := rfl

/-- One event of a queue, with what it hands on posted among what waits. -/
theorem handle_delivering {e : Ev} (hcold : ∀ straps, e ≠ .coldStart straps) {rest : List Ev} {s : State}
    (h : Delivering (e :: rest) s) : Delivering (post (handle e s).2 rest) (handle e s).1 := by
  simp only [Delivering, carried_cons] at h
  simp only [Delivering, carried_post]
  by_cases he : e.part = .everything
  · cases e with
    | lkServe l r =>
      cases r with
      | warmReset straps =>
        simp only [handle, takeServe, storeResponse_orders]
        exact warmStart_carries _ _ _ _
      | _ =>
        simp only [handle, takeServe, storeResponse_orders, storeResponse_holds, serve_holds]
        rw [show carried rest s.holds = s.orders from h, serve_delivers]
    | coldStart straps => exact absurd rfl (hcold straps)
    | lineRelease straps => exact warmStart_carries _ _ _ _
    | _ => exact nomatch he
  · rw [handle_holds he s, h]
    exact handle_delivers he s

theorem handsOn_no_reset (e : Ev) : .reset ∉ e.handsOn := by
  cases e with
  | lkServe l r =>
    change .reset ∉ servedKinds ++ resetKinds
    decide
  | _ => simp [Ev.handsOn, raiseKinds, deliveryKinds, retireKinds, yawKinds, resetKinds]

theorem not_coldStart_of_mem {e x : Ev} {s : State} (h : x ∈ (handle e s).2) (straps : Fin 4) : x ≠ .coldStart straps := by
  rintro rfl
  exact handsOn_no_reset e (handle_emits e s _ h)

/-- A queue that is taken to its end leaves every block with the limits as they stand. -/
theorem settle_delivers (fuel : Nat) : ∀ (q : List Ev) (s : State), (∀ e ∈ q, ∀ straps, e ≠ .coldStart straps) →
    Delivering q s → (settle fuel q s).unsettled = [] → (settle fuel q s).delivered := by
  induction fuel with
  | zero =>
    intro q s _ h hu
    cases q with
    | nil => exact (delivered_iff _).mpr (by simpa [Delivering] using h)
    | cons e rest => exact nomatch hu
  | succ fuel ih =>
    intro q s hq h hu
    cases q with
    | nil => exact (delivered_iff _).mpr (by simpa [Delivering, settle] using h)
    | cons e rest =>
      obtain ⟨he, hrest⟩ := List.forall_mem_cons.mp hq
      exact ih _ _ (fun x hx => (mem_post hx).elim not_coldStart_of_mem (hrest x)) (handle_delivering he h) hu


theorem run_delivers {evs : List Ev} {s t : State} (h : run evs s = .next t) (hu : s.unsettled = [])
    (hcold : ∀ e ∈ evs, ∀ straps, e ≠ .coldStart straps) (hs : Delivering evs s) (ht : t.unsettled = []) :
    t.delivered := by
  simp only [run, settled, hu, List.nil_append, Host.Outcome.next.injEq] at h
  subst h
  exact settle_delivers _ _ _ hcold hs ht

/-! ## A step -/

theorem firstEvent_carry (c : Instr) (o : Orders) : (firstEvent c).carry o = o := by cases c <;> rfl

/-- Every command hands the limits on before it ends. -/
theorem exec_delivers {c : Instr} {s t : State} (hu : s.unsettled = []) (hs : s.delivered) (h : exec c s = .next t)
    (ht : t.unsettled = []) : t.delivered := by
  by_cases hcold : ∃ straps, c = .coldPowerUp straps
  · obtain ⟨straps, rfl⟩ := hcold
    obtain ⟨-, ⟨hcap, hsource, henvelope, hlanes, hyaw, hpark, hboost, hreaction⟩, -, -⟩ := resetIsSound
    rw [powerUpAndTheResetLine.1 straps s] at h
    cases h
    exact ⟨hcap, hsource, henvelope, hlanes, hyaw, hpark, hboost, hreaction⟩
  · have hfirst : ∀ straps, firstEvent c ≠ .coldStart straps := by
      intro straps he
      cases c with
      | coldPowerUp _ => exact hcold ⟨_, rfl⟩
      | _ => exact nomatch he
    have hrun : exec c s = run [firstEvent c] s := by
      rw [exec_eq]
      split
      next straps => exact absurd ⟨straps, rfl⟩ hcold
      next => rfl
    refine run_delivers (hrun ▸ h) hu (List.forall_mem_singleton.mpr hfirst) ?_ ht
    rw [Delivering, carried_cons, carried_nil, firstEvent_carry]
    exact (delivered_iff s).mp hs

theorem reactionBoost_second (v : Eight Slot) : reactionBoost (v.map Slot.second) = reactionBoost v := by
  have hboosts (k : Slot) : k.second.boosts = k.boosts := by
    cases h : k.pending <;> simp [Slot.second, Slot.boosts, down, h]
  simp only [reactionBoost, Eight.toList, Eight.map, List.foldr, hboosts]

/-- The clock moves neither what the blocks hold nor the limits. -/
theorem advance_holds (s : State) : s.advance.holds = s.holds := by
  unfold State.advance
  dsimp only
  split <;> rfl

theorem advance_orders (s : State) : s.advance.orders = s.orders := by
  unfold State.advance
  dsimp only
  split
  · exact congrArg s.limits.orders (reactionBoost_second s.slots)
  · rfl

/-- The expiries that the clock brings are taken with the limits handed on. -/
theorem tick_delivers {s t : State} (hu : s.unsettled = []) (hs : s.delivered) (h : tick s = .next t)
    (ht : t.unsettled = []) : t.delivered := by
  have hunsettled : s.advance.unsettled = s.unsettled := by
    unfold State.advance
    dsimp only
    split <;> rfl
  have hdue (dues : List Instr) : Emits [.due] (dues.map .due) := emits_map (fun _ => by simp [Ev.kind]) dues
  refine run_delivers h (hunsettled.trans hu) ?_ ?_ ht
  · rintro e he straps rfl
    simpa [Ev.kind] using hdue _ _ he
  · rw [Delivering, carried_of_emits (hdue _) (by decide)]
    exact (advance_holds s).trans (((delivered_iff s).mp hs).trans (advance_orders s).symm)

/-- Settles O16: what the blocks hold, with the deliveries that wait, is at every moment what the limits and the slots make. -/
theorem everyBlockHoldsTheLimits : Obligations.EveryBlockHoldsTheLimits := by
  intro s t hu hs hstep ht
  unfold step at hstep
  split at hstep
  · exact tick_delivers hu hs hstep ht
  next c rest _ =>
    have hs : ({ s with pending := rest } : State).delivered := (delivered_iff _).mpr ((delivered_iff s).mp hs)
    exact exec_delivers (s := { s with pending := rest }) hu hs hstep ht

/-! ## Exclusion (R101) -/

/-- A lane that a delivery includes does not run after it, whatever it did before, unless the delivery passed it over. -/
theorem deliveredLane_barred {auto full : Bool} {old : LaneSet} {m : LaneManager} {n : Fin 4} {x : Lane}
    (hx : hasBit m.excluded n.val = true) (h : hasBit old n.val = true → ¬x.runs) :
    ¬(deliveredLane auto old full m n x).runs := by
  have hexcluded : ¬(whenExcluded x).runs := by
    unfold whenExcluded
    split
    case h_1 hs =>
      split
      · exact goes_stops _ .locked (by decide)
      · simp [Lane.runs, hs]
    case h_2 | h_3 => exact goes_stops _ .locked (by decide)
    all_goals simp [Lane.runs, Lane.sheds, *]
  unfold deliveredLane
  split
  · exact hexcluded
  next hacts =>
    refine h ?_
    have hsame := mt (deliveryActs_iff old m.excluded full n x).mpr hacts
    simp only [not_or, ne_eq, not_not] at hsame
    rw [hsame.2.1, hx]

theorem takeExcluded_exclusion (set : LaneSet) (full : Bool) {s : State} (h : s.exclusionHolds) :
    (takeExcluded set full s).1.exclusionHolds := by
  rw [exclusionHolds_iff] at h ⊢
  intro n hn
  rw [takeExcluded_eq] at hn ⊢
  rw [show ∀ f : Fin 4 → Lane, ((s.laned { s.lm with excluded := set, lanes := Four.ofFn f }).lm.lanes.get n) = f n
    from fun f => Four.get_ofFn f n]
  exact deliveredLane_barred hn (h n)

theorem kept_exclusion {reporting starting : Fin 4 → Prop} {s t : State} (h : s.exclusionHolds)
    (hk : s.lm.Kept reporting starting t.lm) : t.exclusionHolds := by
  rw [exclusionHolds_iff] at h ⊢
  intro n hn hruns
  rw [hk.excluded] at hn
  exact h n hn (hk.barred n hn hruns)

theorem initial_exclusion {s : State} (h : s.lm = LaneManager.initial) : s.exclusionHolds := by
  rw [exclusionHolds_iff, h]
  intro n hn
  match n with
  | 0 | 1 | 2 | 3 => simp [Lane.runs, LaneManager.initial, Lane.initial, Four.get]

/-- Every event keeps excluded lanes from running. -/
theorem handle_keeps_exclusion {s : State} (h : s.exclusionHolds) (e : Ev) : (handle e s).1.exclusionHolds := by
  by_cases hp : e.part = .lm
  · by_cases hx : ∃ set full, e = .lmExcluded set full
    · obtain ⟨set, full, rfl⟩ := hx
      exact takeExcluded_exclusion set full h
    · exact kept_exclusion h (handle_lanes hp (fun set full he => hx ⟨set, full, he⟩) s)
  · by_cases he : e.part = .everything
    · cases e with
      | lkServe l r =>
        cases r with
        | warmReset straps => exact initial_exclusion (takeWarmStart_lm (restartDetail l) straps s)
        | _ => exact kept_exclusion h (serve_lanes l _ s)
      | coldStart straps => exact initial_exclusion rfl
      | lineRelease straps => exact initial_exclusion (takeWarmStart_lm 1 straps _)
      | _ => exact nomatch he
    · refine kept_exclusion (reporting := fun _ => False) (starting := fun _ => False) h ?_
      rw [touched_lm (handle_touches e s) hp he]
      exact .refl _

theorem advance_keeps_exclusion {s : State} (h : s.exclusionHolds) : s.advance.exclusionHolds := by
  have hz : s.millisecond.exclusionHolds := by
    refine kept_exclusion (reporting := fun _ => False) (starting := fun _ => False) h ?_
    exact mapLanes_kept s.lm fun x => ⟨rfl, rfl, id⟩
  unfold State.advance
  dsimp only
  split <;> exact hz

theorem hasBit_excludedOf {t : List Record} {q : Record} (hq : q ∈ t) {n : Nat} (h : hasBit q.eff.lanes n = true) :
    hasBit (excludedOf t) n = true := by
  induction t with
  | nil => exact nomatch hq
  | cons r rest ih =>
    have hor : hasBit (r.eff.lanes ||| excludedOf rest) n = (hasBit r.eff.lanes n || hasBit (excludedOf rest) n) := by
      simp [hasBit]
    rw [show excludedOf (r :: rest) = r.eff.lanes ||| excludedOf rest from rfl, hor, Bool.or_eq_true]
    rcases List.mem_cons.mp hq with rfl | hq
    · exact .inl h
    · exact .inr (ih hq)

/-- Settles O17: every event keeps excluded lanes from running, and what the lane manager holds as excluded is what the
records present make. -/
theorem noExcludedLaneRuns : Obligations.NoExcludedLaneRuns := by
  intro s t hu hlimits hs hx hstep ht
  have hexclusion : t.exclusionHolds :=
    step_keeps (P := State.exclusionHolds) (fun _ _ h => h) (fun e _ h => handle_keeps_exclusion h e) (fun _ _ h => h)
      (fun _ _ h => advance_keeps_exclusion h) hstep hx
  refine ⟨hexclusion, fun q hq n hn => hexclusion n ?_⟩
  have hagree : t.limitsAgree :=
    step_keeps (P := State.limitsAgree) (fun _ _ h => h) (fun e _ h => handle_keeps_limits h e) (fun _ _ h => h)
      (fun _ _ h => advance_keeps_limits h) hstep hlimits
  have hdelivered := everyBlockHoldsTheLimits s t hu hs hstep ht
  rw [hdelivered.lanes, hagree.2]
  exact hasBit_excludedOf hq hn

end Sys2Proof.Machine
end

section
/-! What a command can set off, where nothing is left over and no request frame is in progress: its own event, what the
blocks hand one another, and the execution of its own request (log 2). -/

namespace Sys2Proof.Machine

/-! ## The events that a command sets off -/

/-- The kinds of events that the blocks hand one another. -/
def EvKind.inner : EvKind → Bool
  | .stop | .opened | .request | .begun | .served | .input | .expiry | .line | .reset | .due => false
  | _ => true

/-- An event that the blocks hand one another. -/
def Ev.inner (e : Ev) : Prop := e.kind.inner = true

theorem inner_of_emits {ks : List EvKind} {evs : List Ev} (h : Emits ks evs) (hks : ks.all EvKind.inner = true) :
    ∀ e ∈ evs, e.inner := fun e he => List.all_eq_true.mp hks _ (h e he)

/-- What the blocks hand one another sets off nothing else. -/
theorem handsOn_inner {e : Ev} (h : e.inner) : e.handsOn.all EvKind.inner = true := by
  cases e with
  | lkStart _ _ _ _ | lkRead _ _ | lkStop _ | lkRequest _ _ | lkBegin _ _ | lkServe _ _ | due _ => exact nomatch h
  | _ => rfl

/-- What a command sets off after its own event: what the blocks hand one another, the frame that its start condition or
its read opens, and the execution of its request. -/
inductive Ev.Under (c : Instr) : Ev → Prop
  | inner {e : Ev} (h : e.inner) : Under c e
  | opened {l : Link} {addr : Byte} {good : Bool} {bytes : List Byte} (h : firstEvent c = .lkStart l addr good bytes) :
      Under c (.lkOpen l addr good bytes)
  | sent {l : Link} {clocked : Nat} (h : firstEvent c = .lkRead l clocked) : Under c (.lkSend l clocked)
  | begun {l : Link} {r : Request} (h : firstEvent c = .lkRequest l r) : Under c (.lkBegin l r)
  | served {l : Link} {r : Request} (h : firstEvent c = .lkRequest l r) : Under c (.lkServe l r)

/-- What a command has set off sets off no more than the command itself can. -/
theorem Ev.Under.handsOn {c : Instr} {e : Ev} (h : e.Under c) (s : State) : ∀ x ∈ (handle e s).2, x.Under c := by
  cases h with
  | inner h => exact fun x hx => .inner (inner_of_emits (handle_emits e s) (handsOn_inner h) x hx)
  | opened h | sent h => exact fun x hx => nomatch hx
  | begun h =>
    intro x hx
    simp only [handle, takeBegin] at hx
    split at hx
    · cases List.mem_singleton.mp hx
      exact .served h
    · simp only at hx
      split at hx
      · rcases List.mem_cons.mp hx with rfl | hx
        · exact .inner rfl
        · cases List.mem_singleton.mp hx
          exact .served h
      · cases List.mem_singleton.mp hx
        exact .served h
  | @served l r h =>
    exact fun x hx => .inner (inner_of_emits (handle_emits (.lkServe l r) s) rfl x hx)

/-! ## The command's own event -/

/-- The events that a command can be. -/
def Ev.isFirst : Ev → Bool
  | .ctHoldoffEnd _ | .ruAutoRetire _ | .ruBoostEnd _ | .euRampStep | .lmReport _ _ | .lmSilence _ | .lmTimeout _ _ => true
  | .whHeading _ | .whVane _ | .whAnemometer _ | .ymJogEnd | .ymFaultLines _ | .ymPressure _ | .ymBrakeTimer => true
  | .ymSettleEnd | .cuSample _ _ | .cuFlow _ _ | .cuPrimeTimeout _ | .smGrid _ | .smSettled | .smUps _ => true
  | .lkKey _ | .lkSilence | .lkStart _ _ _ _ | .lkByte _ _ _ | .lkStop _ | .lkPoisonStop _ | .lkRead _ _ => true
  | .lkReset _ | .lkAttention _ | .lkAttentionSlot _ _ | .lkPayloadDone _ | .lkPayloadCut _ | .lkRequest _ _ => true
  | .coldStart _ | .lineAssert | .lineRelease _ => true
  | _ => false

theorem firstEvent_isFirst (c : Instr) : (firstEvent c).isFirst = true := by cases c <;> rfl

/-- Where no request frame is in progress, a command's own event sets off what is under the command. -/
theorem first_under {c : Instr} {s : State} (hs : ∀ l : Link, (s.links.get l).frame ≠ .receiving) :
    ∀ x ∈ (handle (firstEvent c) s).2, x.Under c := by
  have hfirst := firstEvent_isFirst c
  cases he : firstEvent c with
  | lkStart l addr good bytes =>
    intro x hx
    simp only [handle, takeStart, if_neg (hs l)] at hx
    split at hx
    · cases List.mem_singleton.mp hx
      exact .opened he
    · exact nomatch hx
  | lkRead l clocked =>
    intro x hx
    simp only [handle, takeRead, if_neg (hs l)] at hx
    split at hx
    · cases List.mem_singleton.mp hx
      exact .sent he
    · exact nomatch hx
  | lkRequest l r =>
    intro x hx
    simp only [handle, takeRequest, if_neg (hs l)] at hx
    split at hx
    · cases List.mem_singleton.mp hx
      exact .begun he
    · exact nomatch hx
  | lkStop l =>
    have hnone : (handle (.lkStop l) s).2 = [] := by
      simp only [handle, takeFrameStop, Act.guarded, takeStop]
      split
      · split
        next hframe => exact absurd hframe (hs l)
        all_goals rfl
      · rfl
    rw [hnone]
    exact fun x hx => nomatch hx
  | lkOpen _ _ _ _ | lkSend _ _ | lkBegin _ _ | lkServe _ _ | due _ =>
    rw [he] at hfirst
    exact nomatch hfirst
  | _ => exact fun x hx => .inner (inner_of_emits (handle_emits _ s) rfl x hx)

/-- What a command's own event makes so and everything under the command keeps is so after the command. -/
theorem exec_reaches {P : State → Prop} {c : Instr} {s t : State} (hs : s.between) (h : exec c s = .next t)
    (left : ∀ z evs, P z → P { z with unsettled := evs }) (first : P (handle (firstEvent c) s).1)
    (one : ∀ e z, e.Under c → P z → P (handle e z).1) : P t := by
  obtain ⟨hu, hframes⟩ := hs
  rw [exec_run hu, run_one hu] at h
  cases h
  exact settle_keeps (Q := fun e => e.Under c) (fun z evs hz _ => left z evs hz)
    (fun e z he hz => ⟨one e z he hz, he.handsOn z⟩) _ _ _ (first_under hframes) first

end Sys2Proof.Machine
end

section
/-! No slot's count rises but by a BIND (R45): the acts of the table and of the reaction unit leave it or take 1 from it. -/

namespace Sys2Proof.Machine

/-- No slot's count is higher after. -/
def CountsFall (v w : Eight Slot) : Prop := ∀ k, (w.get k).count ≤ (v.get k).count

theorem CountsFall.refl (v : Eight Slot) : CountsFall v v := fun _ => Nat.le_refl _

theorem CountsFall.trans {u v w : Eight Slot} (h : CountsFall u v) (g : CountsFall v w) : CountsFall u w :=
  fun k => (g k).trans (h k)

theorem countsFall_of_eq {v w : Eight Slot} (h : w = v) : CountsFall v w := h ▸ .refl v

theorem ended_count (v : Slot) (o : SlotOutcome) : (v.ended o).count ≤ v.count := by
  unfold Slot.ended
  split
  · exact Nat.zero_le _
  · exact Nat.sub_le _ _

theorem cancelSlots_counts (c : Code) (v : Eight Slot) : CountsFall v (cancelSlots c v) := fun k => by
  rw [cancelSlots, Eight.get_map, Slot.cancelledFor]
  split
  · exact ended_count _ _
  · exact Nat.le_refl _

theorem discardPending_counts (v : Eight Slot) : CountsFall v (discardPending v) := fun k => by
  rw [discardPending, Eight.get_map]

theorem set_counts {v : Eight Slot} {k : Fin 8} {x : Slot} (h : x.count ≤ (v.get k).count) : CountsFall v (v.set k x) :=
  fun j => by
    rw [Eight.get_set]
    split
    next hj => exact hj ▸ h
    next => exact Nat.le_refl _

theorem retireRecord_counts (c : Code) (s : State) : CountsFall s.slots (retireRecord c s).1.slots :=
  cancelSlots_counts c s.slots

theorem takeRaise_counts (r : Raise) (s : State) : CountsFall s.slots (takeRaise r s).1.slots := by
  unfold takeRaise
  split
  · exact countsFall_of_eq (changeRecord_slots _ _ s)
  · split
    · exact countsFall_of_eq (placeRecord_slots _ _ s)
    · split
      · refine .trans (countsFall_of_eq (placeRecord_slots _ _ s)) (cancelSlots_counts _ _)
      · split
        · exact .refl _
        · unfold foldRaise
          dsimp only
          rw [← noteFolded_slots r.code s]
          split
          · exact countsFall_of_eq (changeRecord_slots _ _ _)
          · exact countsFall_of_eq (placeRecord_slots _ _ _)

theorem takePresent_counts (r : Raise) (s : State) : CountsFall s.slots (takePresent r s).1.slots := by
  unfold takePresent
  split
  · exact takeRaise_counts r s
  · split
    · exact .refl _
    · exact takeRaise_counts r s

theorem takeHoldoffEnd_counts (c : Code) (s : State) : CountsFall s.slots (takeHoldoffEnd c s).1.slots := by
  unfold takeHoldoffEnd
  split
  · exact .refl _
  · split
    · exact retireRecord_counts c s
    · exact .refl _

theorem takeOffer_counts (c : Code) (s : State) : CountsFall s.slots (takeOffer c s).1.slots := by
  unfold takeOffer
  split
  · exact .refl _
  · split
    · exact .refl _
    · unfold fire
      dsimp only
      split
      · exact .refl _
      · exact set_counts (Nat.le_refl _)
      · exact set_counts (Nat.le_refl _)
      · exact set_counts (ended_count _ _)

theorem takeAutoRetire_counts (k : Fin 8) (s : State) : CountsFall s.slots (takeAutoRetire k s).1.slots := by
  unfold takeAutoRetire
  dsimp only
  split
  · split
    · exact .trans (set_counts (ended_count _ _)) (cancelSlots_counts _ _)
    · exact set_counts (ended_count _ _)
  · exact .refl _

theorem takeBoostEnd_counts (k : Fin 8) (s : State) : CountsFall s.slots (takeBoostEnd k s).1.slots := by
  unfold takeBoostEnd
  dsimp only
  split
  · exact set_counts (ended_count _ _)
  · exact .refl _

theorem handle_counts {e : Ev} (h : e.part ≠ .everything) (s : State) : CountsFall s.slots (handle e s).1.slots := by
  by_cases ht : e.part = .table
  · cases e with
    | ctRaise r => exact takeRaise_counts r s
    | ctPresent r => exact takePresent_counts r s
    | ctAbsent c => exact countsFall_of_eq (takeAbsent_slots c s)
    | ctRefresh c cap => exact countsFall_of_eq (takeRefresh_slots c cap s)
    | ctEscalateStep c => exact countsFall_of_eq (takeEscalation_slots c _ _ s)
    | ctEscalateTo c cls cap => exact countsFall_of_eq (takeEscalation_slots c _ _ s)
    | ctHoldoffEnd c => exact takeHoldoffEnd_counts c s
    | ruOffer c => exact takeOffer_counts c s
    | ruAutoRetire k => exact takeAutoRetire_counts k s
    | ruBoostEnd k => exact takeBoostEnd_counts k s
    | _ => exact nomatch ht
  · exact countsFall_of_eq (touched_table (handle_touches e s) ht h).2.2

theorem serve_counts {r : Request} (h : ∀ k c a loops d n, r ≠ .bind k c a loops d n) (l : Link) (s : State) :
    CountsFall s.slots (serve l r s).state.slots := by
  have htouches := serve_touches l r s
  cases r with
  | lookup c => simp only [serve, serveLookup]; split <;> exact .refl _
  | scan a f => simp only [serve, serveScan]; split <;> exact .refl _
  | raise c cls d cap ls y lp =>
    simp only [serve, serveRaise]
    split
    · exact .refl _
    · split
      · exact .refl _
      · split
        · exact .refl _
        · exact takeRaise_counts _ s
  | amend c cap ls y lp =>
    simp only [serve, serveAmend]
    split
    · exact .refl _
    · split
      · exact .refl _
      · split
        · exact .refl _
        · exact countsFall_of_eq (changeRecord_slots _ _ s)
  | ack c =>
    simp only [serve, serveAck]
    split
    · exact .refl _
    · split
      · exact countsFall_of_eq (changeRecord_slots _ _ s)
      · exact .refl _
  | retire c =>
    simp only [serve, serveRetire]
    split
    · exact .refl _
    · split
      · exact .refl _
      · split
        · exact .refl _
        · split
          · exact .refl _
          · exact retireRecord_counts c s
  | bind k c a lp d n => exact absurd rfl (h k c a lp d n)
  | unbind k =>
    simp only [serve, serveUnbind]
    split
    · exact .refl _
    · split
      · exact .refl _
      · split <;> exact set_counts (Nat.zero_le _)
  | _ => exact countsFall_of_eq (touched_table htouches (by simp [Request.part]) (by simp [Request.part])).2.2

end Sys2Proof.Machine
end

section
/-! What the inputs last gave and what an operator chose stays until what moves it (R61, R87, R112 to R119, R143 to R146,
R155, R159, R173, R192, R202): one list of these sites, the events that move each, and the two statements. -/

namespace Sys2Proof.Machine

/-! ## The sites -/

/-- A quantity that stays until what moves it. -/
inductive Site where
  | supply | refHeading | twist | pressure | line (n : Fin 8) | uptime | msec | lineAsserted | straps | address
  | speed | filtered | temperature (l : Fin 3) | flow (l : Fin 3) | report (n : Fin 4) | keyView
  | settings | counts | isolated (n : Fin 8) | demand | startFlag (n : Fin 4)

/-- The quantity stands as it stood; a slot's count may fall. -/
def Site.stands (x : Site) (s t : State) : Prop :=
  match x with
  | .supply => t.sm = s.sm
  | .refHeading => t.wh.refHeading = s.wh.refHeading
  | .twist => t.wh.twist = s.wh.twist
  | .pressure => t.ym.pressure = s.ym.pressure
  | .line n => (t.ym.drives.get n).line = (s.ym.drives.get n).line
  | .uptime => t.uptime = s.uptime
  | .msec => t.msec = s.msec
  | .lineAsserted => t.lineAsserted = s.lineAsserted
  | .straps => t.straps = s.straps
  | .address => t.address = s.address
  | .speed => t.wh.speed = s.wh.speed
  | .filtered => t.wh.filtered = s.wh.filtered
  | .temperature l => (t.cu.loops.get l).tOut = (s.cu.loops.get l).tOut
  | .flow l => (t.cu.loops.get l).flow = (s.cu.loops.get l).flow
  | .report n => (t.lm.lanes.get n).report = (s.lm.lanes.get n).report
  | .keyView => t.keyView = s.keyView
  | .settings => t.settings = s.settings
  | .counts => CountsFall s.slots t.slots
  | .isolated n => (t.ym.drives.get n).state = .isolated ↔ (s.ym.drives.get n).state = .isolated
  | .demand => t.eu.demand = s.eu.demand
  | .startFlag n => (t.lm.lanes.get n).startFlag = (s.lm.lanes.get n).startFlag

/-- The events of inputs, of expiries and of the reset line's assertion that move a quantity. -/
def Site.movedBy (x : Site) (e : Ev) : Prop :=
  match x with
  | .supply => (∃ p, e = .smGrid p) ∨ e = .smSettled ∨ ∃ r, e = .smUps r
  | .refHeading | .twist => ∃ r, e = .whHeading r
  | .pressure => ∃ bar, e = .ymPressure bar
  | .line _ => ∃ lines, e = .ymFaultLines lines
  | .lineAsserted => e = .lineAssert
  | .speed => ∃ p, e = .whAnemometer p
  | .filtered => ∃ r, e = .whVane r
  | .temperature l => ∃ r, e = .cuSample l r
  | .flow l => ∃ b, e = .cuFlow l b
  | .report n => ∃ bytes, e = .lmReport n bytes
  | .keyView => ∃ on, e = .lkKey on
  | _ => False

/-- The requests, other than WARM_RESET, that move a quantity. -/
def Site.movedByRequest (x : Site) (r : Request) : Prop :=
  match x with
  | .twist => ∃ t, r = .setTwist t
  | .settings => (∃ on, r = .setTracking on) ∨ ∃ id v, r = .setSetting id v
  | .counts => ∃ k c a loops d n, r = .bind k c a loops d n
  | .isolated _ => r.isolates
  | .demand => ∃ d, r = .setDemand d
  | .startFlag n => r.starts n
  | _ => False

/-- The quantities that a warm reset clears or sets. -/
def Site.reset : Site → Bool
  | .straps | .address | .speed | .filtered | .temperature _ | .flow _ | .report _ | .keyView => true
  | .demand | .startFlag _ => true
  | _ => false

theorem Site.stands_of_eq {x : Site} {s t : State} (h : t = s) : x.stands s t := by
  subst h
  cases x with
  | counts => exact .refl _
  | isolated n => exact Iff.rfl
  | _ => rfl

theorem Site.stands_trans {x : Site} {a b c : State} (h : x.stands a b) (g : x.stands b c) : x.stands a c := by
  cases x with
  | counts => exact CountsFall.trans h g
  | isolated n => exact Iff.trans g h
  | _ => exact Eq.trans g h

/-! ## Events, requests and resets -/

/-- The clock, the straps and the address are no single block's. -/
theorem touched_clock {p : Part} {s t : State} (h : touched p s t) (he : p ≠ .everything) :
    t.msec = s.msec ∧ t.straps = s.straps ∧ t.address = s.address := by
  cases p with
  | table => exact ⟨congrArg (fun z => z.msec) h, congrArg (fun z => z.straps) h, congrArg (fun z => z.address) h⟩
  | everything => exact absurd rfl he
  | _ =>
    simp only [touched] at h
    rw [h]
    exact ⟨rfl, rfl, rfl⟩

/-- The reset line and the key are the link units' own. -/
theorem touched_line {p : Part} {s t : State} (h : touched p s t) (hl : p ≠ .links) (he : p ≠ .everything) :
    t.lineAsserted = s.lineAsserted ∧ t.keyView = s.keyView := by
  cases p with
  | table => exact ⟨congrArg (fun z => z.lineAsserted) h, congrArg (fun z => z.keyView) h⟩
  | links => exact absurd rfl hl
  | everything => exact absurd rfl he
  | _ =>
    simp only [touched] at h
    rw [h]
    exact ⟨rfl, rfl⟩

theorem handle_line {e : Ev} (he : e.part ≠ .everything) (s : State) :
    (e ≠ .lineAssert → (handle e s).1.lineAsserted = s.lineAsserted) ∧
    ((∀ on, e ≠ .lkKey on) → (handle e s).1.keyView = s.keyView) := by
  by_cases hp : e.part = .links
  · cases e with
    | lineAssert => exact ⟨fun h => absurd rfl h, fun _ => rfl⟩
    | lkKey on => exact ⟨fun _ => rfl, fun h => absurd rfl (h on)⟩
    | lkSilence =>
      simp only [handle, takeSilenceExpiry]
      split <;> exact ⟨fun _ => rfl, fun _ => rfl⟩
    | lkStart l addr good bytes =>
      simp only [handle, takeStart]
      split
      · split <;> exact ⟨fun _ => rfl, fun _ => rfl⟩
      · exact ⟨fun _ => rfl, fun _ => rfl⟩
    | lkStop l =>
      simp only [handle, takeFrameStop, Act.guarded, takeStop]
      split
      · split
        · split <;> exact ⟨fun _ => rfl, fun _ => rfl⟩
        all_goals exact ⟨fun _ => rfl, fun _ => rfl⟩
      · exact ⟨fun _ => rfl, fun _ => rfl⟩
    | lkByte l b good =>
      simp only [handle, takeByte, Act.guarded]
      split <;> exact ⟨fun _ => rfl, fun _ => rfl⟩
    | lkPoisonStop l =>
      simp only [handle, takePoisonStop, Act.guarded]
      split <;> exact ⟨fun _ => rfl, fun _ => rfl⟩
    | lkRead l clocked =>
      simp only [handle, takeRead]
      split
      · split <;> exact ⟨fun _ => rfl, fun _ => rfl⟩
      · exact ⟨fun _ => rfl, fun _ => rfl⟩
    | lkAttention l =>
      simp only [handle, takeAttention]
      split <;> exact ⟨fun _ => rfl, fun _ => rfl⟩
    | lkAttentionSlot l ack =>
      simp only [handle, takeAttentionSlot]
      split
      · split <;> exact ⟨fun _ => rfl, fun _ => rfl⟩
      · exact ⟨fun _ => rfl, fun _ => rfl⟩
    | lkPayloadDone l =>
      simp only [handle, takePayloadDone]
      split <;> exact ⟨fun _ => rfl, fun _ => rfl⟩
    | lkPayloadCut l =>
      simp only [handle, takePayloadCut]
      split <;> exact ⟨fun _ => rfl, fun _ => rfl⟩
    | lkRequest l r =>
      simp only [handle, takeRequest]
      split
      · split <;> exact ⟨fun _ => rfl, fun _ => rfl⟩
      · exact ⟨fun _ => rfl, fun _ => rfl⟩
    | lkBegin l r => cases l <;> exact ⟨fun _ => rfl, fun _ => rfl⟩
    | lkOpen l addr good bytes | lkSend l clocked | lkReset l => exact ⟨fun _ => rfl, fun _ => rfl⟩
    | _ => exact nomatch hp
  · obtain ⟨hline, hkey⟩ := touched_line (handle_touches e s) hp he
    exact ⟨fun _ => hline, fun _ => hkey⟩

theorem deliveredLane_kept (auto full : Bool) (old : LaneSet) (m : LaneManager) (n : Fin 4) (x : Lane) :
    (deliveredLane auto old full m n x).report = x.report ∧
    (deliveredLane auto old full m n x).startFlag = x.startFlag := by
  have hevaluated (y : Lane) : (m.evaluated auto n y).report = y.report ∧
      (m.evaluated auto n y).startFlag = y.startFlag := by
    unfold LaneManager.evaluated
    split
    · split <;> exact ⟨rfl, rfl⟩
    · exact ⟨rfl, rfl⟩
  have hexcluded : (whenExcluded x).report = x.report ∧ (whenExcluded x).startFlag = x.startFlag := by
    unfold whenExcluded
    split
    · split <;> exact ⟨rfl, rfl⟩
    all_goals exact ⟨rfl, rfl⟩
  unfold deliveredLane
  split
  · split
    · exact hexcluded
    · split
      · exact hevaluated x
      · exact hevaluated (x.goes .offline)
      · exact ⟨rfl, rfl⟩
      · exact ⟨rfl, rfl⟩
  · exact ⟨rfl, rfl⟩

section
variable {e : Ev} (he : e.part ≠ .everything) (s : State)
include he

/-- An event of a lane moves the last report where it is the lane's report, and no event moves a start flag. -/
theorem event_lanes (n : Fin 4) :
    ((∀ bytes, e ≠ .lmReport n bytes) → ((handle e s).1.lm.lanes.get n).report = (s.lm.lanes.get n).report) ∧
    ((handle e s).1.lm.lanes.get n).startFlag = (s.lm.lanes.get n).startFlag := by
  by_cases hx : ∃ set full, e = .lmExcluded set full
  · obtain ⟨set, full, rfl⟩ := hx
    have hlane : ((handle (.lmExcluded set full) s).1.lm.lanes.get n) =
        deliveredLane (s.settingOn 2) s.lm.excluded full { s.lm with excluded := set } n (s.lm.lanes.get n) := by
      rw [show handle (.lmExcluded set full) s = takeExcluded set full s from rfl, takeExcluded_eq]
      exact Four.get_ofFn _ n
    rw [hlane]
    obtain ⟨hreport, hflag⟩ := deliveredLane_kept (s.settingOn 2) full s.lm.excluded { s.lm with excluded := set } n
      (s.lm.lanes.get n)
    exact ⟨fun _ => hreport, hflag⟩
  · by_cases hp : e.part = .lm
    · have hkept := handle_lanes hp (fun set full h => hx ⟨set, full, h⟩) s
      exact ⟨fun h => hkept.report n fun ⟨bytes, hb⟩ => h bytes hb, hkept.startFlag n id⟩
    · rw [touched_lm (handle_touches e s) hp he]
      exact ⟨fun _ => rfl, rfl⟩

theorem event_stands {x : Site} (h : ¬x.movedBy e) : x.stands s (handle e s).1 := by
  have htouches := handle_touches e s
  obtain ⟨hmsec, hstraps, haddress⟩ := touched_clock htouches he
  have hwind := event_wind he s
  have hyaw := event_yaw he s
  have hcooling := event_cooling he s
  cases x with
  | supply =>
    refine touched_sm htouches (fun hp => h ?_) he
    cases e with
    | smGrid p => exact .inl ⟨p, rfl⟩
    | smSettled => exact .inr (.inl rfl)
    | smUps r => exact .inr (.inr ⟨r, rfl⟩)
    | _ => exact nomatch hp
  | refHeading => exact hwind.refHeading fun r hr => h ⟨r, hr⟩
  | twist => exact hwind.twist fun r hr => h ⟨r, hr⟩
  | pressure =>
    refine hyaw.pressure.trans ?_
    cases e with
    | ymPressure bar => exact absurd ⟨bar, rfl⟩ h
    | _ => rfl
  | line n =>
    have hdrives : (e.toYaw s.ym).drives = s.ym.drives := by cases e <;> rfl
    exact (hyaw.line h n).trans (by rw [hdrives])
  | uptime => exact touched_uptime htouches he
  | msec => exact hmsec
  | lineAsserted => exact (handle_line he s).1 h
  | straps => exact hstraps
  | address => exact haddress
  | speed => exact hwind.speed fun p hp => h ⟨p, hp⟩
  | filtered => exact hwind.filtered fun r hr => h ⟨r, hr⟩
  | temperature l =>
    have hloops : (e.toCooling s.cu).loops = s.cu.loops := by cases e <;> rfl
    exact (hcooling.tOut l h).trans (by rw [hloops])
  | flow l =>
    have hloops : (e.toCooling s.cu).loops = s.cu.loops := by cases e <;> rfl
    exact (hcooling.flow l h).trans (by rw [hloops])
  | report n => exact (event_lanes he s n).1 fun bytes hb => h ⟨bytes, hb⟩
  | keyView => exact (handle_line he s).2 fun on hon => h ⟨on, hon⟩
  | settings => exact touched_settings htouches e.part_ne_settings he
  | counts => exact handle_counts he s
  | isolated n =>
    have hdrives : (e.toYaw s.ym).drives = s.ym.drives := by cases e <;> rfl
    exact (hyaw.isolated id n).trans (by rw [hdrives])
  | demand =>
    have hdemand : (e.toEnvelope s.eu).demand = s.eu.demand := by cases e <;> rfl
    exact (event_envelope he s).demand.trans hdemand
  | startFlag n => exact (event_lanes he s n).2

end

theorem serve_stands {x : Site} {r : Request} (h : ¬x.movedByRequest r) (l : Link) (s : State) :
    x.stands s (serve l r s).state := by
  have htouches := serve_touches l r s
  obtain ⟨hmsec, hstraps, haddress⟩ := touched_clock htouches r.part_ne_everything
  have hlinks : r.part ≠ .links := by cases r <;> exact fun hp => nomatch hp
  obtain ⟨hline, hkey⟩ := touched_line htouches hlinks r.part_ne_everything
  obtain ⟨hwind, -, hheading, hspeed, hfiltered⟩ := serve_wind l r s
  have hyaw := serve_yaw l r s
  have hcooling := serve_cooling l r s
  have hlanes := serve_lanes l r s
  cases x with
  | supply => exact touched_sm htouches (by cases r <;> exact fun hp => nomatch hp) r.part_ne_everything
  | refHeading => exact hheading
  | twist => exact congrArg Wind.twist (hwind fun t ht => h ⟨t, ht⟩)
  | pressure => exact hyaw.pressure
  | line n => exact hyaw.line id n
  | uptime => exact touched_uptime htouches r.part_ne_everything
  | msec => exact hmsec
  | lineAsserted => exact hline
  | straps => exact hstraps
  | address => exact haddress
  | speed => exact hspeed
  | filtered => exact hfiltered
  | temperature l => exact hcooling.tOut l id
  | flow l => exact hcooling.flow l id
  | report n => exact hlanes.report n id
  | keyView => exact hkey
  | settings =>
    refine touched_settings htouches (fun hp => h ?_) r.part_ne_everything
    cases r with
    | setTracking on => exact .inl ⟨on, rfl⟩
    | setSetting id v => exact .inr ⟨id, v, rfl⟩
    | _ => exact nomatch hp
  | counts => exact serve_counts (fun k c a loops d n hb => h ⟨k, c, a, loops, d, n, hb⟩) l s
  | isolated n => exact hyaw.isolated h n
  | demand => exact congrArg Envelope.demand ((serve_envelope l r s).1 fun d hd => h ⟨d, hd⟩)
  | startFlag n => exact hlanes.startFlag n h

/-! ## A warm reset -/

/-- The blocks right after a warm reset, before what it hands on (R30, R58, R85, R86, R126, R153, R172, R180, R183). -/
theorem warmStart_eq (d : Nat) (straps : Fin 4) (s : State) :
    (takeWarmStart d straps s).1 =
      { s with
        straps := straps
        address := strapAddress straps
        table := retention s.uptime s.table
        limits := resolve (retention s.uptime s.table)
        slots := discardPending s.slots
        eu := s.eu.afterReset
        lm := LaneManager.initial
        wh := s.wh.afterReset
        ym := (takeWarmStart d straps s).1.ym
        cu := Cooling.afterReset (retention s.uptime s.table)
        links := (takeWarmStart d straps s).1.links
        silence := silenceStart s.settings
        silenceView := false
        keyView := false
        keyOwed := true } := by
  simp only [takeWarmStart, State.warmValues]
  rw [askRetained_eq]

theorem startTracking_only (s : State) : chainOnly s.ym (startTracking s).1 := by
  unfold startTracking
  split
  · exact insert_only _ _ _
  · rfl

/-- At a warm reset TRACK alone enters the chain of the yaw motion unit (R153). -/
theorem warmStart_yaw (d : Nat) (straps : Fin 4) (s : State) :
    chainOnly s.ym.afterReset (takeWarmStart d straps s).1.ym := by
  have hym : (s.warmValues straps).ym = s.ym.afterReset := by
    simp only [State.warmValues]
    rw [askRetained_eq]
  rw [← hym]
  exact startTracking_only _

theorem warmStart_drive (d : Nat) (straps : Fin 4) (s : State) (n : Fin 8) :
    (takeWarmStart d straps s).1.ym.drives.get n = (s.ym.drives.get n).afterReset := by
  rw [warmStart_yaw d straps s]
  exact Eight.get_map _ _ _

theorem warmStart_stands {x : Site} (h : x.reset = false) (d : Nat) (straps : Fin 4) (s : State) :
    x.stands s (takeWarmStart d straps s).1 := by
  have heq := warmStart_eq d straps s
  cases x with
  | supply => exact takeWarmStart_sm d straps s
  | settings => exact takeWarmStart_settings d straps s
  | refHeading => exact congrArg (fun t => t.wh.refHeading) heq
  | twist => exact congrArg (fun t => t.wh.twist) heq
  | pressure =>
    simp only [Site.stands]
    rw [warmStart_yaw d straps s]
    rfl
  | line n =>
    simp only [Site.stands]
    rw [warmStart_drive]
    rfl
  | uptime => exact congrArg (fun t => t.uptime) heq
  | msec => exact congrArg (fun t => t.msec) heq
  | lineAsserted => exact congrArg (fun t => t.lineAsserted) heq
  | counts => exact .trans (discardPending_counts s.slots) (countsFall_of_eq (takeWarmStart_slots d straps s))
  | isolated n =>
    simp only [Site.stands]
    rw [warmStart_drive]
    simp only [Drive.afterReset]
    split <;> simp [*]
  | _ => exact nomatch h

/-! ## A whole command -/

/-- What the blocks hand one another moves no site. -/
theorem Ev.inner.moves {e : Ev} (h : e.inner) (x : Site) : ¬x.movedBy e := by
  cases x with
  | supply => rintro (⟨p, rfl⟩ | rfl | ⟨r, rfl⟩) <;> exact nomatch h
  | lineAsserted => rintro rfl; exact nomatch h
  | uptime | msec | straps | address | settings | counts | isolated _ | demand | startFlag _ => exact id
  | _ => rintro ⟨_, rfl⟩; exact nomatch h

theorem Ev.inner.part {e : Ev} (h : e.inner) : e.part ≠ .everything := by
  cases e with
  | lkServe _ _ | coldStart _ | lineRelease _ => exact nomatch h
  | _ => exact fun hp => nomatch hp

/-- What a command moves, by its own event or by its request. -/
def Site.movedByCommand (x : Site) (c : Instr) : Prop :=
  x.movedBy (firstEvent c) ∨ ∃ l r, firstEvent c = .lkRequest l r ∧ x.movedByRequest r

/-- What a command moves by resetting the part. -/
def Site.clearedBy (x : Site) (c : Instr) : Prop :=
  x.reset = true ∧ ((∃ straps, c = .resetLineRelease straps) ∨ ∃ l straps, c = .warmReset l straps) ∨
  x = .lineAsserted ∧ ∃ straps, c = .resetLineRelease straps

theorem unsettled_stands {x : Site} (s : State) (evs : List Ev) : x.stands s { s with unsettled := evs } := by
  cases x with
  | counts => exact .refl _
  | isolated n => exact Iff.rfl
  | _ => rfl

theorem storeResponse_stands {x : Site} (l : Link) (checked : Bool) (a : Answer) (s : State) :
    x.stands s (storeResponse l checked a s) := by
  cases x with
  | counts => exact .refl _
  | isolated n => exact Iff.rfl
  | _ => rfl

theorem takeServe_stands {x : Site} {l : Link} {r : Request} (hr : ¬x.movedByRequest r)
    (hreset : x.reset = true → ∀ straps, r ≠ .warmReset straps) (s : State) : x.stands s (takeServe l r s).1 := by
  unfold takeServe
  split
  next straps =>
    have hx : x.reset = false := by
      cases h : x.reset with
      | false => rfl
      | true => exact absurd rfl (hreset h straps)
    exact Site.stands_trans (warmStart_stands hx _ straps s) (storeResponse_stands _ _ _ _)
  · exact Site.stands_trans (serve_stands hr l s) (storeResponse_stands _ _ _ _)

/-- A command that carries a request WARM_RESET is the command WARM_RESET. -/
theorem warmReset_of_firstEvent {c : Instr} {l : Link} {straps : Fin 4}
    (h : firstEvent c = .lkRequest l (.warmReset straps)) : c = .warmReset l straps := by
  cases c with
  | warmReset k p => cases h; rfl
  | _ => exact nomatch h

theorem lineRelease_of_firstEvent {c : Instr} {straps : Fin 4} (h : firstEvent c = .lineRelease straps) :
    c = .resetLineRelease straps := by
  cases c with
  | resetLineRelease p => cases h; rfl
  | _ => exact nomatch h

theorem coldStart_of_firstEvent {c : Instr} {straps : Fin 4} (h : firstEvent c = .coldStart straps) :
    c = .coldPowerUp straps := by
  cases c with
  | coldPowerUp p => cases h; rfl
  | _ => exact nomatch h

/-- A site that a command neither moves nor clears stands after it. -/
theorem exec_stands {x : Site} {c : Instr} {s t : State} (hs : s.between) (h : exec c s = .next t)
    (hcold : ∀ straps, c ≠ .coldPowerUp straps) (hmoved : ¬x.movedByCommand c) (hcleared : ¬x.clearedBy c) :
    x.stands s t := by
  have hevent : ¬x.movedBy (firstEvent c) := fun hm => hmoved (.inl hm)
  refine exec_reaches (P := fun z => x.stands s z) hs h
    (fun z evs hz => Site.stands_trans hz (unsettled_stands z evs)) ?_ fun e z he hz =>
      Site.stands_trans hz ?_
  · by_cases hpart : (firstEvent c).part = .everything
    · have hfirst := firstEvent_isFirst c
      cases he : firstEvent c with
      | coldStart straps => exact absurd (coldStart_of_firstEvent he) (hcold straps)
      | lineRelease straps =>
        have hx : x.reset = false := by
          cases hr : x.reset with
          | false => rfl
          | true => exact absurd (.inl ⟨hr, .inl ⟨straps, lineRelease_of_firstEvent he⟩⟩) hcleared
        refine Site.stands_trans (b := { s with lineAsserted := false }) ?_ (warmStart_stands hx 1 straps _)
        cases x with
        | lineAsserted => exact absurd (.inr ⟨rfl, straps, lineRelease_of_firstEvent he⟩) hcleared
        | counts => exact .refl _
        | isolated n => exact Iff.rfl
        | _ => rfl
      | lkServe l r =>
        rw [he] at hfirst
        exact nomatch hfirst
      | _ =>
        rw [he] at hpart
        exact nomatch hpart
    · exact event_stands hpart s hevent
  · cases he with
    | inner hi => exact event_stands hi.part z (hi.moves x)
    | @opened l addr good bytes _ =>
      exact event_stands (e := .lkOpen l addr good bytes) nofun z (by cases x <;> simp [Site.movedBy])
    | @sent l clocked _ => exact event_stands (e := .lkSend l clocked) nofun z (by cases x <;> simp [Site.movedBy])
    | @begun l r _ => exact event_stands (e := .lkBegin l r) nofun z (by cases x <;> simp [Site.movedBy])
    | @served l r hr =>
      refine takeServe_stands (fun hm => hmoved (.inr ⟨l, r, hr, hm⟩)) (fun hx straps hw => hcleared ?_) z
      subst hw
      exact .inl ⟨hx, .inr ⟨l, straps, warmReset_of_firstEvent hr⟩⟩

end Sys2Proof.Machine
end

section
/-! The inputs hold their last read, and settings and an operator's choices stand, site by site (R45, R61, R87, R112 to
R119, R143 to R146, R155, R159, R173, R192, R202). -/

namespace Sys2Proof.Machine

/-- The command that an event of an input, of an expiry or of a link is. -/
def Ev.given : Ev → Option Instr
  | .smGrid p => some (.gridRead p)
  | .smSettled => some .gridSettleComplete
  | .smUps r => some (.upsSample r)
  | .whHeading r => some (.headingRead r)
  | .whVane r => some (.vaneSample r)
  | .whAnemometer p => some (.anemometerSample p)
  | .ymPressure bar => some (.brakePressureRead bar)
  | .ymFaultLines lines => some (.driveFaultRead lines)
  | .cuSample l r => some (.temperatureSample l r)
  | .cuFlow l b => some (.flowRead l b)
  | .lmReport n bytes => some (.laneReport n bytes)
  | .lkKey on => some (.keySwitchRead on)
  | .lineAssert => some .resetLineAssert
  | .lkRequest l r => r.command l
  | _ => none

/-- A command is the one command that its event can be. -/
theorem given_firstEvent {c d : Instr} {e : Ev} (he : firstEvent c = e) (hd : e.given = some d) : c = d := by
  subst he
  cases c <;> cases hd <;> rfl

theorem movedByCommand_supply {c : Instr} (h : Site.supply.movedByCommand c) :
    (∃ p, c = .gridRead p) ∨ c = .gridSettleComplete ∨ ∃ r, c = .upsSample r := by
  rcases h with (⟨p, he⟩ | he | ⟨r, he⟩) | ⟨l, r, -, hr⟩
  · exact .inl ⟨p, given_firstEvent he rfl⟩
  · exact .inr (.inl (given_firstEvent he rfl))
  · exact .inr (.inr ⟨r, given_firstEvent he rfl⟩)
  · exact hr.elim

/-- The drives that a request isolates or returns are those of the two drive requests. -/
theorem movedByCommand_isolated {c : Instr} {n : Fin 8} (h : (Site.isolated n).movedByCommand c) :
    (∃ l k, c = .driveIsolate l k) ∨ ∃ l k, c = .driveReturn l k := by
  rcases h with he | ⟨l, r, he, ⟨k, rfl⟩ | ⟨k, rfl⟩⟩
  · exact he.elim
  · exact .inl ⟨l, k, given_firstEvent he rfl⟩
  · exact .inr ⟨l, k, given_firstEvent he rfl⟩

theorem movedByCommand_startFlag {c : Instr} {n : Fin 4} (h : (Site.startFlag n).movedByCommand c) :
    (∃ l k, c = .laneStart l k) ∨ ∃ l k, c = .laneStop l k := by
  rcases h with he | ⟨l, r, he, rfl | rfl⟩
  · exact he.elim
  · exact .inl ⟨l, n.val, given_firstEvent he rfl⟩
  · exact .inr ⟨l, n.val, given_firstEvent he rfl⟩

theorem movedByCommand_settings {c : Instr} (h : Site.settings.movedByCommand c) :
    (∃ l on, c = .setTracking l on) ∨ ∃ l id v, c = .setSetting l id v := by
  rcases h with he | ⟨l, r, he, ⟨on, rfl⟩ | ⟨id, v, rfl⟩⟩
  · exact he.elim
  · exact .inl ⟨l, on, given_firstEvent he rfl⟩
  · exact .inr ⟨l, id, v, given_firstEvent he rfl⟩

theorem movedByCommand_twist {c : Instr} (h : Site.twist.movedByCommand c) :
    (∃ r, c = .headingRead r) ∨ ∃ l t, c = .setTwist l t := by
  rcases h with ⟨r, he⟩ | ⟨l, r, he, t, rfl⟩
  · exact .inl ⟨r, given_firstEvent he rfl⟩
  · exact .inr ⟨l, t, given_firstEvent he rfl⟩

/-- A site that one kind of input event moves, and no request. -/
theorem movedByCommand_input {x : Site} {α : Type} {f : α → Ev} {g : α → Instr} {c : Instr}
    (hx : ∀ e, x.movedBy e → ∃ a, e = f a) (hr : ∀ r, ¬x.movedByRequest r) (hg : ∀ a, (f a).given = some (g a))
    (h : x.movedByCommand c) : ∃ a, c = g a := by
  rcases h with he | ⟨l, r, -, hm⟩
  · obtain ⟨a, ha⟩ := hx _ he
    exact ⟨a, given_firstEvent ha (hg a)⟩
  · exact (hr r hm).elim

theorem movedByCommand_none {x : Site} {c : Instr} (hx : ∀ e, ¬x.movedBy e) (hr : ∀ r, ¬x.movedByRequest r) :
    ¬x.movedByCommand c := by
  rintro (he | ⟨l, r, -, hm⟩)
  · exact hx _ he
  · exact hr r hm

/-- Only a reset clears a site, the level of the reset line apart. -/
theorem notCleared {x : Site} {c : Instr} (hx : x ≠ .lineAsserted) (hrelease : ∀ straps, c ≠ .resetLineRelease straps)
    (hwarm : ∀ l straps, c ≠ .warmReset l straps) : ¬x.clearedBy c := by
  rintro (⟨-, ⟨straps, hc⟩ | ⟨l, straps, hc⟩⟩ | ⟨hl, -⟩)
  · exact hrelease straps hc
  · exact hwarm l straps hc
  · exact hx hl

/-- What a warm reset keeps, no command clears. -/
theorem notCleared_of_kept {x : Site} {c : Instr} (hx : x.reset = false) (hl : x ≠ .lineAsserted) : ¬x.clearedBy c := by
  rintro (⟨hreset, -⟩ | ⟨rfl, -⟩)
  · rw [hx] at hreset
    exact nomatch hreset
  · exact hl rfl

/-- Settles O18: each site's own read or request is the only command that moves it, and resets alone clear it. -/
theorem inputsHoldTheirLastRead : Obligations.InputsHoldTheirLastRead := by
  intro c s t hs h hcold
  have hstands {x : Site} (hmoved : ¬x.movedByCommand c) (hcleared : ¬x.clearedBy c) : x.stands s t :=
    exec_stands hs h hcold hmoved hcleared
  have hlasts {x : Site} (hx : x.reset = false) (hl : x ≠ .lineAsserted) : ¬x.clearedBy c := notCleared_of_kept hx hl
  refine ⟨fun hgrid hsettle hups => hstands (x := .supply) (fun hm => ?_) (hlasts rfl nofun), fun hheading =>
    ⟨hstands (x := .refHeading) (fun hm => ?_) (hlasts rfl nofun), fun htwist =>
      hstands (x := .twist) (fun hm => ?_) (hlasts rfl nofun)⟩,
    fun hbar => hstands (x := .pressure) (fun hm => ?_) (hlasts rfl nofun),
    fun hlines n => hstands (x := .line n) (fun hm => ?_) (hlasts rfl nofun),
    hstands (x := .uptime) (movedByCommand_none (fun _ => id) fun _ => id) (hlasts rfl nofun),
    hstands (x := .msec) (movedByCommand_none (fun _ => id) fun _ => id) (hlasts rfl nofun), fun hrelease => ?_⟩
  · rcases movedByCommand_supply hm with ⟨p, rfl⟩ | rfl | ⟨r, rfl⟩
    · exact hgrid p rfl
    · exact hsettle rfl
    · exact hups r rfl
  · obtain ⟨r, rfl⟩ := movedByCommand_input (g := .headingRead) (fun _ => id) (fun _ => id) (fun _ => rfl) hm
    exact hheading r rfl
  · rcases movedByCommand_twist hm with ⟨r, rfl⟩ | ⟨l, v, rfl⟩
    · exact hheading r rfl
    · exact htwist l v rfl
  · obtain ⟨bar, rfl⟩ := movedByCommand_input (g := .brakePressureRead) (fun _ => id) (fun _ => id) (fun _ => rfl) hm
    exact hbar bar rfl
  · obtain ⟨lines, rfl⟩ := movedByCommand_input (g := .driveFaultRead) (fun _ => id) (fun _ => id) (fun _ => rfl) hm
    exact hlines lines rfl
  refine ⟨fun hassert => hstands (x := .lineAsserted) ?_ ?_, fun hwarm => ?_⟩
  · rintro (he | ⟨l, r, -, hm⟩)
    · exact hassert (given_firstEvent he rfl)
    · exact hm
  · rintro (⟨hreset, -⟩ | ⟨-, straps, hc⟩)
    · exact nomatch hreset
    · exact hrelease straps hc
  have hkeeps {x : Site} (hl : x ≠ .lineAsserted) : ¬x.clearedBy c := notCleared hl hrelease hwarm
  have hinput {x : Site} {α : Type} {f : α → Ev} {g : α → Instr} (hl : x ≠ .lineAsserted)
      (hx : ∀ e, x.movedBy e → ∃ a, e = f a) (hr : ∀ r, ¬x.movedByRequest r) (hg : ∀ a, (f a).given = some (g a))
      (hc : ∀ a, c ≠ g a) : x.stands s t := by
    refine hstands (fun hm => ?_) (hkeeps hl)
    obtain ⟨a, ha⟩ := movedByCommand_input hx hr hg hm
    exact hc a ha
  exact ⟨hstands (x := .straps) (movedByCommand_none (fun _ => id) fun _ => id) (hkeeps nofun),
    hstands (x := .address) (movedByCommand_none (fun _ => id) fun _ => id) (hkeeps nofun),
    hinput (x := .speed) nofun (fun _ => id) (fun _ => id) (fun _ => rfl),
    hinput (x := .filtered) nofun (fun _ => id) (fun _ => id) (fun _ => rfl),
    fun l => hinput (x := .temperature l) nofun (fun _ => id) (fun _ => id) (fun _ => rfl),
    fun l => hinput (x := .flow l) nofun (fun _ => id) (fun _ => id) (fun _ => rfl),
    fun n => hinput (x := .report n) nofun (fun _ => id) (fun _ => id) (fun _ => rfl),
    hinput (x := .keyView) nofun (fun _ => id) (fun _ => id) (fun _ => rfl)⟩

/-! ## The clock -/

/-- What the clock brings: an expiry that waits, an expiry, or what the blocks hand one another. -/
def Ev.timed (e : Ev) : Prop := e.inner ∨ e.kind = .expiry ∨ e.kind = .due

theorem kind_of_everything {e : Ev} (h : e.part = .everything) : e.kind = .served ∨ e.kind = .reset := by
  cases e with
  | lkServe _ _ => exact .inl rfl
  | coldStart _ | lineRelease _ => exact .inr rfl
  | _ => exact nomatch h

theorem Ev.timed.part {e : Ev} (h : e.timed) : e.part ≠ .everything := by
  intro he
  rcases h with h | h | h
  · exact h.part he
  all_goals rcases kind_of_everything he with hk | hk <;> exact nomatch h.symm.trans hk

theorem Ev.timed.handsOn {e : Ev} (h : e.timed) (s : State) : ∀ x ∈ (handle e s).2, x.timed := by
  rcases h with h | h | h
  · exact fun x hx => .inl (inner_of_emits (handle_emits e s) (handsOn_inner h) x hx)
  · have hinner : e.handsOn.all EvKind.inner = true := by
      cases e with
      | ctHoldoffEnd _ | ruAutoRetire _ | ruBoostEnd _ | euRampStep | lmSilence _ | lmTimeout _ _ | ymJogEnd => rfl
      | ymBrakeTimer | ymSettleEnd | cuPrimeTimeout _ | smSettled | lkSilence => rfl
      | _ => exact nomatch h
    exact fun x hx => .inl (inner_of_emits (handle_emits e s) hinner x hx)
  · have hexpiry : e.handsOn = [.expiry] := by
      cases e with
      | due _ => rfl
      | _ => exact nomatch h
    refine fun x hx => .inr (.inl ?_)
    simpa [hexpiry] using handle_emits e s x hx

theorem tick_settings {s t : State} (hu : s.unsettled = []) (h : tick s = .next t) : t.settings = s.settings := by
  refine tick_keeps (P := fun z => z.settings = s.settings) (Q := Ev.timed) (fun _ _ hz _ => hz)
    (fun e z he hz => ⟨?_, he.handsOn z⟩) (by simp [hu]) (fun i => .inr (.inr rfl)) h fun n => ?_
  · exact (touched_settings (handle_touches e z) e.part_ne_settings he.part).trans hz
  · show s.advance.settings = s.settings
    unfold State.advance
    dsimp only
    split <;> rfl

/-- Settles O19: each choice's own request is the only command that moves it, and resets alone clear it. -/
theorem settingsAndChoicesStand : Obligations.SettingsAndChoicesStand := by
  refine ⟨fun c s t hs h hset htrack hcold => ?_, fun s t hs hp hstep => ?_, fun c s t hs h hcold => ?_⟩
  · refine exec_stands (x := .settings) hs h hcold (fun hm => ?_) (notCleared_of_kept rfl nofun)
    rcases movedByCommand_settings hm with ⟨l, on, rfl⟩ | ⟨l, id, v, rfl⟩
    · exact htrack l on rfl
    · exact hset l id v rfl
  · rw [step, hp] at hstep
    exact tick_settings hs.1 hstep
  have hstands {x : Site} (hmoved : ¬x.movedByCommand c) (hcleared : ¬x.clearedBy c) : x.stands s t :=
    exec_stands hs h hcold hmoved hcleared
  refine ⟨fun hbind => ?_, fun hisolate hreturn n => ?_, fun hrelease hwarm => ⟨fun hdemand => ?_, fun hstart hstop n => ?_⟩⟩
  · refine hstands (x := .counts) ?_ (notCleared_of_kept rfl nofun)
    rintro (he | ⟨l, r, he, slot, d, a, loops, delay, n, rfl⟩)
    · exact he
    · exact hbind l slot d a loops delay n (given_firstEvent he rfl)
  · refine hstands (x := .isolated n) (fun hm => ?_) (notCleared_of_kept rfl nofun)
    rcases movedByCommand_isolated hm with ⟨l, k, rfl⟩ | ⟨l, k, rfl⟩
    · exact hisolate l k rfl
    · exact hreturn l k rfl
  · refine hstands (x := .demand) ?_ ?_
    · rintro (he | ⟨l, r, he, d, rfl⟩)
      · exact he
      · exact hdemand l d (given_firstEvent he rfl)
    · exact notCleared nofun hrelease hwarm
  · refine hstands (x := .startFlag n) (fun hm => ?_) ?_
    · rcases movedByCommand_startFlag hm with ⟨l, k, rfl⟩ | ⟨l, k, rfl⟩
      · exact hstart l k rfl
      · exact hstop l k rfl
    · exact notCleared nofun hrelease hwarm

end Sys2Proof.Machine
end

section
/-! What happens on one link leaves the other link's unit as it was, apart from its attention marks (R183, R195, R198). -/

namespace Sys2Proof.Machine

/-- The unit of a link is the same in both states, apart from its attention marks. -/
def SameUnit (l : Link) (s t : State) : Prop :=
  (t.links.get l).apartFromAttention = (s.links.get l).apartFromAttention

theorem SameUnit.refl (l : Link) (s : State) : SameUnit l s s := rfl

theorem SameUnit.trans {l : Link} {a b c : State} (h : SameUnit l a b) (g : SameUnit l b c) : SameUnit l a c :=
  Eq.trans g h

theorem setLink_sameUnit {k l : Link} (h : k ≠ l) (u : LinkUnit) (s : State) : SameUnit l s (s.setLink k u) := by
  simp only [SameUnit, State.setLink, PerLink.get_set, if_neg h]

/-- The table asks for attention; nothing but the link units moves anything else of a link. -/
theorem touched_sameUnit {p : Part} {s t : State} (h : touched p s t) (hl : p ≠ .links) (he : p ≠ .everything) (l : Link) :
    SameUnit l s t := by
  cases p with
  | table =>
    have hlinks : (⟨t.links.main.unasked, t.links.service.unasked⟩ : PerLink LinkUnit) =
        ⟨s.links.main.unasked, s.links.service.unasked⟩ := congrArg State.links h
    cases l with
    | main => exact congrArg PerLink.main hlinks
    | service => exact congrArg PerLink.service hlinks
  | links => exact absurd rfl hl
  | everything => exact absurd rfl he
  | _ =>
    simp only [touched] at h
    rw [h]
    exact .refl l s

/-- The link that an event of a frame, a link reset or a request concerns. -/
def Ev.link : Ev → Option Link
  | .lkStart l _ _ _ | .lkOpen l _ _ _ | .lkByte l _ _ | .lkStop l | .lkPoisonStop l | .lkRead l _ | .lkSend l _ => some l
  | .lkReset l | .lkAttention l | .lkAttentionSlot l _ | .lkPayloadDone l | .lkPayloadCut l => some l
  | .lkRequest l _ | .lkBegin l _ | .lkServe l _ => some l
  | _ => none

/-- The link that a command's own event concerns. -/
theorem firstEvent_link (c : Instr) :
    (firstEvent c).link = match c with | .linkReset l => some l | _ => frameLink c := by
  cases c <;> rfl

/-- An event that concerns another link or none leaves a link's unit as it is. -/
theorem handle_sameUnit {e : Ev} {l : Link} (he : e.part ≠ .everything) (hl : e.link ≠ some l) (hline : e ≠ .lineAssert)
    (s : State) : SameUnit l s (handle e s).1 := by
  have hset {k : Link} (hk : some k ≠ some l) (u : LinkUnit) : SameUnit l s (s.setLink k u) :=
    setLink_sameUnit (fun h => hk (congrArg some h)) u s
  by_cases hp : e.part = .links
  · cases e with
    | lineAssert => exact absurd rfl hline
    | lkKey on => exact .refl l s
    | lkSilence =>
      simp only [handle, takeSilenceExpiry]
      split <;> exact .refl l s
    | lkStart k addr good bytes =>
      simp only [handle, takeStart]
      split
      · split <;> exact .refl l s
      · exact .refl l s
    | lkOpen k addr good bytes => exact hset hl _
    | lkByte k b good =>
      simp only [handle, takeByte, Act.guarded]
      split
      · exact hset hl _
      · exact .refl l s
    | lkStop k =>
      simp only [handle, takeFrameStop, Act.guarded, takeStop]
      split
      · split
        · split
          · exact (hset hl _).trans (setLink_sameUnit (fun h => hl (congrArg some h)) _ _)
          · exact hset hl _
        · exact .refl l s
        · exact .refl l s
        · exact hset hl _
      · exact .refl l s
    | lkPoisonStop k =>
      simp only [handle, takePoisonStop, Act.guarded]
      split
      · exact hset hl _
      · exact .refl l s
    | lkRead k clocked =>
      simp only [handle, takeRead]
      split
      · split <;> exact .refl l s
      · exact .refl l s
    | lkSend k clocked => exact hset hl _
    | lkReset k => exact hset hl _
    | lkAttention k =>
      simp only [handle, takeAttention]
      split
      · exact hset hl _
      · exact .refl l s
    | lkAttentionSlot k ack =>
      simp only [handle, takeAttentionSlot]
      split
      · split <;> exact hset hl _
      · exact .refl l s
    | lkPayloadDone k =>
      simp only [handle, takePayloadDone]
      split
      · exact hset hl _
      · exact .refl l s
    | lkPayloadCut k =>
      simp only [handle, takePayloadCut]
      split
      · exact hset hl _
      · exact .refl l s
    | lkRequest k r =>
      simp only [handle, takeRequest]
      split
      · split
        · exact .refl l s
        · exact hset hl _
      · exact .refl l s
    | lkBegin k r => cases k <;> exact .refl l s
    | _ => exact nomatch hp
  · exact touched_sameUnit (handle_touches e s) hp he l

theorem Ev.inner.link {e : Ev} (h : e.inner) : e.link = none := by
  cases e with
  | lkStart _ _ _ _ | lkOpen _ _ _ _ | lkByte _ _ _ | lkStop _ | lkPoisonStop _ | lkRead _ _ | lkSend _ _ => exact nomatch h
  | lkReset _ | lkAttention _ | lkAttentionSlot _ _ | lkPayloadDone _ | lkPayloadCut _ => exact nomatch h
  | lkRequest _ _ | lkBegin _ _ | lkServe _ _ => exact nomatch h
  | _ => rfl

theorem takeServe_sameUnit {k l : Link} {r : Request} (h : k ≠ l) (hr : ∀ straps, r ≠ .warmReset straps) (s : State) :
    SameUnit l s (takeServe k r s).1 := by
  have hlinks : r.part ≠ .links := by cases r <;> exact fun hp => nomatch hp
  have hserve := touched_sameUnit (serve_touches k r s) hlinks r.part_ne_everything l
  unfold takeServe
  split
  next straps => exact absurd rfl (hr straps)
  · exact hserve.trans (setLink_sameUnit h _ _)

/-- Settles O20: the commands of a link and the resets are the only ones whose events concern its unit. -/
theorem linksStandApart : Obligations.LinksStandApart := by
  intro c l s t hs h hframe hreset hcold hassert hrelease hwarm
  have hlink : (firstEvent c).link ≠ some l := by
    rw [firstEvent_link]
    cases c with
    | linkReset k =>
      rintro hk
      cases hk
      exact hreset rfl
    | _ => exact hframe
  have hline : firstEvent c ≠ .lineAssert := fun he => hassert (given_firstEvent he rfl)
  have hpart : (firstEvent c).part ≠ .everything := by
    intro hp
    have hfirst := firstEvent_isFirst c
    cases he : firstEvent c with
    | coldStart straps => exact hcold straps (coldStart_of_firstEvent he)
    | lineRelease straps => exact hrelease straps (lineRelease_of_firstEvent he)
    | lkServe k r =>
      rw [he] at hfirst
      exact nomatch hfirst
    | _ =>
      rw [he] at hp
      exact nomatch hp
  refine exec_reaches (P := SameUnit l s) hs h (fun z evs hz => hz) (handle_sameUnit hpart hlink hline s)
    fun e z he hz => hz.trans ?_
  cases he with
  | inner hi =>
    refine handle_sameUnit hi.part ?_ ?_ z
    · rw [hi.link]
      exact nofun
    · rintro rfl
      exact nomatch hi
  | @opened k addr good bytes hc =>
    rw [hc] at hlink
    exact handle_sameUnit (e := .lkOpen k addr good bytes) nofun hlink nofun z
  | @sent k clocked hc =>
    rw [hc] at hlink
    exact handle_sameUnit (e := .lkSend k clocked) nofun hlink nofun z
  | @begun k r hc =>
    rw [hc] at hlink
    exact handle_sameUnit (e := .lkBegin k r) nofun hlink nofun z
  | @served k r hc =>
    rw [hc] at hlink
    refine takeServe_sameUnit (fun hk => hlink (congrArg some hk)) (fun straps hr => ?_) z
    subst hr
    exact hwarm k straps (warmReset_of_firstEvent hc)

end Sys2Proof.Machine
end

section
/-! The events that a warm reset sets off (R30, R43, R58, R85, R110, R126, R153, R172, R180): no lane enters RUNNING among
them, no share is above 0, demand does not come, and every raise is one of INTERNAL origin in groups 0 to 3. -/

namespace Sys2Proof.Machine

/-! ## The units at rest -/

/-- The envelope unit after a warm reset: no demand, no commanded power, no ramp, no lane in RUNNING (R85). -/
structure Envelope.Resting (e : Envelope) : Prop where
  demand : e.demand = 0
  commanded : e.commanded = 0
  ramp : e.ramp = none
  running : e.running = 0
  share : e.share = ⟨0, 0, 0, 0⟩

/-- A raise that a warm reset can bring: of INTERNAL origin, by no link, in groups 0 to 3. -/
structure Raise.ofReset (r : Raise) : Prop where
  sound : r.sound
  via : r.via = none
  origin : r.origin = .internal
  group : r.code.group.val < 4

/-- The kinds of events that a warm reset sets off with whatever values. -/
def EvKind.restarting : EvKind → Bool
  | .absent | .escalateStep | .limits | .exclusion | .yawLimits | .park | .boost | .reaction | .laneSupply | .pump => true
  | .commanded | .laneDemand | .coolingSupply | .yawSupply | .move | .unwind | .watch | .unwindMoved => true
  | _ => false

/-- An event that a warm reset sets off. -/
def Ev.restarting (e : Ev) : Prop :=
  match e with
  | .ctRaise r => r.ofReset
  | .ctPresent r => r.ofReset
  | .ruOffer c => c.group.val < 4
  | .euLane _ running => running = false
  | .lmShare _ kw => kw = 0
  | .lmDemand present => present = false
  | e => e.kind.restarting = true

/-- Every event of a list is one that a warm reset sets off. -/
def AllRestarting (evs : List Ev) : Prop := ∀ e ∈ evs, e.restarting

@[simp] theorem allRestarting_nil : AllRestarting [] := nofun

@[simp] theorem allRestarting_cons {e : Ev} {evs : List Ev} :
    AllRestarting (e :: evs) ↔ e.restarting ∧ AllRestarting evs := by
  simp [AllRestarting]

@[simp] theorem allRestarting_append {a b : List Ev} :
    AllRestarting (a ++ b) ↔ AllRestarting a ∧ AllRestarting b := by
  simp only [AllRestarting, List.mem_append, or_imp, forall_and]

theorem allRestarting_ite {p : Prop} [Decidable p] {a b : List Ev} (ha : AllRestarting a) (hb : AllRestarting b) :
    AllRestarting (if p then a else b) := by
  split
  · exact ha
  · exact hb

theorem restarting_of_kind {e : Ev} (h : e.kind.restarting = true) : e.restarting := by
  cases e with
  | ctRaise _ | ctPresent _ | ruOffer _ | euLane _ _ | lmShare _ _ | lmDemand _ => exact nomatch h
  | _ => exact h

theorem allRestarting_of_emits {ks : List EvKind} {evs : List Ev} (h : Emits ks evs)
    (hks : ks.all EvKind.restarting = true) : AllRestarting evs := fun e he =>
  restarting_of_kind (List.all_eq_true.mp hks _ (h e he))

/-! ## What is handed on -/

theorem internalRaise_ofReset {c : Code} {k : Cls} {m : RecMode} {d : Nat} {e : Effects}
    (hs : (internalRaise c k m d e).sound) (hg : c.group.val < 4) : (internalRaise c k m d e).ofReset :=
  ⟨hs, rfl, rfl, hg⟩

theorem spentRaises_restarting (ks : List (Fin 8)) : AllRestarting (spentRaises ks) := by
  intro e he
  obtain ⟨k, -, rfl⟩ := List.mem_map.mp he
  exact internalRaise_ofReset (spentRaise_sound k) (by decide)

theorem spentIf_restarting (k : Fin 8) (v : Slot) (s : State) : AllRestarting (spentIf k v s).2 := by
  have hspent : (Ev.ctRaise (spentRaise k)).restarting := internalRaise_ofReset (spentRaise_sound k) (by decide)
  exact allRestarting_ite (allRestarting_cons.mpr ⟨hspent, allRestarting_nil⟩) allRestarting_nil

theorem deliveries_restarting (a b : Limits) : AllRestarting (deliveries a b) :=
  allRestarting_of_emits (deliveries_emits a b) rfl

theorem boostHandover_restarting (a b : Eight Slot) : AllRestarting (boostHandover a b) :=
  allRestarting_of_emits (boostHandover_emits a b) rfl

theorem takeRaise_restarting {r : Raise} (h : r.ofReset) (s : State) : AllRestarting (takeRaise r s).2 := by
  have hoffer {c : Code} (hc : c.group.val < 4) : AllRestarting [Ev.ruOffer c] :=
    allRestarting_cons.mpr ⟨hc, allRestarting_nil⟩
  unfold takeRaise
  split
  · exact allRestarting_append.mpr ⟨deliveries_restarting _ _, hoffer h.group⟩
  · split
    · exact allRestarting_append.mpr ⟨deliveries_restarting _ _, hoffer h.group⟩
    · split
      · exact allRestarting_append.mpr ⟨deliveries_restarting _ _, allRestarting_append.mpr
          ⟨boostHandover_restarting _ _, allRestarting_append.mpr ⟨hoffer h.group, allRestarting_append.mpr
            ⟨spentRaises_restarting _, allRestarting_nil⟩⟩⟩⟩
      · split
        · exact allRestarting_nil
        · unfold foldRaise
          dsimp only
          split
          · exact allRestarting_append.mpr ⟨deliveries_restarting _ _, hoffer (by decide)⟩
          · exact allRestarting_append.mpr ⟨deliveries_restarting _ _, hoffer (by decide)⟩

theorem takeOffer_restarting (c : Code) (s : State) : AllRestarting (takeOffer c s).2 := by
  unfold takeOffer
  split
  · exact allRestarting_nil
  · split
    · exact allRestarting_nil
    · unfold fire
      dsimp only
      split
      · exact allRestarting_nil
      · exact boostHandover_restarting _ _
      · exact boostHandover_restarting _ _
      · exact allRestarting_append.mpr ⟨allRestarting_cons.mpr ⟨rfl, allRestarting_nil⟩, allRestarting_append.mpr
          ⟨boostHandover_restarting _ _, allRestarting_append.mpr ⟨spentIf_restarting _ _ _, allRestarting_nil⟩⟩⟩

theorem exits_restarting (a b : LaneManager) : AllRestarting (exits a b) := by
  intro e he
  obtain ⟨n, -, rfl⟩ := List.mem_map.mp he
  rfl

theorem setLanes_exits_restarting (m : LaneManager) (s : State) : AllRestarting (setLanes m (exits s.lm m) [] s).2 := by
  refine allRestarting_append.mpr ⟨allRestarting_append.mpr ⟨exits_restarting _ _, ?_⟩, allRestarting_nil⟩
  exact allRestarting_ite allRestarting_nil (allRestarting_cons.mpr ⟨rfl, allRestarting_nil⟩)

theorem viewReport_restarting {r : Raise} (h : r.ofReset) (a b : Bool) : AllRestarting (viewReport a b r) :=
  allRestarting_ite allRestarting_nil (allRestarting_ite (allRestarting_cons.mpr ⟨h, allRestarting_nil⟩)
    (allRestarting_cons.mpr ⟨rfl, allRestarting_nil⟩))

theorem drivesLow_ofReset (healthy : Nat) : (drivesLowRaise healthy).ofReset :=
  internalRaise_ofReset (drivesLowRaise_sound healthy) (by decide)

theorem blockedReport_restarting (old : Bool) (now : Option Dir) : AllRestarting (blockedReport old now) := by
  unfold blockedReport
  split
  next d =>
    have hraise : (Ev.ctPresent (trackBlockedRaise d)).restarting :=
      internalRaise_ofReset (trackBlockedRaise_sound d) (by decide)
    exact allRestarting_cons.mpr ⟨hraise, allRestarting_nil⟩
  · exact allRestarting_cons.mpr ⟨rfl, allRestarting_nil⟩
  · exact allRestarting_nil

theorem setYaw_restarting {w : YawWork} (hw : Emits toldKinds w.2) (s : State) : AllRestarting (setYaw [] w s).2 :=
  allRestarting_append.mpr ⟨allRestarting_append.mpr ⟨viewReport_restarting (drivesLow_ofReset _) _ _,
    blockedReport_restarting _ _⟩, allRestarting_of_emits hw rfl⟩

/-- Where no share stands before or after, a recomputation hands on a changed C alone. -/
theorem envelopeHandover_restarting {a b : Envelope} (hb : b.Resting) : AllRestarting (envelopeHandover a b) := by
  have hshare (n : Fin 4) : AllRestarting (shareHandover a.share b.share n) := by
    have hzero : b.share.get n = 0 := by
      rw [hb.share]
      match n with
      | 0 | 1 | 2 | 3 => rfl
    exact allRestarting_ite allRestarting_nil (allRestarting_cons.mpr ⟨hzero, allRestarting_nil⟩)
  refine allRestarting_append.mpr ⟨fun e he => ?_, ?_⟩
  · obtain ⟨evs, hevs, he⟩ := List.mem_flatten.mp he
    obtain ⟨n, -, rfl⟩ := List.mem_map.mp hevs
    exact hshare n e he
  · exact allRestarting_ite allRestarting_nil (allRestarting_cons.mpr ⟨rfl, allRestarting_nil⟩)

theorem recompute_resting {e : Envelope} (h : e.Resting) : e.recompute.Resting := by
  have havailable : e.running &&& ~~~e.excluded = 0 := by simp [h.running]
  have hheadroom (n : Fin 4) : headroomOf 0 e.factor n = 0 := by simp [headroomOf, hasBit]
  have hcommanded : e.recompute.commanded = 0 := by
    simp only [Envelope.recompute, h.demand, h.commanded, Nat.zero_min, Nat.le_refl, if_true]
  refine ⟨h.demand, hcommanded, ?_, h.running, ?_⟩
  · simp only [Envelope.recompute, h.demand, Nat.zero_min, Nat.zero_le, if_true]
  · simp only [Envelope.recompute, havailable, h.demand, h.commanded, Nat.zero_min, Nat.le_refl, if_true, Four.ofFn,
      hheadroom, sumFour, sharesOf, flooredShare, spread, Four.get]
    rfl

/-- The envelope unit stays at rest through the events of a warm reset, and hands on no power. -/
theorem handle_resting_envelope {e : Ev} {s : State} (he : e.restarting) (hp : e.part = .eu) (hs : s.eu.Resting) :
    (handle e s).1.eu.Resting ∧ AllRestarting (handle e s).2 := by
  cases e with
  | euLimits d =>
    have hdeliver : (s.eu.deliver d).Resting := ⟨hs.demand, hs.commanded, hs.ramp, hs.running, hs.share⟩
    simp only [handle, takeEnvelopeLimits]
    split
    · exact ⟨recompute_resting hdeliver, envelopeHandover_restarting (recompute_resting hdeliver)⟩
    · exact ⟨hdeliver, allRestarting_nil⟩
  | euLane n running =>
    obtain rfl : running = false := he
    have hset : withMember s.eu.running n false = s.eu.running := by
      simp [withMember, hs.running]
    simp only [handle, takeLaneEvent]
    rw [if_pos hset]
    exact ⟨hs, allRestarting_nil⟩
  | euTemp _ _ | euRampStep => exact nomatch he
  | _ => exact nomatch hp

/-- What the events of a warm reset hand on is of a warm reset, with the envelope unit at rest. -/
theorem handle_restarting {e : Ev} {s : State} (he : e.restarting) (hs : s.eu.Resting) :
    AllRestarting (handle e s).2 := by
  by_cases hp : e.part = .eu
  · exact (handle_resting_envelope he hp hs).2
  have hfree (hks : e.handsOn.all EvKind.restarting = true) : AllRestarting (handle e s).2 :=
    allRestarting_of_emits (handle_emits e s) hks
  cases e with
  | ctRaise r => exact takeRaise_restarting he s
  | ctPresent r =>
    simp only [handle, takePresent]
    split
    · exact takeRaise_restarting he s
    · split
      · exact allRestarting_nil
      · exact takeRaise_restarting he s
  | ctAbsent _ | ctEscalateStep _ | whPark _ _ | whWatch _ | whUnwind _ => exact hfree rfl
  | lmPump _ | lmDemand _ | lmShare _ _ => exact hfree rfl
  | cuBoost _ | cuReaction _ | cuCommanded _ | cuLaneDemand _ | cuSupply _ => exact hfree rfl
  | ruOffer c => exact takeOffer_restarting c s
  | lmExcluded set full => exact setLanes_exits_restarting _ s
  | lmSupply st =>
    simp only [handle, takeLaneSupply]
    split
    · exact allRestarting_nil
    · exact setLanes_exits_restarting _ s
  | ymLimits f => exact setYaw_restarting (thenDo_emits.mpr ⟨followPark_emits _ _, rehold_emits _ _⟩) s
  | ymSupply st => exact setYaw_restarting (rehold_emits _ _) s
  | ymMove t d =>
    simp only [handle, takeMove]
    split
    · exact allRestarting_nil
    · split
      · exact setYaw_restarting (leaveEvents_emits _) s
      · exact allRestarting_nil
  | ymUnwind g d =>
    simp only [handle, takeUnwind]
    split
    · exact allRestarting_nil
    · exact setYaw_restarting (insert_emits _ _ _) s
  | euLimits _ | euLane _ _ => exact absurd rfl hp
  | _ => exact nomatch he

/-- What a warm reset hands on at once. -/
theorem takeWarmStart_restarting (d : Nat) (straps : Fin 4) (s : State) : AllRestarting (takeWarmStart d straps s).2 := by
  have hreport {b : Bool} {r : Raise} {c : Code} (hr : r.ofReset) :
      (if b then Ev.ctPresent r else .ctAbsent c).restarting := by
    cases b with
    | true => exact hr
    | false => rfl
  have hreports (z : State) : AllRestarting (startReports z) := by
    simp only [startReports, windStartReports, yawStartReports, supplyStartReports, allRestarting_append,
      allRestarting_cons, allRestarting_nil, and_true]
    exact ⟨⟨⟨⟨hreport (internalRaise_ofReset (twistLimitRaise_sound _) (by decide)), rfl, rfl⟩,
      hreport (drivesLow_ofReset _), rfl⟩, rfl⟩,
      hreport (internalRaise_ofReset (gridLossRaise_sound _) (by decide)),
      hreport (internalRaise_ofReset (upsLowRaise_sound _) (by decide))⟩
  simp only [takeWarmStart, allRestarting_append]
  refine ⟨⟨⟨⟨allRestarting_of_emits (startTracking_emits _) rfl, ?_⟩, ?_⟩, ?_⟩, hreports _⟩
  · simp [fullDelivery, Ev.restarting, Ev.kind, EvKind.restarting]
  · simp [startHandovers, supplyHandover, Ev.restarting, Ev.kind, EvKind.restarting]
  · have hraise : (Ev.ctRaise (warmRestartRaise d)).restarting :=
      internalRaise_ofReset (warmRestartRaise_sound d) (by decide)
    exact allRestarting_cons.mpr ⟨rfl, allRestarting_cons.mpr ⟨hraise, allRestarting_nil⟩⟩

end Sys2Proof.Machine
end

section
/-! The plant stands still through the events that a warm reset sets off: no lane starts (R110), the brake applies and no
drive runs (R153), and no pump runs (R172). -/

namespace Sys2Proof.Machine

/-! ## The lanes (R93, R101, R110) -/

/-- A lane as a warm reset leaves it: OFFLINE, with no report, no start flag, no timer and no share. -/
structure Lane.Resting (x : Lane) : Prop where
  state : x.state = .offline
  report : x.report = none
  startFlag : x.startFlag = false
  timer : x.timer = none
  share : x.share = 0
  silence : x.silence = none

/-- Without demand, every lane as a warm reset leaves it. -/
structure LaneManager.Resting (m : LaneManager) : Prop where
  demand : m.demand = false
  lanes : ∀ n : Fin 4, (m.lanes.get n).Resting

theorem initial_lanes_resting : LaneManager.initial.Resting where
  demand := rfl
  lanes n := match n with
    | 0 | 1 | 2 | 3 => ⟨rfl, rfl, rfl, rfl, rfl, rfl⟩

theorem LaneManager.Resting.congr {m z : LaneManager} (h : m.Resting) (hd : z.demand = m.demand) (hl : z.lanes = m.lanes) :
    z.Resting :=
  ⟨hd.trans h.demand, by rw [hl]; exact h.lanes⟩

/-- No start is wanted, so an evaluation of it leaves the unit. -/
theorem LaneManager.Resting.evaluateStart_eq {m : LaneManager} (h : m.Resting) (auto : Bool) (n : Fin 4) :
    evaluateStart auto n m = m := by
  have hunwanted : startCondition auto m n = false := by
    simp [startCondition, wanted, (h.lanes n).startFlag, h.demand]
  rw [evaluateStart, hunwanted, if_neg (by simp)]

theorem LaneManager.Resting.evaluateAll_eq {m : LaneManager} (h : m.Resting) (auto : Bool) : evaluateAll auto m = m := by
  simp only [evaluateAll, fourIndices, List.foldl, h.evaluateStart_eq]

theorem LaneManager.Resting.mapLanes {m : LaneManager} (h : m.Resting) {f : Lane → Lane}
    (hf : ∀ x : Lane, x.Resting → f x = x) : (m.mapLanes f).Resting :=
  ⟨h.demand, fun n => by rw [mapLanes_get, hf _ (h.lanes n)]; exact h.lanes n⟩

theorem whenSupplyLost_resting {x : Lane} (h : x.Resting) : whenSupplyLost x = x := by
  rw [whenSupplyLost, h.state]

theorem whenPumpLost_resting {x : Lane} (h : x.Resting) : whenPumpLost x = x := by
  rw [whenPumpLost, h.state]

theorem whenExcluded_resting {x : Lane} (h : x.Resting) : whenExcluded x = x := by
  rw [whenExcluded, h.state, h.report]
  rfl

theorem deliveredLane_resting {m : LaneManager} (h : m.demand = false) (auto : Bool) (old : LaneSet) (full : Bool)
    (n : Fin 4) {x : Lane} (hx : x.Resting) : deliveredLane auto old full m n x = x := by
  unfold deliveredLane
  split
  · split
    · exact whenExcluded_resting hx
    · rw [hx.state]
      simp [LaneManager.evaluated, hx.startFlag, h]
  · rfl

theorem setLanes_resting {m : LaneManager} (h : m.Resting) (before after : List Ev) (s : State) :
    (setLanes m before after s).1.lm.Resting := ⟨h.demand, h.lanes⟩

theorem handle_resting_lanes {e : Ev} {s : State} (he : e.restarting) (hp : e.part = .lm) (hs : s.lm.Resting) :
    (handle e s).1.lm.Resting := by
  cases e with
  | lmExcluded set full =>
    rw [show handle (.lmExcluded set full) s = takeExcluded set full s from rfl, takeExcluded_eq]
    refine ⟨hs.demand, fun n => ?_⟩
    simp only [State.laned, Four.get_ofFn]
    rw [deliveredLane_resting (m := { s.lm with excluded := set }) hs.demand _ _ _ _ (hs.lanes n)]
    exact hs.lanes n
  | lmSupply st =>
    have hlost : (if s.lm.supply = .full then s.lm.mapLanes whenSupplyLost else s.lm).Resting := by
      split
      · exact hs.mapLanes fun _ => whenSupplyLost_resting
      · exact hs
    simp only [handle, takeLaneSupply]
    split
    · exact hs
    · generalize (if s.lm.supply = .full then s.lm.mapLanes whenSupplyLost else s.lm) = m at hlost ⊢
      have hset : ({ m with supply := st } : LaneManager).Resting := hlost.congr rfl rfl
      rw [hset.evaluateAll_eq]
      exact setLanes_resting hset _ _ _
  | lmPump p =>
    have hlost : (if s.lm.pump = .running then s.lm.mapLanes whenPumpLost else s.lm).Resting := by
      split
      · exact hs.mapLanes fun _ => whenPumpLost_resting
      · exact hs
    simp only [handle, takeLanePump]
    split
    · exact hs
    · generalize (if s.lm.pump = .running then s.lm.mapLanes whenPumpLost else s.lm) = m at hlost ⊢
      have hset : ({ m with pump := p } : LaneManager).Resting := hlost.congr rfl rfl
      rw [hset.evaluateAll_eq]
      exact setLanes_resting hset _ _ _
  | lmDemand present =>
    obtain rfl : present = false := he
    simp only [handle, takeLaneDemand]
    rw [if_pos hs.demand.symm]
    exact hs
  | lmShare n kw =>
    obtain rfl : kw = 0 := he
    refine ⟨hs.demand, fun k => ?_⟩
    simp only [handle, takeShare, Act.update, lane_get_put]
    split
    · exact ⟨(hs.lanes n).state, (hs.lanes n).report, (hs.lanes n).startFlag, (hs.lanes n).timer, rfl, (hs.lanes n).silence⟩
    · exact hs.lanes k
  | lmReport _ _ | lmAct _ | lmReply _ | lmEvaluate _ | lmSilence _ | lmTimeout _ _ => exact nomatch he
  | _ => exact nomatch hp

/-! ## The yaw motion unit (R153) -/

/-- The unit as a warm reset leaves it, the drives ISOLATED or READY as they stood: the brake applies and nothing runs. -/
structure Yaw.Resting (y old : Yaw) : Prop where
  brake : y.brake = .applying
  brakeTimer : y.brakeTimer = some 3000
  run : y.run = none
  settle : y.settle = none
  stall : y.stall = none
  heading : y.heading = none
  twist : y.twist = old.twist
  drives : ∀ n : Fin 8, y.drives.get n = (old.drives.get n).afterReset

theorem chainOnly.resting {old y z : Yaw} (h : chainOnly y z) (hy : y.Resting old) : z.Resting old := by
  rw [h]
  exact ⟨hy.brake, hy.brakeTimer, hy.run, hy.settle, hy.stall, hy.heading, hy.twist, hy.drives⟩

theorem sync_afterReset (d : Drive) : d.afterReset.sync false = d.afterReset := by
  by_cases h : d.state = .isolated <;> simp [sync_eq, Drive.afterReset, h]

/-- The brake applies on, and no drive starts. -/
theorem setYaw_resting {old : Yaw} {w : YawWork} (hw : w.1.Resting old) (raises : List Ev) (s : State) :
    (setYaw raises w s).1.ym.Resting old := by
  have hfollowed : followed w.1 = w.1 := by rw [followed, hw.brake]
  have hfollow : w.1.follow = { w.1 with drives := w.1.drives.map (Drive.sync false) } := by
    rw [follow_eq, hfollowed, hw.run]
    rfl
  have hdrives (n : Fin 8) : w.1.follow.drives.get n = (old.drives.get n).afterReset := by
    rw [hfollow, Eight.get_map, hw.drives, sync_afterReset]
  have hrest : w.1.follow.Resting old := by
    refine ⟨?_, ?_, ?_, ?_, ?_, ?_, ?_, hdrives⟩
    all_goals rw [hfollow]
    exacts [hw.brake, hw.brakeTimer, hw.run, hw.settle, hw.stall, hw.heading, hw.twist]
  exact ⟨hrest.brake, hrest.brakeTimer, hrest.run, hrest.settle, hrest.stall, hrest.heading, hrest.twist, hrest.drives⟩

theorem handle_resting_yaw {old : Yaw} {e : Ev} {s : State} (he : e.restarting) (hp : e.part = .ym)
    (hs : s.ym.Resting old) : (handle e s).1.ym.Resting old := by
  have hinput {y : Yaw} (h : y = { s.ym with held := y.held, supply := y.supply }) : y.Resting old := by
    rw [h]
    exact ⟨hs.brake, hs.brakeTimer, hs.run, hs.settle, hs.stall, hs.heading, hs.twist, hs.drives⟩
  cases e with
  | ymLimits f =>
    have hdelivered : ({ s.ym with held := f } : Yaw).Resting old := hinput rfl
    exact setYaw_resting ((chainOnly.trans (followPark_only _ _) (rehold_only _ _)).resting hdelivered) [] s
  | ymSupply st =>
    have hsupplied : ({ s.ym with supply := st } : Yaw).Resting old := hinput rfl
    exact setYaw_resting ((rehold_only _ _).resting hsupplied) [] s
  | ymMove t d =>
    simp only [handle, takeMove]
    split
    · exact hs
    next top rest _ =>
      split
      · have hmoved : chainOnly s.ym { s.ym with chain := top.heads s.ym (.heading t) d :: rest } := rfl
        exact setYaw_resting (w := (_, leaveEvents top)) (hmoved.resting hs) [] s
      · exact hs
  | ymUnwind g d =>
    simp only [handle, takeUnwind]
    split
    · exact hs
    · exact setYaw_resting ((insert_only _ _ _).resting hs) [] s
  | ymHeading _ _ | ymFiltered _ | ymDriveRetired _ | ymJogEnd | ymFaultLines _ | ymPressure _ => exact nomatch he
  | ymBrakeTimer | ymSettleEnd => exact nomatch he
  | _ => exact nomatch hp

/-! ## The cooling unit (R157, R158, R172) -/

/-- No pump runs and no fan turns. -/
def Cooling.Resting (u : Cooling) : Prop := ∀ l : Fin 3, (u.loops.get l).pump ≠ .running ∧ (u.loops.get l).duty = 0

theorem put_resting {u : Cooling} (h : u.Resting) {l : Fin 3} {x : Loop} (hx : x.pump ≠ .running ∧ x.duty = 0) :
    (u.put l x).Resting := by
  intro k
  rw [put_get]
  split
  · exact hx
  · exact h k

theorem setDuty_resting {u : Cooling} (h : u.Resting) (st : List Int) (l : Fin 3) : (u.setDuty st l).Resting :=
  put_resting h ⟨(h l).1, if_neg (h l).1⟩

theorem reboost_resting {u : Cooling} (h : u.Resting) (st : List Int) (old : Cooling) :
    (Cooling.reboost st old u).Resting := by
  have hone {v : Cooling} (hv : v.Resting) (l : Fin 3) : (Cooling.boostDuty st old v l).Resting := by
    unfold Cooling.boostDuty
    split
    · exact hv
    · exact setDuty_resting hv st l
  exact hone (hone (hone h 0) 1) 2

theorem evaluate_resting {u : Cooling} (h : u.Resting) (st : List Int) (l : Fin 3) : (u.evaluate st l).Resting := by
  obtain ⟨hpump, hduty⟩ := h l
  refine put_resting h ?_
  unfold Loop.evaluate
  split
  case h_1 | h_2 => exact ⟨nofun, hduty⟩
  case h_3 hrun _ => exact absurd hrun hpump
  case h_4 => exact ⟨hpump, hduty⟩

theorem handle_resting_cooling {e : Ev} {s : State} (he : e.restarting) (hp : e.part = .cu) (hs : s.cu.Resting) :
    (handle e s).1.cu.Resting := by
  cases e with
  | cuBoost set => exact reboost_resting (u := { s.cu with boost := set }) hs _ _
  | cuReaction set => exact reboost_resting (u := { s.cu with reaction := set }) hs _ _
  | cuCommanded kw => exact evaluate_resting (u := { s.cu with commanded := kw }) hs _ _
  | cuLaneDemand yes => exact evaluate_resting (u := { s.cu with laneDemand := yes }) hs _ _
  | cuSupply st =>
    have hsupplied : ({ s.cu with supply := st } : Cooling).Resting := hs
    exact evaluate_resting (evaluate_resting (evaluate_resting hsupplied _ 0) _ 1) _ 2
  | cuPumpRetired _ | cuSample _ _ | cuDerate _ _ | cuEscalate _ | cuDemand _ | cuFan _ | cuFlow _ _ => exact nomatch he
  | cuPrimeTimeout _ => exact nomatch he
  | _ => exact nomatch hp

theorem cooling_afterReset_resting (table : List Record) : (Cooling.afterReset table).Resting := by
  have hloop (l : Fin 3) : (Loop.afterReset table l).pump ≠ .running ∧ (Loop.afterReset table l).duty = 0 := by
    refine ⟨?_, rfl⟩
    simp only [Loop.afterReset]
    split <;> nofun
  intro l
  match l with
  | 0 | 1 | 2 => exact hloop _

end Sys2Proof.Machine
end

section
/-! What the events of a warm reset leave of the table (R30): a record of before stays, no less restrictive than it was,
unless a NOTICE record makes room, and what comes in is of INTERNAL origin. -/

namespace Sys2Proof.Machine

/-! ## A record after a change from inside (R8, R12, R15) -/

/-- The record r stands for the record q as a change from inside may leave it: no less restrictive, ACTIVE and unread
where q was. -/
structure Record.Upholds (r q : Record) : Prop where
  slot : r.slot = q.slot
  code : r.code = q.code
  origin : r.origin = q.origin
  firstRaised : r.firstRaised = q.firstRaised
  active : q.state = .active → r.state = .active
  unread : q.unread = ⟨true, true⟩ → r.unread = ⟨true, true⟩
  cls : clsIndex q.cls ≤ clsIndex r.cls
  occurrences : q.occurrences ≤ r.occurrences
  cap : ∀ cap, q.eff.cap = some cap → ∃ d, r.eff.cap = some d ∧ d ≤ cap
  lanes : q.eff.lanes &&& r.eff.lanes = q.eff.lanes
  yaw : q.eff.yaw &&& r.eff.yaw = q.eff.yaw
  boost : q.eff.boost &&& r.eff.boost = q.eff.boost

theorem and_or_self {w : Nat} (a b : BitVec w) : a &&& (a ||| b) = a := by
  ext i
  cases h : a[i] <;> simp [h]

theorem subset_trans {w : Nat} {a b c : BitVec w} (h : a &&& b = a) (g : b &&& c = b) : a &&& c = a := by
  calc a &&& c = a &&& b &&& c := by rw [h]
    _ = a &&& (b &&& c) := BitVec.and_assoc ..
    _ = a := by rw [g, h]

theorem Record.Upholds.refl (q : Record) : q.Upholds q where
  slot := rfl
  code := rfl
  origin := rfl
  firstRaised := rfl
  active := id
  unread := id
  cls := Nat.le_refl _
  occurrences := Nat.le_refl _
  cap c h := ⟨c, h, Nat.le_refl _⟩
  lanes := BitVec.and_self
  yaw := BitVec.and_self
  boost := BitVec.and_self

theorem Record.Upholds.trans {p q r : Record} (h : q.Upholds p) (g : r.Upholds q) : r.Upholds p where
  slot := g.slot.trans h.slot
  code := g.code.trans h.code
  origin := g.origin.trans h.origin
  firstRaised := g.firstRaised.trans h.firstRaised
  active hp := g.active (h.active hp)
  unread hp := g.unread (h.unread hp)
  cls := Nat.le_trans h.cls g.cls
  occurrences := Nat.le_trans h.occurrences g.occurrences
  cap c hc := by
    obtain ⟨d, hd, hdc⟩ := h.cap c hc
    obtain ⟨b, hb, hbd⟩ := g.cap d hd
    exact ⟨b, hb, Nat.le_trans hbd hdc⟩
  lanes := subset_trans h.lanes g.lanes
  yaw := subset_trans h.yaw g.yaw
  boost := subset_trans h.boost g.boost

theorem le_higherCls (a b : Cls) : clsIndex a ≤ clsIndex (higherCls a b) := by
  unfold higherCls
  split
  next h => exact h
  next => exact Nat.le_refl _

theorem lowerCap_lowers {a : Nat} (b : Option Nat) : ∃ d, lowerCap (some a) b = some d ∧ d ≤ a := by
  cases b with
  | none => exact ⟨a, rfl, Nat.le_refl _⟩
  | some b => exact ⟨min a b, rfl, Nat.min_le_left _ _⟩

/-- A cap that is lowered, or forced to 0, is present and no higher (R4, R5). -/
theorem forced_lowered {q : Option Nat} (k : Cls) {e : Effects} {b : Option Nat} (he : e.cap = lowerCap q b) :
    ∀ cap, q = some cap → ∃ d, (forced k e).cap = some d ∧ d ≤ cap := by
  rintro cap rfl
  rw [forced_eq]
  by_cases hk : k = .trip
  · exact ⟨0, if_pos hk, Nat.zero_le _⟩
  · obtain ⟨d, hd, hle⟩ := lowerCap_lowers (a := cap) b
    exact ⟨d, (if_neg hk).trans (he.trans hd), hle⟩

theorem reRaised_upholds {r : Raise} {q : Record} (u : Nat) (hvia : r.via = none) (hq : q.occurrences ≤ 255) :
    (reRaised u r q).Upholds q where
  slot := rfl
  code := rfl
  origin := rfl
  firstRaised := rfl
  active _ := rfl
  unread _ := by simp only [reRaised, hvia, marksAfter]
  cls := le_higherCls _ _
  occurrences := by
    simp only [reRaised, saturate]
    split
    · exact hq
    · exact Nat.le_succ _
  cap := forced_lowered _ rfl
  lanes := by
    simp only [reRaised, forced_eq]
    exact and_or_self _ _
  yaw := by
    simp only [reRaised, forced_eq]
    exact and_or_self _ _
  boost := by
    simp only [reRaised, forced_eq]
    exact and_or_self _ _

theorem escalated_upholds (u : Nat) (k : Cls) (cap : Option Nat) (q : Record) : (escalated u k cap q).Upholds q where
  slot := rfl
  code := rfl
  origin := rfl
  firstRaised := rfl
  active := id
  unread _ := rfl
  cls := le_higherCls _ _
  occurrences := Nat.le_refl _
  cap := forced_lowered _ rfl
  lanes := by
    simp only [escalated, forced_eq]
    exact BitVec.and_self
  yaw := by
    simp only [escalated, forced_eq]
    exact BitVec.and_self
  boost := by
    simp only [escalated, forced_eq]
    exact BitVec.and_self

theorem causeLost_upholds (s : State) (q : Record) : (causeLost s q).Upholds q := by
  have hself := Record.Upholds.refl q
  rw [causeLost_eq]
  split
  next hacked =>
    have hactive (h : q.state = .active) : RecState.clearing = .active := nomatch hacked.symm.trans h
    exact ⟨rfl, rfl, rfl, rfl, hactive, fun _ => rfl, hself.cls, hself.occurrences, hself.cap, hself.lanes, hself.yaw,
      hself.boost⟩
  next =>
    exact ⟨rfl, rfl, rfl, rfl, id, fun _ => rfl, hself.cls, hself.occurrences, hself.cap, hself.lanes, hself.yaw,
      hself.boost⟩

/-! ## The table (R30) -/

/-- What the events of a warm reset at an uptime make of a table: every record above NOTICE stays upheld, and what does
not uphold a record of before has been created there, of INTERNAL origin. -/
structure TableUpheld (u : Nat) (old new : List Record) : Prop where
  stays : ∀ q ∈ old, q.cls ≠ .notice → ∃ r ∈ new, r.Upholds q
  fresh : ∀ r ∈ new, (∃ q ∈ old, r.Upholds q) ∨ r.origin = .internal ∧ r.firstRaised = u

theorem TableUpheld.refl (u : Nat) (t : List Record) : TableUpheld u t t :=
  ⟨fun q hq _ => ⟨q, hq, .refl q⟩, fun r hr => .inl ⟨r, hr, .refl r⟩⟩

theorem Record.Upholds.ne_notice {r q : Record} (h : r.Upholds q) (hq : q.cls ≠ .notice) : r.cls ≠ .notice := by
  intro hr
  have hle : clsIndex q.cls ≤ clsIndex r.cls := h.cls
  rw [hr] at hle
  exact hq (by cases hc : q.cls <;> simp_all [clsIndex])

theorem TableUpheld.trans {u : Nat} {a b c : List Record} (h : TableUpheld u a b) (g : TableUpheld u b c) :
    TableUpheld u a c where
  stays q hq hcls := by
    obtain ⟨r, hr, hrq⟩ := h.stays q hq hcls
    obtain ⟨p, hp, hpr⟩ := g.stays r hr (hrq.ne_notice hcls)
    exact ⟨p, hp, hrq.trans hpr⟩
  fresh p hp := by
    rcases g.fresh p hp with ⟨r, hr, hpr⟩ | hnew
    · rcases h.fresh r hr with ⟨q, hq, hrq⟩ | ⟨horigin, hfirst⟩
      · exact .inl ⟨q, hq, hrq.trans hpr⟩
      · exact .inr ⟨hpr.origin.trans horigin, hpr.firstRaised.trans hfirst⟩
    · exact .inr hnew

theorem eq_of_code {t : List Record} (h : distinct t) {p q : Record} (hp : p ∈ t) (hq : q ∈ t) (hc : p.code = q.code) :
    p = q := by
  have hfind := findCode_of_mem h hp
  rw [hc, findCode_of_mem h hq] at hfind
  exact (Option.some.inj hfind).symm

theorem replace_upheld (u : Nat) {t : List Record} (h : distinct t) {q r : Record} (hq : q ∈ t) (hr : r.Upholds q) :
    TableUpheld u t (replaceRecord r t) := by
  have hone (p : Record) (hp : p ∈ t) : (if p.code = r.code then r else p).Upholds p := by
    split
    next hc => exact eq_of_code h hp hq (hc.trans hr.code) ▸ hr
    next => exact .refl p
  refine ⟨fun p hp _ => ⟨_, List.mem_map.mpr ⟨p, hp, rfl⟩, hone p hp⟩, fun x hx => ?_⟩
  obtain ⟨p, hp, rfl⟩ := List.mem_map.mp hx
  exact .inl ⟨p, hp, hone p hp⟩

theorem insert_upheld {u : Nat} {t : List Record} {r : Record} (ho : r.origin = .internal) (hf : r.firstRaised = u) :
    TableUpheld u t (insertRecord r t) := by
  refine ⟨fun q hq _ => ⟨q, mem_insertRecord.mpr (.inr hq), .refl q⟩, fun x hx => ?_⟩
  rcases mem_insertRecord.mp hx with rfl | hx
  · exact .inr ⟨ho, hf⟩
  · exact .inl ⟨x, hx, .refl x⟩

/-- An eviction takes a NOTICE record (R20). -/
theorem remove_upheld (u : Nat) {t : List Record} (h : distinct t) {v : Record} (hv : v ∈ t) (hc : v.cls = .notice) :
    TableUpheld u t (removeCode v.code t) := by
  refine ⟨fun q hq hcls => ⟨q, mem_removeCode.mpr ⟨hq, fun he => ?_⟩, .refl q⟩, fun x hx => ?_⟩
  · exact hcls (eq_of_code h hq hv he ▸ hc)
  · exact .inl ⟨x, (mem_removeCode.mp hx).1, .refl x⟩

/-! ## The events -/

section
variable {s : State}

theorem takeRaise_upheld (h : TableSound s.table) {r : Raise} (hr : r.ofReset) :
    TableUpheld s.uptime s.table (takeRaise r s).1.table := by
  have hreRaised {o : Raise} (ho : o.via = none) {q : Record} (hq : q ∈ s.table) :
      TableUpheld s.uptime s.table (replaceRecord (reRaised s.uptime o q) s.table) :=
    replace_upheld s.uptime h.codes hq (reRaised_upholds s.uptime ho (h.records q hq).occurrences.2)
  unfold takeRaise
  split
  next q hq => exact hreRaised hr.via (findCode_some hq).1
  next =>
    split
    next n _ => exact insert_upheld (r := createdRecord s.uptime n r) hr.origin rfl
    next =>
      split
      next v hv =>
        obtain ⟨hm, hcls, -⟩ := evictionCandidate_mem hv
        exact (remove_upheld s.uptime h.codes hm hcls).trans
          (insert_upheld (r := createdRecord s.uptime v.slot r) hr.origin rfl)
      next =>
        split
        · exact .refl _ _
        · unfold foldRaise
          dsimp only
          split
          next q hq =>
            change TableUpheld s.uptime s.table (replaceRecord _ (noteFolded r.code s).table)
            rw [(noteFolded_table r.code s).1]
            exact hreRaised rfl (findCode_some hq).1
          next => exact insert_upheld (r := createdRecord s.uptime 47 (overflowRaise r)) rfl rfl

theorem takeAbsent_upheld (h : TableSound s.table) (c : Code) :
    TableUpheld s.uptime s.table (takeAbsent c s).1.table := by
  unfold takeAbsent
  split
  · exact .refl _ _
  next q hq =>
    split
    · exact replace_upheld s.uptime h.codes (findCode_some hq).1 (causeLost_upholds s q)
    · exact .refl _ _

theorem takeEscalation_upheld (h : TableSound s.table) (c : Code) (rise : Cls → Cls) (cap : Option Nat) :
    TableUpheld s.uptime s.table (takeEscalation c rise cap s).1.table := by
  unfold takeEscalation
  split
  · exact .refl _ _
  next q hq =>
    dsimp only
    split
    · exact .refl _ _
    · exact replace_upheld s.uptime h.codes (findCode_some hq).1 (escalated_upholds s.uptime _ cap q)

theorem takeOffer_table (c : Code) (s : State) : (takeOffer c s).1.table = s.table := by
  unfold takeOffer
  split
  · rfl
  · split
    · rfl
    · unfold fire
      dsimp only
      split <;> rfl

/-- What the events of a warm reset leave of the table. -/
theorem handle_upheld {e : Ev} (he : e.restarting) (h : TableSound s.table) :
    TableUpheld s.uptime s.table (handle e s).1.table := by
  by_cases hp : e.part = .table
  · cases e with
    | ctRaise r => exact takeRaise_upheld h he
    | ctPresent r =>
      simp only [handle, takePresent]
      split
      · exact takeRaise_upheld h he
      · split
        · exact .refl _ _
        · exact takeRaise_upheld h he
    | ctAbsent c => exact takeAbsent_upheld h c
    | ctEscalateStep c => exact takeEscalation_upheld h c _ _
    | ruOffer c => exact takeOffer_table c s ▸ .refl _ _
    | ctRefresh _ _ | ctEscalateTo _ _ _ | ctHoldoffEnd _ | ruAutoRetire _ | ruBoostEnd _ => exact nomatch he
    | _ => exact nomatch hp
  · have hpart : e.part ≠ .everything := by
      cases e with
      | lkServe _ _ | coldStart _ | lineRelease _ => exact nomatch he
      | _ => exact nofun
    rw [(touched_table (handle_touches e s) hp hpart).1]
    exact .refl _ _

end

/-- Every restarting event is one that the table can take. -/
theorem Ev.restarting.sound {e : Ev} (he : e.restarting) : e.sound := by
  cases e with
  | ctRaise r | ctPresent r => exact Raise.ofReset.sound he
  | ctRefresh _ _ | ctEscalateTo _ _ _ => exact nomatch he
  | _ => trivial

/-! ## What the retention leaves (R30) -/

theorem mem_retention {u : Nat} {t : List Record} {r : Record} :
    r ∈ retention u t ↔ ∃ q ∈ t, keptAtReset q = true ∧ retained u q = r := by
  simp [retention, and_assoc]

theorem keptAtReset_iff (q : Record) :
    keptAtReset q = true ↔ (q.cls = .shed ∨ q.cls = .trip) ∧ (q.origin = .internal ∨ ∃ n, q.origin = .lane n) := by
  obtain ⟨⟩ := q
  unfold keptAtReset clsAtLeast
  dsimp only
  cases ‹Cls› <;> cases ‹Origin› <;> simp [clsIndex]

theorem retained_upholds_cls {u : Nat} {t : List Record} {q r : Record} (hq : q ∈ retention u t) (hr : r.Upholds q) :
    (r.cls ≠ .notice ∧ r.cls ≠ .limit) ∧ (r.origin ≠ .main ∧ r.origin ≠ .service) := by
  obtain ⟨p, -, hkept, rfl⟩ := mem_retention.mp hq
  obtain ⟨hcls, horigin⟩ := (keptAtReset_iff p).mp hkept
  have hlow : 2 ≤ clsIndex r.cls := by
    have hle : clsIndex p.cls ≤ clsIndex r.cls := hr.cls
    rcases hcls with h | h <;> rw [h] at hle <;> simp only [clsIndex] at hle ⊢ <;> omega
  have heq : r.origin = p.origin := hr.origin
  refine ⟨⟨fun h => ?_, fun h => ?_⟩, ?_⟩
  · rw [h] at hlow
    exact absurd hlow (by decide)
  · rw [h] at hlow
    exact absurd hlow (by decide)
  · rcases horigin with h | ⟨n, h⟩ <;> rw [heq, h] <;> exact ⟨nofun, nofun⟩

end Sys2Proof.Machine
end

section
/-! The whole part through the events that a warm reset sets off (R30, R58, R85, R110, R153, R172, R183, R198). -/

namespace Sys2Proof.Machine

/-! ## Slots bound to the codes of requests (R58) -/

/-- A slot bound to a code of group 4 or above, with no action pending, is the same after. -/
def SlotsRest (v w : Eight Slot) : Prop :=
  ∀ (k : Fin 8) (d : Code), (v.get k).bound = some d → 4 ≤ d.group.val → (v.get k).pending = none → w.get k = v.get k

theorem SlotsRest.refl (v : Eight Slot) : SlotsRest v v := fun _ _ _ _ _ => rfl

theorem SlotsRest.trans {u v w : Eight Slot} (h : SlotsRest u v) (g : SlotsRest v w) : SlotsRest u w := fun k d hb hd hp => by
  have hk := h k d hb hd hp
  exact (g k d (by rw [hk]; exact hb) hd (by rw [hk]; exact hp)).trans hk

theorem slotsRest_of_eq {v w : Eight Slot} (h : w = v) : SlotsRest v w := h ▸ .refl v

/-- A cancellation ends pending actions alone (R54). -/
theorem cancelSlots_rest (c : Code) (v : Eight Slot) : SlotsRest v (cancelSlots c v) := fun k d _ _ hp => by
  rw [cancelSlots_get, hp, if_neg (by simp)]

theorem takeRaise_slotsRest (r : Raise) (s : State) : SlotsRest s.slots (takeRaise r s).1.slots := by
  unfold takeRaise
  split
  · exact slotsRest_of_eq (changeRecord_slots _ _ s)
  · split
    · exact slotsRest_of_eq (placeRecord_slots _ _ s)
    · split
      · exact .trans (slotsRest_of_eq (placeRecord_slots _ _ s)) (cancelSlots_rest _ _)
      · split
        · exact .refl _
        · unfold foldRaise
          dsimp only
          rw [← noteFolded_slots r.code s]
          split
          · exact slotsRest_of_eq (changeRecord_slots _ _ _)
          · exact slotsRest_of_eq (placeRecord_slots _ _ _)

theorem setSlot_slotsRest {s : State} {c : Code} (hc : c.group.val < 4) {k : Fin 8} (hk : (s.slots.get k).bound = some c)
    (v : Slot) : SlotsRest s.slots (setSlot k v s).1.slots := fun j d hb hd _ => by
  have hne : k ≠ j := by
    rintro rfl
    rw [hk] at hb
    cases hb
    omega
  exact (Eight.get_set _ _ _ _).trans (if_neg hne)

/-- An offer under a code of groups 0 to 3 fires a slot that is bound to it (R49). -/
theorem takeOffer_slotsRest {c : Code} (hc : c.group.val < 4) (s : State) :
    SlotsRest s.slots (takeOffer c s).1.slots := by
  unfold takeOffer
  split
  · exact .refl _
  next k hk =>
    have hbound : (s.slots.get k).bound = some c := by
      have hfound := List.find?_some hk
      simp only [Bool.and_eq_true, beq_iff_eq] at hfound
      exact hfound.1
    split
    · exact .refl _
    · unfold fire
      dsimp only
      split
      · exact .refl _
      · exact setSlot_slotsRest hc hbound _
      · exact setSlot_slotsRest hc hbound _
      · exact setSlot_slotsRest hc hbound _

/-! ## Attention (R25, R198) -/

/-- Attention pending on a link stays pending. -/
def AttentionStays (s t : State) : Prop :=
  ∀ l : Link, (s.links.get l).attention = true → (t.links.get l).attention = true

theorem AttentionStays.refl (s : State) : AttentionStays s s := fun _ => id

theorem AttentionStays.trans {a b c : State} (h : AttentionStays a b) (g : AttentionStays b c) : AttentionStays a c :=
  fun l ha => g l (h l ha)

theorem attentionStays_of_eq {s t : State} (h : t.links = s.links) : AttentionStays s t := fun l ha => by
  rw [h]
  exact ha

theorem ask_attention (s : State) (b : Option Record) (r : Record) : AttentionStays s (s.ask b r) := fun l ha => by
  rw [ask_get]
  split
  · rfl
  · exact ha

theorem changeRecord_attention (q r : Record) (s : State) : AttentionStays s (changeRecord q r s).1 :=
  ask_attention s (some q) r

theorem placeRecord_attention (t : List Record) (r : Record) (s : State) : AttentionStays s (placeRecord t r s).1 :=
  ask_attention s none r

theorem takeRaise_attention (r : Raise) (s : State) : AttentionStays s (takeRaise r s).1 := by
  have hnoted : AttentionStays s (noteFolded r.code s) := by
    rw [noteFolded_eq]
    exact .refl s
  unfold takeRaise
  split
  · exact changeRecord_attention _ _ s
  · split
    · exact placeRecord_attention _ _ s
    · split
      next v _ =>
        exact placeRecord_attention (removeCode v.code s.table) (createdRecord s.uptime v.slot r) s
      · split
        · exact .refl s
        · unfold foldRaise
          dsimp only
          split
          · exact hnoted.trans (changeRecord_attention _ _ _)
          · exact hnoted.trans (placeRecord_attention _ _ _)

theorem takeAbsent_attention (c : Code) (s : State) : AttentionStays s (takeAbsent c s).1 := by
  unfold takeAbsent
  split
  · exact .refl s
  · split
    · exact changeRecord_attention _ _ s
    · exact .refl s

theorem takeEscalation_attention (c : Code) (rise : Cls → Cls) (cap : Option Nat) (s : State) :
    AttentionStays s (takeEscalation c rise cap s).1 := by
  unfold takeEscalation
  split
  · exact .refl s
  · dsimp only
    split
    · exact .refl s
    · exact changeRecord_attention _ _ s

theorem takeOffer_links (c : Code) (s : State) : (takeOffer c s).1.links = s.links := by
  unfold takeOffer
  split
  · rfl
  · split
    · rfl
    · unfold fire
      dsimp only
      split <;> rfl

/-- What an event of the table keeps of the slots and of the links' attention. -/
theorem table_event_rests {e : Ev} (he : e.restarting) (hp : e.part = .table) (s : State) :
    SlotsRest s.slots (handle e s).1.slots ∧ AttentionStays s (handle e s).1 := by
  cases e with
  | ctRaise r => exact ⟨takeRaise_slotsRest r s, takeRaise_attention r s⟩
  | ctPresent r =>
    simp only [handle, takePresent]
    split
    · exact ⟨takeRaise_slotsRest r s, takeRaise_attention r s⟩
    · split
      · exact ⟨.refl _, .refl s⟩
      · exact ⟨takeRaise_slotsRest r s, takeRaise_attention r s⟩
  | ctAbsent c =>
    refine ⟨slotsRest_of_eq ?_, takeAbsent_attention c s⟩
    simp only [handle, takeAbsent]
    split
    · rfl
    · split
      · exact changeRecord_slots _ _ s
      · rfl
  | ctEscalateStep c =>
    refine ⟨slotsRest_of_eq ?_, takeEscalation_attention c _ _ s⟩
    simp only [handle, takeEscalation]
    split
    · rfl
    · split
      · rfl
      · exact changeRecord_slots _ _ s
  | ruOffer c => exact ⟨takeOffer_slotsRest he s, attentionStays_of_eq (takeOffer_links c s)⟩
  | ctRefresh _ _ | ctEscalateTo _ _ _ | ctHoldoffEnd _ | ruAutoRetire _ | ruBoostEnd _ => exact nomatch he
  | _ => exact nomatch hp

/-! ## The whole part -/

theorem Ev.restarting.inner {e : Ev} (he : e.restarting) : e.inner := by
  cases e with
  | ctRaise _ | ctPresent _ | ruOffer _ | euLane _ _ | lmShare _ _ | lmDemand _ => rfl
  | ctAbsent _ | ctEscalateStep _ | euLimits _ | lmExcluded _ _ | lmSupply _ | lmPump _ => rfl
  | whPark _ _ | whWatch _ | whUnwind _ | ymLimits _ | ymSupply _ | ymMove _ _ | ymUnwind _ _ => rfl
  | cuBoost _ | cuReaction _ | cuCommanded _ | cuLaneDemand _ | cuSupply _ => rfl
  | _ => exact nomatch he

theorem Ev.restarting.part {e : Ev} (he : e.restarting) :
    e.part ≠ .links ∧ e.part ≠ .settings ∧ e.part ≠ .everything := by
  refine ⟨?_, ?_, he.inner.part⟩
  all_goals
    cases e with
    | lkKey _ | lkSilence | lkStart _ _ _ _ | lkOpen _ _ _ _ | lkByte _ _ _ => exact nomatch he
    | lkStop _ | lkPoisonStop _ => exact nomatch he
    | lkRead _ _ | lkSend _ _ | lkReset _ | lkAttention _ | lkAttentionSlot _ _ | lkPayloadDone _ => exact nomatch he
    | lkPayloadCut _ | lkRequest _ _ | lkBegin _ _ | lineAssert => exact nomatch he
    | _ => nofun

/-- What the part keeps through the events that a warm reset sets off, from the state `zero` in which they are handed on;
`old` is the yaw motion unit as it stood before the reset. -/
structure State.Rests (z zero : State) (old : Yaw) : Prop where
  sites : ∀ x : Site, x.stands zero z
  sound : TableSound z.table
  table : TableUpheld zero.uptime zero.table z.table
  slots : SlotsRest zero.slots z.slots
  eu : z.eu.Resting
  lm : z.lm.Resting
  ym : z.ym.Resting old
  cu : z.cu.Resting
  units : ∀ l : Link, SameUnit l zero z
  attention : AttentionStays zero z

/-- The table's own note on a loop is of a folded failure alone (R161). -/
theorem touched_resting_cooling {p : Part} {s t : State} (h : touched p s t) (hcu : p ≠ .cu) (hset : p ≠ .settings)
    (he : p ≠ .everything) (hs : s.cu.Resting) : t.cu.Resting := by
  cases p with
  | table =>
    have happart := congrArg State.cu h
    have hloop (l : Fin 3) : (t.cu.loops.get l).pump = (s.cu.loops.get l).pump ∧
        (t.cu.loops.get l).duty = (s.cu.loops.get l).duty := by
      match l with
      | 0 => exact ⟨congrArg (fun u => u.loops.x0.pump) happart, congrArg (fun u => u.loops.x0.duty) happart⟩
      | 1 => exact ⟨congrArg (fun u => u.loops.x1.pump) happart, congrArg (fun u => u.loops.x1.duty) happart⟩
      | 2 => exact ⟨congrArg (fun u => u.loops.x2.pump) happart, congrArg (fun u => u.loops.x2.duty) happart⟩
    intro l
    rw [(hloop l).1, (hloop l).2]
    exact hs l
  | cu => exact absurd rfl hcu
  | settings => exact absurd rfl hset
  | everything => exact absurd rfl he
  | _ =>
    simp only [touched] at h
    rw [h]
    exact hs

/-- An event outside the table asks for no attention. -/
theorem touched_attention {p : Part} {s t : State} (h : touched p s t) (htable : p ≠ .table) (hl : p ≠ .links)
    (he : p ≠ .everything) : AttentionStays s t := by
  cases p with
  | table => exact absurd rfl htable
  | links => exact absurd rfl hl
  | everything => exact absurd rfl he
  | _ =>
    simp only [touched] at h
    rw [h]
    exact .refl s

/-- Every event that a warm reset sets off leaves the part at rest. -/
theorem handle_rests {old : Yaw} {zero z : State} {e : Ev} (he : e.restarting) (h : z.Rests zero old) :
    (handle e z).1.Rests zero old := by
  obtain ⟨hlinks, hsettings, heverything⟩ := he.part
  have htouches := handle_touches e z
  have huptime : z.uptime = zero.uptime := h.sites .uptime
  have hrest : SlotsRest z.slots (handle e z).1.slots ∧ AttentionStays z (handle e z).1 := by
    by_cases hp : e.part = .table
    · exact table_event_rests he hp z
    · exact ⟨slotsRest_of_eq (touched_table htouches hp heverything).2.2,
        touched_attention htouches hp hlinks heverything⟩
  refine ⟨fun x => Site.stands_trans (h.sites x) (event_stands heverything z (he.inner.moves x)),
    handle_keeps_table h.sound he.sound,
    h.table.trans (huptime ▸ handle_upheld he h.sound), h.slots.trans hrest.1, ?_, ?_, ?_, ?_,
    fun l => (h.units l).trans (touched_sameUnit htouches hlinks heverything l), h.attention.trans hrest.2⟩
  · by_cases hp : e.part = .eu
    · exact (handle_resting_envelope he hp h.eu).1
    · exact touched_eu htouches hp heverything ▸ h.eu
  · by_cases hp : e.part = .lm
    · exact handle_resting_lanes he hp h.lm
    · exact touched_lm htouches hp heverything ▸ h.lm
  · by_cases hp : e.part = .ym
    · exact handle_resting_yaw he hp h.ym
    · exact touched_ym htouches hp heverything hsettings ▸ h.ym
  · by_cases hp : e.part = .cu
    · exact handle_resting_cooling he hp h.cu
    · exact touched_resting_cooling htouches hp hsettings heverything h.cu

theorem rests_left {old : Yaw} {zero z : State} (h : z.Rests zero old) (evs : List Ev) :
    ({ z with unsettled := evs } : State).Rests zero old :=
  ⟨fun x => Site.stands_trans (h.sites x) (unsettled_stands z evs), h.sound, h.table, h.slots, h.eu, h.lm, h.ym, h.cu,
    h.units, h.attention⟩

/-- What a warm reset hands on leaves the part at rest. -/
theorem settle_rests {old : Yaw} {zero z : State} {evs : List Ev} (hevs : AllRestarting evs) (h : z.Rests zero old) (n : Nat) :
    (settle n evs z).Rests zero old :=
  settle_keeps (P := fun w => w.Rests zero old) (Q := Ev.restarting) (fun _ left hz _ => rests_left hz left)
    (fun _ _ he hz => ⟨handle_rests he hz, handle_restarting he hz.eu⟩) n evs z hevs h

end Sys2Proof.Machine
end

section
/-! A warm reset, by the release of the reset line or by a request, from the command to the part at rest (R30, R31, R58,
R85, R110, R111, R153, R172, R180, R183, R197, R198, R202). -/

namespace Sys2Proof.Machine

/-! ## The state right after a warm reset -/

section
variable (d : Nat) (straps : Fin 4) (s : State)

theorem yaw_afterReset_resting (y : Yaw) : y.afterReset.Resting y :=
  ⟨rfl, rfl, rfl, rfl, rfl, rfl, rfl, fun _ => Eight.get_map _ _ _⟩

/-- Right after a warm reset the part is at rest, whatever the links' units hold. -/
theorem warmStart_rests (hs : TableSound s.table) {zero : State}
    (hzero : zero = { (takeWarmStart d straps s).1 with links := zero.links }) : zero.Rests zero s.ym := by
  refine ⟨fun x => Site.stands_of_eq rfl, ?_, .refl _ _, .refl _, ?_, ?_, ?_, ?_, fun l => .refl l zero, .refl zero⟩
  all_goals rw [hzero]
  · exact takeWarmStart_tableSound hs d straps
  · change (takeWarmStart d straps s).1.eu.Resting
    rw [takeWarmStart_eu]
    exact ⟨rfl, rfl, rfl, rfl, rfl⟩
  · change (takeWarmStart d straps s).1.lm.Resting
    rw [takeWarmStart_lm]
    exact initial_lanes_resting
  · exact (warmStart_yaw d straps s).resting (yaw_afterReset_resting s.ym)
  · change (takeWarmStart d straps s).1.cu.Resting
    rw [takeWarmStart_cu]
    exact cooling_afterReset_resting _

theorem askRetained_attention (kept : List Record) (s : State) : AttentionStays s (askRetained kept s) := by
  unfold askRetained
  induction kept generalizing s with
  | nil => exact .refl s
  | cons q rest ih => exact (ask_attention s none q).trans (ih _)

/-- Right after a warm reset a link unit is fresh apart from its attention, which a request alone can have moved. -/
theorem warmStart_unit (l : Link) :
    ((takeWarmStart d straps s).1.links.get l).apartFromAttention = (s.links.get l).afterReset.apartFromAttention ∧
    ((s.links.get l).attention = true → ((takeWarmStart d straps s).1.links.get l).attention = true) := by
  simp only [takeWarmStart, State.warmValues]
  generalize hz : ({ s with
    straps := straps, address := strapAddress straps, table := retention s.uptime s.table
    limits := resolve (retention s.uptime s.table), slots := discardPending s.slots, eu := s.eu.afterReset
    lm := LaneManager.initial, wh := s.wh.afterReset, ym := s.ym.afterReset
    cu := Cooling.afterReset (retention s.uptime s.table)
    links := ⟨s.links.main.afterReset, s.links.service.afterReset⟩, silence := silenceStart s.settings
    silenceView := false, keyView := false, keyOwed := true } : State) = z
  have hunit : z.links.get l = (s.links.get l).afterReset := by
    rw [← hz]
    cases l <;> rfl
  have hsame : SameUnit l z (askRetained (retention s.uptime s.table) z) :=
    touched_sameUnit (p := .table) (askRetained_apart _ z) nofun nofun l
  refine ⟨?_, fun ha => askRetained_attention _ z l ?_⟩
  · rw [← hunit]
    exact hsame
  · rw [hunit]
    exact ha

end

/-! ## The part at rest after a warm reset -/

/-- What a warm reset from the state s has left and kept, apart from the links' units. -/
structure State.RestartedFrom (t s : State) (pins : Fin 4) : Prop where
  straps : t.straps = pins
  address : t.address = 0x34 + pins.val
  uptime : t.uptime = s.uptime
  settings : t.settings = s.settings
  supply : t.sm = s.sm
  twist : t.wh.twist = s.wh.twist
  refHeading : t.wh.refHeading = s.wh.refHeading
  filtered : t.wh.filtered = 0
  speed : t.wh.speed = 0
  eu : t.eu.Resting
  lm : t.lm.Resting
  ym : t.ym.Resting s.ym
  cu : t.cu.Resting
  kept : ∀ q ∈ s.table, keptAtReset q = true → ∃ r ∈ t.table, r.Upholds (retained s.uptime q)
  fresh : ∀ r ∈ t.table, r.origin ≠ .main ∧ r.origin ≠ .service ∧
    ((r.cls = .notice ∨ r.cls = .limit) → r.firstRaised = s.uptime)
  slots : ∀ (k : Fin 8) (d : Code), (s.slots.get k).bound = some d → 4 ≤ d.group.val →
    t.slots.get k = { s.slots.get k with pending := none }

theorem restartedFrom_of_rests {s zero t : State} {d : Nat} {straps : Fin 4}
    (hzero : zero = { (takeWarmStart d straps s).1 with links := zero.links }) (h : t.Rests zero s.ym) :
    t.RestartedFrom s straps := by
  have hstart := warmStart_eq d straps s
  have hfield {α : Type} (f : State → α) (hf : ∀ z links, f { z with links := links } = f z) :
      f zero = f (takeWarmStart d straps s).1 := by
    rw [hzero]
    exact hf _ _
  have hwind : zero.wh = s.wh.afterReset := (hfield (fun z => z.wh) fun _ _ => rfl).trans (congrArg (fun z => z.wh) hstart)
  have htable : zero.table = retention s.uptime s.table :=
    (hfield (fun z => z.table) fun _ _ => rfl).trans (congrArg (fun z => z.table) hstart)
  have hslots : zero.slots = discardPending s.slots :=
    (hfield (fun z => z.slots) fun _ _ => rfl).trans (takeWarmStart_slots d straps s)
  have huptime : zero.uptime = s.uptime :=
    (hfield (fun z => z.uptime) fun _ _ => rfl).trans (congrArg (fun z => z.uptime) hstart)
  have hkeeps {x : Site} (hx : x.reset = false) (hl : ∀ z links, x.stands z { z with links := links }) : x.stands s t := by
    refine Site.stands_trans (warmStart_stands hx d straps s) (Site.stands_trans ?_ (h.sites x))
    rw [hzero]
    exact hl _ _
  refine ⟨(h.sites .straps).trans ?_, (h.sites .address).trans ?_, hkeeps (x := .uptime) rfl fun _ _ => rfl,
    hkeeps (x := .settings) rfl fun _ _ => rfl, hkeeps (x := .supply) rfl fun _ _ => rfl,
    hkeeps (x := .twist) rfl fun _ _ => rfl, hkeeps (x := .refHeading) rfl fun _ _ => rfl, (h.sites .filtered).trans ?_,
    (h.sites .speed).trans ?_, h.eu, h.lm, h.ym, h.cu, fun q hq hkept => ?kept, fun r hr => ?fresh, fun k c hb hc => ?slots⟩
  · exact (hfield (fun z => z.straps) fun _ _ => rfl).trans (congrArg (fun z => z.straps) hstart)
  · exact (hfield (fun z => z.address) fun _ _ => rfl).trans (congrArg (fun z => z.address) hstart)
  · rw [hwind]
    rfl
  · rw [hwind]
    rfl
  case kept =>
    refine h.table.stays _ (htable ▸ mem_retention.mpr ⟨q, hq, hkept, rfl⟩) ?_
    obtain ⟨hcls, -⟩ := (keptAtReset_iff q).mp hkept
    rcases hcls with hc | hc <;> simp [retained, hc]
  case fresh =>
    rcases h.table.fresh r hr with ⟨q, hq, hrq⟩ | ⟨horigin, hfirst⟩
    · rw [htable] at hq
      obtain ⟨⟨hnotice, hlimit⟩, hmain, hservice⟩ := retained_upholds_cls hq hrq
      exact ⟨hmain, hservice, fun hcls => (hcls.elim hnotice hlimit).elim⟩
    · rw [horigin]
      exact ⟨nofun, nofun, fun _ => hfirst.trans huptime⟩
  case slots =>
    have hslot : zero.slots.get k = { s.slots.get k with pending := none } := by
      rw [hslots]
      exact Eight.get_map _ _ _
    rw [h.slots k c (by rw [hslot]; exact hb) hc (by rw [hslot]), hslot]

/-- What a warm reset leaves does not depend on the links, the silence and the reset line. -/
theorem State.RestartedFrom.of_links {b s t : State} {pins : Fin 4} (h : t.RestartedFrom b pins)
    (hb : b = { s with
      links := b.links, silence := b.silence, silenceView := b.silenceView, lineAsserted := b.lineAsserted }) :
    t.RestartedFrom s pins := by
  rw [hb] at h
  exact ⟨h.straps, h.address, h.uptime, h.settings, h.supply, h.twist, h.refHeading, h.filtered, h.speed, h.eu, h.lm, h.ym,
    h.cu, h.kept, h.fresh, h.slots⟩

/-- A link's unit is fresh with the response it holds, and attention that was pending in the state s is pending. -/
structure State.FreshUnit (t s : State) (l : Link) (response : Option Response) : Prop where
  received : (t.links.get l).received = []
  payload : (t.links.get l).payload = none
  unreported : (t.links.get l).unreported = true
  attention : (s.links.get l).attention = true → (t.links.get l).attention = true
  response : (t.links.get l).response = response

/-- A link unit after a warm reset, as what the reset hands on leaves it (R183, R198). -/
theorem State.Rests.freshUnit {s zero t : State} {old : Yaw} (h : t.Rests zero old) {d : Nat} {straps : Fin 4} {l : Link}
    {response : Option Response}
    (hzero : zero.links.get l = { (takeWarmStart d straps s).1.links.get l with response := response }) :
    t.FreshUnit s l response := by
  obtain ⟨hfresh, hattention⟩ := warmStart_unit d straps s l
  have hunit : (t.links.get l).apartFromAttention =
      { (s.links.get l).afterReset.apartFromAttention with response := response } := by
    rw [← hfresh, h.units l, hzero]
    rfl
  refine ⟨congrArg (fun u => u.received) hunit, congrArg (fun u => u.payload) hunit, congrArg (fun u => u.unreported) hunit,
    fun ha => h.attention l ?_, congrArg (fun u => u.response) hunit⟩
  rw [hzero]
  exact hattention ha

/-! ## The two commands (R31, R197) -/

/-- A WARM_RESET request on a link that is ready: the reset takes place at once, and DONE is stored with the new address
before what the reset hands on is taken (R197, log 39). -/
theorem run_warmReset {s : State} {l : Link} (h : s.ready l) (straps : Fin 4) :
    run [.lkRequest l (.warmReset straps)] s =
      .next (settle (leftAfter 3) (takeWarmStart (restartDetail l) straps (s.begun l)).2
        (storeResponse l (s.checkMode l) ⟨.done, []⟩ (takeWarmStart (restartDetail l) straps (s.begun l)).1)) := by
  obtain ⟨ht, hf, hu, hm⟩ := h
  have hrequest : handle (.lkRequest l (.warmReset straps)) s =
      (s.setLink l { (s.links.get l).ends with ackSlot := .ack, driven := [] }, [.lkBegin l (.warmReset straps)]) := by
    simp [handle, takeRequest, ht, hf]
  have hbegin : handle (.lkBegin l (.warmReset straps))
      (s.setLink l { (s.links.get l).ends with ackSlot := .ack, driven := [] }) =
      (s.begun l, [.lkServe l (.warmReset straps)]) := by
    cases l with
    | service => rfl
    | main =>
      have hsilence := hm rfl
      simp [handle, takeBegin, State.setLink, hsilence, State.begun, LinkUnit.ends]
  rw [run_one hu, hrequest, show leftAfter 1 = leftAfter 2 + 1 from rfl, settle_one, hbegin,
    show leftAfter 2 = leftAfter 3 + 1 from rfl, settle_one]
  simp only [handle, takeServe, begun_checkMode]

theorem release_restarts {s : State} (hsound : TableSound s.table) (hu : s.unsettled = []) (straps : Fin 4) :
    ∃ t, exec (.resetLineRelease straps) s = .next t ∧ t.RestartedFrom s straps ∧ ∀ l, t.FreshUnit s l none := by
  let b : State := { s with lineAsserted := false }
  let zero : State := (takeWarmStart 1 straps b).1
  have hrests := settle_rests (takeWarmStart_restarting 1 straps b) (warmStart_rests 1 straps b hsound (zero := zero) rfl)
    (leftAfter 1)
  have hstart := restartedFrom_of_rests (s := b) (zero := zero) (d := 1) (straps := straps) rfl hrests
  refine ⟨_, (exec_run hu _).trans (run_one hu _), hstart.of_links rfl, fun l => ?_⟩
  have hfresh : (zero.links.get l).response = none := congrArg (fun u => u.response) (warmStart_unit 1 straps b l).1
  have hunit := hrests.freshUnit (s := b) (d := 1) (straps := straps) (l := l) (response := none) (by rw [← hfresh])
  exact ⟨hunit.received, hunit.payload, hunit.unreported, hunit.attention, hunit.response⟩

theorem request_restarts {s : State} (hsound : TableSound s.table) {k : Link} (hready : s.ready k) (straps : Fin 4) :
    ∃ t, exec (.warmReset k straps) s = .next t ∧ t.RestartedFrom s straps ∧ ∀ l, t.FreshUnit s l
      (if k = l then some (formResponse (0x34 + straps.val) (s.checkMode l) .done []) else none) := by
  have ⟨_, _, hu, _⟩ := hready
  let b : State := s.begun k
  let w : State := (takeWarmStart (restartDetail k) straps b).1
  let zero : State := storeResponse k (s.checkMode k) ⟨.done, []⟩ w
  have hbegun : TableSound b.table := (begun_table s k).symm ▸ hsound
  have hrests := settle_rests (takeWarmStart_restarting (restartDetail k) straps b)
    (warmStart_rests (restartDetail k) straps b hbegun (zero := zero) rfl) (leftAfter 3)
  have hstart := restartedFrom_of_rests (s := b) (zero := zero) (d := restartDetail k) (straps := straps) rfl hrests
  refine ⟨_, (exec_run hu _).trans (run_warmReset hready straps), hstart.of_links (by cases k <;> rfl), fun l => ?_⟩
  have haddress : w.address = 0x34 + straps.val :=
    congrArg (fun z => z.address) (warmStart_eq (restartDetail k) straps b)
  have hfresh : (w.links.get l).response = none :=
    congrArg (fun u => u.response) (warmStart_unit (restartDetail k) straps b l).1
  have hattention : (b.links.get l).attention = (s.links.get l).attention := by
    rw [begun_links, PerLink.get_set]
    split
    next hk => rw [hk]
    next => rfl
  have hzero : zero.links.get l = { w.links.get l with
      response := if k = l then some (formResponse (0x34 + straps.val) (s.checkMode l) .done []) else none } := by
    have hget := PerLink.get_set w.links k l
      { w.links.get k with response := some (formResponse w.address (s.checkMode k) .done []) }
    by_cases hk : k = l
    · subst hk
      rw [if_pos rfl, ← haddress]
      exact hget.trans (if_pos rfl)
    · rw [if_neg hk, ← hfresh]
      exact hget.trans (if_neg hk)
  have hunit := hrests.freshUnit hzero
  exact ⟨hunit.received, hunit.payload, hunit.unreported, fun ha => hunit.attention (hattention.trans ha), hunit.response⟩

/-- Settles O25: the state right after the reset is at rest, and what the reset hands on leaves it there. -/
theorem warmResetStopsThePlant : Obligations.WarmResetStopsThePlant := by
  intro c s straps hsound hcommand
  suffices hrun : ∃ t, exec c s = .next t ∧ t.RestartedFrom s straps ∧ ∀ l, t.FreshUnit s l
      (if c = .warmReset l straps then some (formResponse (0x34 + straps.val) (s.checkMode l) .done []) else none) by
    obtain ⟨t, hexec, h, hunits⟩ := hrun
    refine ⟨t, hexec, h.straps, h.address, h.uptime, h.settings, h.supply,
      ⟨h.eu.demand, h.eu.commanded, h.eu.ramp, h.eu.running⟩, fun n => ?lane, ⟨h.twist, h.refHeading, h.filtered, h.speed⟩,
      ⟨h.ym.brake, h.ym.brakeTimer, h.ym.run, h.ym.settle, h.ym.stall, h.ym.heading, h.ym.twist⟩, fun n => ?drive, h.cu,
      fun l => ?unit, fun q hq hcls horigin => ?kept, h.fresh, h.slots⟩
    case lane =>
      have hlane := h.lm.lanes n
      exact ⟨hlane.state, hlane.report, hlane.startFlag, hlane.timer, hlane.share, hlane.silence⟩
    case drive =>
      rw [h.ym.drives n]
      exact ⟨rfl, rfl⟩
    case unit =>
      have hunit := hunits l
      exact ⟨hunit.received, hunit.payload, hunit.unreported, hunit.attention, hunit.response⟩
    case kept =>
      obtain ⟨r, hr, hup⟩ := h.kept q hq ((keptAtReset_iff q).mpr ⟨hcls, horigin⟩)
      exact ⟨r, hr, hup.slot, hup.code, hup.origin, hup.firstRaised, hup.active rfl, hup.unread rfl, hup.cls,
        hup.occurrences, hup.cap, hup.lanes, hup.yaw, hup.boost⟩
  rcases hcommand with ⟨rfl, hu⟩ | ⟨k, rfl, hready⟩
  · obtain ⟨t, hexec, h, hunits⟩ := release_restarts hsound hu straps
    refine ⟨t, hexec, h, fun l => ?_⟩
    rw [if_neg nofun]
    exact hunits l
  · obtain ⟨t, hexec, h, hunits⟩ := request_restarts hsound hready straps
    refine ⟨t, hexec, h, fun l => ?_⟩
    simpa only [Instr.warmReset.injEq, and_true] using hunits l

end Sys2Proof.Machine
end
